-- ==== Sys2Proof/Word.lean ====
section
/-!
DEFINITION. The word types of the machine and their plainest arithmetic (00 R2, R3).
-/

namespace Sys2Proof

/-- A doubleword: a scalar register, an address, a control register (02 R41, R58). -/
abbrev Word := BitVec 64

/-- One byte of memory. -/
abbrev Byte := BitVec 8

/-- A generation tag (20 R341). -/
abbrev Gen := BitVec 16

/-- The integer that the low `w` bits of `x` stand for in two's complement: `sext` of R3, on integers. -/
def sextInt (w : Nat) (x : Nat) : Int :=
  if w = 0 then 0
  else
    let y := x % 2 ^ w
    if y < 2 ^ (w - 1) then (y : Int) else (y : Int) - (2 ^ w : Nat)

/-- The low `w` bits of an integer, as a natural number: `trunc` of R3. -/
def truncNat (w : Nat) (x : Int) : Nat := (x % ((2 ^ w : Nat) : Int)).toNat

/-- An integer clamped to a range (R78). -/
def clampInt (lo hi x : Int) : Int := if x < lo then lo else if hi < x then hi else x

/-- The word that holds an integer, wrapped to 64 bits. -/
def wordOfInt (x : Int) : Word := BitVec.ofInt 64 x

/-- Little-endian bytes of a number, the lowest first (R2). -/
def bytesOf : Nat → Nat → List Byte
  | 0, _ => []
  | n + 1, x => BitVec.ofNat 8 x :: bytesOf n (x / 256)

/-- The number that little-endian bytes form (R2). -/
def numOf : List Byte → Nat
  | [] => 0
  | b :: bs => b.toNat + 256 * numOf bs

/-- Bits [hi:lo] of a number (R2). -/
def bitsOf (x hi lo : Nat) : Nat := x / 2 ^ lo % 2 ^ (hi + 1 - lo)

/-- Bit `i` of a number. -/
def bitOf (x i : Nat) : Bool := x.testBit i

end Sys2Proof
end

