-- ==== Sys2Proof/Machine/Float.lean ====
section
/-!
DEFINITION. Floating-point arithmetic (03 sections 3.2 to 3.6): exact values as dyadic numbers, one rounding by R72 and R73, the
flags of R74, conversions, and the special functions of R79 rounded correctly from an enclosing interval.
-/

namespace Sys2Proof.Machine

/-- The floating-point formats (Table 3.2). -/
inductive FFmt where
  | f32
  | f16
  | w16
  | f8a
  | f8b
  deriving DecidableEq, Repr

/-- Fraction bits. -/
def FFmt.fb : FFmt → Nat
  | .f32 => 23
  | .f16 => 10
  | .w16 => 7
  | .f8a => 3
  | .f8b => 2

/-- Exponent bits. -/
def FFmt.eb : FFmt → Nat
  | .f32 => 8
  | .f16 => 5
  | .w16 => 8
  | .f8a => 4
  | .f8b => 5

/-- The bias. -/
def FFmt.bias (f : FFmt) : Nat := 2 ^ (f.eb - 1) - 1

/-- Width in bits. -/
def FFmt.width (f : FFmt) : Nat := 1 + f.eb + f.fb

/-- The sign bit set, as a number. -/
def FFmt.signBit (f : FFmt) : Nat := 2 ^ (f.eb + f.fb)

/-- The encoding of +infinity; in F8A, which has none, its canonical NaN (R73). -/
def FFmt.infBits : FFmt → Nat
  | .f8a => 0x7F
  | f => (2 ^ f.eb - 1) * 2 ^ f.fb

/-- The canonical NaN (Table 3.3). -/
def FFmt.nanBits : FFmt → Nat
  | .f8a => 0x7F
  | f => (2 ^ f.eb - 1) * 2 ^ f.fb + 2 ^ (f.fb - 1)

/-- The largest finite value's encoding (Table 3.3). -/
def FFmt.maxBits : FFmt → Nat
  | .f8a => 0x7E
  | f => (2 ^ f.eb - 1) * 2 ^ f.fb - 1

/-- What an encoding stands for: a NaN, an infinity, or `± m * 2^e`. -/
inductive FVal where
  | nan (signalling : Bool)
  | inf (neg : Bool)
  | fin (neg : Bool) (m : Nat) (e : Int)
  deriving DecidableEq, Repr

/-- The value of an encoding (R68, R69). -/
def FFmt.decode (f : FFmt) (x : Nat) : FVal :=
  let frac := x % 2 ^ f.fb
  let ex := x / 2 ^ f.fb % 2 ^ f.eb
  let neg := x.testBit (f.eb + f.fb)
  if f = .f8a ∧ ex = 15 ∧ frac = 7 then .nan false
  else if f ≠ .f8a ∧ ex = 2 ^ f.eb - 1 then (if frac = 0 then .inf neg else .nan (!frac.testBit (f.fb - 1)))
  else if ex = 0 then .fin neg frac (1 - (f.bias : Int) - f.fb)
  else .fin neg (2 ^ f.fb + frac) ((ex : Int) - f.bias - f.fb)

/-- The rounding modes (Table 3.4). -/
inductive RM where
  | rne
  | rmm
  | rtz
  | rup
  | rdn
  deriving DecidableEq, Repr

/-- The mode a code names; none for 5 to 7 (R59). -/
def RM.ofCode (c : BitVec 3) : Option RM :=
  match c.toNat with
  | 0 => some .rne
  | 1 => some .rmm
  | 2 => some .rtz
  | 3 => some .rup
  | 4 => some .rdn
  | _ => none

/-- The flags of FFLAGS (Table 2.6). -/
abbrev Flags := BitVec 5
def Flags.nv : Flags := 16#5
def Flags.dz : Flags := 8#5
def Flags.of : Flags := 4#5
def Flags.uf : Flags := 2#5
def Flags.nx : Flags := 1#5

/-- A result: its encoding and the flags it raises. -/
structure FRes where
  bits  : Nat
  flags : Flags
  deriving DecidableEq, Repr

/-- An encoding with a sign. -/
def FFmt.signed (f : FFmt) (neg : Bool) (x : Nat) : Nat := if neg then f.signBit + x else x

/-- Whether a magnitude cut at a quantum rounds up (Table 3.4): `n` is the cut value, `r` what was cut off, out of `d`. -/
def roundsUp (rm : RM) (neg : Bool) (n r d : Nat) (sticky : Bool) : Bool :=
  let gt := decide (d < 2 * r) || (decide (d = 2 * r) && sticky)
  let tie := decide (d = 2 * r) && !sticky
  let inexact := decide (r ≠ 0) || sticky
  match rm with
  | .rne => gt || (tie && n % 2 == 1)
  | .rmm => gt || tie
  | .rtz => false
  | .rup => !neg && inexact
  | .rdn => neg && inexact

/-- A magnitude `m * 2^e` (with `sticky`, more than that and less than `(m+1) * 2^e`) as a multiple of `2^q`, and whether that
is inexact. -/
def roundAt (rm : RM) (neg : Bool) (m : Nat) (e : Int) (sticky : Bool) (q : Int) : Nat × Bool :=
  if q ≤ e then
    let n := m * 2 ^ (e - q).toNat
    (if roundsUp rm neg n 0 1 sticky then n + 1 else n, sticky)
  else
    let d := 2 ^ (q - e).toNat
    let n := m / d
    let r := m % d
    (if roundsUp rm neg n r d sticky then n + 1 else n, decide (r ≠ 0) || sticky)

/-- Whether `a * 2^ea` is less than `b * 2^eb`. -/
def dyadLt (a : Nat) (ea : Int) (b : Nat) (eb : Int) : Bool :=
  if ea ≤ eb then decide (a < b * 2 ^ (eb - ea).toNat) else decide (a * 2 ^ (ea - eb).toNat < b)

/-- The overflow result (R73). -/
def FFmt.overflow (f : FFmt) (rm : RM) (neg : Bool) : Nat :=
  let toInf := match rm with
    | .rne | .rmm => true
    | .rtz => false
    | .rup => !neg
    | .rdn => neg
  if toInf then (if f = .f8a then f.nanBits else f.signed neg f.infBits) else f.signed neg f.maxBits

/-- A nonzero exact magnitude rounded once and packed (R72 to R74); with `sat` an overflow gives the largest finite value
(Table 3.5). -/
def FFmt.round (f : FFmt) (rm : RM) (neg : Bool) (m : Nat) (e : Int) (sticky sat : Bool) : FRes :=
  let emin : Int := 1 - (f.bias : Int)
  let qu : Int := e + (Nat.log2 m : Nat) - f.fb
  let q : Int := if qu < emin - f.fb then emin - f.fb else qu
  let (nu, _) := roundAt rm neg m e sticky qu
  let (n, inexact) := roundAt rm neg m e sticky q
  let (maxM, maxE) := match f.decode f.maxBits with
    | .fin _ m e => (m, e)
    | _ => (0, 0)
  if dyadLt maxM maxE nu qu then
    ⟨if sat then f.signed neg f.maxBits else f.overflow rm neg, Flags.of ||| Flags.nx⟩
  else
    let bits := ((q + f.fb + f.bias).toNat * 2 ^ f.fb + n) - 2 ^ f.fb
    let tiny := dyadLt nu qu 1 emin
    ⟨f.signed neg bits, if inexact then (if tiny then Flags.uf ||| Flags.nx else Flags.nx) else 0#5⟩

/-- A NaN result: the canonical NaN, NV where an operand signals (R69). -/
def FFmt.nanRes (f : FFmt) (signalling : Bool) : FRes := ⟨f.nanBits, if signalling then Flags.nv else 0#5⟩

/-- The result of an invalid operation. -/
def FFmt.invalid (f : FFmt) : FRes := ⟨f.nanBits, Flags.nv⟩

/-- Whether a value is a signalling NaN. -/
def FVal.sig : FVal → Bool
  | .nan s => s
  | _ => false

/-- Whether a value is a NaN. -/
def FVal.isNan : FVal → Bool
  | .nan _ => true
  | _ => false

/-- The sign of a value that is no NaN. -/
def FVal.neg : FVal → Bool
  | .nan _ => false
  | .inf n => n
  | .fin n _ _ => n

/-- The value with its sign inverted. -/
def FVal.negate : FVal → FVal
  | .nan s => .nan s
  | .inf n => .inf (!n)
  | .fin n m e => .fin (!n) m e

/-- A signed magnitude as an integer. -/
def signedNat (neg : Bool) (m : Nat) : Int := if neg then -(m : Int) else m

/-- The sum of two finite values, rounded once; an exact zero is +0, or -0 under RDN, unless both addends are zeros, or equal
zeros, of one sign (R70). -/
def FFmt.addFin (f : FFmt) (rm : RM) (na : Bool) (ma : Nat) (ea : Int) (nb : Bool) (mb : Nat) (eb : Int) : FRes :=
  let e : Int := if ea ≤ eb then ea else eb
  let sa : Nat := ma * 2 ^ (ea - e).toNat
  let sb : Nat := mb * 2 ^ (eb - e).toNat
  let x : Int := signedNat na sa + signedNat nb sb
  if x = 0 then
    ⟨f.signed (if na = nb then na else rm = .rdn) 0, 0#5⟩
  else f.round rm (x < 0) x.natAbs e false false

/-- a + b (Table 7.7). -/
def FFmt.addVal (f : FFmt) (rm : RM) (a b : FVal) : FRes :=
  match a, b with
  | .nan s, y => f.nanRes (s || y.sig)
  | x, .nan s => f.nanRes (x.sig || s)
  | .inf na, .inf nb => if na = nb then ⟨f.signed na f.infBits, 0#5⟩ else f.invalid
  | .inf n, .fin _ _ _ => ⟨f.signed n f.infBits, 0#5⟩
  | .fin _ _ _, .inf n => ⟨f.signed n f.infBits, 0#5⟩
  | .fin na ma ea, .fin nb mb eb => f.addFin rm na ma ea nb mb eb

/-- a + b on encodings. -/
def FFmt.add (f : FFmt) (rm : RM) (a b : Nat) : FRes := f.addVal rm (f.decode a) (f.decode b)

/-- a - b (Table 7.7). -/
def FFmt.sub (f : FFmt) (rm : RM) (a b : Nat) : FRes := f.addVal rm (f.decode a) (f.decode b).negate

/-- The exact difference of two values (R226). -/
def subVal : FVal → FVal → FVal
  | .nan s, y => .nan (s || y.sig)
  | x, .nan s => .nan (x.sig || s)
  | .inf na, .inf nb => if na = nb then .nan true else .inf na
  | .inf n, .fin _ _ _ => .inf n
  | .fin _ _ _, .inf n => .inf (!n)
  | .fin na ma ea, .fin nb mb eb =>
    let e : Int := if ea ≤ eb then ea else eb
    let x : Int := signedNat na (ma * 2 ^ (ea - e).toNat) - signedNat nb (mb * 2 ^ (eb - e).toNat)
    .fin (x < 0) x.natAbs e

/-- The exact product of two finite values. -/
def mulVal : FVal → FVal → FVal
  | .nan s, y => .nan (s || y.sig)
  | x, .nan s => .nan (x.sig || s)
  | .inf na, .inf nb => .inf (na != nb)
  | .inf na, .fin nb m _ => if m = 0 then .nan true else .inf (na != nb)
  | .fin na m _, .inf nb => if m = 0 then .nan true else .inf (na != nb)
  | .fin na ma ea, .fin nb mb eb => .fin (na != nb) (ma * mb) (ea + eb)

/-- a * b (Table 7.7). -/
def FFmt.mul (f : FFmt) (rm : RM) (a b : Nat) : FRes :=
  match mulVal (f.decode a) (f.decode b) with
  | .nan s => f.nanRes s
  | .inf n => ⟨f.signed n f.infBits, 0#5⟩
  | .fin n m e => if m = 0 then ⟨f.signed n 0, 0#5⟩ else f.round rm n m e false false

/-- a * b + d with one rounding, on values (Table 7.7): 0 times infinity is invalid even beside a quiet NaN. -/
def FFmt.fmaVal (f : FFmt) (rm : RM) (a b d : FVal) : FRes := f.addVal rm (mulVal a b) d

/-- The quotient of finite nonzero magnitudes, cut with a sticky remainder. -/
def FFmt.divFin (f : FFmt) (rm : RM) (neg : Bool) (ma : Nat) (ea : Int) (mb : Nat) (eb : Int) : FRes :=
  let q := ma * 2 ^ 64 / mb
  f.round rm neg q (ea - eb - 64) (decide (ma * 2 ^ 64 % mb ≠ 0)) false

/-- a / b on values (Table 7.7). -/
def FFmt.divVal (f : FFmt) (rm : RM) (a b : FVal) : FRes :=
  match a, b with
  | .nan s, y => f.nanRes (s || y.sig)
  | x, .nan s => f.nanRes (x.sig || s)
  | .inf _, .inf _ => f.invalid
  | .inf na, .fin nb _ _ => ⟨f.signed (na != nb) f.infBits, 0#5⟩
  | .fin na _ _, .inf nb => ⟨f.signed (na != nb) 0, 0#5⟩
  | .fin na ma ea, .fin nb mb eb =>
    if mb = 0 then (if ma = 0 then f.invalid else ⟨f.signed (na != nb) f.infBits, Flags.dz⟩)
    else if ma = 0 then ⟨f.signed (na != nb) 0, 0#5⟩
    else f.divFin rm (na != nb) ma ea mb eb

/-- a / b on encodings. -/
def FFmt.div (f : FFmt) (rm : RM) (a b : Nat) : FRes := f.divVal rm (f.decode a) (f.decode b)

/-- The order of two values that are no NaN: whether a < b, zeros equal. -/
def FVal.lt : FVal → FVal → Bool
  | .inf na, .inf nb => na && !nb
  | .inf na, .fin _ _ _ => na
  | .fin _ _ _, .inf nb => !nb
  | .fin na ma ea, .fin nb mb eb =>
    match na, nb with
    | false, false => dyadLt ma ea mb eb
    | true, true => dyadLt mb eb ma ea
    | true, false => decide (ma ≠ 0 ∨ mb ≠ 0)
    | false, true => false
  | _, _ => false

/-- minimumNumber or maximumNumber (Table 7.7): -0 ranks below +0, a NaN gives way to a number. -/
def FFmt.minMax (f : FFmt) (isMax : Bool) (a b : Nat) : FRes :=
  let x := f.decode a
  let y := f.decode b
  let flags := if x.sig || y.sig then Flags.nv else 0#5
  if x.isNan then ⟨if y.isNan then f.nanBits else b, flags⟩
  else if y.isNan then ⟨a, flags⟩
  else
    let aLess := x.lt y || (!y.lt x && x.neg && !y.neg)
    ⟨if aLess != isMax then a else b, flags⟩

/-- The class descriptor of `vfcls` (R171). -/
def FFmt.classify (f : FFmt) (a : Nat) : Nat :=
  let neg := if a.testBit (f.eb + f.fb) then 8 else 0
  match f.decode a with
  | .nan s => neg + (if s then 5 else 4)
  | .inf _ => neg + 3
  | .fin _ m e =>
    let kind := if m = 0 then 0 else if a / 2 ^ f.fb % 2 ^ f.eb = 0 then 1 else 2
    let int := decide (0 ≤ e) || m % 2 ^ (-e).toNat == 0
    neg + kind + (if int then 16 else 0)

/-! ## Comparison (R173) -/

/-- A float comparison by its code, with NV as R173 gives. -/
def FFmt.compare (f : FFmt) (cc : Nat) (a b : Nat) : Bool × Flags :=
  let x := f.decode a
  let y := f.decode b
  let anyNan := x.isNan || y.isNan
  let nv := if cc = 2 ∨ cc = 3 ∨ cc = 4 ∨ cc = 5 then anyNan else x.sig || y.sig
  let res := match cc with
    | 0 => !anyNan && !x.lt y && !y.lt x
    | 1 => anyNan || x.lt y || y.lt x
    | 2 => !anyNan && x.lt y
    | 3 => !anyNan && !y.lt x
    | 4 => !anyNan && y.lt x
    | 5 => !anyNan && !x.lt y
    | 6 => anyNan
    | _ => !anyNan
  (res, if nv then Flags.nv else 0#5)

/-! ## Square roots -/

/-- The integer square root, one bit at a time from bit `b - 1` down. -/
def isqrtFrom (n : Nat) : Nat → Nat → Nat
  | 0, acc => acc
  | b + 1, acc => isqrtFrom n b (if (acc + 2 ^ b) * (acc + 2 ^ b) ≤ n then acc + 2 ^ b else acc)

/-- The integer square root. -/
def isqrt (n : Nat) : Nat := isqrtFrom n (Nat.log2 n / 2 + 1) 0

/-- The square root of an encoding (Table 3.7). -/
def FFmt.sqrt (f : FFmt) (rm : RM) (a : Nat) : FRes :=
  match f.decode a with
  | .nan s => f.nanRes s
  | .inf n => if n then f.invalid else ⟨f.infBits, 0#5⟩
  | .fin n m e =>
    if m = 0 then ⟨f.signed n 0, 0#5⟩
    else if n then f.invalid
    else
      let (m, e) := if e % 2 = 0 then (m, e) else (2 * m, e - 1)
      let y := m * 2 ^ 64
      let r := isqrt y
      f.round rm false r (e / 2 - 32) (decide (r * r ≠ y)) false

/-- The reciprocal square root of an encoding (Table 3.7). -/
def FFmt.rsqrt (f : FFmt) (rm : RM) (a : Nat) : FRes :=
  match f.decode a with
  | .nan s => f.nanRes s
  | .inf n => if n then f.invalid else ⟨0, 0#5⟩
  | .fin n m e =>
    if m = 0 then ⟨f.signed n f.infBits, Flags.dz⟩
    else if n then f.invalid
    else
      let (m, e) := if e % 2 = 0 then (m, e) else (2 * m, e - 1)
      let r := isqrt (2 ^ 128 / m)
      f.round rm false r (-64 - e / 2) (decide (r * r * m ≠ 2 ^ 128)) false

/-- The reciprocal of an encoding (Table 3.7). -/
def FFmt.rcp (f : FFmt) (rm : RM) (a : Nat) : FRes := f.divVal rm (.fin false 1 0) (f.decode a)

/-! ## Exponential and logarithm in fixed point

Each function answers a lower bound of the exact value times `2^w`; the exact value exceeds it by less than `slack`. -/

/-- The bound on what the cut terms of a fixed-point series lose. -/
def slack : Nat := 4096

/-- 2 atanh(z) for `z = num / den` in [0, 1/3], times `2^w`: `terms` terms from the `k`-th on, `p` the power of z. -/
def atanhFrom (num den : Nat) : Nat → Nat → Nat → Nat
  | 0, _, _ => 0
  | terms + 1, k, p => p / (2 * k + 1) + atanhFrom num den terms (k + 1) (p * num / den * num / den)

/-- ln of `(den + num) / (den - num)`, times `2^w`. -/
def lnRatio (num den w : Nat) : Nat := 2 * atanhFrom num den (w / 3 + 2) 0 (num * 2 ^ w / den)

/-- ln 2, times `2^w`. -/
def ln2 (w : Nat) : Nat := lnRatio 1 3 w

/-- exp of `y / 2^w` in [0, 1), times `2^w`: `terms` terms from the `k`-th on, `p` the term. -/
def expFrom (y w : Nat) : Nat → Nat → Nat → Nat
  | 0, _, _ => 0
  | terms + 1, k, p => p + expFrom y w terms (k + 1) (p * y / 2 ^ w / (k + 1))

/-- exp of `y / 2^w` in [0, 1), times `2^w`. -/
def expFix (y w : Nat) : Nat := expFrom y w (w / 4 + 20) 0 (2 ^ w)

/-- A magnitude rounded once (R79): `bounds w` encloses it times `2^w`, `r` rounds `m * 2^e` with a sticky rest. The result stands at the first
of some widening precisions at which both bounds round to it; the last one is taken as it is (log entry 44). -/
def roundBetween (bounds : Nat → Nat × Nat) (r : Nat → Int → FRes) : List Nat → FRes
  | [] => r 0 0
  | w :: ws =>
    let b := bounds w
    let x := r b.1 (-(w : Int))
    if ws = [] then x else if r b.2 (-(w : Int)) = x then x else roundBetween bounds r ws

/-- The precisions tried. -/
def precisions : List Nat := [128, 256, 512, 1024]

/-- Bounds of 2^f, times `2^w`, for a fraction `f = p / 2^k` in (0, 1). -/
def exp2Frac (p k w : Nat) : Nat × Nat :=
  let v := expFix (p * ln2 w / 2 ^ k) w
  (v, v + slack)

/-- 2^x (Table 3.7), of an exact value. -/
def FFmt.exp2Val (f : FFmt) (rm : RM) (x : FVal) : FRes :=
  match x with
  | .nan s => f.nanRes s
  | .inf n => if n then ⟨0, 0#5⟩ else ⟨f.infBits, 0#5⟩
  | .fin n m e =>
    if m = 0 then f.round rm false 1 0 false false
    else if dyadLt 512 0 m e then f.round rm false 1 (if n then -1000 else 1000) true false
    else if dyadLt m e 1 (-40) then
      (if n then f.round rm false (2 ^ 36 - 1) (-36) true false else f.round rm false (2 ^ 36) (-36) true false)
    else
      let x := signedNat n m
      if 0 ≤ e then f.round rm false 1 (x * ((2 ^ e.toNat : Nat) : Int)) false false
      else
        let k := (-e).toNat
        let i := x / ((2 ^ k : Nat) : Int)
        let p := (x % ((2 ^ k : Nat) : Int)).toNat
        if p = 0 then f.round rm false 1 i false false
        else roundBetween (exp2Frac p k) (fun m e => f.round rm false m (e + i) true false) precisions

/-- 2^x on an encoding. -/
def FFmt.exp2 (f : FFmt) (rm : RM) (a : Nat) : FRes := f.exp2Val rm (f.decode a)

/-- Bounds of the magnitude, times `2^w`, of log2 of `m / 2^l` in (1, 2), plus an integer `i`. -/
def log2Frac (m l : Nat) (i : Int) (w : Nat) : Nat × Nat :=
  let a := lnRatio (m - 2 ^ l) (m + 2 ^ l) w
  let b := ln2 w
  let lo := i * ((2 ^ w : Nat) : Int) + (a * 2 ^ w / (b + slack) : Nat)
  let hi := i * ((2 ^ w : Nat) : Int) + ((a + slack) * 2 ^ w / b + 1 : Nat)
  if 0 ≤ lo then (lo.toNat, hi.toNat) else ((-hi).toNat, (-lo).toNat)

/-- log2 x (Table 3.7). -/
def FFmt.log2 (f : FFmt) (rm : RM) (a : Nat) : FRes :=
  match f.decode a with
  | .nan s => f.nanRes s
  | .inf n => if n then f.invalid else ⟨f.infBits, 0#5⟩
  | .fin n m e =>
    if m = 0 then ⟨f.signed true f.infBits, Flags.dz⟩
    else if n then f.invalid
    else
      let l := Nat.log2 m
      let i : Int := e + l
      if m = 2 ^ l then (if i = 0 then ⟨0, 0#5⟩ else f.round rm (i < 0) i.natAbs 0 false false)
      else roundBetween (log2Frac m l i) (fun m e => f.round rm (i < 0) m e true false) precisions

/-- e^(-t) for `t = m * 2^e > 0`, as bounds times `2^w`. -/
def expNeg (m : Nat) (e : Int) (w : Nat) : Nat × Nat :=
  let t := if 0 ≤ e then m * 2 ^ (e.toNat + w) else m * 2 ^ w / 2 ^ (-e).toNat
  let c := ln2 w
  let j := t / c + 1
  let y := j * c - t
  let v := expFix y w
  let lo := v / 2 ^ j
  (lo - slack, lo + slack)

/-- Bounds of 1 / (1 + e^-x), times `2^w`, for `x = ± m * 2^e`, `|x|` from 2^-40 to 256. -/
def sigmFix (neg : Bool) (m : Nat) (e : Int) (w : Nat) : Nat × Nat :=
  let (lo, hi) := expNeg m e w
  let one := 2 ^ w
  if neg then (lo * one / (one + lo), hi * one / (one + hi) + 1) else (one * one / (one + hi), one * one / (one + lo) + 1)

/-- 1 / (1 + e^-x) (Table 3.7). A result far below the smallest subnormal, or next to 1 or to a half, is given by its bound. -/
def FFmt.sigm (f : FFmt) (rm : RM) (a : Nat) : FRes :=
  match f.decode a with
  | .nan s => f.nanRes s
  | .inf n => if n then ⟨0, 0#5⟩ else f.round rm false 1 0 false false
  | .fin n m e =>
    if m = 0 then f.round rm false 1 (-1) false false
    else if dyadLt 256 0 m e then
      (if n then f.round rm false 1 (-1000) true false else f.round rm false (2 ^ 40 - 1) (-40) true false)
    else if dyadLt m e 1 (-40) then
      (if n then f.round rm false (2 ^ 40 - 1) (-41) true false else f.round rm false (2 ^ 40) (-41) true false)
    else roundBetween (sigmFix n m e) (fun m e => f.round rm false m e true false) [512, 1024]

/-- Bounds of tanh, times `2^w`, of `m * 2^e` from 2^-25 to 64. -/
def tanhFix (m : Nat) (e : Int) (w : Nat) : Nat × Nat :=
  let (lo, hi) := expNeg m (e + 1) w
  let one := 2 ^ w
  ((one - hi) * one / (one + hi), (one - lo) * one / (one + lo) + 1)

/-- tanh x (Table 3.7). A result next to x, or to 1, is given by its bound. -/
def FFmt.tanh (f : FFmt) (rm : RM) (a : Nat) : FRes :=
  match f.decode a with
  | .nan s => f.nanRes s
  | .inf n => f.round rm n 1 0 false false
  | .fin n m e =>
    if m = 0 then ⟨f.signed n 0, 0#5⟩
    else if dyadLt 64 0 m e then f.round rm n (2 ^ 40 - 1) (-40) true false
    else if dyadLt m e 1 (-25) then f.round rm n (m * 2 ^ 24 - 1) (e - 24) true false
    else roundBetween (tanhFix m e) (fun m e => f.round rm n m e true false) precisions

/-! ## Conversions (R75 to R77) -/

/-- An integer as a float. -/
def FFmt.ofInt (f : FFmt) (rm : RM) (sat : Bool) (x : Int) : FRes :=
  if x = 0 then ⟨0, 0#5⟩ else f.round rm (x < 0) x.natAbs 0 false sat

/-- A float in another float format (Table 3.5). -/
def FFmt.convert (src dst : FFmt) (rm : RM) (sat : Bool) (a : Nat) : FRes :=
  match src.decode a with
  | .nan s => if src = dst && !s then ⟨a % 2 ^ src.width, 0#5⟩ else dst.nanRes s
  | .inf n =>
    if dst = .f8a then
      (if sat then ⟨dst.signed n dst.maxBits, Flags.of ||| Flags.nx⟩ else ⟨dst.nanBits, Flags.nv⟩)
    else ⟨dst.signed n dst.infBits, 0#5⟩
  | .fin n m e =>
    if src = dst then ⟨a % 2 ^ src.width, 0#5⟩
    else if m = 0 then ⟨dst.signed n 0, 0#5⟩
    else dst.round rm n m e false sat

/-- A float as an integer between bounds (Table 3.5); `bad` is the indefinite value. -/
def FFmt.toInt (f : FFmt) (rm : RM) (sat : Bool) (lo hi bad : Int) (a : Nat) : Int × Flags :=
  match f.decode a with
  | .nan _ => (if sat then 0 else bad, Flags.nv)
  | .inf n => (if sat then (if n then lo else hi) else bad, Flags.nv)
  | .fin n m e =>
    let (r, inexact) := roundAt rm n m e false 0
    let x := signedNat n r
    if x < lo ∨ hi < x then (if sat then clampInt lo hi x else bad, Flags.nv)
    else (x, if inexact then Flags.nx else 0#5)

end Sys2Proof.Machine
end

