-- ==== Sys2Proof/Syntax.lean ====
section
/-!
DEFINITION. The instructions and events of the TL972: one constructor for each row of the table of operations and events.
Word rows take their fields from the encodings of 05 (Tables 5.1 to 5.12), each field at the width the format gives it.
Event rows have no word (95): their arguments are what the outside of the machine decides.
-/

namespace Sys2Proof

/-- The number of a scalar register, s0 to s31 (R114). -/
abbrev SReg := BitVec 5
/-- The number of a vector register, v0 to v63 (R114). -/
abbrev VReg := BitVec 6
/-- The number of a mask register, k0 to k15 (R114). -/
abbrev KReg := BitVec 4
/-- The number of a barrier register, b0 to b7 (Table 5.12). -/
abbrev BReg := BitVec 3

/-- The operands of a format V instruction with two sources (Table 5.1, R118). With `s` the second source is the scalar in
the low five bits of `vb`; for the reductions `s` selects the per-row form (R117). -/
structure VArgs where
  vd : VReg
  va : VReg
  vb : VReg
  s  : Bool
  ca : Bool
  cb : Bool
  km : BitVec 3
  deriving DecidableEq, Repr

/-- The operands of a format V instruction with one source (Table 5.6, note 1). -/
structure V1Args where
  vd : VReg
  va : VReg
  ca : Bool
  km : BitVec 3
  deriving DecidableEq, Repr

/-- The operands that every format M instruction has (Table 8.5). -/
structure MArgs where
  v  : VReg
  sb : SReg
  o  : Bool
  x  : Bool
  km : BitVec 3
  w  : BitVec 2
  deriving DecidableEq, Repr

/-- The operands of a vector atomic (Table 10.4). -/
structure AVArgs where
  v  : VReg
  sb : SReg
  vx : VReg
  o  : Bool
  sc : BitVec 3
  km : BitVec 2
  deriving DecidableEq, Repr

/-- The operands of a scalar atomic, but for its operation (Table 10.2). -/
structure AmoArgs where
  rd : SReg
  ra : SReg
  rb : SReg
  rl : Bool
  aq : Bool
  sc : BitVec 3
  d  : Bool
  deriving DecidableEq, Repr

/-- What a scrub read finds in a unit (R374, R381). -/
inductive ScrubFind where
  | clean
  | corrected
  | uncorrectable
  deriving DecidableEq, Repr

/-- What an access from outside the module does (R385, R387): a read of 2^w bytes, or a write of data that may arrive poisoned
(Table 22.2). -/
inductive OutsideOp where
  | read  (w : BitVec 2)
  | write (w : BitVec 2) (data : BitVec 64) (poisoned : Bool)
  deriving DecidableEq, Repr

/-- The bytes of an access from outside. -/
def OutsideOp.bytes : OutsideOp → Nat
  | .read w => 2 ^ w.toNat
  | .write w _ _ => 2 ^ w.toNat

/-- The operations of a PCI Express AtomicOp (R230); a compare-and-swap carries the value it compares with. -/
inductive CarriedOp where
  | add
  | swap
  | cas (expected : BitVec 64)
  deriving DecidableEq, Repr

/-- What a peer does to this module's memory (R387): a read or write, or an atomic on 8 bytes or 4 (R230). -/
inductive PeerOp where
  | plain (op : OutsideOp)
  | atomic (op : CarriedOp) (double : Bool) (data : BitVec 64)
  deriving DecidableEq, Repr

/-- The bytes of a peer's access. -/
def PeerOp.bytes : PeerOp → Nat
  | .plain op => op.bytes
  | .atomic _ double _ => if double then 8 else 4

/-- An access to a queue page (R385): its byte offset and what is done there. -/
structure PageAccess where
  off : BitVec 12
  op  : OutsideOp
  deriving DecidableEq, Repr

/-- A control register to write: its number, and the context where a register of any context is written (R391); none is the stepping
strand's. -/
structure CrTarget where
  cr      : BitVec 11
  context : Option (BitVec 12)
  deriving DecidableEq, Repr

/-- A tagged unit, as the debug path names it (R350, Table 20.1). `key` is four times the logical core plus the slot. -/
inductive TagUnit where
  | scalar  (key : Nat) (r : SReg)
  | barrier (key : Nat) (b : BReg)
  | mask    (key : Nat) (k : KReg) (g : BitVec 7)
  | granule (core : Nat) (offset : Nat)
  deriving DecidableEq, Repr

/-- The operations and events of the device, one constructor for each row of the opcode table. Those without arguments stand last: the
compiler builds a constructor with arguments only among the first 245. -/
inductive Instr where
  /-- R154 -/
  | trap (code : BitVec 11)
  /-- R154 -/
  | brk (code : BitVec 11)
  /-- R152 -/
  | crd (rd : SReg) (cr : BitVec 11)
  /-- R152 -/
  | cwr (ra : SReg) (cr : BitVec 11)
  /-- R152 -/
  | crs (rd ra : SReg) (cr : BitVec 11)
  /-- R152 -/
  | crc (rd ra : SReg) (cr : BitVec 11)
  /-- R193 -/
  | uloop (h : BitVec 2)
  /-- R159 -/
  | ecls (n : BitVec 3)
  /-- R137 -/
  | add (rd ra rb : SReg)
  /-- R137 -/
  | sub (rd ra rb : SReg)
  /-- R137 -/
  | and (rd ra rb : SReg)
  /-- R137 -/
  | or (rd ra rb : SReg)
  /-- R137 -/
  | xor (rd ra rb : SReg)
  /-- R137 -/
  | andn (rd ra rb : SReg)
  /-- R137 -/
  | sll (rd ra rb : SReg)
  /-- R137 -/
  | srl (rd ra rb : SReg)
  /-- R137 -/
  | sra (rd ra rb : SReg)
  /-- R137 -/
  | slt (rd ra rb : SReg)
  /-- R137 -/
  | sltu (rd ra rb : SReg)
  /-- R137 -/
  | min (rd ra rb : SReg)
  /-- R137 -/
  | max (rd ra rb : SReg)
  /-- R137 -/
  | minu (rd ra rb : SReg)
  /-- R137 -/
  | maxu (rd ra rb : SReg)
  /-- R137 -/
  | mul (rd ra rb : SReg)
  /-- R137 -/
  | mulh (rd ra rb : SReg)
  /-- R137 -/
  | mulhu (rd ra rb : SReg)
  /-- R137 -/
  | div (rd ra rb : SReg)
  /-- R137 -/
  | divu (rd ra rb : SReg)
  /-- R137 -/
  | rem (rd ra rb : SReg)
  /-- R137 -/
  | remu (rd ra rb : SReg)
  /-- R137 -/
  | clz (rd ra : SReg)
  /-- R137 -/
  | ctz (rd ra : SReg)
  /-- R137 -/
  | popc (rd ra : SReg)
  /-- R138 -/
  | addi (rd ra : SReg) (imm : BitVec 16)
  /-- R138 -/
  | andi (rd ra : SReg) (imm : BitVec 16)
  /-- R138 -/
  | ori (rd ra : SReg) (imm : BitVec 16)
  /-- R138 -/
  | xori (rd ra : SReg) (imm : BitVec 16)
  /-- R138 -/
  | slti (rd ra : SReg) (imm : BitVec 16)
  /-- R138 -/
  | sltiu (rd ra : SReg) (imm : BitVec 16)
  /-- R138 -/
  | slli (rd ra : SReg) (n : BitVec 6)
  /-- R138 -/
  | srli (rd ra : SReg) (n : BitVec 6)
  /-- R138 -/
  | srai (rd ra : SReg) (n : BitVec 6)
  /-- R139 -/
  | lins (rd : SReg) (slot : BitVec 2) (imm : BitVec 16)
  /-- R138 -/
  | addpc (rd : SReg) (imm : BitVec 16)
  /-- R140 -/
  | ld (rd ra : SReg) (w : BitVec 4) (off : BitVec 12)
  /-- R140 -/
  | st (rd ra : SReg) (w : BitVec 4) (off : BitVec 12)
  /-- R140 -/
  | ldx (rd ra rb : SReg) (w : BitVec 4)
  /-- R140 -/
  | stx (rd ra rb : SReg) (w : BitVec 4)
  /-- R231 -/
  | amo (f : AmoArgs) (op : BitVec 4)
  /-- R231 -/
  | cas (f : AmoArgs)
  /-- R239 -/
  | waddr (rd ra rb : SReg)
  /-- R240 -/
  | wake (rd ra rb : SReg)
  /-- R143 -/
  | beq (ra rb : SReg) (n : Bool) (off : BitVec 15)
  /-- R143 -/
  | bne (ra rb : SReg) (n : Bool) (off : BitVec 15)
  /-- R143 -/
  | blt (ra rb : SReg) (n : Bool) (off : BitVec 15)
  /-- R143 -/
  | bge (ra rb : SReg) (n : Bool) (off : BitVec 15)
  /-- R143 -/
  | bltu (ra rb : SReg) (n : Bool) (off : BitVec 15)
  /-- R143 -/
  | bgeu (ra rb : SReg) (n : Bool) (off : BitVec 15)
  /-- R144 -/
  | j (off : BitVec 26)
  /-- R144 -/
  | jal (off : BitVec 26)
  /-- R144 -/
  | jr (ra : SReg)
  /-- R144 -/
  | jalr (rd ra : SReg)
  /-- R147 -/
  | smine (rc : SReg) (pm : BitVec 4) (row n : Bool) (off : BitVec 15)
  /-- R194 -/
  | ubrk (k : KReg) (off : BitVec 15)
  /-- R197 -/
  | vbx (k : KReg) (c : BitVec 2) (n : Bool) (off : BitVec 15)
  /-- R149 -/
  | rpt (cnt : BitVec 4) (reps : BitVec 6) (sd sa sb : BitVec 4)
  /-- R160 -/
  | vshape (rd ra rb : SReg) (ew : BitVec 2)
  /-- R162 -/
  | vcfg (ra : SReg)
  /-- R163 -/
  | klen (kd : KReg) (ra : SReg) (ew : BitVec 2)
  /-- R169 -/
  | vadd (f : VArgs)
  /-- R169 -/
  | vsub (f : VArgs)
  /-- R169 -/
  | vrsub (f : VArgs)
  /-- R169 -/
  | vmul (f : VArgs)
  /-- R169 -/
  | vmulh (f : VArgs)
  /-- R169 -/
  | vmulhu (f : VArgs)
  /-- R169 -/
  | vdiv (f : VArgs)
  /-- R169 -/
  | vdivu (f : VArgs)
  /-- R169 -/
  | vrem (f : VArgs)
  /-- R169 -/
  | vremu (f : VArgs)
  /-- R169 -/
  | vmin (f : VArgs)
  /-- R169 -/
  | vmax (f : VArgs)
  /-- R169 -/
  | vminu (f : VArgs)
  /-- R169 -/
  | vmaxu (f : VArgs)
  /-- R169 -/
  | vand (f : VArgs)
  /-- R169 -/
  | vor (f : VArgs)
  /-- R169 -/
  | vxor (f : VArgs)
  /-- R169 -/
  | vandn (f : VArgs)
  /-- R169 -/
  | vsll (f : VArgs)
  /-- R169 -/
  | vsrl (f : VArgs)
  /-- R169 -/
  | vsra (f : VArgs)
  /-- R169 -/
  | vsadd (f : VArgs)
  /-- R169 -/
  | vssub (f : VArgs)
  /-- R169 -/
  | vsaddu (f : VArgs)
  /-- R169 -/
  | vssubu (f : VArgs)
  /-- R169 -/
  | vmerge (f : VArgs)
  /-- R169 -/
  | vclz (f : V1Args)
  /-- R169 -/
  | vpopc (f : V1Args)
  /-- R169 -/
  | vmacc (f : VArgs)
  /-- R169 -/
  | vnmsac (f : VArgs)
  /-- R169 -/
  | vabsd (f : VArgs)
  /-- R169 -/
  | vmulq (f : VArgs)
  /-- R172 -/
  | vcmp (kd : KReg) (cc : BitVec 4) (va vb : VReg) (s : Bool) (km : BitVec 3) (ty : BitVec 2)
  /-- R170 -/
  | vfadd (f : VArgs)
  /-- R170 -/
  | vfsub (f : VArgs)
  /-- R170 -/
  | vfmul (f : VArgs)
  /-- R170 -/
  | vfdiv (f : VArgs)
  /-- R170 -/
  | vfma (f : VArgs)
  /-- R170 -/
  | vfms (f : VArgs)
  /-- R170 -/
  | vfnma (f : VArgs)
  /-- R170 -/
  | vfmin (f : VArgs)
  /-- R170 -/
  | vfmax (f : VArgs)
  /-- R170 -/
  | vfsgnj (f : VArgs)
  /-- R170 -/
  | vfsgnjn (f : VArgs)
  /-- R170 -/
  | vfsgnjx (f : VArgs)
  /-- R79 -/
  | vfsqrt (f : V1Args)
  /-- R79 -/
  | vfrcp (f : V1Args)
  /-- R79 -/
  | vfrsq (f : V1Args)
  /-- R79 -/
  | vfexp2 (f : V1Args)
  /-- R79 -/
  | vflog2 (f : V1Args)
  /-- R79 -/
  | vfsigm (f : V1Args)
  /-- R79 -/
  | vftanh (f : V1Args)
  /-- R171 -/
  | vfcls (f : V1Args)
  /-- R174 -/
  | vcvt (vd va : VReg) (rm : BitVec 3) (sat : Bool) (km : BitVec 2) (dst src : BitVec 4)
  /-- R175 -/
  | vredsum (f : VArgs)
  /-- R175 -/
  | vredmax (f : VArgs)
  /-- R175 -/
  | vredmin (f : VArgs)
  /-- R175 -/
  | vredor (f : VArgs)
  /-- R89 -/
  | vfredsum (f : VArgs)
  /-- R175 -/
  | vfredmax (f : VArgs)
  /-- R175 -/
  | vfredmin (f : VArgs)
  /-- R175 -/
  | vredand (f : VArgs)
  /-- R182 -/
  | vmv (vd va : VReg) (k : KReg)
  /-- R182 -/
  | vmvs (vd : VReg) (ra : SReg) (k : KReg)
  /-- R183 -/
  | vmvx (rd : SReg) (va : VReg) (rb : SReg)
  /-- R182 -/
  | vslideup (vd va : VReg) (rb : SReg) (k : KReg)
  /-- R182 -/
  | vslidedn (vd va : VReg) (rb : SReg) (k : KReg)
  /-- R182 -/
  | vslide1up (vd va : VReg) (rb : SReg) (k : KReg)
  /-- R182 -/
  | vslide1dn (vd va : VReg) (rb : SReg) (k : KReg)
  /-- R182 -/
  | vgather (vd va vb : VReg) (k : KReg)
  /-- R182 -/
  | vcompress (vd va : VReg) (k : KReg)
  /-- R182 -/
  | vexpand (vd va : VReg) (k : KReg)
  /-- R182 -/
  | viota (vd : VReg) (ka k : KReg)
  /-- R182 -/
  | vid (vd : VReg) (k : KReg)
  /-- R182 -/
  | vtrans (vd va : VReg) (k : KReg)
  /-- R182 -/
  | vrowbc (vd va : VReg) (rb : SReg) (k : KReg)
  /-- R184 -/
  | kand (kd ka kb : KReg)
  /-- R184 -/
  | kor (kd ka kb : KReg)
  /-- R184 -/
  | kxor (kd ka kb : KReg)
  /-- R184 -/
  | kandn (kd ka kb : KReg)
  /-- R184 -/
  | knot (kd ka : KReg)
  /-- R184 -/
  | kmv (kd ka : KReg)
  /-- R184 -/
  | kpopc (rd : SReg) (ka : KReg)
  /-- R184 -/
  | kfirst (rd : SReg) (ka : KReg)
  /-- R184 -/
  | kbrkb (kd ka : KReg)
  /-- R184 -/
  | kbrka (kd ka : KReg)
  /-- R184 -/
  | kbrko (kd ka : KReg)
  /-- R184 -/
  | kfromv (kd : KReg) (va : VReg)
  /-- R184 -/
  | ktov (vd : VReg) (ka : KReg)
  /-- R184 -/
  | kset (kd : KReg) (ra rb : SReg)
  /-- R187 -/
  | vld (f : MArgs)
  /-- R187 -/
  | vldstr (f : MArgs) (st : SReg)
  /-- R187 -/
  | vldx (f : MArgs) (vi : VReg)
  /-- R192 -/
  | vldff (f : MArgs)
  /-- R187 -/
  | vldSignExtending (f : MArgs)
  /-- R187 -/
  | vldstrSignExtending (f : MArgs) (st : SReg)
  /-- R187 -/
  | vldxSignExtending (f : MArgs) (vi : VReg)
  /-- R192 -/
  | vldffSignExtending (f : MArgs)
  /-- R187 -/
  | vst (f : MArgs)
  /-- R187 -/
  | vststr (f : MArgs) (st : SReg)
  /-- R187 -/
  | vstx (f : MArgs) (vi : VReg)
  /-- R235 -/
  | vamoAdd (f : AVArgs)
  /-- R235 -/
  | vamoSwap (f : AVArgs)
  /-- R235 -/
  | vamoAnd (f : AVArgs)
  /-- R235 -/
  | vamoOr (f : AVArgs)
  /-- R235 -/
  | vamoXor (f : AVArgs)
  /-- R235 -/
  | vamoMin (f : AVArgs)
  /-- R235 -/
  | vamoMax (f : AVArgs)
  /-- R234 -/
  | vamoCas (f : AVArgs)
  /-- R235 -/
  | vamoMinu (f : AVArgs)
  /-- R235 -/
  | vamoMaxu (f : AVArgs)
  /-- R235 -/
  | vamoFadd (f : AVArgs)
  /-- R235 -/
  | vamoDip (f : AVArgs)
  /-- R238 -/
  | vhist (f : AVArgs)
  /-- R210 -/
  | mzero (ac : Bool)
  /-- R199 -/
  | mop (ac : Bool) (va vb : VReg) (km : BitVec 3)
  /-- R202 -/
  | mopt (ac : Bool) (va : VReg) (tid : BitVec 10) (km : BitVec 3)
  /-- R201 -/
  | mopk (ac : Bool) (va : VReg) (tid : BitVec 10) (km : BitVec 3)
  /-- R203 -/
  | mopi (ac : Bool) (va vb : VReg) (km : BitVec 3)
  /-- R211 -/
  | mld (ac : Bool) (sb : SReg) (km : BitVec 3)
  /-- R211 -/
  | mst (ac : Bool) (sb : SReg) (km : BitVec 3)
  /-- R211 -/
  | mva (ac : Bool) (vd : VReg) (km : BitVec 3)
  /-- R211 -/
  | mav (ac : Bool) (va : VReg) (km : BitVec 3)
  /-- R242 -/
  | fence (ll ls sl ss : Bool) (sc : BitVec 3)
  /-- R243 -/
  | pfence (p q : BitVec 5) (sc : BitVec 3)
  /-- R245 -/
  | arrive (rd : SReg) (b : BReg)
  /-- R246 -/
  | bwait (b : BReg) (rb : SReg)
  /-- R244 -/
  | bset (b : BReg) (ra : SReg)
  /-- R247 -/
  | gmember (rd ra rb : SReg)
  /-- R247 -/
  | gsize (rd ra : SReg)
  /-- R247 -/
  | grank (rd ra : SReg)
  /-- R248 -/
  | lfork (rd ra : SReg)
  /-- R251 -/
  | cpy (rd ra rb : SReg) (twoD : Bool)
  /-- R253 -/
  | cpyw (rd ra rb : SReg)
  /-- R254 -/
  | cwait (ra : SReg)
  /-- R254 -/
  | csleep (ra : SReg)
  /-- R250 -/
  | rdcnt (rd : SReg)
  /-- R256 -/
  | xred (rd ra rb : SReg) (fmt : BitVec 4)
  /-- R256 -/
  | xbc (rd ra rb : SReg) (fmt : BitVec 4)
  /-- R256 -/
  | xag (rd ra rb : SReg) (fmt : BitVec 4)
  /-- R257 -/
  | xwait (rd : SReg)
  /-- R218 -/
  | nnew (rd ra : SReg)
  /-- R219 -/
  | nres (rd ra : SReg)
  /-- R220 -/
  | nkill (ra : SReg)
  /-- R221 -/
  | ncas (rd ra rb : SReg)
  /-- R213 -/
  | tbind (rd ra rb : SReg)
  /-- R214 -/
  | tunbind (ra : SReg)
  /-- R215 -/
  | tq (rd ra : SReg)
  /-- R216 -/
  | orset (ra rb : SReg)
  /-- R217 -/
  | orclr (ra : SReg)
  /-- R224 -/
  | smerge (f : V1Args)
  /-- R225 -/
  | vrng (f : VArgs)
  /-- R226 -/
  | vexpd (f : VArgs)
  /-- R258 -/
  | glean (rd ra rb : SReg)
  /-- R259 -/
  | gadv (rd ra rb : SReg)
  /-- R260 -/
  | lenq (rd ra rb : SReg)
  /-- R92 -/
  | vfredo (vd va vb : SReg) (km : BitVec 3)
  /-- R370 -/
  | mop8 (rd ra rb : SReg) (fn : BitVec 7)
  /-- R296 -/
  | imageWriteComplete (key : Nat)
  /-- R328 -/
  | strandBind (queue : BitVec 64)
  /-- R345 -/
  | harrowSweepEnd (core pool : Nat)
  /-- R303 -/
  | restore (uid : Nat)
  /-- R323 -/
  | launchAccept (queue : BitVec 64)
  /-- R332 -/
  | launchComplete (launch : Nat)
  /-- R305 -/
  | watchdogExpire (key : Nat)
  /-- R330 -/
  | quantumExpire (key : Nat)
  /-- R252 -/
  | copyComplete (id : Nat)
  /-- R255 -/
  | copyStop (id : Nat)
  /-- R254 -/
  | csleepExpire (key : Nat)
  /-- R256 -/
  | collectiveComplete (id : Nat)
  /-- R255 -/
  | copyTranslationFault (id : Nat)
  /-- R327 -/
  | bindRecordWrite (n : Nat) (words : Vector (BitVec 64) 8)
  /-- R319 -/
  | queueCreate (name : BitVec 64) (depth prio : Nat) (owner : BitVec 12) (page : BitVec 6)
  /-- R392 -/
  | moduleReset (verified : Bool) (level : BitVec 2) (harv0 harv1 : BitVec 36) (stepping : BitVec 16)
  /-- R385, R386 -/
  | doorbell (func : BitVec 8) (page : BitVec 6) (access : PageAccess)
  /-- R293 -/
  | shiftedLaneMismatch (key : Nat) (lane : Option Nat)
  /-- R356 -/
  | grantAdd (name : BitVec 64) (asid : BitVec 12)
  /-- R355 -/
  | tombstone (name : BitVec 64)
  /-- R388 -/
  | headlandLinkFail (link : BitVec 4)
  /-- R239 -/
  | monitorEvict (key : Nat)
  /-- R390 -/
  | powerLoopWindow (die : Bool) (watts : BitVec 16)
  /-- R379 -/
  | scrubRead (region : Nat) (found : ScrubFind)
  /-- R379 -/
  | scrubRateUpdate (regions : List (Nat × Nat))
  /-- R385 -/
  | hostBar2Access (func : BitVec 8) (va : BitVec 64) (op : OutsideOp)
  /-- R387 -/
  | peerAccess (link : BitVec 4) (pa : BitVec 44) (op : PeerOp)
  /-- R394 -/
  | attestationQuote (nonce : List (BitVec 8))
  /-- R350 -/
  | debugRead (u : TagUnit)
  /-- R350 -/
  | debugWrite (u : TagUnit) (data : List (BitVec 8)) (tag : BitVec 16)
  /-- R315 -/
  | rangeInAsid (asid : BitVec 12) (vpn : BitVec 44) (count : BitVec 32)
  /-- R315 -/
  | wholeAsid (asid : BitVec 12)
  /-- R318 -/
  | unpoisonFrame (frame : BitVec 44)
  /-- R360 -/
  | create (asid : BitVec 12)
  /-- R360 -/
  | destroy (asid : BitVec 12)
  /-- R360 -/
  | revoke (name : BitVec 64) (asid : BitVec 12)
  /-- R6 -/
  | registerWrite (target : CrTarget) (value : BitVec 64)
  /-- R340 -/
  | discardSavedContext (uid : Nat)
  /-- R305 -/
  | debugHalt (key : Nat)
  /-- R305 -/
  | debugResume (key : Nat)
  /-- R388 -/
  | headlandLinkTrained (link : BitVec 4)
  /-- R395 -/
  | lpddr6Retraining (channel : Nat)
  /-- R395 -/
  | linkEqualisation (link : BitVec 4)
  /-- R353 -/
  | grantRemove (name : BitVec 64) (asid : BitVec 12)
  /-- R129 -/
  | eret
  /-- R157 -/
  | halt
  /-- R158 -/
  | nop
  /-- R249 -/
  | ljoin
  /-- R254 -/
  | cbatch
  /-- R125 -/
  | annulledStep
  /-- R37 -/
  | ubrkResolve
  /-- R289 -/
  | postedTrapDelivery
  /-- R295 -/
  | asyncEventTake
  /-- R296 -/
  | preempt
  /-- R352 -/
  | serialBlockReserve
  /-- R391 -/
  | energyRefill
  /-- R393 -/
  | serviceLevelRaise
  /-- R315 -/
  | everyAsid
  /-- R360 -/
  | tcmdbReserved
  /-- R383 -/
  | elogpop
  deriving DecidableEq, Repr

end Sys2Proof
end

