-- ==== Sys2Proof/WellFormed.lean ====
section
/-!
DEFINITION. Which terms of the syntax are instructions of the device: the checks on codes and register classes of R123
(Table 5.13), and for events the ranges of the things they name.
-/

namespace Sys2Proof

/-- A six-bit field that names a scalar register has its top bit clear (R114). -/
def scalarField (r : VReg) : Bool := !r.msb

/-- Format V with two sources: with s = 1 bit 13 is zero and cb is zero (R118, R168). -/
def VArgs.wf (f : VArgs) : Bool := !f.s || (scalarField f.vb && !f.cb)

/-- A slot of the device: four for each of 72 cores (Table 1.1). -/
def keyOk (key : Nat) : Bool := decide (key < 288)

/-- The bytes of a tagged unit (Table 20.1). -/
def TagUnit.size : TagUnit → Nat
  | .scalar _ _ => 8
  | .barrier _ _ => 16
  | .mask _ _ _ => 64
  | .granule _ _ => 64

/-- A tagged unit that exists: s0 and k0 carry no tag (R41, R49); a granule lies in tagged storage (Table 11.2). -/
def TagUnit.wf : TagUnit → Bool
  | .scalar key r => keyOk key && r != 0#5
  | .barrier key _ => keyOk key
  | .mask key k _ => keyOk key && k != 0#4
  | .granule core off => decide (core < 72) && decide (off < 0x300000) && decide (off % 64 = 0)

/-- The well-formed instructions and events. -/
def Instr.wf : Instr → Bool
  | .trap code => code != 0#11
  | .eret => true
  | .brk _ => true
  | .halt => true
  | .crd _ _ => true
  | .cwr _ _ => true
  | .crs _ _ _ => true
  | .crc _ _ _ => true
  | .uloop _ => true
  | .ecls _ => true
  | .nop => true
  | .add _ _ _ => true
  | .sub _ _ _ => true
  | .and _ _ _ => true
  | .or _ _ _ => true
  | .xor _ _ _ => true
  | .andn _ _ _ => true
  | .sll _ _ _ => true
  | .srl _ _ _ => true
  | .sra _ _ _ => true
  | .slt _ _ _ => true
  | .sltu _ _ _ => true
  | .min _ _ _ => true
  | .max _ _ _ => true
  | .minu _ _ _ => true
  | .maxu _ _ _ => true
  | .mul _ _ _ => true
  | .mulh _ _ _ => true
  | .mulhu _ _ _ => true
  | .div _ _ _ => true
  | .divu _ _ _ => true
  | .rem _ _ _ => true
  | .remu _ _ _ => true
  | .clz _ _ => true
  | .ctz _ _ => true
  | .popc _ _ => true
  | .addi _ _ _ => true
  | .andi _ _ _ => true
  | .ori _ _ _ => true
  | .xori _ _ _ => true
  | .slti _ _ _ => true
  | .sltiu _ _ _ => true
  | .slli _ _ _ => true
  | .srli _ _ _ => true
  | .srai _ _ _ => true
  | .lins _ _ _ => true
  | .addpc _ _ => true
  | .ld _ _ w _ => decide (w.toNat ≤ 6)
  | .st _ _ w _ => decide (w.toNat ≤ 3)
  | .ldx _ _ _ w => decide (w.toNat ≤ 6)
  | .stx _ _ _ w => decide (w.toNat ≤ 3)
  | .amo f op => decide (f.sc.toNat ≤ 4) && decide (op.toNat ≤ 9) && (op != 9#4 || f.rb == 0#5)
  | .cas f => decide (f.sc.toNat ≤ 4)
  | .waddr _ _ _ => true
  | .wake _ _ _ => true
  | .beq _ _ _ _ => true
  | .bne _ _ _ _ => true
  | .blt _ _ _ _ => true
  | .bge _ _ _ _ => true
  | .bltu _ _ _ _ => true
  | .bgeu _ _ _ _ => true
  | .j _ => true
  | .jal _ => true
  | .jr _ => true
  | .jalr _ _ => true
  | .smine _ _ _ _ _ => true
  | .ubrk _ _ => true
  | .vbx _ _ _ _ => true
  | .rpt _ _ _ _ _ => true
  | .vshape _ _ _ _ => true
  | .vcfg _ => true
  | .klen kd _ _ => kd != 0#4
  | .vadd f => f.wf
  | .vsub f => f.wf
  | .vrsub f => f.wf
  | .vmul f => f.wf
  | .vmulh f => f.wf
  | .vmulhu f => f.wf
  | .vdiv f => f.wf
  | .vdivu f => f.wf
  | .vrem f => f.wf
  | .vremu f => f.wf
  | .vmin f => f.wf
  | .vmax f => f.wf
  | .vminu f => f.wf
  | .vmaxu f => f.wf
  | .vand f => f.wf
  | .vor f => f.wf
  | .vxor f => f.wf
  | .vandn f => f.wf
  | .vsll f => f.wf
  | .vsrl f => f.wf
  | .vsra f => f.wf
  | .vsadd f => f.wf
  | .vssub f => f.wf
  | .vsaddu f => f.wf
  | .vssubu f => f.wf
  | .vmerge f => f.wf
  | .vclz _ => true
  | .vpopc _ => true
  | .vmacc f => f.wf
  | .vnmsac f => f.wf
  | .vabsd f => f.wf
  | .vmulq f => f.wf
  | .vcmp kd cc _ vb s _ ty => kd != 0#4 && ty != 3#2 && decide (cc.toNat ≤ if ty == 2#2 then 7 else 5) && (!s || scalarField vb)
  | .vfadd f => f.wf
  | .vfsub f => f.wf
  | .vfmul f => f.wf
  | .vfdiv f => f.wf
  | .vfma f => f.wf
  | .vfms f => f.wf
  | .vfnma f => f.wf
  | .vfmin f => f.wf
  | .vfmax f => f.wf
  | .vfsgnj f => f.wf
  | .vfsgnjn f => f.wf
  | .vfsgnjx f => f.wf
  | .vfsqrt _ => true
  | .vfrcp _ => true
  | .vfrsq _ => true
  | .vfexp2 _ => true
  | .vflog2 _ => true
  | .vfsigm _ => true
  | .vftanh _ => true
  | .vfcls _ => true
  | .vcvt _ _ rm _ _ dst src => rm != 5#3 && rm != 6#3 && dst != 11#4 && dst != 15#4 && src != 11#4 && src != 15#4
  | .vredsum _ => true
  | .vredmax _ => true
  | .vredmin _ => true
  | .vredor _ => true
  | .vfredsum _ => true
  | .vfredmax _ => true
  | .vfredmin _ => true
  | .vredand _ => true
  | .vmv _ _ _ => true
  | .vmvs _ _ _ => true
  | .vmvx _ _ _ => true
  | .vslideup _ _ _ _ => true
  | .vslidedn _ _ _ _ => true
  | .vslide1up _ _ _ _ => true
  | .vslide1dn _ _ _ _ => true
  | .vgather _ _ _ _ => true
  | .vcompress _ _ _ => true
  | .vexpand _ _ _ => true
  | .viota _ _ _ => true
  | .vid _ _ => true
  | .vtrans _ _ _ => true
  | .vrowbc _ _ _ _ => true
  | .kand kd _ _ => kd != 0#4
  | .kor kd _ _ => kd != 0#4
  | .kxor kd _ _ => kd != 0#4
  | .kandn kd _ _ => kd != 0#4
  | .knot kd _ => kd != 0#4
  | .kmv kd _ => kd != 0#4
  | .kpopc _ _ => true
  | .kfirst _ _ => true
  | .kbrkb kd _ => kd != 0#4
  | .kbrka kd _ => kd != 0#4
  | .kbrko kd _ => kd != 0#4
  | .kfromv kd _ => kd != 0#4
  | .ktov _ _ => true
  | .kset kd _ _ => kd != 0#4
  | .vld _ => true
  | .vldstr _ _ => true
  | .vldx _ _ => true
  | .vldff _ => true
  | .vldSignExtending f => f.w != 3#2
  | .vldstrSignExtending f _ => f.w != 3#2
  | .vldxSignExtending f _ => f.w != 3#2
  | .vldffSignExtending f => f.w != 3#2
  | .vst _ => true
  | .vststr _ _ => true
  | .vstx _ _ => true
  | .vamoAdd f => decide (f.sc.toNat ≤ 4)
  | .vamoSwap f => decide (f.sc.toNat ≤ 4)
  | .vamoAnd f => decide (f.sc.toNat ≤ 4)
  | .vamoOr f => decide (f.sc.toNat ≤ 4)
  | .vamoXor f => decide (f.sc.toNat ≤ 4)
  | .vamoMin f => decide (f.sc.toNat ≤ 4)
  | .vamoMax f => decide (f.sc.toNat ≤ 4)
  | .vamoCas f => decide (f.sc.toNat ≤ 4)
  | .vamoMinu f => decide (f.sc.toNat ≤ 4)
  | .vamoMaxu f => decide (f.sc.toNat ≤ 4)
  | .vamoFadd f => decide (f.sc.toNat ≤ 4)
  | .vamoDip f => decide (f.sc.toNat ≤ 4)
  | .vhist f => decide (f.sc.toNat ≤ 4)
  | .mzero _ => true
  | .mop _ _ _ _ => true
  | .mopt _ _ _ _ => true
  | .mopk _ _ _ _ => true
  | .mopi _ _ _ _ => true
  | .mld _ _ _ => true
  | .mst _ _ _ => true
  | .mva _ _ _ => true
  | .mav _ _ _ => true
  | .fence ll ls sl ss sc => (ll || ls || sl || ss) && decide (sc.toNat ≤ 4)
  | .pfence p q sc => decide (p.toNat ≤ 4) && decide (q.toNat ≤ 4) && decide (sc.toNat ≤ 4)
  | .arrive _ _ => true
  | .bwait _ _ => true
  | .bset _ _ => true
  | .gmember _ _ _ => true
  | .gsize _ _ => true
  | .grank _ _ => true
  | .lfork _ _ => true
  | .ljoin => true
  | .cpy _ _ _ _ => true
  | .cpyw _ _ _ => true
  | .cbatch => true
  | .cwait _ => true
  | .csleep _ => true
  | .rdcnt _ => true
  | .xred _ _ _ fmt => fmt != 11#4 && fmt != 14#4 && fmt != 15#4
  | .xbc _ _ _ fmt => fmt != 11#4 && fmt != 14#4 && fmt != 15#4
  | .xag _ _ _ fmt => fmt != 11#4 && fmt != 14#4 && fmt != 15#4
  | .xwait _ => true
  | .nnew _ _ => true
  | .nres _ _ => true
  | .nkill _ => true
  | .ncas _ _ _ => true
  | .tbind _ _ _ => true
  | .tunbind _ => true
  | .tq _ _ => true
  | .orset _ _ => true
  | .orclr _ => true
  | .smerge _ => true
  | .vrng f => f.wf
  | .vexpd f => f.wf
  | .glean _ _ _ => true
  | .gadv _ _ _ => true
  | .lenq _ _ _ => true
  | .vfredo _ _ _ _ => true
  | .mop8 _ _ _ _ => true
  | .annulledStep => true
  | .ubrkResolve => true
  | .postedTrapDelivery => true
  | .asyncEventTake => true
  | .shiftedLaneMismatch key lane => keyOk key && lane.all (fun l => decide (l < 132))
  | .preempt => true
  | .imageWriteComplete key => keyOk key
  | .strandBind _ => true
  | .harrowSweepEnd core pool => decide (core < 72) && decide (pool < 5)
  | .restore _ => true
  | .launchAccept _ => true
  | .launchComplete _ => true
  | .watchdogExpire key => keyOk key
  | .quantumExpire key => keyOk key
  | .bindRecordWrite n _ => decide (n < 512)
  | .queueCreate name depth prio _ _ => decide (name.toNat / 2 ^ 60 = 3) && decide (16 ≤ depth) && decide (depth ≤ 4096) && decide (prio < 8)
  | .grantAdd _ _ => true
  | .tombstone _ => true
  | .copyComplete _ => true
  | .copyStop _ => true
  | .csleepExpire key => keyOk key
  | .collectiveComplete _ => true
  | .headlandLinkFail _ => true
  | .monitorEvict key => keyOk key
  | .serialBlockReserve => true
  | .powerLoopWindow _ _ => true
  | .energyRefill => true
  | .scrubRead _ _ => true
  | .scrubRateUpdate _ => true
  | .moduleReset _ _ _ _ _ => true
  | .serviceLevelRaise => true
  | .doorbell _ _ access => decide (access.off.toNat % access.op.bytes = 0)
  | .hostBar2Access _ va op => decide (va.toNat + op.bytes ≤ 2 ^ 48)
  | .peerAccess _ pa op => match op with
    | .plain _ => true
    | .atomic _ _ _ => decide (pa.toNat % op.bytes = 0)
  | .attestationQuote nonce => decide (nonce.length = 48)
  | .debugRead u => u.wf
  | .debugWrite u data _ => u.wf && decide (data.length = u.size)
  | .rangeInAsid _ _ _ => true
  | .wholeAsid _ => true
  | .everyAsid => true
  | .unpoisonFrame _ => true
  | .create _ => true
  | .destroy _ => true
  | .revoke _ _ => true
  | .tcmdbReserved => true
  | .elogpop => true
  | .registerWrite _ _ => true
  | .discardSavedContext _ => true
  | .debugHalt key => keyOk key
  | .debugResume key => keyOk key
  | .headlandLinkTrained _ => true
  | .lpddr6Retraining channel => decide (channel < 48)
  | .linkEqualisation _ => true
  | .copyTranslationFault _ => true
  | .grantRemove _ _ => true

end Sys2Proof
end

