-- ==== Sys2Proof/Decode.lean ====
section
/-!
DEFINITION. Decoding of a word, total, refusing by name what is no instruction (05 Tables 5.2 to 5.13, R112 to R124), and
the encoder, written from the same tables.
-/

namespace Sys2Proof

/-- Why a word is no instruction (Table 5.13). -/
inductive Reject where
  /-- A major of Table 5.2 that is reserved. -/
  | reservedMajor
  /-- A selector value that Tables 5.3 to 5.12 leave reserved. -/
  | reservedSelector
  /-- The opcode `sbar`, removed on this device (Table 5.17). -/
  | removed
  /-- A reserved field, or one named zero, that holds a nonzero value. -/
  | nonzeroField
  /-- A code out of range in a field, or a field naming the wrong class of register. -/
  | badField
  /-- Fewer than four bytes. -/
  | tooShort
  deriving DecidableEq, Repr

/-- The field of `n` bits whose lowest bit is `lo` (R2). -/
def fieldAt (w : BitVec 32) (lo n : Nat) : BitVec n := w.extractLsb' lo n

/-- A one-bit field, as a truth value. -/
def flagAt (w : BitVec 32) (i : Nat) : Bool := w.getLsbD i

/-- The instruction, if every bit of the mask `z` of zero fields is zero in the word (R123). -/
def zeros (w z : BitVec 32) (i : Instr) : Except Reject Instr :=
  if w &&& z = 0#32 then .ok i else .error .nonzeroField

/-- Major 0x00 (Table 5.2): the instruction its selector names. -/
def pickSys (w : BitVec 32) : Except Reject Instr :=
  match (fieldAt w 11 5).toNat with
  | 0 => zeros w 0x03FF0000#32 (.trap (fieldAt w 0 11))
  | 1 => zeros w 0x03FF07FF#32 (.eret)
  | 2 => zeros w 0x03FF0000#32 (.brk (fieldAt w 0 11))
  | 3 => zeros w 0x03FF07FF#32 (.halt)
  | 4 => zeros w 0x001F0000#32 (.crd (fieldAt w 21 5) (fieldAt w 0 11))
  | 5 => zeros w 0x03E00000#32 (.cwr (fieldAt w 16 5) (fieldAt w 0 11))
  | 6 => .ok (.crs (fieldAt w 21 5) (fieldAt w 16 5) (fieldAt w 0 11))
  | 7 => .ok (.crc (fieldAt w 21 5) (fieldAt w 16 5) (fieldAt w 0 11))
  | 8 => zeros w 0x03FF07FC#32 (.uloop (fieldAt w 0 2))
  | 9 => zeros w 0x03FF07F8#32 (.ecls (fieldAt w 0 3))
  | 10 => zeros w 0x03FF07FF#32 (.nop)
  | _ => .error .reservedSelector

/-- Major 0x01 (Table 5.2): the instruction its selector names. -/
def pickAlu (w : BitVec 32) : Except Reject Instr :=
  match (fieldAt w 0 11).toNat with
  | 0 => .ok (.add (fieldAt w 21 5) (fieldAt w 16 5) (fieldAt w 11 5))
  | 1 => .ok (.sub (fieldAt w 21 5) (fieldAt w 16 5) (fieldAt w 11 5))
  | 2 => .ok (.and (fieldAt w 21 5) (fieldAt w 16 5) (fieldAt w 11 5))
  | 3 => .ok (.or (fieldAt w 21 5) (fieldAt w 16 5) (fieldAt w 11 5))
  | 4 => .ok (.xor (fieldAt w 21 5) (fieldAt w 16 5) (fieldAt w 11 5))
  | 5 => .ok (.andn (fieldAt w 21 5) (fieldAt w 16 5) (fieldAt w 11 5))
  | 6 => .ok (.sll (fieldAt w 21 5) (fieldAt w 16 5) (fieldAt w 11 5))
  | 7 => .ok (.srl (fieldAt w 21 5) (fieldAt w 16 5) (fieldAt w 11 5))
  | 8 => .ok (.sra (fieldAt w 21 5) (fieldAt w 16 5) (fieldAt w 11 5))
  | 9 => .ok (.slt (fieldAt w 21 5) (fieldAt w 16 5) (fieldAt w 11 5))
  | 10 => .ok (.sltu (fieldAt w 21 5) (fieldAt w 16 5) (fieldAt w 11 5))
  | 11 => .ok (.min (fieldAt w 21 5) (fieldAt w 16 5) (fieldAt w 11 5))
  | 12 => .ok (.max (fieldAt w 21 5) (fieldAt w 16 5) (fieldAt w 11 5))
  | 13 => .ok (.minu (fieldAt w 21 5) (fieldAt w 16 5) (fieldAt w 11 5))
  | 14 => .ok (.maxu (fieldAt w 21 5) (fieldAt w 16 5) (fieldAt w 11 5))
  | 16 => .ok (.mul (fieldAt w 21 5) (fieldAt w 16 5) (fieldAt w 11 5))
  | 17 => .ok (.mulh (fieldAt w 21 5) (fieldAt w 16 5) (fieldAt w 11 5))
  | 18 => .ok (.mulhu (fieldAt w 21 5) (fieldAt w 16 5) (fieldAt w 11 5))
  | 20 => .ok (.div (fieldAt w 21 5) (fieldAt w 16 5) (fieldAt w 11 5))
  | 21 => .ok (.divu (fieldAt w 21 5) (fieldAt w 16 5) (fieldAt w 11 5))
  | 22 => .ok (.rem (fieldAt w 21 5) (fieldAt w 16 5) (fieldAt w 11 5))
  | 23 => .ok (.remu (fieldAt w 21 5) (fieldAt w 16 5) (fieldAt w 11 5))
  | 24 => zeros w 0x0000F800#32 (.clz (fieldAt w 21 5) (fieldAt w 16 5))
  | 25 => zeros w 0x0000F800#32 (.ctz (fieldAt w 21 5) (fieldAt w 16 5))
  | 26 => zeros w 0x0000F800#32 (.popc (fieldAt w 21 5) (fieldAt w 16 5))
  | _ => .error .reservedSelector

/-- Major 0x08 (Table 5.2): the instruction its selector names. -/
def pickShift (w : BitVec 32) : Except Reject Instr :=
  match (fieldAt w 14 2).toNat with
  | 0 => zeros w 0x00003FC0#32 (.slli (fieldAt w 21 5) (fieldAt w 16 5) (fieldAt w 0 6))
  | 1 => zeros w 0x00003FC0#32 (.srli (fieldAt w 21 5) (fieldAt w 16 5) (fieldAt w 0 6))
  | 2 => zeros w 0x00003FC0#32 (.srai (fieldAt w 21 5) (fieldAt w 16 5) (fieldAt w 0 6))
  | _ => .error .reservedSelector

/-- Major 0x0D (Table 5.2): the instruction its selector names. -/
def pickIndexed (w : BitVec 32) : Except Reject Instr :=
  match (fieldAt w 4 1).toNat with
  | 0 => zeros w 0x000007E0#32 (.ldx (fieldAt w 21 5) (fieldAt w 16 5) (fieldAt w 11 5) (fieldAt w 0 4))
  | 1 => zeros w 0x000007E0#32 (.stx (fieldAt w 21 5) (fieldAt w 16 5) (fieldAt w 11 5) (fieldAt w 0 4))
  | _ => .error .reservedSelector

/-- Major 0x0E (Table 5.2): the instruction its selector names. -/
def pickAtomic (w : BitVec 32) : Except Reject Instr :=
  match (fieldAt w 0 4).toNat with
  | 10 => zeros w 0x00000400#32 (.cas ⟨fieldAt w 21 5, fieldAt w 16 5, fieldAt w 11 5, flagAt w 9, flagAt w 8, fieldAt w 5 3, flagAt w 4⟩)
  | _ => zeros w 0x00000400#32 (.amo ⟨fieldAt w 21 5, fieldAt w 16 5, fieldAt w 11 5, flagAt w 9, flagAt w 8, fieldAt w 5 3, flagAt w 4⟩ (fieldAt w 0 4))

/-- Major 0x0F (Table 5.2): the instruction its selector names. -/
def pickWait (w : BitVec 32) : Except Reject Instr :=
  match (fieldAt w 0 4).toNat with
  | 0 => zeros w 0x000007F0#32 (.waddr (fieldAt w 21 5) (fieldAt w 16 5) (fieldAt w 11 5))
  | 1 => zeros w 0x000007F0#32 (.wake (fieldAt w 21 5) (fieldAt w 16 5) (fieldAt w 11 5))
  | _ => .error .reservedSelector

/-- Major 0x18 (Table 5.2): the instruction its selector names. -/
def pickJump (w : BitVec 32) : Except Reject Instr :=
  match (fieldAt w 0 11).toNat with
  | 0 => zeros w 0x03E0F800#32 (.jr (fieldAt w 16 5))
  | 1 => zeros w 0x0000F800#32 (.jalr (fieldAt w 21 5) (fieldAt w 16 5))
  | _ => .error .reservedSelector

/-- Major 0x1D (Table 5.2): the instruction its selector names. -/
def pickShape (w : BitVec 32) : Except Reject Instr :=
  match (fieldAt w 0 2).toNat with
  | 0 => zeros w 0x000007F0#32 (.vshape (fieldAt w 21 5) (fieldAt w 16 5) (fieldAt w 11 5) (fieldAt w 2 2))
  | 1 => zeros w 0x03E0FFFC#32 (.vcfg (fieldAt w 16 5))
  | 2 => zeros w 0x0200FFF0#32 (.klen (fieldAt w 21 4) (fieldAt w 16 5) (fieldAt w 2 2))
  | _ => .error .reservedSelector

/-- Major 0x1E (Table 5.2): the instruction its selector names. -/
def pickVi0 (w : BitVec 32) : Except Reject Instr :=
  match (fieldAt w 0 2).toNat with
  | 0 => .ok (.vadd ⟨fieldAt w 20 6, fieldAt w 14 6, fieldAt w 8 6, flagAt w 7, flagAt w 6, flagAt w 5, fieldAt w 2 3⟩)
  | 1 => .ok (.vsub ⟨fieldAt w 20 6, fieldAt w 14 6, fieldAt w 8 6, flagAt w 7, flagAt w 6, flagAt w 5, fieldAt w 2 3⟩)
  | 2 => .ok (.vrsub ⟨fieldAt w 20 6, fieldAt w 14 6, fieldAt w 8 6, flagAt w 7, flagAt w 6, flagAt w 5, fieldAt w 2 3⟩)
  | 3 => .ok (.vmul ⟨fieldAt w 20 6, fieldAt w 14 6, fieldAt w 8 6, flagAt w 7, flagAt w 6, flagAt w 5, fieldAt w 2 3⟩)
  | _ => .error .reservedSelector

/-- Major 0x1F (Table 5.2): the instruction its selector names. -/
def pickVi1 (w : BitVec 32) : Except Reject Instr :=
  match (fieldAt w 0 2).toNat with
  | 0 => .ok (.vmulh ⟨fieldAt w 20 6, fieldAt w 14 6, fieldAt w 8 6, flagAt w 7, flagAt w 6, flagAt w 5, fieldAt w 2 3⟩)
  | 1 => .ok (.vmulhu ⟨fieldAt w 20 6, fieldAt w 14 6, fieldAt w 8 6, flagAt w 7, flagAt w 6, flagAt w 5, fieldAt w 2 3⟩)
  | 2 => .ok (.vdiv ⟨fieldAt w 20 6, fieldAt w 14 6, fieldAt w 8 6, flagAt w 7, flagAt w 6, flagAt w 5, fieldAt w 2 3⟩)
  | 3 => .ok (.vdivu ⟨fieldAt w 20 6, fieldAt w 14 6, fieldAt w 8 6, flagAt w 7, flagAt w 6, flagAt w 5, fieldAt w 2 3⟩)
  | _ => .error .reservedSelector

/-- Major 0x20 (Table 5.2): the instruction its selector names. -/
def pickVi2 (w : BitVec 32) : Except Reject Instr :=
  match (fieldAt w 0 2).toNat with
  | 0 => .ok (.vrem ⟨fieldAt w 20 6, fieldAt w 14 6, fieldAt w 8 6, flagAt w 7, flagAt w 6, flagAt w 5, fieldAt w 2 3⟩)
  | 1 => .ok (.vremu ⟨fieldAt w 20 6, fieldAt w 14 6, fieldAt w 8 6, flagAt w 7, flagAt w 6, flagAt w 5, fieldAt w 2 3⟩)
  | 2 => .ok (.vmin ⟨fieldAt w 20 6, fieldAt w 14 6, fieldAt w 8 6, flagAt w 7, flagAt w 6, flagAt w 5, fieldAt w 2 3⟩)
  | 3 => .ok (.vmax ⟨fieldAt w 20 6, fieldAt w 14 6, fieldAt w 8 6, flagAt w 7, flagAt w 6, flagAt w 5, fieldAt w 2 3⟩)
  | _ => .error .reservedSelector

/-- Major 0x21 (Table 5.2): the instruction its selector names. -/
def pickVi3 (w : BitVec 32) : Except Reject Instr :=
  match (fieldAt w 0 2).toNat with
  | 0 => .ok (.vminu ⟨fieldAt w 20 6, fieldAt w 14 6, fieldAt w 8 6, flagAt w 7, flagAt w 6, flagAt w 5, fieldAt w 2 3⟩)
  | 1 => .ok (.vmaxu ⟨fieldAt w 20 6, fieldAt w 14 6, fieldAt w 8 6, flagAt w 7, flagAt w 6, flagAt w 5, fieldAt w 2 3⟩)
  | 2 => .ok (.vand ⟨fieldAt w 20 6, fieldAt w 14 6, fieldAt w 8 6, flagAt w 7, flagAt w 6, flagAt w 5, fieldAt w 2 3⟩)
  | 3 => .ok (.vor ⟨fieldAt w 20 6, fieldAt w 14 6, fieldAt w 8 6, flagAt w 7, flagAt w 6, flagAt w 5, fieldAt w 2 3⟩)
  | _ => .error .reservedSelector

/-- Major 0x22 (Table 5.2): the instruction its selector names. -/
def pickVi4 (w : BitVec 32) : Except Reject Instr :=
  match (fieldAt w 0 2).toNat with
  | 0 => .ok (.vxor ⟨fieldAt w 20 6, fieldAt w 14 6, fieldAt w 8 6, flagAt w 7, flagAt w 6, flagAt w 5, fieldAt w 2 3⟩)
  | 1 => .ok (.vandn ⟨fieldAt w 20 6, fieldAt w 14 6, fieldAt w 8 6, flagAt w 7, flagAt w 6, flagAt w 5, fieldAt w 2 3⟩)
  | 2 => .ok (.vsll ⟨fieldAt w 20 6, fieldAt w 14 6, fieldAt w 8 6, flagAt w 7, flagAt w 6, flagAt w 5, fieldAt w 2 3⟩)
  | 3 => .ok (.vsrl ⟨fieldAt w 20 6, fieldAt w 14 6, fieldAt w 8 6, flagAt w 7, flagAt w 6, flagAt w 5, fieldAt w 2 3⟩)
  | _ => .error .reservedSelector

/-- Major 0x23 (Table 5.2): the instruction its selector names. -/
def pickVi5 (w : BitVec 32) : Except Reject Instr :=
  match (fieldAt w 0 2).toNat with
  | 0 => .ok (.vsra ⟨fieldAt w 20 6, fieldAt w 14 6, fieldAt w 8 6, flagAt w 7, flagAt w 6, flagAt w 5, fieldAt w 2 3⟩)
  | 1 => .ok (.vsadd ⟨fieldAt w 20 6, fieldAt w 14 6, fieldAt w 8 6, flagAt w 7, flagAt w 6, flagAt w 5, fieldAt w 2 3⟩)
  | 2 => .ok (.vssub ⟨fieldAt w 20 6, fieldAt w 14 6, fieldAt w 8 6, flagAt w 7, flagAt w 6, flagAt w 5, fieldAt w 2 3⟩)
  | 3 => .ok (.vsaddu ⟨fieldAt w 20 6, fieldAt w 14 6, fieldAt w 8 6, flagAt w 7, flagAt w 6, flagAt w 5, fieldAt w 2 3⟩)
  | _ => .error .reservedSelector

/-- Major 0x24 (Table 5.2): the instruction its selector names. -/
def pickVi6 (w : BitVec 32) : Except Reject Instr :=
  match (fieldAt w 0 2).toNat with
  | 0 => .ok (.vssubu ⟨fieldAt w 20 6, fieldAt w 14 6, fieldAt w 8 6, flagAt w 7, flagAt w 6, flagAt w 5, fieldAt w 2 3⟩)
  | 1 => .ok (.vmerge ⟨fieldAt w 20 6, fieldAt w 14 6, fieldAt w 8 6, flagAt w 7, flagAt w 6, flagAt w 5, fieldAt w 2 3⟩)
  | 2 => zeros w 0x00003FA0#32 (.vclz ⟨fieldAt w 20 6, fieldAt w 14 6, flagAt w 6, fieldAt w 2 3⟩)
  | 3 => zeros w 0x00003FA0#32 (.vpopc ⟨fieldAt w 20 6, fieldAt w 14 6, flagAt w 6, fieldAt w 2 3⟩)
  | _ => .error .reservedSelector

/-- Major 0x25 (Table 5.2): the instruction its selector names. -/
def pickVi7 (w : BitVec 32) : Except Reject Instr :=
  match (fieldAt w 0 2).toNat with
  | 0 => .ok (.vmacc ⟨fieldAt w 20 6, fieldAt w 14 6, fieldAt w 8 6, flagAt w 7, flagAt w 6, flagAt w 5, fieldAt w 2 3⟩)
  | 1 => .ok (.vnmsac ⟨fieldAt w 20 6, fieldAt w 14 6, fieldAt w 8 6, flagAt w 7, flagAt w 6, flagAt w 5, fieldAt w 2 3⟩)
  | 2 => .ok (.vabsd ⟨fieldAt w 20 6, fieldAt w 14 6, fieldAt w 8 6, flagAt w 7, flagAt w 6, flagAt w 5, fieldAt w 2 3⟩)
  | 3 => .ok (.vmulq ⟨fieldAt w 20 6, fieldAt w 14 6, fieldAt w 8 6, flagAt w 7, flagAt w 6, flagAt w 5, fieldAt w 2 3⟩)
  | _ => .error .reservedSelector

/-- Major 0x27 (Table 5.2): the instruction its selector names. -/
def pickVf0 (w : BitVec 32) : Except Reject Instr :=
  match (fieldAt w 0 2).toNat with
  | 0 => .ok (.vfadd ⟨fieldAt w 20 6, fieldAt w 14 6, fieldAt w 8 6, flagAt w 7, flagAt w 6, flagAt w 5, fieldAt w 2 3⟩)
  | 1 => .ok (.vfsub ⟨fieldAt w 20 6, fieldAt w 14 6, fieldAt w 8 6, flagAt w 7, flagAt w 6, flagAt w 5, fieldAt w 2 3⟩)
  | 2 => .ok (.vfmul ⟨fieldAt w 20 6, fieldAt w 14 6, fieldAt w 8 6, flagAt w 7, flagAt w 6, flagAt w 5, fieldAt w 2 3⟩)
  | 3 => .ok (.vfdiv ⟨fieldAt w 20 6, fieldAt w 14 6, fieldAt w 8 6, flagAt w 7, flagAt w 6, flagAt w 5, fieldAt w 2 3⟩)
  | _ => .error .reservedSelector

/-- Major 0x28 (Table 5.2): the instruction its selector names. -/
def pickVf1 (w : BitVec 32) : Except Reject Instr :=
  match (fieldAt w 0 2).toNat with
  | 0 => .ok (.vfma ⟨fieldAt w 20 6, fieldAt w 14 6, fieldAt w 8 6, flagAt w 7, flagAt w 6, flagAt w 5, fieldAt w 2 3⟩)
  | 1 => .ok (.vfms ⟨fieldAt w 20 6, fieldAt w 14 6, fieldAt w 8 6, flagAt w 7, flagAt w 6, flagAt w 5, fieldAt w 2 3⟩)
  | 2 => .ok (.vfnma ⟨fieldAt w 20 6, fieldAt w 14 6, fieldAt w 8 6, flagAt w 7, flagAt w 6, flagAt w 5, fieldAt w 2 3⟩)
  | 3 => .ok (.vfmin ⟨fieldAt w 20 6, fieldAt w 14 6, fieldAt w 8 6, flagAt w 7, flagAt w 6, flagAt w 5, fieldAt w 2 3⟩)
  | _ => .error .reservedSelector

/-- Major 0x29 (Table 5.2): the instruction its selector names. -/
def pickVf2 (w : BitVec 32) : Except Reject Instr :=
  match (fieldAt w 0 2).toNat with
  | 0 => .ok (.vfmax ⟨fieldAt w 20 6, fieldAt w 14 6, fieldAt w 8 6, flagAt w 7, flagAt w 6, flagAt w 5, fieldAt w 2 3⟩)
  | 1 => .ok (.vfsgnj ⟨fieldAt w 20 6, fieldAt w 14 6, fieldAt w 8 6, flagAt w 7, flagAt w 6, flagAt w 5, fieldAt w 2 3⟩)
  | 2 => .ok (.vfsgnjn ⟨fieldAt w 20 6, fieldAt w 14 6, fieldAt w 8 6, flagAt w 7, flagAt w 6, flagAt w 5, fieldAt w 2 3⟩)
  | 3 => .ok (.vfsgnjx ⟨fieldAt w 20 6, fieldAt w 14 6, fieldAt w 8 6, flagAt w 7, flagAt w 6, flagAt w 5, fieldAt w 2 3⟩)
  | _ => .error .reservedSelector

/-- Major 0x2A (Table 5.2): the instruction its selector names. -/
def pickVf3 (w : BitVec 32) : Except Reject Instr :=
  match (fieldAt w 0 2).toNat with
  | 0 => zeros w 0x00003FA0#32 (.vfsqrt ⟨fieldAt w 20 6, fieldAt w 14 6, flagAt w 6, fieldAt w 2 3⟩)
  | 1 => zeros w 0x00003FA0#32 (.vfrcp ⟨fieldAt w 20 6, fieldAt w 14 6, flagAt w 6, fieldAt w 2 3⟩)
  | 2 => zeros w 0x00003FA0#32 (.vfrsq ⟨fieldAt w 20 6, fieldAt w 14 6, flagAt w 6, fieldAt w 2 3⟩)
  | 3 => zeros w 0x00003FA0#32 (.vfexp2 ⟨fieldAt w 20 6, fieldAt w 14 6, flagAt w 6, fieldAt w 2 3⟩)
  | _ => .error .reservedSelector

/-- Major 0x2B (Table 5.2): the instruction its selector names. -/
def pickVf4 (w : BitVec 32) : Except Reject Instr :=
  match (fieldAt w 0 2).toNat with
  | 0 => zeros w 0x00003FA0#32 (.vflog2 ⟨fieldAt w 20 6, fieldAt w 14 6, flagAt w 6, fieldAt w 2 3⟩)
  | 1 => zeros w 0x00003FA0#32 (.vfsigm ⟨fieldAt w 20 6, fieldAt w 14 6, flagAt w 6, fieldAt w 2 3⟩)
  | 2 => zeros w 0x00003FA0#32 (.vftanh ⟨fieldAt w 20 6, fieldAt w 14 6, flagAt w 6, fieldAt w 2 3⟩)
  | 3 => zeros w 0x00003FA0#32 (.vfcls ⟨fieldAt w 20 6, fieldAt w 14 6, flagAt w 6, fieldAt w 2 3⟩)
  | _ => .error .reservedSelector

/-- Major 0x2D (Table 5.2): the instruction its selector names. -/
def pickVred0 (w : BitVec 32) : Except Reject Instr :=
  match (fieldAt w 0 2).toNat with
  | 0 => .ok (.vredsum ⟨fieldAt w 20 6, fieldAt w 14 6, fieldAt w 8 6, flagAt w 7, flagAt w 6, flagAt w 5, fieldAt w 2 3⟩)
  | 1 => .ok (.vredmax ⟨fieldAt w 20 6, fieldAt w 14 6, fieldAt w 8 6, flagAt w 7, flagAt w 6, flagAt w 5, fieldAt w 2 3⟩)
  | 2 => .ok (.vredmin ⟨fieldAt w 20 6, fieldAt w 14 6, fieldAt w 8 6, flagAt w 7, flagAt w 6, flagAt w 5, fieldAt w 2 3⟩)
  | 3 => .ok (.vredor ⟨fieldAt w 20 6, fieldAt w 14 6, fieldAt w 8 6, flagAt w 7, flagAt w 6, flagAt w 5, fieldAt w 2 3⟩)
  | _ => .error .reservedSelector

/-- Major 0x2E (Table 5.2): the instruction its selector names. -/
def pickVred1 (w : BitVec 32) : Except Reject Instr :=
  match (fieldAt w 0 2).toNat with
  | 0 => .ok (.vfredsum ⟨fieldAt w 20 6, fieldAt w 14 6, fieldAt w 8 6, flagAt w 7, flagAt w 6, flagAt w 5, fieldAt w 2 3⟩)
  | 1 => .ok (.vfredmax ⟨fieldAt w 20 6, fieldAt w 14 6, fieldAt w 8 6, flagAt w 7, flagAt w 6, flagAt w 5, fieldAt w 2 3⟩)
  | 2 => .ok (.vfredmin ⟨fieldAt w 20 6, fieldAt w 14 6, fieldAt w 8 6, flagAt w 7, flagAt w 6, flagAt w 5, fieldAt w 2 3⟩)
  | 3 => .ok (.vredand ⟨fieldAt w 20 6, fieldAt w 14 6, fieldAt w 8 6, flagAt w 7, flagAt w 6, flagAt w 5, fieldAt w 2 3⟩)
  | _ => .error .reservedSelector

/-- Major 0x2F (Table 5.2): the instruction its selector names. -/
def pickPerm (w : BitVec 32) : Except Reject Instr :=
  match (fieldAt w 4 4).toNat with
  | 0 => zeros w 0x00003F00#32 (.vmv (fieldAt w 20 6) (fieldAt w 14 6) (fieldAt w 0 4))
  | 1 => zeros w 0x00083F00#32 (.vmvs (fieldAt w 20 6) (fieldAt w 14 5) (fieldAt w 0 4))
  | 2 => zeros w 0x0200200F#32 (.vmvx (fieldAt w 20 5) (fieldAt w 14 6) (fieldAt w 8 5))
  | 3 => zeros w 0x00002000#32 (.vslideup (fieldAt w 20 6) (fieldAt w 14 6) (fieldAt w 8 5) (fieldAt w 0 4))
  | 4 => zeros w 0x00002000#32 (.vslidedn (fieldAt w 20 6) (fieldAt w 14 6) (fieldAt w 8 5) (fieldAt w 0 4))
  | 5 => zeros w 0x00002000#32 (.vslide1up (fieldAt w 20 6) (fieldAt w 14 6) (fieldAt w 8 5) (fieldAt w 0 4))
  | 6 => zeros w 0x00002000#32 (.vslide1dn (fieldAt w 20 6) (fieldAt w 14 6) (fieldAt w 8 5) (fieldAt w 0 4))
  | 7 => .ok (.vgather (fieldAt w 20 6) (fieldAt w 14 6) (fieldAt w 8 6) (fieldAt w 0 4))
  | 8 => zeros w 0x00003F00#32 (.vcompress (fieldAt w 20 6) (fieldAt w 14 6) (fieldAt w 0 4))
  | 9 => zeros w 0x00003F00#32 (.vexpand (fieldAt w 20 6) (fieldAt w 14 6) (fieldAt w 0 4))
  | 10 => zeros w 0x000C3F00#32 (.viota (fieldAt w 20 6) (fieldAt w 14 4) (fieldAt w 0 4))
  | 11 => zeros w 0x000FFF00#32 (.vid (fieldAt w 20 6) (fieldAt w 0 4))
  | 12 => zeros w 0x00003F00#32 (.vtrans (fieldAt w 20 6) (fieldAt w 14 6) (fieldAt w 0 4))
  | 13 => zeros w 0x00002000#32 (.vrowbc (fieldAt w 20 6) (fieldAt w 14 6) (fieldAt w 8 5) (fieldAt w 0 4))
  | _ => .error .reservedSelector

/-- Major 0x30 (Table 5.2): the instruction its selector names. -/
def pickMask (w : BitVec 32) : Except Reject Instr :=
  match (fieldAt w 0 8).toNat with
  | 0 => zeros w 0x030C3000#32 (.kand (fieldAt w 20 4) (fieldAt w 14 4) (fieldAt w 8 4))
  | 1 => zeros w 0x030C3000#32 (.kor (fieldAt w 20 4) (fieldAt w 14 4) (fieldAt w 8 4))
  | 2 => zeros w 0x030C3000#32 (.kxor (fieldAt w 20 4) (fieldAt w 14 4) (fieldAt w 8 4))
  | 3 => zeros w 0x030C3000#32 (.kandn (fieldAt w 20 4) (fieldAt w 14 4) (fieldAt w 8 4))
  | 4 => zeros w 0x030C3F00#32 (.knot (fieldAt w 20 4) (fieldAt w 14 4))
  | 5 => zeros w 0x030C3F00#32 (.kmv (fieldAt w 20 4) (fieldAt w 14 4))
  | 6 => zeros w 0x020C3F00#32 (.kpopc (fieldAt w 20 5) (fieldAt w 14 4))
  | 7 => zeros w 0x020C3F00#32 (.kfirst (fieldAt w 20 5) (fieldAt w 14 4))
  | 8 => zeros w 0x030C3F00#32 (.kbrkb (fieldAt w 20 4) (fieldAt w 14 4))
  | 9 => zeros w 0x030C3F00#32 (.kbrka (fieldAt w 20 4) (fieldAt w 14 4))
  | 10 => zeros w 0x030C3F00#32 (.kbrko (fieldAt w 20 4) (fieldAt w 14 4))
  | 11 => zeros w 0x03003F00#32 (.kfromv (fieldAt w 20 4) (fieldAt w 14 6))
  | 12 => zeros w 0x000C3F00#32 (.ktov (fieldAt w 20 6) (fieldAt w 14 4))
  | 13 => zeros w 0x03082000#32 (.kset (fieldAt w 20 4) (fieldAt w 14 5) (fieldAt w 8 5))
  | _ => .error .reservedSelector

/-- Major 0x31 (Table 5.2): the instruction its selector names. -/
def pickLoadZ (w : BitVec 32) : Except Reject Instr :=
  match (fieldAt w 2 2).toNat with
  | 0 => zeros w 0x00007E00#32 (.vld ⟨fieldAt w 20 6, fieldAt w 15 5, flagAt w 8, flagAt w 7, fieldAt w 4 3, fieldAt w 0 2⟩)
  | 1 => zeros w 0x00004000#32 (.vldstr ⟨fieldAt w 20 6, fieldAt w 15 5, flagAt w 8, flagAt w 7, fieldAt w 4 3, fieldAt w 0 2⟩ (fieldAt w 9 5))
  | 2 => .ok (.vldx ⟨fieldAt w 20 6, fieldAt w 15 5, flagAt w 8, flagAt w 7, fieldAt w 4 3, fieldAt w 0 2⟩ (fieldAt w 9 6))
  | 3 => zeros w 0x00007E00#32 (.vldff ⟨fieldAt w 20 6, fieldAt w 15 5, flagAt w 8, flagAt w 7, fieldAt w 4 3, fieldAt w 0 2⟩)
  | _ => .error .reservedSelector

/-- Major 0x32 (Table 5.2): the instruction its selector names. -/
def pickLoadS (w : BitVec 32) : Except Reject Instr :=
  match (fieldAt w 2 2).toNat with
  | 0 => zeros w 0x00007E00#32 (.vldSignExtending ⟨fieldAt w 20 6, fieldAt w 15 5, flagAt w 8, flagAt w 7, fieldAt w 4 3, fieldAt w 0 2⟩)
  | 1 => zeros w 0x00004000#32 (.vldstrSignExtending ⟨fieldAt w 20 6, fieldAt w 15 5, flagAt w 8, flagAt w 7, fieldAt w 4 3, fieldAt w 0 2⟩ (fieldAt w 9 5))
  | 2 => .ok (.vldxSignExtending ⟨fieldAt w 20 6, fieldAt w 15 5, flagAt w 8, flagAt w 7, fieldAt w 4 3, fieldAt w 0 2⟩ (fieldAt w 9 6))
  | 3 => zeros w 0x00007E00#32 (.vldffSignExtending ⟨fieldAt w 20 6, fieldAt w 15 5, flagAt w 8, flagAt w 7, fieldAt w 4 3, fieldAt w 0 2⟩)
  | _ => .error .reservedSelector

/-- Major 0x33 (Table 5.2): the instruction its selector names. -/
def pickStore (w : BitVec 32) : Except Reject Instr :=
  match (fieldAt w 2 2).toNat with
  | 0 => zeros w 0x00007E00#32 (.vst ⟨fieldAt w 20 6, fieldAt w 15 5, flagAt w 8, flagAt w 7, fieldAt w 4 3, fieldAt w 0 2⟩)
  | 1 => zeros w 0x00004000#32 (.vststr ⟨fieldAt w 20 6, fieldAt w 15 5, flagAt w 8, flagAt w 7, fieldAt w 4 3, fieldAt w 0 2⟩ (fieldAt w 9 5))
  | 2 => .ok (.vstx ⟨fieldAt w 20 6, fieldAt w 15 5, flagAt w 8, flagAt w 7, fieldAt w 4 3, fieldAt w 0 2⟩ (fieldAt w 9 6))
  | _ => .error .reservedSelector

/-- Major 0x34 (Table 5.2): the instruction its selector names. -/
def pickVamo (w : BitVec 32) : Except Reject Instr :=
  match (fieldAt w 0 3).toNat with
  | 0 => .ok (.vamoAdd ⟨fieldAt w 20 6, fieldAt w 15 5, fieldAt w 9 6, flagAt w 8, fieldAt w 5 3, fieldAt w 3 2⟩)
  | 1 => .ok (.vamoSwap ⟨fieldAt w 20 6, fieldAt w 15 5, fieldAt w 9 6, flagAt w 8, fieldAt w 5 3, fieldAt w 3 2⟩)
  | 2 => .ok (.vamoAnd ⟨fieldAt w 20 6, fieldAt w 15 5, fieldAt w 9 6, flagAt w 8, fieldAt w 5 3, fieldAt w 3 2⟩)
  | 3 => .ok (.vamoOr ⟨fieldAt w 20 6, fieldAt w 15 5, fieldAt w 9 6, flagAt w 8, fieldAt w 5 3, fieldAt w 3 2⟩)
  | 4 => .ok (.vamoXor ⟨fieldAt w 20 6, fieldAt w 15 5, fieldAt w 9 6, flagAt w 8, fieldAt w 5 3, fieldAt w 3 2⟩)
  | 5 => .ok (.vamoMin ⟨fieldAt w 20 6, fieldAt w 15 5, fieldAt w 9 6, flagAt w 8, fieldAt w 5 3, fieldAt w 3 2⟩)
  | 6 => .ok (.vamoMax ⟨fieldAt w 20 6, fieldAt w 15 5, fieldAt w 9 6, flagAt w 8, fieldAt w 5 3, fieldAt w 3 2⟩)
  | 7 => .ok (.vamoCas ⟨fieldAt w 20 6, fieldAt w 15 5, fieldAt w 9 6, flagAt w 8, fieldAt w 5 3, fieldAt w 3 2⟩)
  | _ => .error .reservedSelector

/-- Major 0x35 (Table 5.2): the instruction its selector names. -/
def pickVamo2 (w : BitVec 32) : Except Reject Instr :=
  match (fieldAt w 0 3).toNat with
  | 0 => .ok (.vamoMinu ⟨fieldAt w 20 6, fieldAt w 15 5, fieldAt w 9 6, flagAt w 8, fieldAt w 5 3, fieldAt w 3 2⟩)
  | 1 => .ok (.vamoMaxu ⟨fieldAt w 20 6, fieldAt w 15 5, fieldAt w 9 6, flagAt w 8, fieldAt w 5 3, fieldAt w 3 2⟩)
  | 2 => .ok (.vamoFadd ⟨fieldAt w 20 6, fieldAt w 15 5, fieldAt w 9 6, flagAt w 8, fieldAt w 5 3, fieldAt w 3 2⟩)
  | 3 => .ok (.vamoDip ⟨fieldAt w 20 6, fieldAt w 15 5, fieldAt w 9 6, flagAt w 8, fieldAt w 5 3, fieldAt w 3 2⟩)
  | 4 => .ok (.vhist ⟨fieldAt w 20 6, fieldAt w 15 5, fieldAt w 9 6, flagAt w 8, fieldAt w 5 3, fieldAt w 3 2⟩)
  | _ => .error .reservedSelector

/-- Major 0x36 (Table 5.2): the instruction its selector names. -/
def pickMatrix (w : BitVec 32) : Except Reject Instr :=
  match (fieldAt w 0 6).toNat with
  | 0 => zeros w 0x01FFFFC0#32 (.mzero (flagAt w 25))
  | 1 => zeros w 0x00078000#32 (.mop (flagAt w 25) (fieldAt w 19 6) (fieldAt w 9 6) (fieldAt w 6 3))
  | 2 => .ok (.mopt (flagAt w 25) (fieldAt w 19 6) (fieldAt w 9 10) (fieldAt w 6 3))
  | 3 => .ok (.mopk (flagAt w 25) (fieldAt w 19 6) (fieldAt w 9 10) (fieldAt w 6 3))
  | 4 => zeros w 0x00078000#32 (.mopi (flagAt w 25) (fieldAt w 19 6) (fieldAt w 9 6) (fieldAt w 6 3))
  | 5 => zeros w 0x0107FE00#32 (.mld (flagAt w 25) (fieldAt w 19 5) (fieldAt w 6 3))
  | 6 => zeros w 0x0107FE00#32 (.mst (flagAt w 25) (fieldAt w 19 5) (fieldAt w 6 3))
  | 7 => zeros w 0x0007FE00#32 (.mva (flagAt w 25) (fieldAt w 19 6) (fieldAt w 6 3))
  | 8 => zeros w 0x0007FE00#32 (.mav (flagAt w 25) (fieldAt w 19 6) (fieldAt w 6 3))
  | _ => .error .reservedSelector

/-- Major 0x37 (Table 5.2): the instruction its selector names. -/
def pickSync (w : BitVec 32) : Except Reject Instr :=
  match (fieldAt w 0 4).toNat with
  | 0 => zeros w 0x03FFF800#32 (.fence (flagAt w 10) (flagAt w 9) (flagAt w 8) (flagAt w 7) (fieldAt w 4 3))
  | 1 => zeros w 0x0000FF80#32 (.pfence (fieldAt w 21 5) (fieldAt w 16 5) (fieldAt w 4 3))
  | 2 => zeros w 0x0018FFF0#32 (.arrive (fieldAt w 21 5) (fieldAt w 16 3))
  | 3 => zeros w 0x03F807F0#32 (.bwait (fieldAt w 16 3) (fieldAt w 11 5))
  | 4 => zeros w 0x0300FFF0#32 (.bset (fieldAt w 21 3) (fieldAt w 16 5))
  | 5 => zeros w 0x000007F0#32 (.gmember (fieldAt w 21 5) (fieldAt w 16 5) (fieldAt w 11 5))
  | 6 => zeros w 0x0000FFF0#32 (.gsize (fieldAt w 21 5) (fieldAt w 16 5))
  | 7 => zeros w 0x0000FFF0#32 (.grank (fieldAt w 21 5) (fieldAt w 16 5))
  | 8 => zeros w 0x0000FFF0#32 (.lfork (fieldAt w 21 5) (fieldAt w 16 5))
  | 9 => zeros w 0x03FFFFF0#32 (.ljoin)
  | _ => .error .reservedSelector

/-- Major 0x38 (Table 5.2): the instruction its selector names. -/
def pickCopy (w : BitVec 32) : Except Reject Instr :=
  match (fieldAt w 0 4).toNat with
  | 0 => zeros w 0x000007E0#32 (.cpy (fieldAt w 21 5) (fieldAt w 16 5) (fieldAt w 11 5) (flagAt w 4))
  | 1 => zeros w 0x000007F0#32 (.cpyw (fieldAt w 21 5) (fieldAt w 16 5) (fieldAt w 11 5))
  | 2 => zeros w 0x03FFFFF0#32 (.cbatch)
  | 3 => zeros w 0x03E0FFF0#32 (.cwait (fieldAt w 16 5))
  | 4 => zeros w 0x03E0FFF0#32 (.csleep (fieldAt w 16 5))
  | 5 => zeros w 0x001FFFF0#32 (.rdcnt (fieldAt w 21 5))
  | _ => .error .reservedSelector

/-- Major 0x39 (Table 5.2): the instruction its selector names. `xwait` names no element format, and its fn[7:4] has to be zero
(DESIGN CHOICE, log entry 49). -/
def pickColl (w : BitVec 32) : Except Reject Instr :=
  match (fieldAt w 0 4).toNat with
  | 0 => zeros w 0x00000700#32 (.xred (fieldAt w 21 5) (fieldAt w 16 5) (fieldAt w 11 5) (fieldAt w 4 4))
  | 1 => zeros w 0x00000700#32 (.xbc (fieldAt w 21 5) (fieldAt w 16 5) (fieldAt w 11 5) (fieldAt w 4 4))
  | 2 => zeros w 0x00000700#32 (.xag (fieldAt w 21 5) (fieldAt w 16 5) (fieldAt w 11 5) (fieldAt w 4 4))
  | 3 => zeros w 0x001FFFF0#32 (.xwait (fieldAt w 21 5))
  | _ => .error .reservedSelector

/-- Major 0x3A (Table 5.2): the instruction its selector names. -/
def pickName (w : BitVec 32) : Except Reject Instr :=
  match (fieldAt w 0 4).toNat with
  | 0 => zeros w 0x0000FFF0#32 (.nnew (fieldAt w 21 5) (fieldAt w 16 5))
  | 1 => zeros w 0x0000FFF0#32 (.nres (fieldAt w 21 5) (fieldAt w 16 5))
  | 2 => zeros w 0x03E0FFF0#32 (.nkill (fieldAt w 16 5))
  | 3 => zeros w 0x000007F0#32 (.ncas (fieldAt w 21 5) (fieldAt w 16 5) (fieldAt w 11 5))
  | 4 => zeros w 0x000007F0#32 (.tbind (fieldAt w 21 5) (fieldAt w 16 5) (fieldAt w 11 5))
  | 5 => zeros w 0x03E0FFF0#32 (.tunbind (fieldAt w 16 5))
  | 6 => zeros w 0x0000FFF0#32 (.tq (fieldAt w 21 5) (fieldAt w 16 5))
  | 7 => zeros w 0x03E007F0#32 (.orset (fieldAt w 16 5) (fieldAt w 11 5))
  | 8 => zeros w 0x03E0FFF0#32 (.orclr (fieldAt w 16 5))
  | _ => .error .reservedSelector

/-- Major 0x3B (Table 5.2): the instruction its selector names. -/
def pickVml (w : BitVec 32) : Except Reject Instr :=
  match (fieldAt w 0 2).toNat with
  | 0 => zeros w 0x00003FA0#32 (.smerge ⟨fieldAt w 20 6, fieldAt w 14 6, flagAt w 6, fieldAt w 2 3⟩)
  | 1 => .ok (.vrng ⟨fieldAt w 20 6, fieldAt w 14 6, fieldAt w 8 6, flagAt w 7, flagAt w 6, flagAt w 5, fieldAt w 2 3⟩)
  | 2 => .ok (.vexpd ⟨fieldAt w 20 6, fieldAt w 14 6, fieldAt w 8 6, flagAt w 7, flagAt w 6, flagAt w 5, fieldAt w 2 3⟩)
  | _ => .error .reservedSelector

/-- Major 0x3C (Table 5.2): the instruction its selector names. -/
def pickSeq (w : BitVec 32) : Except Reject Instr :=
  match (fieldAt w 0 4).toNat with
  | 0 => zeros w 0x000007F0#32 (.glean (fieldAt w 21 5) (fieldAt w 16 5) (fieldAt w 11 5))
  | 1 => zeros w 0x000007F0#32 (.gadv (fieldAt w 21 5) (fieldAt w 16 5) (fieldAt w 11 5))
  | 2 => zeros w 0x000007F0#32 (.lenq (fieldAt w 21 5) (fieldAt w 16 5) (fieldAt w 11 5))
  | _ => .error .reservedSelector

/-- Major 0x3D (Table 5.2): the instruction its selector names. -/
def pickLegacy (w : BitVec 32) : Except Reject Instr :=
  match (fieldAt w 0 4).toNat with
  | 0 => zeros w 0x00000780#32 (.vfredo (fieldAt w 21 5) (fieldAt w 16 5) (fieldAt w 11 5) (fieldAt w 4 3))
  | 1 => .ok (.mop8 (fieldAt w 21 5) (fieldAt w 16 5) (fieldAt w 11 5) (fieldAt w 4 7))
  | 2 => .error .removed
  | _ => .error .reservedSelector

/-- The instruction a word's major and selector name, with its fields (R116); the codes in the fields are not yet checked. -/
def pick (w : BitVec 32) : Except Reject Instr :=
  match (fieldAt w 26 6).toNat with
  | 0 => pickSys w
  | 1 => pickAlu w
  | 2 => .ok (.addi (fieldAt w 21 5) (fieldAt w 16 5) (fieldAt w 0 16))
  | 3 => .ok (.andi (fieldAt w 21 5) (fieldAt w 16 5) (fieldAt w 0 16))
  | 4 => .ok (.ori (fieldAt w 21 5) (fieldAt w 16 5) (fieldAt w 0 16))
  | 5 => .ok (.xori (fieldAt w 21 5) (fieldAt w 16 5) (fieldAt w 0 16))
  | 6 => .ok (.slti (fieldAt w 21 5) (fieldAt w 16 5) (fieldAt w 0 16))
  | 7 => .ok (.sltiu (fieldAt w 21 5) (fieldAt w 16 5) (fieldAt w 0 16))
  | 8 => pickShift w
  | 9 => zeros w 0x001C0000#32 (.lins (fieldAt w 21 5) (fieldAt w 16 2) (fieldAt w 0 16))
  | 10 => zeros w 0x001F0000#32 (.addpc (fieldAt w 21 5) (fieldAt w 0 16))
  | 11 => .ok (.ld (fieldAt w 21 5) (fieldAt w 16 5) (fieldAt w 12 4) (fieldAt w 0 12))
  | 12 => .ok (.st (fieldAt w 21 5) (fieldAt w 16 5) (fieldAt w 12 4) (fieldAt w 0 12))
  | 13 => pickIndexed w
  | 14 => pickAtomic w
  | 15 => pickWait w
  | 16 => .ok (.beq (fieldAt w 21 5) (fieldAt w 16 5) (flagAt w 15) (fieldAt w 0 15))
  | 17 => .ok (.bne (fieldAt w 21 5) (fieldAt w 16 5) (flagAt w 15) (fieldAt w 0 15))
  | 18 => .ok (.blt (fieldAt w 21 5) (fieldAt w 16 5) (flagAt w 15) (fieldAt w 0 15))
  | 19 => .ok (.bge (fieldAt w 21 5) (fieldAt w 16 5) (flagAt w 15) (fieldAt w 0 15))
  | 20 => .ok (.bltu (fieldAt w 21 5) (fieldAt w 16 5) (flagAt w 15) (fieldAt w 0 15))
  | 21 => .ok (.bgeu (fieldAt w 21 5) (fieldAt w 16 5) (flagAt w 15) (fieldAt w 0 15))
  | 22 => .ok (.j (fieldAt w 0 26))
  | 23 => .ok (.jal (fieldAt w 0 26))
  | 24 => pickJump w
  | 25 => .ok (.smine (fieldAt w 21 5) (fieldAt w 17 4) (flagAt w 16) (flagAt w 15) (fieldAt w 0 15))
  | 26 => zeros w 0x003F8000#32 (.ubrk (fieldAt w 22 4) (fieldAt w 0 15))
  | 27 => zeros w 0x000F0000#32 (.vbx (fieldAt w 22 4) (fieldAt w 20 2) (flagAt w 15) (fieldAt w 0 15))
  | 28 => zeros w 0x0000000F#32 (.rpt (fieldAt w 22 4) (fieldAt w 16 6) (fieldAt w 12 4) (fieldAt w 8 4) (fieldAt w 4 4))
  | 29 => pickShape w
  | 30 => pickVi0 w
  | 31 => pickVi1 w
  | 32 => pickVi2 w
  | 33 => pickVi3 w
  | 34 => pickVi4 w
  | 35 => pickVi5 w
  | 36 => pickVi6 w
  | 37 => pickVi7 w
  | 38 => .ok (.vcmp (fieldAt w 22 4) (fieldAt w 18 4) (fieldAt w 12 6) (fieldAt w 6 6) (flagAt w 5) (fieldAt w 2 3) (fieldAt w 0 2))
  | 39 => pickVf0 w
  | 40 => pickVf1 w
  | 41 => pickVf2 w
  | 42 => pickVf3 w
  | 43 => pickVf4 w
  | 44 => .ok (.vcvt (fieldAt w 20 6) (fieldAt w 14 6) (fieldAt w 11 3) (flagAt w 10) (fieldAt w 8 2) (fieldAt w 4 4) (fieldAt w 0 4))
  | 45 => pickVred0 w
  | 46 => pickVred1 w
  | 47 => pickPerm w
  | 48 => pickMask w
  | 49 => pickLoadZ w
  | 50 => pickLoadS w
  | 51 => pickStore w
  | 52 => pickVamo w
  | 53 => pickVamo2 w
  | 54 => pickMatrix w
  | 55 => pickSync w
  | 56 => pickCopy w
  | 57 => pickColl w
  | 58 => pickName w
  | 59 => pickVml w
  | 60 => pickSeq w
  | 61 => pickLegacy w
  | _ => .error .reservedMajor

/-- Decoding of one word (R112, R123): the instruction, or why the word traps ILLEGAL. -/
def decode (w : BitVec 32) : Except Reject Instr :=
  match pick w with
  | .error e => .error e
  | .ok i => if i.wf then .ok i else .error .badField

/-- The word that the first four bytes form, little-endian (R2, R112), and the bytes after it. -/
def wordOf : List Byte → Option (BitVec 32 × List Byte)
  | a :: b :: c :: d :: rest => some (d ++ c ++ b ++ a, rest)
  | _ => none

/-- Decoding of bytes: the instruction and the bytes after it. -/
def decodeBytes (bs : List Byte) : Except Reject (Instr × List Byte) :=
  match wordOf bs with
  | none => .error .tooShort
  | some (w, rest) =>
    match decode w with
    | .error e => .error e
    | .ok i => .ok (i, rest)

/-- The bytes of a word as memory holds them (R112). -/
def bytesOfWord (w : BitVec 32) : List Byte := [fieldAt w 0 8, fieldAt w 8 8, fieldAt w 16 8, fieldAt w 24 8]

/-- The instruction that the decoder reads from a table word: `w` laid out as memory holds it, four bytes, the bits above
`nbits` zero. -/
def decodeTableWord (nbits w : Nat) : Option Instr :=
  match decodeBytes (bytesOfWord (BitVec.ofNat 32 (w % 2 ^ (min nbits 32)))) with
  | .ok (i, _) => some i
  | .error _ => none

/-- One bit from a truth value. -/
def ofBit (b : Bool) : BitVec 1 := BitVec.ofBool b

/-- Format A (Table 5.1). -/
def packA (op : BitVec 6) (rd ra rb : BitVec 5) (fn : BitVec 11) : BitVec 32 := op ++ rd ++ ra ++ rb ++ fn
/-- Format I. -/
def packI (op : BitVec 6) (rd ra : BitVec 5) (imm : BitVec 16) : BitVec 32 := op ++ rd ++ ra ++ imm
/-- Format L. -/
def packL (op : BitVec 6) (rd ra : BitVec 5) (fn : BitVec 4) (off : BitVec 12) : BitVec 32 := op ++ rd ++ ra ++ fn ++ off
/-- Format B. -/
def packB (op : BitVec 6) (ra rb : BitVec 5) (n : Bool) (off : BitVec 15) : BitVec 32 := op ++ ra ++ rb ++ ofBit n ++ off
/-- Format J. -/
def packJ (op : BitVec 6) (off : BitVec 26) : BitVec 32 := op ++ off
/-- Format SM. -/
def packSM (op : BitVec 6) (rc : BitVec 5) (pm : BitVec 4) (row n : Bool) (off : BitVec 15) : BitVec 32 :=
  op ++ rc ++ pm ++ ofBit row ++ ofBit n ++ off
/-- Format VB. -/
def packVB (op : BitVec 6) (k : BitVec 4) (c : BitVec 2) (n : Bool) (off : BitVec 15) : BitVec 32 :=
  op ++ k ++ c ++ 0#4 ++ ofBit n ++ off
/-- Format RP. -/
def packRP (op : BitVec 6) (cnt : BitVec 4) (reps : BitVec 6) (sd sa sb : BitVec 4) : BitVec 32 :=
  op ++ cnt ++ reps ++ sd ++ sa ++ sb ++ 0#4
/-- Format V. -/
def packV (op : BitVec 6) (f : VArgs) (fn : BitVec 2) : BitVec 32 :=
  op ++ f.vd ++ f.va ++ f.vb ++ ofBit f.s ++ ofBit f.ca ++ ofBit f.cb ++ f.km ++ fn
/-- Format C. -/
def packC (op : BitVec 6) (kd cc : BitVec 4) (va vb : BitVec 6) (s : Bool) (km : BitVec 3) (ty : BitVec 2) : BitVec 32 :=
  op ++ kd ++ cc ++ va ++ vb ++ ofBit s ++ km ++ ty
/-- Format K. -/
def packK (op : BitVec 6) (d a b : BitVec 6) (fn : BitVec 8) : BitVec 32 := op ++ d ++ a ++ b ++ fn
/-- Format M. -/
def packM (op : BitVec 6) (f : MArgs) (ix : BitVec 6) (mode : BitVec 2) : BitVec 32 :=
  op ++ f.v ++ f.sb ++ ix ++ ofBit f.o ++ ofBit f.x ++ f.km ++ mode ++ f.w
/-- Format AV. -/
def packAV (op : BitVec 6) (f : AVArgs) (fn : BitVec 3) : BitVec 32 :=
  op ++ f.v ++ f.sb ++ f.vx ++ ofBit f.o ++ f.sc ++ f.km ++ fn
/-- Format X. -/
def packX (ac : Bool) (va : BitVec 6) (b : BitVec 10) (km : BitVec 3) (fn : BitVec 6) : BitVec 32 :=
  54#6 ++ ofBit ac ++ va ++ b ++ km ++ fn
/-- Format S. -/
def packS (rd ra fn : BitVec 5) (imm : BitVec 11) : BitVec 32 := 0#6 ++ rd ++ ra ++ fn ++ imm

/-- The word of an instruction (Tables 5.1 to 5.12); none for an event, which has no word. -/
def encode : Instr → Option (BitVec 32)
  | .trap code => some (packS 0#5 0#5 0#5 code)
  | .eret => some (packS 0#5 0#5 1#5 0#11)
  | .brk code => some (packS 0#5 0#5 2#5 code)
  | .halt => some (packS 0#5 0#5 3#5 0#11)
  | .crd rd cr => some (packS rd 0#5 4#5 cr)
  | .cwr ra cr => some (packS 0#5 ra 5#5 cr)
  | .crs rd ra cr => some (packS rd ra 6#5 cr)
  | .crc rd ra cr => some (packS rd ra 7#5 cr)
  | .uloop h => some (packS 0#5 0#5 8#5 (0#9 ++ h))
  | .ecls n => some (packS 0#5 0#5 9#5 (0#8 ++ n))
  | .nop => some (packS 0#5 0#5 10#5 0#11)
  | .add rd ra rb => some (packA 1#6 rd ra rb 0#11)
  | .sub rd ra rb => some (packA 1#6 rd ra rb 1#11)
  | .and rd ra rb => some (packA 1#6 rd ra rb 2#11)
  | .or rd ra rb => some (packA 1#6 rd ra rb 3#11)
  | .xor rd ra rb => some (packA 1#6 rd ra rb 4#11)
  | .andn rd ra rb => some (packA 1#6 rd ra rb 5#11)
  | .sll rd ra rb => some (packA 1#6 rd ra rb 6#11)
  | .srl rd ra rb => some (packA 1#6 rd ra rb 7#11)
  | .sra rd ra rb => some (packA 1#6 rd ra rb 8#11)
  | .slt rd ra rb => some (packA 1#6 rd ra rb 9#11)
  | .sltu rd ra rb => some (packA 1#6 rd ra rb 10#11)
  | .min rd ra rb => some (packA 1#6 rd ra rb 11#11)
  | .max rd ra rb => some (packA 1#6 rd ra rb 12#11)
  | .minu rd ra rb => some (packA 1#6 rd ra rb 13#11)
  | .maxu rd ra rb => some (packA 1#6 rd ra rb 14#11)
  | .mul rd ra rb => some (packA 1#6 rd ra rb 16#11)
  | .mulh rd ra rb => some (packA 1#6 rd ra rb 17#11)
  | .mulhu rd ra rb => some (packA 1#6 rd ra rb 18#11)
  | .div rd ra rb => some (packA 1#6 rd ra rb 20#11)
  | .divu rd ra rb => some (packA 1#6 rd ra rb 21#11)
  | .rem rd ra rb => some (packA 1#6 rd ra rb 22#11)
  | .remu rd ra rb => some (packA 1#6 rd ra rb 23#11)
  | .clz rd ra => some (packA 1#6 rd ra 0#5 24#11)
  | .ctz rd ra => some (packA 1#6 rd ra 0#5 25#11)
  | .popc rd ra => some (packA 1#6 rd ra 0#5 26#11)
  | .addi rd ra imm => some (packI 2#6 rd ra imm)
  | .andi rd ra imm => some (packI 3#6 rd ra imm)
  | .ori rd ra imm => some (packI 4#6 rd ra imm)
  | .xori rd ra imm => some (packI 5#6 rd ra imm)
  | .slti rd ra imm => some (packI 6#6 rd ra imm)
  | .sltiu rd ra imm => some (packI 7#6 rd ra imm)
  | .slli rd ra n => some (packI 8#6 rd ra (0#2 ++ 0#8 ++ n))
  | .srli rd ra n => some (packI 8#6 rd ra (1#2 ++ 0#8 ++ n))
  | .srai rd ra n => some (packI 8#6 rd ra (2#2 ++ 0#8 ++ n))
  | .lins rd slot imm => some (packI 9#6 rd (0#3 ++ slot) imm)
  | .addpc rd imm => some (packI 10#6 rd 0#5 imm)
  | .ld rd ra w off => some (packL 11#6 rd ra w off)
  | .st rd ra w off => some (packL 12#6 rd ra w off)
  | .ldx rd ra rb w => some (packA 13#6 rd ra rb (0#6 ++ 0#1 ++ w))
  | .stx rd ra rb w => some (packA 13#6 rd ra rb (0#6 ++ 1#1 ++ w))
  | .amo f op => some (packA 14#6 f.rd f.ra f.rb (0#1 ++ ofBit f.rl ++ ofBit f.aq ++ f.sc ++ ofBit f.d ++ op))
  | .cas f => some (packA 14#6 f.rd f.ra f.rb (0#1 ++ ofBit f.rl ++ ofBit f.aq ++ f.sc ++ ofBit f.d ++ 10#4))
  | .waddr rd ra rb => some (packA 15#6 rd ra rb 0#11)
  | .wake rd ra rb => some (packA 15#6 rd ra rb 1#11)
  | .beq ra rb n off => some (packB 16#6 ra rb n off)
  | .bne ra rb n off => some (packB 17#6 ra rb n off)
  | .blt ra rb n off => some (packB 18#6 ra rb n off)
  | .bge ra rb n off => some (packB 19#6 ra rb n off)
  | .bltu ra rb n off => some (packB 20#6 ra rb n off)
  | .bgeu ra rb n off => some (packB 21#6 ra rb n off)
  | .j off => some (packJ 22#6 off)
  | .jal off => some (packJ 23#6 off)
  | .jr ra => some (packA 24#6 0#5 ra 0#5 0#11)
  | .jalr rd ra => some (packA 24#6 rd ra 0#5 1#11)
  | .smine rc pm row n off => some (packSM 25#6 rc pm row n off)
  | .ubrk k off => some (packVB 26#6 k 0#2 false off)
  | .vbx k c n off => some (packVB 27#6 k c n off)
  | .rpt cnt reps sd sa sb => some (packRP 28#6 cnt reps sd sa sb)
  | .vshape rd ra rb ew => some (packA 29#6 rd ra rb (0#7 ++ ew ++ 0#2))
  | .vcfg ra => some (packA 29#6 0#5 ra 0#5 1#11)
  | .klen kd ra ew => some (packA 29#6 (0#1 ++ kd) ra 0#5 (0#7 ++ ew ++ 2#2))
  | .vadd f => some (packV 30#6 f 0#2)
  | .vsub f => some (packV 30#6 f 1#2)
  | .vrsub f => some (packV 30#6 f 2#2)
  | .vmul f => some (packV 30#6 f 3#2)
  | .vmulh f => some (packV 31#6 f 0#2)
  | .vmulhu f => some (packV 31#6 f 1#2)
  | .vdiv f => some (packV 31#6 f 2#2)
  | .vdivu f => some (packV 31#6 f 3#2)
  | .vrem f => some (packV 32#6 f 0#2)
  | .vremu f => some (packV 32#6 f 1#2)
  | .vmin f => some (packV 32#6 f 2#2)
  | .vmax f => some (packV 32#6 f 3#2)
  | .vminu f => some (packV 33#6 f 0#2)
  | .vmaxu f => some (packV 33#6 f 1#2)
  | .vand f => some (packV 33#6 f 2#2)
  | .vor f => some (packV 33#6 f 3#2)
  | .vxor f => some (packV 34#6 f 0#2)
  | .vandn f => some (packV 34#6 f 1#2)
  | .vsll f => some (packV 34#6 f 2#2)
  | .vsrl f => some (packV 34#6 f 3#2)
  | .vsra f => some (packV 35#6 f 0#2)
  | .vsadd f => some (packV 35#6 f 1#2)
  | .vssub f => some (packV 35#6 f 2#2)
  | .vsaddu f => some (packV 35#6 f 3#2)
  | .vssubu f => some (packV 36#6 f 0#2)
  | .vmerge f => some (packV 36#6 f 1#2)
  | .vclz f => some (packV 36#6 ⟨f.vd, f.va, 0#6, false, f.ca, false, f.km⟩ 2#2)
  | .vpopc f => some (packV 36#6 ⟨f.vd, f.va, 0#6, false, f.ca, false, f.km⟩ 3#2)
  | .vmacc f => some (packV 37#6 f 0#2)
  | .vnmsac f => some (packV 37#6 f 1#2)
  | .vabsd f => some (packV 37#6 f 2#2)
  | .vmulq f => some (packV 37#6 f 3#2)
  | .vcmp kd cc va vb s km ty => some (packC 38#6 kd cc va vb s km ty)
  | .vfadd f => some (packV 39#6 f 0#2)
  | .vfsub f => some (packV 39#6 f 1#2)
  | .vfmul f => some (packV 39#6 f 2#2)
  | .vfdiv f => some (packV 39#6 f 3#2)
  | .vfma f => some (packV 40#6 f 0#2)
  | .vfms f => some (packV 40#6 f 1#2)
  | .vfnma f => some (packV 40#6 f 2#2)
  | .vfmin f => some (packV 40#6 f 3#2)
  | .vfmax f => some (packV 41#6 f 0#2)
  | .vfsgnj f => some (packV 41#6 f 1#2)
  | .vfsgnjn f => some (packV 41#6 f 2#2)
  | .vfsgnjx f => some (packV 41#6 f 3#2)
  | .vfsqrt f => some (packV 42#6 ⟨f.vd, f.va, 0#6, false, f.ca, false, f.km⟩ 0#2)
  | .vfrcp f => some (packV 42#6 ⟨f.vd, f.va, 0#6, false, f.ca, false, f.km⟩ 1#2)
  | .vfrsq f => some (packV 42#6 ⟨f.vd, f.va, 0#6, false, f.ca, false, f.km⟩ 2#2)
  | .vfexp2 f => some (packV 42#6 ⟨f.vd, f.va, 0#6, false, f.ca, false, f.km⟩ 3#2)
  | .vflog2 f => some (packV 43#6 ⟨f.vd, f.va, 0#6, false, f.ca, false, f.km⟩ 0#2)
  | .vfsigm f => some (packV 43#6 ⟨f.vd, f.va, 0#6, false, f.ca, false, f.km⟩ 1#2)
  | .vftanh f => some (packV 43#6 ⟨f.vd, f.va, 0#6, false, f.ca, false, f.km⟩ 2#2)
  | .vfcls f => some (packV 43#6 ⟨f.vd, f.va, 0#6, false, f.ca, false, f.km⟩ 3#2)
  | .vcvt vd va rm sat km dst src => some (packK 44#6 vd va (rm ++ ofBit sat ++ km) (dst ++ src))
  | .vredsum f => some (packV 45#6 f 0#2)
  | .vredmax f => some (packV 45#6 f 1#2)
  | .vredmin f => some (packV 45#6 f 2#2)
  | .vredor f => some (packV 45#6 f 3#2)
  | .vfredsum f => some (packV 46#6 f 0#2)
  | .vfredmax f => some (packV 46#6 f 1#2)
  | .vfredmin f => some (packV 46#6 f 2#2)
  | .vredand f => some (packV 46#6 f 3#2)
  | .vmv vd va k => some (packK 47#6 vd va 0#6 (0#4 ++ k))
  | .vmvs vd ra k => some (packK 47#6 vd (0#1 ++ ra) 0#6 (1#4 ++ k))
  | .vmvx rd va rb => some (packK 47#6 (0#1 ++ rd) va (0#1 ++ rb) (2#4 ++ 0#4))
  | .vslideup vd va rb k => some (packK 47#6 vd va (0#1 ++ rb) (3#4 ++ k))
  | .vslidedn vd va rb k => some (packK 47#6 vd va (0#1 ++ rb) (4#4 ++ k))
  | .vslide1up vd va rb k => some (packK 47#6 vd va (0#1 ++ rb) (5#4 ++ k))
  | .vslide1dn vd va rb k => some (packK 47#6 vd va (0#1 ++ rb) (6#4 ++ k))
  | .vgather vd va vb k => some (packK 47#6 vd va vb (7#4 ++ k))
  | .vcompress vd va k => some (packK 47#6 vd va 0#6 (8#4 ++ k))
  | .vexpand vd va k => some (packK 47#6 vd va 0#6 (9#4 ++ k))
  | .viota vd ka k => some (packK 47#6 vd (0#2 ++ ka) 0#6 (10#4 ++ k))
  | .vid vd k => some (packK 47#6 vd 0#6 0#6 (11#4 ++ k))
  | .vtrans vd va k => some (packK 47#6 vd va 0#6 (12#4 ++ k))
  | .vrowbc vd va rb k => some (packK 47#6 vd va (0#1 ++ rb) (13#4 ++ k))
  | .kand kd ka kb => some (packK 48#6 (0#2 ++ kd) (0#2 ++ ka) (0#2 ++ kb) 0#8)
  | .kor kd ka kb => some (packK 48#6 (0#2 ++ kd) (0#2 ++ ka) (0#2 ++ kb) 1#8)
  | .kxor kd ka kb => some (packK 48#6 (0#2 ++ kd) (0#2 ++ ka) (0#2 ++ kb) 2#8)
  | .kandn kd ka kb => some (packK 48#6 (0#2 ++ kd) (0#2 ++ ka) (0#2 ++ kb) 3#8)
  | .knot kd ka => some (packK 48#6 (0#2 ++ kd) (0#2 ++ ka) 0#6 4#8)
  | .kmv kd ka => some (packK 48#6 (0#2 ++ kd) (0#2 ++ ka) 0#6 5#8)
  | .kpopc rd ka => some (packK 48#6 (0#1 ++ rd) (0#2 ++ ka) 0#6 6#8)
  | .kfirst rd ka => some (packK 48#6 (0#1 ++ rd) (0#2 ++ ka) 0#6 7#8)
  | .kbrkb kd ka => some (packK 48#6 (0#2 ++ kd) (0#2 ++ ka) 0#6 8#8)
  | .kbrka kd ka => some (packK 48#6 (0#2 ++ kd) (0#2 ++ ka) 0#6 9#8)
  | .kbrko kd ka => some (packK 48#6 (0#2 ++ kd) (0#2 ++ ka) 0#6 10#8)
  | .kfromv kd va => some (packK 48#6 (0#2 ++ kd) va 0#6 11#8)
  | .ktov vd ka => some (packK 48#6 vd (0#2 ++ ka) 0#6 12#8)
  | .kset kd ra rb => some (packK 48#6 (0#2 ++ kd) (0#1 ++ ra) (0#1 ++ rb) 13#8)
  | .vld f => some (packM 49#6 f 0#6 0#2)
  | .vldstr f st => some (packM 49#6 f (0#1 ++ st) 1#2)
  | .vldx f vi => some (packM 49#6 f vi 2#2)
  | .vldff f => some (packM 49#6 f 0#6 3#2)
  | .vldSignExtending f => some (packM 50#6 f 0#6 0#2)
  | .vldstrSignExtending f st => some (packM 50#6 f (0#1 ++ st) 1#2)
  | .vldxSignExtending f vi => some (packM 50#6 f vi 2#2)
  | .vldffSignExtending f => some (packM 50#6 f 0#6 3#2)
  | .vst f => some (packM 51#6 f 0#6 0#2)
  | .vststr f st => some (packM 51#6 f (0#1 ++ st) 1#2)
  | .vstx f vi => some (packM 51#6 f vi 2#2)
  | .vamoAdd f => some (packAV 52#6 f 0#3)
  | .vamoSwap f => some (packAV 52#6 f 1#3)
  | .vamoAnd f => some (packAV 52#6 f 2#3)
  | .vamoOr f => some (packAV 52#6 f 3#3)
  | .vamoXor f => some (packAV 52#6 f 4#3)
  | .vamoMin f => some (packAV 52#6 f 5#3)
  | .vamoMax f => some (packAV 52#6 f 6#3)
  | .vamoCas f => some (packAV 52#6 f 7#3)
  | .vamoMinu f => some (packAV 53#6 f 0#3)
  | .vamoMaxu f => some (packAV 53#6 f 1#3)
  | .vamoFadd f => some (packAV 53#6 f 2#3)
  | .vamoDip f => some (packAV 53#6 f 3#3)
  | .vhist f => some (packAV 53#6 f 4#3)
  | .mzero ac => some (packX ac 0#6 0#10 0#3 0#6)
  | .mop ac va vb km => some (packX ac va (0#4 ++ vb) km 1#6)
  | .mopt ac va tid km => some (packX ac va tid km 2#6)
  | .mopk ac va tid km => some (packX ac va tid km 3#6)
  | .mopi ac va vb km => some (packX ac va (0#4 ++ vb) km 4#6)
  | .mld ac sb km => some (packX ac (0#1 ++ sb) 0#10 km 5#6)
  | .mst ac sb km => some (packX ac (0#1 ++ sb) 0#10 km 6#6)
  | .mva ac vd km => some (packX ac vd 0#10 km 7#6)
  | .mav ac va km => some (packX ac va 0#10 km 8#6)
  | .fence ll ls sl ss sc => some (packA 55#6 0#5 0#5 0#5 (ofBit ll ++ ofBit ls ++ ofBit sl ++ ofBit ss ++ sc ++ 0#4))
  | .pfence p q sc => some (packA 55#6 p q 0#5 (0#4 ++ sc ++ 1#4))
  | .arrive rd b => some (packA 55#6 rd (0#2 ++ b) 0#5 (0#7 ++ 2#4))
  | .bwait b rb => some (packA 55#6 0#5 (0#2 ++ b) rb (0#7 ++ 3#4))
  | .bset b ra => some (packA 55#6 (0#2 ++ b) ra 0#5 (0#7 ++ 4#4))
  | .gmember rd ra rb => some (packA 55#6 rd ra rb (0#7 ++ 5#4))
  | .gsize rd ra => some (packA 55#6 rd ra 0#5 (0#7 ++ 6#4))
  | .grank rd ra => some (packA 55#6 rd ra 0#5 (0#7 ++ 7#4))
  | .lfork rd ra => some (packA 55#6 rd ra 0#5 (0#7 ++ 8#4))
  | .ljoin => some (packA 55#6 0#5 0#5 0#5 (0#7 ++ 9#4))
  | .cpy rd ra rb twoD => some (packA 56#6 rd ra rb (0#6 ++ ofBit twoD ++ 0#4))
  | .cpyw rd ra rb => some (packA 56#6 rd ra rb (0#7 ++ 1#4))
  | .cbatch => some (packA 56#6 0#5 0#5 0#5 (0#7 ++ 2#4))
  | .cwait ra => some (packA 56#6 0#5 ra 0#5 (0#7 ++ 3#4))
  | .csleep ra => some (packA 56#6 0#5 ra 0#5 (0#7 ++ 4#4))
  | .rdcnt rd => some (packA 56#6 rd 0#5 0#5 (0#7 ++ 5#4))
  | .xred rd ra rb fmt => some (packA 57#6 rd ra rb (0#3 ++ fmt ++ 0#4))
  | .xbc rd ra rb fmt => some (packA 57#6 rd ra rb (0#3 ++ fmt ++ 1#4))
  | .xag rd ra rb fmt => some (packA 57#6 rd ra rb (0#3 ++ fmt ++ 2#4))
  | .xwait rd => some (packA 57#6 rd 0#5 0#5 (0#7 ++ 3#4))
  | .nnew rd ra => some (packA 58#6 rd ra 0#5 (0#7 ++ 0#4))
  | .nres rd ra => some (packA 58#6 rd ra 0#5 (0#7 ++ 1#4))
  | .nkill ra => some (packA 58#6 0#5 ra 0#5 (0#7 ++ 2#4))
  | .ncas rd ra rb => some (packA 58#6 rd ra rb (0#7 ++ 3#4))
  | .tbind rd ra rb => some (packA 58#6 rd ra rb (0#7 ++ 4#4))
  | .tunbind ra => some (packA 58#6 0#5 ra 0#5 (0#7 ++ 5#4))
  | .tq rd ra => some (packA 58#6 rd ra 0#5 (0#7 ++ 6#4))
  | .orset ra rb => some (packA 58#6 0#5 ra rb (0#7 ++ 7#4))
  | .orclr ra => some (packA 58#6 0#5 ra 0#5 (0#7 ++ 8#4))
  | .smerge f => some (packV 59#6 ⟨f.vd, f.va, 0#6, false, f.ca, false, f.km⟩ 0#2)
  | .vrng f => some (packV 59#6 f 1#2)
  | .vexpd f => some (packV 59#6 f 2#2)
  | .glean rd ra rb => some (packA 60#6 rd ra rb (0#7 ++ 0#4))
  | .gadv rd ra rb => some (packA 60#6 rd ra rb (0#7 ++ 1#4))
  | .lenq rd ra rb => some (packA 60#6 rd ra rb (0#7 ++ 2#4))
  | .vfredo vd va vb km => some (packA 61#6 vd va vb (0#4 ++ km ++ 0#4))
  | .mop8 rd ra rb fn => some (packA 61#6 rd ra rb (fn ++ 1#4))
  | .annulledStep => none
  | .ubrkResolve => none
  | .postedTrapDelivery => none
  | .asyncEventTake => none
  | .shiftedLaneMismatch _ _ => none
  | .preempt => none
  | .imageWriteComplete _ => none
  | .strandBind _ => none
  | .harrowSweepEnd _ _ => none
  | .restore _ => none
  | .launchAccept _ => none
  | .launchComplete _ => none
  | .watchdogExpire _ => none
  | .quantumExpire _ => none
  | .bindRecordWrite _ _ => none
  | .queueCreate _ _ _ _ _ => none
  | .grantAdd _ _ => none
  | .tombstone _ => none
  | .copyComplete _ => none
  | .copyStop _ => none
  | .csleepExpire _ => none
  | .collectiveComplete _ => none
  | .headlandLinkFail _ => none
  | .monitorEvict _ => none
  | .serialBlockReserve => none
  | .powerLoopWindow _ _ => none
  | .energyRefill => none
  | .scrubRead _ _ => none
  | .scrubRateUpdate _ => none
  | .moduleReset _ _ _ _ _ => none
  | .serviceLevelRaise => none
  | .doorbell _ _ _ => none
  | .hostBar2Access _ _ _ => none
  | .peerAccess _ _ _ => none
  | .attestationQuote _ => none
  | .debugRead _ => none
  | .debugWrite _ _ _ => none
  | .rangeInAsid _ _ _ => none
  | .wholeAsid _ => none
  | .everyAsid => none
  | .unpoisonFrame _ => none
  | .create _ => none
  | .destroy _ => none
  | .revoke _ _ => none
  | .tcmdbReserved => none
  | .elogpop => none
  | .registerWrite _ _ => none
  | .discardSavedContext _ => none
  | .debugHalt _ => none
  | .debugResume _ => none
  | .headlandLinkTrained _ => none
  | .lpddr6Retraining _ => none
  | .linkEqualisation _ => none
  | .copyTranslationFault _ => none
  | .grantRemove _ _ => none

end Sys2Proof
end

