-- ==== Sys2Proof/Config.lean ====
section
/-!
DEFINITION. What is fixed for the device, and the FREE VALUES: constants without a body for every value the manual leaves
open. Nothing can evaluate one, so a claim holds whatever it is. Most take the model's own counter `free`, so that each use
is a fresh value (log entry 4).
-/

namespace Sys2Proof.Config

/-- The architecture ID (Table 21.1). -/
def archId : Word := 0x00010972#64
/-- The enabled-feature mask (Table 21.1). -/
def featEn : Word := 0xF#64
/-- The features of this device (Table 17.1, 17.8). -/
def ctxFeat : Word := 0x7F#64

/-- Cycles that a core's clock counts in a step (R204, R305: the manual bounds no instruction's time). -/
opaque coreCycles : Nat → Nat → BitVec 16
/-- Cycles by which a cluster's counter advances in a step (R250: the counters keep no common base). -/
opaque clusterCycles : Nat → Nat → BitVec 16
/-- The engine's estimate of the time a copy takes (R251). -/
opaque copyEstimate : Nat → BitVec 32
/-- Which of the translations that a walk cache may hold an access uses, where they differ from the page tables' (R314, R316). -/
opaque cachedWalk : Nat → Nat
/-- Whether a resolution uses a cached result that differs from the name table (R356, R357). -/
opaque useCachedName : Nat → Bool
/-- Which of a cluster's 256 cached results it gives up for another (R357). -/
opaque nameVictim : Nat → Nat
/-- Which of the two translations of an inconsistent CONT group an access uses (R311): the index of the group's entry. -/
opaque contChoice : Nat → BitVec 4
/-- Whether an access whose own entry of an inconsistent CONT group is invalid traps PAGE (R311). -/
opaque contTraps : Nat → Bool
/-- Which of the moments since the strand's binding a fetch outside the launched image returns the bytes of (R404). -/
opaque fetchMoment : Nat → Nat
/-- Whether an instruction is posted without being retired before the control thread goes on (R11, R292). -/
opaque postsLate : Nat → Bool
/-- The element, or the step of a `mopk`, at which the oldest unretired posted instruction stops, with what it has not performed left in
the pending replay (R292, R300). -/
opaque stopsAt : Nat → Nat
/-- What an element past the end of a fork child's part of a register reads as (log entry 11). -/
opaque pastEnd : Nat → Nat → Nat
/-- Raw bits of a tag that cannot be corrected (R375: the debug path returns them). -/
opaque rawTag : Nat → BitVec 16
/-- Whether a peer refuses an address of its LPDDR6 homed on die 1 or of its bonded SRAM slices, which its cores and its service level
decide (R387, R400). -/
opaque peerRefuses : Nat → Nat → Bool
/-- Whether a load reads a place as it was before a store that need not be performed for the reader yet (R270, R273, R279). -/
opaque unseen : Nat → Nat → Bool
/-- Whether a store has still to be performed for some observer (R266): nothing bounds the time it takes. -/
opaque staysLate : Nat → Nat → Bool
/-- Whether the oldest unresolved `ubrk` resolves before the strand's next instruction, where the horizon lets both happen (R33). -/
opaque resolves : Nat → Bool
/-- Whether the device's next pending action happens before a strand's next instruction (R30, R251, R256: no order between them). -/
opaque deviceActs : Nat → Bool
/-- The rank of element `e` in an unordered instruction's order of performance (R236, R271, R278). -/
opaque elementRank : Nat → Nat → BitVec 16
/-- Whether an unordered store had performed element `e` above the one that trapped (R188, R280). -/
opaque performedAbove : Nat → Nat → Bool
/-- The rank of a member's contribution when a collective's order follows the physical path (R91). -/
opaque collectiveRank : Nat → Nat → BitVec 16
/-- How many additions follow the arrival of a path-ordered collective's contribution (R91): the shape of the tree. -/
opaque collectiveMerges : Nat → Nat → BitVec 8
/-- The number that the first collective of a group has as its ticket (R256: "the k of the operation"). -/
opaque firstTicket : BitVec 64
/-- The size of a group on another module of a domain (R389): of the collective's launch, the kernel's name, position and group. -/
opaque peerMembers : Nat → BitVec 64 → Nat → Nat → BitVec 20
/-- An element that a member on another module contributes to a collective (R257): of collective, global rank and index. -/
opaque peerElement : Nat → Nat → Nat → BitVec 64
/-- The status that the other modules' parts give a collective (R257). -/
opaque peerStatus : Nat → BitVec 2
/-- What PLIM holds after a write of a value below 100 W (Table 23.5 gives the range 100 to 1,900). -/
opaque plimBelow : BitVec 11 → BitVec 11
/-- Where a strand's context image begins in its save area (R296: SAVE names a frame, and no rule places several images). -/
opaque imageOffset : Nat → BitVec 32
/-- Bytes of a context image before a section, and after the last one (R301: SECT gives each section's place, no rule packs them). -/
opaque imagePadding : Nat → Nat → BitVec 8
/-- Bytes of a context image of which no rule says what they hold: the barrier position, the `waddr` resume flag (Table 17.9; log entry 14). -/
opaque imageByte : Nat → Nat → BitVec 8
/-- KIND of the log entry of a mismatch that charges no lane (R376 says that it is logged; Table 22.5 names no kind for it). -/
opaque transientKind : BitVec 2
/-- Whether a host request that fails ends as a Completer Abort, and not as an Unsupported Request (R385). -/
opaque barAborts : Nat → Bool
/-- What staging bytes of a queue page hold after a write whose data arrives poisoned (Table 22.2 speaks of memory). -/
opaque poisonedStaging : Nat → BitVec 64
/-- The cluster that logs an error of a store with no core (Table 22.5: "the logging cluster"). -/
opaque logCluster : Nat → Nat → Nat
/-- ELOGB of an entry about a register, which has no physical address (Table 22.3). -/
opaque registerLog : Nat → Nat → BitVec 64
/-- ELOGB of an entry that names a core and a lane (Table 22.3 gives no layout). -/
opaque laneLog : Nat → Option Nat → BitVec 64
/-- SCRMUL where the largest rate does not fit its 16 bits (Table 22.3). -/
opaque scrmulOver : Nat → BitVec 16
/-- What the debug path reads as a byte of a mask register in the bound form (R350; no rule lays it out). -/
opaque boundMaskByte : BitVec 64 → BitVec 2 → Nat → BitVec 8
/-- The boot ROM image, which M0 digests (R394). -/
opaque romImage : List Byte
/-- The management firmware image that reset verified, which M1 digests (R394). -/
opaque firmwareImage : List Byte
/-- The identity key's certificate chain, as module flash holds it (R394). -/
opaque certificateChain : List Byte
/-- The ECDSA P-384 signature under the module's identity key of a digest (R394). -/
opaque sign : List Byte → List Byte
end Sys2Proof.Config
end

