-- ==== Sys2Proof/Machine/State.lean ====
section
/-!
DEFINITION. The state of the device as plain data: the strand that steps (`thr`), every other slot, the physical bytes with
the generation tags of on-core storage, the tables of the dispatch hardware and the engines, and the module's registers.
-/

namespace Sys2Proof.Machine

/-- Why the machine stops. -/
inductive Fault where
  /-- Raised by `step` for a due event whose arguments name something that does not exist (a slot of 288 or more, a bind record of 512
  or more): nothing that the spec describes places such an event. Safe. -/
  | noSuchEvent
  deriving DecidableEq, Repr

/-- Why an instruction has no meaning. -/
inductive Refusal where
  /-- Raised by an arm of `exec` that has no meaning yet, under the instruction's name: safe. -/
  | notModelled (mnemonic : String)
  deriving DecidableEq, Repr

/-! ## Sparse maps in one canonical form -/

/-- A sparse map: pairs of a key and a value, keys rising, no value equal to the default. -/
abbrev Sparse (α : Type) := List (Nat × α)

/-- The value at a key; the default where the key is not listed. -/
def Sparse.get {α : Type} (d : α) : Sparse α → Nat → α
  | [], _ => d
  | (k, v) :: m, a => if k = a then v else Sparse.get d m a

/-- The list without a key. -/
def Sparse.del {α : Type} : Sparse α → Nat → Sparse α
  | [], _ => []
  | (k, v) :: m, a => if k = a then Sparse.del m a else (k, v) :: Sparse.del m a

/-- A pair put before the first greater key. -/
def Sparse.ins {α : Type} (a : Nat) (x : α) : Sparse α → Sparse α
  | [] => [(a, x)]
  | (k, v) :: m => if a < k then (a, x) :: (k, v) :: m else (k, v) :: Sparse.ins a x m

/-- The map with a value at a key; the default is not listed. -/
def Sparse.put {α : Type} [DecidableEq α] (d : α) (m : Sparse α) (a : Nat) (x : α) : Sparse α :=
  if x = d then Sparse.del m a else Sparse.ins a x (Sparse.del m a)

/-- The canonical form: keys strictly rising from a lower bound, no default listed. -/
def Sparse.wfFrom {α : Type} [DecidableEq α] (d : α) : Nat → Sparse α → Bool
  | _, [] => true
  | lo, (k, v) :: m => decide (lo ≤ k) && decide (v ≠ d) && Sparse.wfFrom d (k + 1) m

/-- The canonical form of a whole map. -/
def Sparse.wf {α : Type} [DecidableEq α] (d : α) (m : Sparse α) : Bool := Sparse.wfFrom d 0 m

/-- What a byte of physical memory that nothing has written reads as (log entry 3). -/
def memDefault : Byte := 0#8

/-- Memory is well formed: addresses strictly rising, no cell equal to what an unlisted address reads as. -/
def Memory.wf (m : List Host.Cell) : Bool := Sparse.wf memDefault m

/-! ## Registers of a strand -/

/-- A barrier register (R54): the group it is bound to, the arrival target, its tag; whether it is poisoned (Table 22.1). -/
structure BarrierReg where
  bound  : Bool
  group  : BitVec 8
  target : Nat
  tag    : Gen
  bad    : Bool
  deriving DecidableEq, Repr

/-- What a mask register holds (R50): the set elements in rising order, or the bound form of `klen`. -/
inductive MaskForm where
  | explicit (set : List Nat)
  | bound (n : Word) (w : BitVec 2)
  deriving DecidableEq, Repr

/-- A mask register (R49): its form, the tags of its 128 granules, and which of them are poisoned (Table 22.1). -/
structure MaskReg where
  form : MaskForm
  tags : Vector Gen 128
  bad  : List Nat
  deriving DecidableEq, Repr

/-- The user control registers (Table 2.5), each with the bits Table 2.12 gives it. -/
structure UserCR where
  vlen     : BitVec 9
  vrows    : BitVec 9
  vsew     : BitVec 2
  vcfg     : BitVec 4
  vstart   : BitVec 16
  frm      : BitVec 3
  fflags   : BitVec 5
  pstep    : BitVec 32
  mrow     : BitVec 16
  mfmt     : BitVec 10
  mxerr    : BitVec 19
  vfmt     : BitVec 1
  xstrip   : BitVec 32
  xidx     : BitVec 16
  nstat    : BitVec 2
  rmode    : BitVec 2
  genmode  : BitVec 1
  retcnt   : Word
  utvec    : BitVec 56
  ucause   : BitVec 8
  uepc     : BitVec 54
  uenpc    : BitVec 54
  uennpc   : BitVec 54
  uannul   : BitVec 2
  uval     : Word
  mascale  : BitVec 32
  vrstr    : Word
  smc      : BitVec 32
  cpyshape : Word
  xgrp     : BitVec 8
  deriving DecidableEq, Repr

/-- The system control registers that a strand carries (Tables 17.1, 18.1, 20.3). -/
structure SysCR where
  hw       : Bool
  ppl      : Bool
  sta      : Bool
  stvec    : Word
  scause   : BitVec 16
  sepc     : Word
  senpc    : Word
  sennpc   : Word
  sannul   : BitVec 2
  sval     : Word
  sxpc     : Word
  srpt     : BitVec 11
  swdcnt   : Word
  swdlim   : Word
  sscratch : Word
  tfltReason : BitVec 8
  tfltLevel  : BitVec 3
  tinva    : Word
  tcmda    : Word
  tcmds    : BitVec 2
  deriving DecidableEq, Repr

/-- The control thread's addresses and annul bits (R125). -/
structure Triple where
  pc   : Word
  npc  : Word
  nnpc : Word
  a0   : Bool
  a1   : Bool
  a2   : Bool
  deriving DecidableEq, Repr

/-- The state of a strand that an annulled strip gives back (R37, R38): scalar, barrier and mask registers, user control
registers, the shape request and the triple; `sbad` lists the poisoned scalar registers (Table 22.1). -/
structure Arch where
  sreg  : Vector Word 32
  stag  : Vector Gen 32
  sbad  : List Nat
  breg  : Vector BarrierReg 8
  mask  : Vector MaskReg 16
  ucr   : UserCR
  qrows : Word
  qlen  : Word
  trip  : Triple
  deriving DecidableEq, Repr

/-- A `ubrk` that has not resolved (R33): its strip and mask register, how many posted instructions before it have not retired (R292), the
lowest set element of its mask if any, where it exits to, and the checkpoint, with the bytes, tags and poison of the strand's vector storage
and accumulators as they stood (R38). While `older` is not 0, what the vector side holds of it is still to be taken. -/
structure Unresolved where
  strip : BitVec 32
  mask  : KReg
  older : Nat
  hit   : Option Nat
  exit  : Word
  arch  : Arch
  cells : List Host.Cell
  tags  : Sparse Gen
  bad   : List Nat
  deriving DecidableEq, Repr

/-- The paths of accesses (R267, Table 11.3). A store of a vector memory instruction with x = 1 stands apart (R189); outside the strands
are the host and peer modules (Table 11.4). -/
inductive Path where
  | scalar
  | vector
  | vectorLoose
  | matrix
  | copy
  | collective
  | outside
  deriving DecidableEq, Repr

/-- How an access goes out: its path, the instruction or the copy that makes it, whether that instruction's elements are ordered among
themselves (R278), and whether it goes to an SO page (R269). -/
structure Way where
  path : Path
  inst : Nat
  ord  : Bool
  so   : Bool
  deriving DecidableEq, Repr

/-- A store held in the HEB (R34): its bytes, its way, and the strip of the youngest `ubrk` older than it. -/
structure HeldStore where
  strip : BitVec 32
  way   : Way
  pa    : Nat
  data  : List Byte
  deriving DecidableEq, Repr

/-- An open uncounted loop (R32): the horizon and the number of the next strip. -/
structure ULoop where
  horizon : BitVec 2
  next    : BitVec 32
  deriving DecidableEq, Repr

/-- An instruction of the pending replay (R290): what it is, where it stands, and the scalar registers and VFMT as they stood when it
was posted (R170), with those registers that were stale then (R166) and the poisoned ones: its captured operands are read there. `stop` is the
element or k-step at which it stopped, `gone` says that a step before the one at which a `mopk` stopped found its tensor gone (R206). -/
structure Replay where
  instr : Instr
  addr  : Word
  sreg  : Vector Word 32
  live  : Vector Bool 32
  bad   : List Nat
  vfmt  : BitVec 1
  stop  : BitVec 16
  gone  : Bool
  deriving DecidableEq, Repr

/-- A trap of a posted instruction that awaits its delivery (R289). -/
structure PostedTrap where
  cause  : BitVec 8
  detail : BitVec 8
  value  : Word
  entry  : Replay
  deriving DecidableEq, Repr

/-- An `rpt` group that runs (R149, R150): the triple at the `rpt` word, the captured words with their addresses, the passes
and steps, the position. -/
structure RptGroup where
  start : Triple
  words : List (Instr × Word)
  reps  : Nat
  sd    : Nat
  sa    : Nat
  sb    : Nat
  pass  : Nat
  word  : Nat
  deriving DecidableEq, Repr

/-- A wait on an address (R239): none, armed, or ended with a status not yet written; the register that receives the status. -/
inductive WaitAddr where
  | none
  | armed (rd : SReg)
  | done (rd : SReg) (status : BitVec 3)
  deriving DecidableEq, Repr

/-- A fork that has not been joined (R24 to R28): the child's slot, the parent's shape before the fork, and how the child
stands: live, ended by `ljoin` with its rows returned, or ended otherwise. -/
structure ForkRec where
  child : Nat
  vlen  : BitVec 9
  vrows : BitVec 9
  vsew  : BitVec 2
  qrows : Word
  qlen  : Word
  ended : Bool
  returned : Bool
  deriving DecidableEq, Repr

/-- Everything a slot holds. `bound` is false for a fallow slot, whose registers keep what was last written (R63, R350). `parent` is the
slot of a fork child's parent, 288 once the device has ended that parent; `codeMem` holds memory as it has stood since the strand was
bound, the newest first (R404); `kernel` and `kver` name the code image that it fetches (R371); `debited` says that the waiting
instruction has paid its energy (R391). Two fields stand only while a posted instruction runs: `stopAt` is the element or k-step at which it
is to stop (R292), `goneStep` says that a k-step of it has found its tensor gone (R206). -/
structure Thread where
  bound     : Bool
  stopping  : Bool
  dbgHalt   : Bool
  uid       : Nat
  launch    : Nat
  index     : Nat
  queue     : Word
  bindNo    : Nat
  prio      : BitVec 3
  ecl       : Bool
  asid      : BitVec 12
  root      : BitVec 40
  genS      : Gen
  genV      : Gen
  genM      : Gen
  genA      : Gen
  genP      : Gen
  vbase     : Nat
  roff      : Nat
  acc       : BitVec 2
  scrBase   : Nat
  scrSize   : Nat
  level     : Bool
  handler   : Bool
  arch      : Arch
  sys       : SysCR
  eclass    : BitVec 3
  loop      : Option ULoop
  unres     : List Unresolved
  held      : List HeldStore
  defer     : Bool
  deferLog  : Bool
  ptrap     : Option PostedTrap
  replay    : List Replay
  replaying : Bool
  rpt       : Option RptGroup
  rptResume : Option (Nat × Nat)
  waiting   : Bool
  wa        : WaitAddr
  sleep     : Option Word
  wdPend    : Bool
  preempt   : Bool
  errunc    : Option (BitVec 8 × Word)
  batch     : Nat
  tickets   : Sparse Nat
  parent    : Option Nat
  forks     : List ForkRec
  claims    : List (Word × Nat)
  bindCycles : Nat
  codeMem   : List (List Host.Cell)
  kernel    : Word
  kver      : BitVec 32
  debited   : Bool
  goneStep  : Bool
  stopAt    : Option Nat
  deriving DecidableEq, Repr

/-- The slot of a fork child's parent, while the parent lives. -/
def Thread.parentSlot (t : Thread) : Option Nat := t.parent.filter fun p => decide (p < 288)

/-! ## The dispatch hardware, the engines, the tables -/

/-- A launch record (Table 19.1). -/
abbrev LaunchRec := Vector Word 16

/-- A launch in a queue (R320, R323, R331): its record, once accepted its context's root, its group table and the scope of each group
(R22: a level of Table 10.1 at scope numbers 0 to 3, and a core that it contains), the strands bound, halted and ended, the first
ended strand, where its code begins and the version of its kernel's name (R371). -/
structure Launch where
  id       : Nat
  queue    : Word
  owner    : BitVec 12
  root     : BitVec 40
  record   : LaunchRec
  accepted : Bool
  groups   : List (List Nat)
  scopes   : List (Nat × Nat)
  bound    : Nat
  finished : Nat
  ended    : Nat
  err      : Option (Nat × BitVec 8 × BitVec 8)
  codeBase : Word
  version  : BitVec 32
  deriving DecidableEq, Repr

/-- The code image of a kernel's name and version in a context, as fetches see it (R371): its bytes, none where the page has not been
mapped so far; and the bytes of it that were read from poisoned units. -/
structure CodeImage where
  asid    : BitVec 12
  name    : Word
  version : BitVec 32
  base    : Word
  bytes   : List (Option Byte)
  bad     : List Nat
  deriving DecidableEq, Repr

/-- A queue (R319) with its queue page (Table 23.1), the staged record among it, and the launches that wait in it. -/
structure Queue where
  name   : Word
  depth  : Nat
  prio   : Nat
  owner  : BitVec 12
  page   : BitVec 6
  waiting : List Nat
  record : LaunchRec
  seq    : BitVec 32
  reason : BitVec 8
  result : BitVec 8
  deriving DecidableEq, Repr

/-- A bind record (Table 19.3) as its eight doublewords. -/
abbrev BindRec := Vector Word 8

/-- Part of the tagged storage as a context image holds it (R301): the granules that carry the strand's generation, their bytes
and the poisoned ones among them, all as offsets from the part's start. -/
structure Image where
  granules : List Nat
  cells    : List Host.Cell
  bad      : List Nat
  deriving DecidableEq, Repr

/-- A preempted strand (R301): what its context image holds, the slot it stood in, the header's place in memory, and the family it
belongs to, named by the uid of the parent (R299). -/
structure Saved where
  uid     : Nat
  family  : Nat
  thread  : Thread
  core    : Nat
  slot    : Nat
  vector  : Image
  acc     : Image
  scratch : Image
  header  : Nat
  deriving DecidableEq, Repr

/-- An entry of the parked table (R338). -/
structure Parked where
  uid    : Nat
  token  : BitVec 32
  claims : List (Word × Nat)
  deriving DecidableEq, Repr

/-- The counters of one barrier (R54, R244): of launch, group and barrier number. -/
structure Barrier where
  launch : Nat
  group  : Nat
  num    : Nat
  phi    : Nat
  cur    : Nat
  nxt    : Nat
  deriving DecidableEq, Repr

/-- A store that some observer may not have seen (R266, R273): the strand, its core and launch, the way it went; where it wrote and what
stood there before, with the generation it lies under in scratchpad; the cores and scopes for whose observers it is performed, each scope
by its code plus 1; the strands that see it from now on, each with a path: with the number of the operation that has read it (an engine's, or
0), or none where another rule makes it seen. -/
structure Late where
  uid    : Nat
  core   : Nat
  launch : Nat
  way    : Way
  pa     : Nat
  old    : List Byte
  gen    : Gen
  perf   : List (Nat × Nat)
  seen   : List (Nat × Path × Option Nat)
  deriving DecidableEq, Repr

/-- How a copy stands (R251 to R255); stopped, with the trap that awaits delivery and whether a page's permissions denied the byte (R312). -/
inductive CopyState where
  | running
  | done (gone : Bool)
  | stopped (cause : BitVec 8) (detail : BitVec 8) (va : Word) (denied : Bool)
  deriving DecidableEq, Repr

/-- A copy descriptor (R250 to R253). -/
structure Copy where
  id      : Nat
  uid     : Nat
  launch  : Nat
  core    : Nat
  cluster : Nat
  batch   : Nat
  asid    : BitVec 12
  root    : BitVec 40
  level   : Bool
  toToken : Option (BitVec 32)
  dst     : Word
  src     : Word
  len     : Nat
  rows    : Nat
  dstr    : Int
  sstr    : Int
  promise : Word
  state   : CopyState
  reported : Bool
  deriving DecidableEq, Repr

/-- A member's part of a collective (R256), with the address space and level that its accesses use (R306). -/
structure Contribution where
  uid  : Nat
  core : Nat
  rank : Nat
  op   : BitVec 2
  fmt  : BitVec 4
  n    : Nat
  src  : Word
  dst  : Word
  rank1 : Bool
  asid : BitVec 12
  root : BitVec 40
  level : Bool
  deriving DecidableEq, Repr

/-- A collective operation (R256, R257): the k-th on its group. -/
structure Collective where
  id     : Nat
  launch : Nat
  group  : Nat
  ticket : Nat
  parts  : List Contribution
  status : Option (BitVec 2)
  deriving DecidableEq, Repr

/-- An armed monitor entry (R239): the cluster's table it stands in, the waiting slot, the doubleword. -/
structure Monitor where
  cluster : Nat
  key     : Nat
  pa      : Nat
  deriving DecidableEq, Repr

/-- A cached translation (R314): the page's first page number and its size in pages of 4 KiB, the number of its first physical frame,
its leaf entry, and the table frames its walk passed. -/
structure WalkEntry where
  asid   : BitVec 12
  page   : Nat
  pages  : Nat
  frame  : Nat
  leaf   : Word
  frames : List Nat
  deriving DecidableEq, Repr

/-- A cached result of resolving a live name (R357). -/
structure NameEntry where
  cluster : Nat
  asid    : BitVec 12
  name    : Word
  loc     : Word
  size    : Nat
  version : BitVec 32
  granted : Bool
  deriving DecidableEq, Repr

/-- A sweep of the harrow (R344): the pool's skip set. -/
structure Sweep where
  skip : List Nat
  deriving DecidableEq, Repr

/-- What a core holds beside its storage: generation counters of the five pools in the order of Table 20.1, sweeps, the pools whose
sweep waits its turn (R344), skip sets, whether the next allocation starts from 1 again (R345), whether one waits, the power length cap,
the lanes. -/
structure Core where
  gens    : Vector Gen 5
  sweeps  : Vector (Option Sweep) 5
  turns   : List Nat
  skips   : Vector (List Nat) 5
  fresh   : Vector Bool 5
  stalls  : Vector Bool 5
  plen    : BitVec 9
  charges : Sparse Nat
  retired : List Nat
  logged  : BitVec 8
  deriving DecidableEq, Repr

/-- A die's power loop (R390): clock in MHz, the power of its last window, windows spent below the threshold. -/
structure Die where
  clock : Nat
  power : BitVec 16
  calm  : Nat
  deriving DecidableEq, Repr

/-- The energy budget of a context (R391). -/
structure Energy where
  ebud  : BitVec 32
  ebcap : BitVec 31
  deriving DecidableEq, Repr

/-- An entry of the error log (Table 22.5): ELOGA and ELOGB. -/
structure ErrorEntry where
  a : Word
  b : Word
  deriving DecidableEq, Repr

/-- What leaves the module: an interrupt message (R332), the answer to an outside read (R385, R387, R350), a completion error (Table 22.1),
a quote (R394), an ENERGY event in the system event log (R391). -/
inductive Output where
  | msix (func : BitVec 8) (vec : BitVec 6)
  | answer (data : List Byte) (poisoned : Bool)
  | abort
  | unsupported
  | completionError
  | debug (data : List Byte) (tag : Gen) (poisoned : Bool)
  | quote (message signature chain : List Byte)
  | energy (asid : BitVec 12)
  deriving DecidableEq, Repr

/-- The module's registers that no strand carries (Tables 19.5, 20.3, 21.1, 22.3, 23.5), and what flash keeps (R352, R376). -/
structure Module where
  harv0    : BitVec 36
  harv1    : BitVec 36
  stepping : BitVec 16
  svclvl   : BitVec 2
  ntBase   : BitVec 40
  ntEn     : Bool
  ntLogn   : BitVec 5
  gntBase  : BitVec 40
  ctxTab   : BitVec 40
  nserial  : BitVec 60
  nblkEnd  : BitVec 60
  flashBlock : BitVec 24
  rcVfredo : Word
  rcMop8   : Word
  estat    : BitVec 4
  eccnt    : Word
  coff     : BitVec 72
  scrmul   : BitVec 16
  plim     : BitVec 11
  ecost    : Word
  xdtab    : BitVec 40
  hftab    : BitVec 40
  hlstat   : BitVec 16
  deriving DecidableEq, Repr

/-- An error that strikes a store (Table 22.1): from outside the model, whose events place none. -/
inductive Upset where
  /-- Errors that the accesses that found them corrected (R373). -/
  | corrected (n : Nat)
  /-- A 32-byte unit of LPDDR6 or bonded SRAM, or a granule of a window, beyond correction; in an aperture, the link that carries the strands'
  and engines' accesses to the unit in the next step. -/
  | unit (pa : Nat)
  /-- The tag of a granule of a window. -/
  | tag (pa : Nat)
  /-- A scalar register of a slot, with its tag or its data. -/
  | scalar (key : Nat) (r : Fin 32) (tag : Bool)
  /-- A barrier register of a slot. -/
  | barrier (key : Nat) (b : Fin 8) (tag : Bool)
  /-- A granule of a mask register of a slot. -/
  | mask (key : Nat) (k : Fin 16) (g : Fin 128) (tag : Bool)
  /-- A row of an accumulator and its checksum word come to differ (R378). -/
  | row (core : Nat) (second : Bool) (row : Fin 256) (off : BitVec 32)
  /-- A dirty line of a data cache, which poisons the unit in its home. -/
  | line (pa : Nat)
  /-- A die bridge or a headland link; a collective that used it fails. -/
  | link (coll : Nat)
  /-- The link that carries the host's or a peer's access: the access of the step at whose end it strikes fails. -/
  | pcie
  deriving DecidableEq, Repr

/-- The state of the device. `cur` is the slot whose strand steps (four times the logical core plus the slot); `thr` is what
that slot holds and `others` what every other slot holds. `due` lists the events that are due, the next one first; `upsets` the errors
that strike stores as the step ends, each with whether a read that uses nothing of it has found it (R374). `free` is
the model's own counter behind its free values. `wrote` lists what the step has written into poisoned units (R374). `sums` holds, for each row of an accumulator whose checksum word does not agree with the
row, the checksum less the row's sum (R378), at 512 times the core plus 256 times the accumulator plus the row; `scrubs` the unit that
each region's scrub pass reads next (R379). `dropping` lists the poisoned table frames whose cached translations are still to be dropped: the
stores that strands hold come first (R317). -/
structure State where
  cur      : Nat
  thr      : Thread
  others   : Sparse Thread
  due      : List Instr
  upsets   : List (Upset × Bool)
  free     : Nat
  mem      : List Host.Cell
  tags     : Sparse Gen
  poison   : List Nat
  wrote    : List (Nat × Nat)
  sums     : Sparse (BitVec 32)
  scrubs   : Sparse Nat
  late     : List Late
  cores    : Sparse Core
  counters : Vector Word 18
  dies     : Vector Die 2
  monitors : List Monitor
  walks    : List WalkEntry
  nameCache : List NameEntry
  badFrames : List Nat
  dropping : List Nat
  binds    : Sparse BindRec
  queues   : List Queue
  launches : List Launch
  images   : List CodeImage
  saved    : List Saved
  parked   : List Parked
  barriers : List Barrier
  copies   : List Copy
  colls    : List Collective
  energies : Sparse Energy
  elog     : List ErrorEntry
  out      : List Output
  nextId   : Nat
  mod      : Module
  deriving DecidableEq, Repr

/-! ## The values at reset -/

/-- Unbound (R54). -/
def BarrierReg.reset : BarrierReg := { bound := false, group := 0#8, target := 0, tag := 0#16, bad := false }

/-- Explicit, every bit clear. -/
def MaskReg.reset : MaskReg := { form := .explicit [], tags := Vector.replicate 128 0#16, bad := [] }

/-- The user control registers at binding (Table 2.5), with the share and count codes and RMODE given by the launch. -/
def UserCR.atBinding (vcfg : BitVec 4) (rmode : BitVec 2) : UserCR :=
  { vlen := 0#9, vrows := 1#9, vsew := 2#2, vcfg := vcfg, vstart := 0#16, frm := 0#3, fflags := 0#5, pstep := 0#32,
    mrow := 0#16, mfmt := 0#10, mxerr := 0#19, vfmt := 0#1, xstrip := 0#32, xidx := 0#16, nstat := 0#2, rmode := rmode,
    genmode := 0#1, retcnt := 0#64, utvec := 0#56, ucause := 0#8, uepc := 0#54, uenpc := 0#54, uennpc := 0#54,
    uannul := 0#2, uval := 0#64, mascale := 0x3F800000#32, vrstr := 0#64, smc := 0#32, cpyshape := 0#64, xgrp := 0#8 }

/-- The system control registers at binding (Tables 17.1, 18.1, 20.3), with STVEC and SWDLIM from the bind record. -/
def SysCR.atBinding (stvec swdlim : Word) : SysCR :=
  { hw := false, ppl := false, sta := false, stvec := stvec, scause := 0#16, sepc := 0#64, senpc := 0#64, sennpc := 0#64,
    sannul := 0#2, sval := 0#64, sxpc := 0#64, srpt := 0#11, swdcnt := 0#64, swdlim := swdlim, sscratch := 0#64,
    tfltReason := 0#8, tfltLevel := 0#3, tinva := 0#64, tcmda := 0#64, tcmds := 0#2 }

/-- The triple that starts at an address, no annul bits (Table 2.11). -/
def Triple.start (a : Word) : Triple := { pc := a, npc := a + 4#64, nnpc := a + 8#64, a0 := false, a1 := false, a2 := false }

/-- Registers of a slot that has bound nothing since module reset (log entry 2). -/
def Arch.reset : Arch :=
  { sreg := Vector.replicate 32 0#64, stag := Vector.replicate 32 0#16, sbad := [], breg := Vector.replicate 8 BarrierReg.reset,
    mask := Vector.replicate 16 MaskReg.reset, ucr := UserCR.atBinding 0#4 0#2, qrows := 0#64, qlen := 0#64,
    trip := Triple.start 0#64 }

/-- A fallow slot that has bound nothing since module reset (log entry 2). -/
def Thread.reset : Thread :=
  { bound := false, stopping := false, dbgHalt := false, uid := 0, launch := 0, index := 0, queue := 0#64, bindNo := 0,
    prio := 0#3, ecl := false, asid := 0#12, root := 0#40, genS := 0#16, genV := 0#16, genM := 0#16, genA := 0#16,
    genP := 0#16, vbase := 0, roff := 0, acc := 0#2, scrBase := 0, scrSize := 0, level := false, handler := false,
    arch := Arch.reset, sys := SysCR.atBinding 0#64 0#64, eclass := 0#3, loop := none, unres := [], held := [],
    defer := false, deferLog := false, ptrap := none, replay := [], replaying := false, rpt := none, rptResume := none, waiting := false,
    wa := .none, sleep := none, wdPend := false, preempt := false, errunc := none, batch := 0, tickets := [],
    parent := none, forks := [], claims := [], bindCycles := 0, codeMem := [], kernel := 0#64, kver := 0#32, debited := false,
    goneStep := false, stopAt := none }

/-- A core at reset: no generation allocated, PLEN 256 (R161), no lane charged (R376). -/
def Core.reset : Core :=
  { gens := Vector.replicate 5 0#16, sweeps := Vector.replicate 5 none, turns := [], skips := Vector.replicate 5 [],
    fresh := Vector.replicate 5 false, stalls := Vector.replicate 5 false, plen := 256#9,
    charges := [], retired := [], logged := 0#8 }

/-- A die at reset: the clock of service level 2 (Table 23.4). -/
def Die.reset : Die := { clock := 1800, power := 0#16, calm := 0 }

/-- A context's budget before any create command (log entry 2). -/
def Energy.reset : Energy := { ebud := 0#32, ebcap := 0#31 }

/-- The module's registers after reset (Tables 20.3, 21.1, 22.3, 23.5; log entry 2 for those that firmware writes). -/
def Module.reset : Module :=
  { harv0 := 0#36, harv1 := 0#36, stepping := 0#16, svclvl := 0#2, ntBase := 0#40, ntEn := false, ntLogn := 0#5,
    gntBase := 0#40, ctxTab := 0#40, nserial := 0#60, nblkEnd := 0#60, flashBlock := 0#24, rcVfredo := 0#64,
    rcMop8 := 0#64, estat := 0#4, eccnt := 0#64, coff := 0#72, scrmul := 16#16, plim := 1900#11,
    ecost := 0x0101010101010101#64, xdtab := 0#40, hftab := 0#40, hlstat := 0#16 }

/-- The device right after module reset: every slot fallow, no event due, memory with nothing listed. -/
def State.reset : State :=
  { cur := 0, thr := Thread.reset, others := [], due := [], upsets := [], free := 0, mem := [],
    tags := [], poison := [],
    wrote := [], sums := [], scrubs := [], late := [], cores := [],
    counters := Vector.replicate 18 0#64, dies := Vector.replicate 2 Die.reset, monitors := [], walks := [],
    nameCache := [], badFrames := [], dropping := [], binds := [], queues := [], launches := [], images := [], saved := [], parked := [], barriers := [],
    copies := [], colls := [], energies := [], elog := [], out := [], nextId := 1, mod := Module.reset }

end Sys2Proof.Machine
end

