-- ==== Sys2Proof/Machine/Ops.lean ====
section
/-!
DEFINITION. The named operations that every meaning shares: slots and strands, the result of an instruction's body, scalar
registers, the step of the triple, taking a trap and returning from one, the end of a strand.
-/

namespace Sys2Proof.Machine

/-- What a step answers. -/
abbrev Out := Host.Outcome State Fault Refusal

/-! ## Trap causes (Table 17.5) -/

def Cause.illegal : BitVec 8 := 0x01#8
def Cause.retired : BitVec 8 := 0x02#8
def Cause.priv : BitVec 8 := 0x03#8
def Cause.align : BitVec 8 := 0x04#8
def Cause.page : BitVec 8 := 0x05#8
def Cause.prot : BitVec 8 := 0x06#8
def Cause.gentrap : BitVec 8 := 0x07#8
def Cause.promise : BitVec 8 := 0x08#8
def Cause.watchdog : BitVec 8 := 0x09#8
def Cause.vstate : BitVec 8 := 0x0A#8
def Cause.shape : BitVec 8 := 0x0B#8
def Cause.errunc : BitVec 8 := 0x0C#8
def Cause.walkpoison : BitVec 8 := 0x0D#8
def Cause.brk : BitVec 8 := 0x0E#8
def Cause.trap : BitVec 8 := 0x0F#8
def Cause.restorefail : BitVec 8 := 0x10#8

/-- A trap: its cause, its DETAIL (Table 17.3), the trap value (Table 17.5). -/
structure Trap where
  cause  : BitVec 8
  detail : BitVec 8
  value  : Word
  deriving DecidableEq, Repr

/-- What the body of an instruction comes to: a value and a state, a trap with the state as far as it came, or a wait. -/
inductive Res (α : Type) where
  | done (a : α) (s : State)
  | trap (t : Trap) (s : State)
  | wait (s : State)

/-- One body after another. -/
def Res.andThen {α β : Type} (r : Res α) (f : α → State → Res β) : Res β :=
  match r with
  | .done a s => f a s
  | .trap t s => .trap t s
  | .wait s => .wait s

/-- How a control-thread instruction leaves the triple (R125): falls through, is taken, is not taken (annulling the next two
words or not), or has set the triple itself. -/
inductive Ctl where
  | fall
  | taken (target : Word)
  | notTaken (n : Bool)
  | stay
  deriving DecidableEq, Repr

/-! ## Slots and strands -/

/-- The logical core of a slot number. -/
def coreOf (key : Nat) : Nat := key / 4
/-- The slot within the core. -/
def slotOf (key : Nat) : Nat := key % 4

/-- What a slot holds. -/
def State.getThr (s : State) (k : Nat) : Thread := if k = s.cur then s.thr else Sparse.get Thread.reset s.others k

/-- The state with a slot's content replaced. -/
def State.setThr (s : State) (k : Nat) (t : Thread) : State :=
  if k = s.cur then { s with thr := t } else { s with others := Sparse.put Thread.reset s.others k t }

/-- The state in which another slot's strand is the one that steps. -/
def State.switchTo (s : State) (k : Nat) : State :=
  if k = s.cur then s
  else { s with cur := k, thr := Sparse.get Thread.reset s.others k,
                others := Sparse.put Thread.reset (Sparse.del s.others k) s.cur s.thr }

/-- The state with the stepping strand changed. -/
def State.mapThr (s : State) (f : Thread → Thread) : State := { s with thr := f s.thr }

/-- The state with the strand's program-visible registers changed. -/
def State.mapArch (s : State) (f : Arch → Arch) : State := s.mapThr fun t => { t with arch := f t.arch }

/-- The strand's user control registers. -/
def State.ucr (s : State) : UserCR := s.thr.arch.ucr

/-- The state with the strand's user control registers changed. -/
def State.mapUcr (s : State) (f : UserCR → UserCR) : State := s.mapArch fun a => { a with ucr := f a.ucr }

/-- The state with the strand's system control registers changed. -/
def State.mapSys (s : State) (f : SysCR → SysCR) : State := s.mapThr fun t => { t with sys := f t.sys }

/-- The triple. -/
def State.trip (s : State) : Triple := s.thr.arch.trip

/-- The state with the triple replaced. -/
def State.setTrip (s : State) (t : Triple) : State := s.mapArch fun a => { a with trip := t }

/-- A core's own registers. -/
def State.getCore (s : State) (c : Nat) : Core := Sparse.get Core.reset s.cores c

/-- The state with a core's registers changed. -/
def State.mapCore (s : State) (c : Nat) (f : Core → Core) : State :=
  { s with cores := Sparse.put Core.reset s.cores c (f (s.getCore c)) }

/-- The state with the module's registers changed. -/
def State.mapMod (s : State) (f : Module → Module) : State := { s with mod := f s.mod }

/-- A fresh number for a free value (log entry 4). -/
def State.tick (s : State) : State := { s with free := s.free + 1 }

/-- The state with an event added to those that are due. -/
def State.push (s : State) (e : Instr) : State := { s with due := s.due ++ [e] }

/-- The keys of a core's four slots. -/
def coreKeys (c : Nat) : List Nat := [4 * c, 4 * c + 1, 4 * c + 2, 4 * c + 3]

/-- Every slot that may hold a strand: the stepping one and those listed. -/
def State.keys (s : State) : List Nat := s.cur :: s.others.map (·.1)

/-- The token of the strand in a slot (Table 1.3). -/
def tokenOf (k : Nat) (t : Thread) : BitVec 32 := t.genS ++ BitVec.ofNat 8 (coreOf k) ++ BitVec.ofNat 8 (slotOf k)

/-- The slot a token names, when the token is live (R17, R18); a value whose bits [7:2] are not zero names none (DESIGN CHOICE, log entry
47). -/
def State.liveToken (s : State) (tok : BitVec 32) : Option Nat :=
  let core := (tok.extractLsb' 8 8).toNat
  let slot := (tok.extractLsb' 0 8).toNat
  let k := 4 * core + slot
  if tok = 0#32 || 72 ≤ core || 4 ≤ slot then none
  else
    let t := s.getThr k
    if t.bound && t.genS == tok.extractLsb' 16 16 then some k else none

/-! ## Cores, clusters, dies (R8, R9) -/

/-- The physical cores present, as die and number, in the order of their logical numbers (R9). -/
def State.present (s : State) : List (Nat × Nat) :=
  ((List.range 36).filter fun n => !s.mod.harv0.getLsbD n).map (fun n => (0, n)) ++
  ((List.range 36).filter fun n => !s.mod.harv1.getLsbD n).map (fun n => (1, n))

/-- The number of cores present. -/
def State.ncore (s : State) : Nat := s.present.length

/-- The die and physical number of a logical core; (0, 0) for a number no core has. -/
def State.physOf (s : State) (c : Nat) : Nat × Nat := s.present.getD c (0, 0)

/-- The die of a logical core. -/
def State.dieOf (s : State) (c : Nat) : Nat := (s.physOf c).1

/-- The cluster of a logical core (R8). -/
def State.clusterOf (s : State) (c : Nat) : Nat := 9 * (s.physOf c).1 + (s.physOf c).2 / 4

/-- The cluster of the stepping strand. -/
def State.cluster (s : State) : Nat := s.clusterOf (coreOf s.cur)

/-- The counter of a cluster (R250). -/
def State.counter (s : State) (c : Nat) : Word := s.counters.toList.getD c 0#64

/-- Whether a core is offline (R377). -/
def State.offline (s : State) (c : Nat) : Bool := s.mod.coff.getLsbD c

/-! ## The error log (R383) -/

/-- The cluster whose counter an entry's TIME shows (Table 22.5): that of the entry's core; any, where the store has none. -/
def State.logCluster (s : State) (core : BitVec 8) : Nat :=
  if core.toNat < 72 then s.clusterOf core.toNat else Config.logCluster s.free s.elog.length % 18

/-- An entry added to the error log; a full log drops it and sets OVF. -/
def State.logError (s : State) (src : BitVec 8) (core : BitVec 8) (kind : BitVec 2) (b : Word) (estat : BitVec 4) : State :=
  let time := (s.counter (s.logCluster core)).setWidth 32
  let a : Word := time ++ 0#8 ++ src ++ core ++ 0#6 ++ kind
  if s.elog.length < 256 then { s with elog := s.elog ++ [⟨a, b⟩], mod := { s.mod with estat := s.mod.estat ||| estat } }
  else s.mapMod fun m => { m with estat := m.estat ||| estat ||| 8#4 }

/-! ## Scalar registers (R41, R63, R133) -/

/-- Whether a scalar register is live for the strand. -/
def State.regLive (s : State) (r : SReg) : Bool := r == 0#5 || s.thr.arch.stag.get r.toFin == s.thr.genS

/-- The value a scalar register reads as under GENMODE = 0. -/
def State.reg (s : State) (r : SReg) : Word :=
  if r = 0#5 then 0#64 else if s.thr.arch.stag.get r.toFin = s.thr.genS then s.thr.arch.sreg.get r.toFin else 0#64

/-- Whether a read of a scalar register consumes poison: the register is live and poisoned (R375). -/
def State.regBad (s : State) (r : SReg) : Bool := r != 0#5 && s.regLive r && s.thr.arch.sbad.contains r.toNat

/-- The state after a write of a scalar register: s0 discards it, every other register is written whole, stamped and free of poison
(R41, R374). -/
def State.setReg (s : State) (r : SReg) (x : Word) : State :=
  if r = 0#5 then s
  else s.mapArch fun a =>
    { a with sreg := a.sreg.set r.toNat x r.isLt, stag := a.stag.set r.toNat s.thr.genS r.isLt,
             sbad := a.sbad.filter fun b => b ≠ r.toNat }

/-- The trap value that names a scalar register (R133). -/
def regValue (r : SReg) : Word := 0x8000000000000000#64 ||| r.setWidth 64

/-- Poison of a register consumed (R375, Table 22.2): ERRUNC, whose value is zero as a register has no address (Table 17.5; log entry
41), and an entry of KIND 2; `store` is the row of Table 22.1. A trap that was deferred is logged once. -/
def consumeRegister {α : Type} (store : BitVec 8) (n : Nat) (s : State) : Res α :=
  .trap ⟨Cause.errunc, 0#8, 0#64⟩
    (if s.thr.deferLog then s
     else s.logError store (BitVec.ofNat 8 (coreOf s.cur)) 2#2 (Config.registerLog s.free n) 2#4)

/-- A read of a scalar register: under GENMODE = 1 a stale one traps GENTRAP (R63, R133); poison is consumed (R375). -/
def readReg (r : SReg) (s : State) : Res Word :=
  if s.ucr.genmode = 1#1 && !s.regLive r then .trap ⟨Cause.gentrap, 0#8, regValue r⟩ s
  else if s.regBad r then consumeRegister 4#8 r.toNat s
  else .done (s.reg r) s

/-- A read of a posted instruction's scalar operand: a replayed one takes what was captured at its posting (R290), and a stale
read under GENMODE = 1 is carried with it (R166). -/
def readPosted (r : SReg) (s : State) : Res Word :=
  if s.thr.replaying then
    match s.thr.replay with
    | e :: _ =>
      if r = 0#5 then .done 0#64 s
      else if e.bad.contains r.toNat then consumeRegister 4#8 r.toNat s
      else if e.live.get r.toFin then .done (e.sreg.get r.toFin) s
      else .trap ⟨Cause.gentrap, 0#8, regValue r⟩ s
    | [] => readReg r s
  else readReg r s

/-! ## The triple (R125) -/

/-- The triple after a step whose next address is given. -/
def Triple.advance (t : Triple) (next : Word) (nul : Bool) : Triple :=
  { pc := t.npc, npc := t.nnpc, nnpc := next, a0 := t.a1 || nul, a1 := t.a2 || nul, a2 := false }

/-- The triple after a step that falls through. -/
def Triple.fall (t : Triple) : Triple := t.advance (t.nnpc + 4#64) false

/-- The position after a word of an `rpt` group has run; none after the last word of the last pass (R150). -/
def RptGroup.after (g : RptGroup) : Option RptGroup :=
  if g.word + 1 < g.words.length then some { g with word := g.word + 1 }
  else if g.pass + 1 < g.reps then some { g with word := 0, pass := g.pass + 1 }
  else none

/-- The state after an instruction has run and falls through: a replayed entry leaves the replay (R290), a word of a group
moves the group on (R150), any other word steps the triple (R125). -/
def State.retired (s : State) : State :=
  if s.thr.replaying then
    s.mapThr fun t => { t with replay := t.replay.tail, replaying := !t.replay.tail.isEmpty, waiting := false, deferLog := false }
  else
    match s.thr.rpt with
    | some g => s.mapThr fun t => { t with rpt := g.after, waiting := false, deferLog := false }
    | none =>
      s.mapThr fun t => { t with arch := { t.arch with trip := t.arch.trip.fall }, rptResume := none, waiting := false,
                                 deferLog := false }

/-- The state after a control-thread instruction has run. -/
def State.completed (s : State) : Ctl → State
  | .fall => s.retired
  | .taken target =>
    s.mapThr fun t => { t with arch := { t.arch with trip := t.arch.trip.advance target false }, rptResume := none,
                               waiting := false, deferLog := false }
  | .notTaken n =>
    s.mapThr fun t => { t with arch := { t.arch with trip := t.arch.trip.advance (t.arch.trip.nnpc + 4#64) n },
                               rptResume := none, waiting := false, deferLog := false }
  | .stay => s.mapThr fun t => { t with waiting := false, deferLog := false }

/-! ## The end of a strand (R288, R331, R333) -/

/-- The strand count of a launch (Table 19.1). -/
def Launch.count (l : Launch) : Nat := ((l.record.get 1).extractLsb' 0 32).toNat

/-- A launch with one strand finished; `err` where the device ended it. -/
def Launch.strandDone (l : Launch) (index : Nat) (err : Option (BitVec 8 × BitVec 8)) (counts : Bool) : Launch :=
  { l with
    finished := if counts then l.finished + 1 else l.finished
    ended := if err.isSome then l.ended + 1 else l.ended
    err := match l.err, err with
      | none, some (c, d) => some (index, c, d)
      | e, _ => e }

/-- A strand's slot when the strand has gone: fallow; the register contents stay, stale (R63). -/
def Thread.freed (t : Thread) : Thread :=
  { t with bound := false, stopping := false, dbgHalt := false, loop := none, unres := [], held := [], defer := false,
           deferLog := false, ptrap := none, replay := [], replaying := false, rpt := none, rptResume := none,
           waiting := false, wa := .none, sleep := none, wdPend := false, preempt := false, errunc := none, parent := none,
           forks := [], claims := [], tickets := [], codeMem := [], debited := false, goneStep := false, stopAt := none }

/-- The launches with a strand of one of them finished (R331). -/
def State.launchStrandDone (s : State) (id index : Nat) (err : Option (BitVec 8 × BitVec 8)) (counts : Bool) : State :=
  { s with launches := s.launches.map fun l => if l.id = id then l.strandDone index err counts else l }

/-- A strand whose parent, if it stood in a slot, has been ended by the device (log entry 11). -/
def Thread.orphan (t : Thread) (k : Nat) : Thread := if t.parent = some k then { t with parent := some 288 } else t

/-- The slot of a strand that has gone becomes fallow: its monitor entry is freed, its parent learns of its end (R27, R28), and children
that it leaves have no parent any more. -/
def State.freeSlot (s : State) (k : Nat) : State :=
  let t := s.getThr k
  let s := { s with monitors := s.monitors.filter (fun m => m.key ≠ k), thr := s.thr.orphan k,
                    others := s.others.map fun (p : Nat × Thread) => (p.1, p.2.orphan k) }
  let s := match t.parentSlot with
    | some p =>
      let pt := s.getThr p
      s.setThr p { pt with forks := pt.forks.map fun (f : ForkRec) => if f.child = k then { f with ended := true } else f }
    | none => s
  s.setThr k t.freed

/-- The strand in a slot ends: `err` carries the cause and detail where the device ends it (R288). A fork child is no strand
of the launch's count (log entry 11). -/
def State.endStrand (s : State) (k : Nat) (err : Option (BitVec 8 × BitVec 8)) : State :=
  let t := s.getThr k
  (s.freeSlot k).launchStrandDone t.launch t.index err t.parent.isNone

/-! ## Taking a trap (R286 to R289) -/

/-- Whether UTVEC names a user handler (R60). -/
def UserCR.handlerValid (u : UserCR) : Bool := u.utvec != 0#56 && u.utvec.extractLsb' 0 2 == 0#2

/-- Whether STVEC names a system handler (R287). -/
def SysCR.handlerValid (c : SysCR) : Bool := c.stvec != 0#64 && c.stvec.extractLsb' 0 2 == 0#2

/-- The causes that Table 17.5 marks "user". -/
def Cause.isUser (c : BitVec 8) : Bool := c == Cause.gentrap || c == Cause.promise || c == Cause.brk || c == Cause.trap

/-- Whether a trap goes to the user handler (R286). -/
def State.userDelivers (s : State) (t : Trap) (inGroup : Bool) : Bool :=
  Cause.isUser t.cause && !s.thr.level && s.ucr.handlerValid && !s.thr.handler && !inGroup

/-- What every delivery drops: a wait in progress, a running group, the marks of the pending events it takes. -/
def Thread.entered (t : Thread) : Thread :=
  { t with waiting := false, defer := false, deferLog := false, rpt := none, rptResume := none, ptrap := none,
           replaying := false, sleep := none }

/-- The user frame (R154, R128): the triple `f` is saved and the handler at UTVEC entered. -/
def State.enterUser (s : State) (f : Triple) (t : Trap) : State :=
  s.mapThr fun th =>
    { th.entered with
      handler := true
      arch := { th.arch with
        trip := Triple.start (th.arch.ucr.utvec.setWidth 64)
        ucr := { th.arch.ucr with
          ucause := t.cause, uepc := f.pc.extractLsb' 2 54, uenpc := f.npc.extractLsb' 2 54,
          uennpc := f.nnpc.extractLsb' 2 54, uannul := BitVec.ofBool f.a2 ++ BitVec.ofBool f.a1, uval := t.value } } }

/-- The system frame (R287). For GENTRAP, PROMISE, BRK and TRAP, UVAL is written too. -/
def State.enterSystem (s : State) (f : Triple) (t : Trap) (sxpc : Word) (srpt : BitVec 11) : State :=
  s.mapThr fun th =>
    { th.entered with
      level := true
      arch := { th.arch with
        trip := Triple.start th.sys.stvec
        ucr := if Cause.isUser t.cause then { th.arch.ucr with uval := t.value } else th.arch.ucr }
      sys := { th.sys with
        sepc := f.pc, senpc := f.npc, sennpc := f.nnpc, sannul := BitVec.ofBool f.a2 ++ BitVec.ofBool f.a1,
        scause := t.detail ++ t.cause, sval := t.value, sxpc := sxpc, srpt := srpt, ppl := th.level, sta := true } }

/-- A trap is delivered with the frame `f`: a double trap, or a trap for system software without a system vector, ends the
strand (R287, R288). -/
def State.deliver (s : State) (f : Triple) (t : Trap) (sxpc : Word) (srpt : BitVec 11) (inGroup : Bool) : State :=
  if s.thr.sys.sta then s.endStrand s.cur (some (t.cause, t.detail))
  else if s.userDelivers t inGroup then s.enterUser f t
  else if s.thr.sys.handlerValid then s.enterSystem f t sxpc srpt
  else s.endStrand s.cur (some (t.cause, t.detail))

/-- SRPT for a position in a group (Table 17.4). -/
def srptOf (pass word : Nat) : BitVec 11 := 1#1 ++ BitVec.ofNat 6 pass ++ BitVec.ofNat 4 word

/-- The frame of a stop (R151, R287, R292): the triple, or inside a group that of its `rpt` word; SRPT; whether a group is stopped. A
group that a return has yet to resume is still stopped. -/
def Thread.frameAt (t : Thread) : Triple × BitVec 11 × Bool :=
  match t.rpt, t.rptResume with
  | some g, _ => (g.start, srptOf g.pass g.word, true)
  | none, some (pass, word) => (t.arch.trip, srptOf pass word, true)
  | none, none => (t.arch.trip, 0#11, false)

/-- A trap or an asynchronous event delivered with the frame of the stop. -/
def State.deliverHere (s : State) (t : Trap) (sxpc : Word) : State :=
  s.deliver s.thr.frameAt.1 t sxpc s.thr.frameAt.2.1 s.thr.frameAt.2.2

/-- The state before something that takes no effect, with what the device notes all the same: a poisoned table frame is listed and its
translations are dropped (R317), a consumed error is logged (Table 22.2, R383). -/
def State.noting (s0 s : State) : State :=
  { s0 with
    free := s.free, walks := s.walks, badFrames := s.badFrames, dropping := s.dropping, elog := s.elog
    mod := { s0.mod with estat := s.mod.estat } }

/-- A trap in a strip younger than an unresolved `ubrk` is deferred: nothing of the instruction takes effect, and it runs
again once every older `ubrk` has resolved (R36, R124; log entry 10). -/
def State.deferTrap (s0 s : State) : State :=
  { s0.noting s with
    thr := { s0.thr with defer := true, waiting := true, deferLog := s0.thr.deferLog || decide (s.elog ≠ s0.elog) } }

/-- A trap of a control-thread instruction: `s0` is the state before it, `s` the state the body left. -/
def takeTrap (s0 : State) (t : Trap) (s : State) : State :=
  if s.thr.unres ≠ [] then State.deferTrap s0 s else s.deliverHere t 0#64

/-- The entry a posted instruction makes in the replay: its scalar operands as they read at its posting (R290; log entry 12), VFMT (R170),
a stale one as zero under GENMODE = 0 and as a trap it carries under GENMODE = 1 (R166). -/
def State.captured (s : State) (i : Instr) (addr : Word) : Replay :=
  { instr := i, addr := addr, sreg := Vector.ofFn fun (r : Fin 32) => s.reg ⟨r⟩,
    live := Vector.ofFn fun (r : Fin 32) => s.regLive ⟨r⟩ || s.ucr.genmode == 0#1,
    bad := (List.range 32).filter fun r => s.regBad (BitVec.ofNat 5 r), vfmt := s.ucr.vfmt, stop := 0#16, gone := false }

/-- A trap of a posted instruction awaits the next boundary (R289); the control thread goes on past the instruction, which stands first in
the replay. -/
def takePostedTrap (i : Instr) (s0 : State) (t : Trap) (s : State) : State :=
  if s.thr.unres ≠ [] then State.deferTrap s0 s
  else if s.thr.replaying then
    match s.thr.replay with
    | e :: es =>
      let e := { e with stop := s.ucr.vstart, gone := s.thr.goneStep }
      s.mapThr fun th => { th with ptrap := some ⟨t.cause, t.detail, t.value, e⟩, replay := e :: es, goneStep := false }
    | [] => s
  else
    match s.thr.rpt with
    | some g =>
      let addr := (g.words.getD g.word (i, s.trip.pc)).2
      s.mapThr fun th => { th with ptrap := some ⟨t.cause, t.detail, t.value, s0.captured i addr⟩ }
    | none =>
      let e := { s0.captured i s0.trip.pc with stop := s.ucr.vstart, gone := s.thr.goneStep }
      s.mapThr fun th =>
        { th with ptrap := some ⟨t.cause, t.detail, t.value, e⟩, replay := e :: th.replay, goneStep := false,
                  arch := { th.arch with trip := th.arch.trip.fall } }

/-- A control-thread instruction runs: `s0` is the state before it. -/
def runControl (s0 : State) (r : Res Ctl) : Out :=
  match r with
  | .done c s => .next (s.completed c)
  | .trap t s => .next (takeTrap s0 t s)
  | .wait s => .next (s.mapThr fun th => { th with waiting := true })

/-- A posted instruction runs: `s0` is the state before it. -/
def runPosted (i : Instr) (s0 : State) (r : Res Unit) : Out :=
  match r with
  | .done _ s => .next s.retired
  | .trap t s => .next (takePostedTrap i s0 t s)
  | .wait s => .next (s.mapThr fun th => { th with waiting := true })

/-- An instruction that never runs speculatively stalls until every older `ubrk` has resolved (R35, R136). -/
def whenResolved {α : Type} (s : State) (k : State → Res α) : Res α :=
  if s.thr.unres = [] then k s else .wait (s.mapThr fun t => { t with defer := true })

/-- The instruction word, zero-extended: the trap value of most causes (Table 17.5). -/
def wordValue (i : Instr) : Word := ((encode i).getD 0#32).setWidth 64

/-! ## Returning from a trap (R129, R156, R291) -/

/-- The triple that a user frame gives back (R129). -/
def UserCR.frame (u : UserCR) : Triple :=
  { pc := (u.uepc ++ 0#2).setWidth 64, npc := (u.uenpc ++ 0#2).setWidth 64, nnpc := (u.uennpc ++ 0#2).setWidth 64,
    a0 := false, a1 := u.uannul.getLsbD 0, a2 := u.uannul.getLsbD 1 }

/-- The triple that a system frame gives back (R291). -/
def SysCR.frame (c : SysCR) : Triple :=
  { pc := c.sepc, npc := c.senpc, nnpc := c.sennpc, a0 := false, a1 := c.sannul.getLsbD 0, a2 := c.sannul.getLsbD 1 }

/-- The state after `eret` (R156, R291): a pending replay is reissued before any word is fetched. SRPT is cleared at system level whatever its
V bit holds (DESIGN CHOICE, log entry 50: R291 writes the clearing on the line of V = 1). -/
def State.returned (s : State) : State :=
  s.mapThr fun t =>
    let t := { t with replaying := !t.replay.isEmpty, waiting := false, rptResume := none }
    if t.level then
      { t with
        level := t.sys.ppl
        arch := { t.arch with trip := t.sys.frame }
        rptResume := if t.sys.srpt.getLsbD 10 then some ((t.sys.srpt.extractLsb' 4 6).toNat, (t.sys.srpt.extractLsb' 0 4).toNat)
                     else none
        sys := { t.sys with sta := false, hw := false, srpt := 0#11 } }
    else { t with handler := false, arch := { t.arch with trip := t.arch.ucr.frame } }

end Sys2Proof.Machine
end

