-- ==== Sys2Proof/Machine/Order.lean ====
section
/-!
DEFINITION. The order in which observers see stores (11 sections 11.2 to 11.6): stores that are not yet performed for everyone, what a
reader may still read in their place, and what fences, releases and `pfence` do to them (log entry 5).

Memory holds the newest store to each byte. `late` lists the stores that some observer may not have seen, newest first, each with what it
wrote over: a reader that misses a store reads what stood there before.
-/

namespace Sys2Proof.Machine

/-! ## Paths and readers (Tables 11.3, 11.4, 11.16) -/

/-- The path of Table 11.3 that an access belongs to, whatever its x bit. -/
def Path.base : Path → Path
  | .vectorLoose => .vector
  | p => p

/-- The paths on which a strand that has read a value reads nothing older: that of the read, and path S after a vector memory instruction
with x = 0 (Table 11.16, f). -/
def Path.keys : Path → List Path
  | .vector => [.vector, .scalar]
  | p => [p.base]

/-- The path of a code of `pfence` (Table 10.7). -/
def Path.ofCode : Nat → Path
  | 0 => .scalar
  | 1 => .vector
  | 2 => .matrix
  | 3 => .copy
  | _ => .collective

/-- Paths S and V. -/
def Path.ordinary (q : Path) : Bool := q.base == .scalar || q.base == .vector

/-- Whether a strand's access on path `q` comes after its own earlier store on path `p` without a `pfence` (Table 11.16): the same path, and
path S after a vector memory instruction with x = 0. Two copies, and two collectives, are unordered. -/
def Path.keeps (p q : Path) : Bool :=
  match p.base, q.base with
  | .scalar, .scalar | .vector, .vector | .matrix, .matrix => true
  | .vector, .scalar => p == .vector
  | _, _ => false

/-- How a strand's plain access on a path goes out. -/
def Path.plain (q : Path) : Way := { path := q, inst := 0, ord := false, so := false }

/-- Who reads: the strand, the core it stands on, the path, and the operation of an engine that reads for the strand, else 0. -/
structure Reader where
  uid  : Nat
  core : Nat
  path : Path
  inst : Nat
  deriving DecidableEq, Repr

/-- The host and the peer modules. -/
def Reader.outside : Reader := { uid := 0, core := 0, path := .outside, inst := 0 }

/-- The stepping strand as a reader. -/
def State.reader (s : State) (q : Path) : Reader := { uid := s.thr.uid, core := coreOf s.cur, path := q, inst := 0 }

/-- The narrowest scope that contains two cores. -/
def State.scopeBetween (s : State) (c n : Nat) : Nat :=
  if n = c then 0 else if s.clusterOf n = s.clusterOf c then 1 else if s.dieOf n = s.dieOf c then 2 else 3

/-- The narrowest scope of a strand's own accesses on a path (Table 11.4): the copy engine stands in the cluster, the collective engine
on the die. -/
def Path.place : Path → Nat
  | .copy => 1
  | .collective => 2
  | _ => 0

/-- The narrowest scope around a core in which a reader stands (R268). -/
def State.reach (s : State) (c : Nat) (r : Reader) : Nat :=
  if r.path = .outside then 4 else max r.path.place (s.scopeBetween c r.core)

/-! ## What a reader may miss (R266, R270, R273, R279) -/

/-- Whether a store is performed for the scope in which a reader stands. -/
def State.performedFor (s : State) (e : Late) (r : Reader) : Bool := e.perf.any fun p => decide (s.reach p.1 r < p.2)

/-- Whether a store is ordered before its own strand's reads by a reader: on the path (Table 11.16), between paths S and V on an SO page
(R269), or within one operation of an engine, whose rows follow one another (R252). -/
def Late.keptFor (e : Late) (r : Reader) : Bool :=
  r.uid == e.uid && r.path != .outside && e.way.path != .outside &&
    (e.way.path.keeps r.path || (e.way.so && e.way.path.ordinary && r.path.ordinary) ||
      (e.way.path == r.path && r.inst != 0 && e.way.inst == r.inst))

/-- Whether a reader sees a store from now on: it has read it, or another rule makes it seen. -/
def Late.knownTo (e : Late) (r : Reader) : Bool :=
  e.seen.any fun k => k.1 == r.uid && k.2.1 == r.path.base && (k.2.2.isNone || k.2.2 == some r.inst)

/-- Whether a reader may still miss a store: it need not see it, and the store is not ordered before its strand's own reads or, for another
reader, not performed for its scope. -/
def State.hides (s : State) (r : Reader) (e : Late) : Bool :=
  !e.knownTo r && (if r.uid == e.uid && r.path != .outside && e.way.path != .outside then !e.keptFor r else !s.performedFor e r)

/-- Whether a store wrote a byte of a range under a generation. -/
def Late.touches (e : Late) (gen : Gen) (pa n : Nat) : Bool := decide (e.pa < pa + n ∧ pa < e.pa + e.old.length) && e.gen == gen

/-- Whether a read of a store tells nothing new: on each path that the read counts for, it is noted or the store is the strand's own and
ordered before. -/
def Late.settledFor (e : Late) (r : Reader) : Bool :=
  r.path.keys.all fun q => e.seen.contains (r.uid, q, some r.inst) || e.keptFor { r with path := q }

/-- A store as one that a reader has read: from then on it reads nothing older there (R273). -/
def Late.noted (e : Late) (r : Reader) : Late := { e with seen := r.path.keys.map (fun q => (r.uid, q, some r.inst)) ++ e.seen }

/-- A store as one that a reader sees because it sees a newer one. -/
def Late.implied (e : Late) (r : Reader) : Late :=
  { e with seen := (r.uid, r.path.base, if r.inst = 0 then none else some r.inst) :: e.seen }

/-- Whether a reader that sees the newer store `u` sees the older one `e` of the same strand too: tile stores (Table 11.16), elements of one
ordered instruction (R278), and for another strand of the same core a store on path S after stores on path S and vector stores with x = 0
(Table 11.6, K†; Table 11.16, f). -/
def State.follows (s : State) (r : Reader) (u e : Late) : Bool :=
  u.uid == e.uid && u.way.path != .outside && e.way.path != .outside &&
    ((u.way.path == .matrix && e.way.path == .matrix) ||
     (u.way.ord && u.way.inst == e.way.inst && u.way.path == e.way.path) ||
     (u.way.path == .scalar && !u.way.so && (e.way.path == .scalar || e.way.path == .vector) && r.uid != u.uid &&
       s.reach u.core r == 0))

/-- One access of a reader: each store as it stands after it, with whether the reader sees it; `pick` answers for a store that it may miss
(R274: whole or not at all), by its place from the oldest on; `us` are the newer stores that it sees. -/
def State.look (s : State) (r : Reader) (gen : Gen) (pa n : Nat) (pick : Nat → Bool) : List Late → List Late → List (Late × Bool)
  | _, [] => []
  | us, e :: es =>
    let touched := e.touches gen pa n
    let after := us.any fun u => s.follows r u e
    let sees := !s.hides r e || after || (touched && pick es.length)
    let x := if touched && sees then (if e.settledFor r then e else e.noted r)
      else if after && !e.knownTo r then e.implied r
      else e
    (x, sees) :: s.look r gen pa n pick (if sees then e :: us else us) es

/-- Bytes from an address on, the settled ones marked, under a store: a seen one settles its bytes, one not seen gives back what it wrote
over. -/
def Late.over (e : Late) (sees : Bool) (gen : Gen) (pa : Nat) (cs : List (Byte × Bool)) : List (Byte × Bool) :=
  if e.touches gen pa cs.length then
    cs.zipIdx.map fun (c, i) =>
      if e.pa ≤ pa + i ∧ pa + i < e.pa + e.old.length then
        (if sees then (c.1, true) else if c.2 then c else (e.old.getD (pa + i - e.pa) c.1, false))
      else c
  else cs

/-- Whether a reader's access to a place has to look at the late stores. -/
def State.unsettled (s : State) (r : Reader) (gen : Gen) (pa n : Nat) : Bool :=
  s.late.any fun e => e.touches gen pa n && !e.settledFor r

/-- What a reader's access to a place gives: `bs` is what memory holds. -/
def State.viewed (s : State) (r : Reader) (gen : Gen) (pa : Nat) (bs : List Byte) : List Byte × State :=
  if s.unsettled r gen pa bs.length then
    let x := s.look r gen pa bs.length (fun i => !Config.unseen s.free i) [] s.late
    ((x.foldl (fun cs e => e.1.over e.2 gen pa cs) (bs.map fun b => (b, false))).map (·.1),
     { s with late := x.map (·.1), free := s.free + 1 })
  else (bs, s)

/-- An atomic reads the newest store at its home (R266). -/
def State.readNewest (s : State) (r : Reader) (gen : Gen) (pa n : Nat) : State :=
  if s.unsettled r gen pa n then { s with late := (s.look r gen pa n (fun _ => true) [] s.late).map (·.1) } else s

/-! ## Stores -/

/-- A store of the stepping strand that no other observer need have seen yet; `old` is what the bytes held. A scalar or vector store to an SO
page is performed at once (R269). -/
def State.lateOf (s : State) (w : Way) (pa : Nat) (old : List Byte) (gen : Gen) : Late :=
  { uid := s.thr.uid, core := coreOf s.cur, launch := s.thr.launch, way := w, pa := pa, old := old, gen := gen,
    perf := if w.so && w.path.ordinary then [(coreOf s.cur, 5)] else [], seen := [] }

/-- The state with a late store put on top. -/
def State.addLate (s : State) (e : Late) : State := { s with late := e :: s.late }

/-- The state before a write that every observer sees at once: where late stores touch its bytes, it is put on top of them. -/
def State.overwritten (s : State) (pa : Nat) (old : List Byte) (gen : Gen) : State :=
  if s.late.any fun e => e.touches gen pa old.length then
    s.addLate { uid := 0, core := 0, launch := 0, way := Path.outside.plain, pa := pa, old := old, gen := gen, perf := [(0, 5)],
                seen := [] }
  else s

/-- The stores that stay late when time passes: the oldest are performed first. -/
def stillLate (free : Nat) : List Late → List Late
  | [] => []
  | e :: es => if Config.staysLate free es.length then e :: stillLate free es else []

/-! ## Fences and releases (R233, R242, R243, R276, R277) -/

/-- A store performed for the observers in a scope around a core. -/
def Late.performed (e : Late) (core sc : Nat) : Late :=
  if e.perf.contains (core, sc + 1) then e else { e with perf := (core, sc + 1) :: e.perf }

/-- Whether a store is the stepping strand's own, of its own instructions. -/
def State.owner (s : State) (e : Late) : Bool := e.uid == s.thr.uid && e.way.path != .outside

/-- The state with every late store of which a condition holds performed for a scope around the stepping strand's core. -/
def State.performWhere (s : State) (p : Late → Bool) (sc : Nat) : State :=
  { s with late := s.late.map fun e => if p e then e.performed (coreOf s.cur) sc else e }

/-- A fence that orders earlier stores (R242, R276): the strand's own stores on paths S and V are performed for the scope. -/
def State.storeFence (s : State) (sc : Nat) : State :=
  s.performWhere (fun e => s.owner e && e.way.path.ordinary) sc

/-- Whether the stepping strand has made a store on a path, or read it there: what a release of the path carries. -/
def State.touchedOn (s : State) (q : Path) (e : Late) : Bool :=
  (s.owner e && e.way.path.keeps q) || e.seen.any fun k => k.1 == s.thr.uid && k.2.1 == q && k.2.2.isSome

/-- A release on some paths (R233, R277): every store on them, the strand's own and those of others that it has read, is performed for the
scope. -/
def State.release (s : State) (qs : List Path) (sc : Nat) : State := s.performWhere (fun e => qs.any fun q => s.touchedOn q e) sc

/-- A release at device scope for paths S and V, as several instructions act (R240, R259, R260, R315). -/
def State.releaseDevice (s : State) : State := s.release [.scalar, .vector] 3

/-- A store that the stepping strand sees on a path from now on. -/
def State.visibleOn (s : State) (q : Path) (e : Late) : Late :=
  if e.seen.contains (s.thr.uid, q, none) then e else { e with seen := (s.thr.uid, q, none) :: e.seen }

/-- `pfence` from one path to another (R243, R279): the strand's own stores on the first are performed for the scope, and its later
accesses on the second see them, and whatever it has read on the first, where that path's accesses stand within the scope. -/
def State.pathFence (s : State) (p q : Path) (sc : Nat) : State :=
  { s with late := s.late.map fun e =>
      let own := s.owner e && e.way.path.base == p
      let e' := if own then e.performed (coreOf s.cur) sc else e
      if decide (q.place ≤ sc) && (own || e.seen.any fun k => k.1 == s.thr.uid && k.2.1 == p && k.2.2.isSome) then s.visibleOn q e' else e' }

/-- An atomic after the strand's stores on path S, and its vector stores with x = 0 (Table 11.6, St to At, K†): they are performed for its
own core. -/
def State.coreOrder (s : State) : State := s.performWhere (fun e => s.owner e && (e.way.path == .scalar || e.way.path == .vector)) 0

/-- An acquire on several paths (R239, R246, R258, R315): the strand's later accesses on them see its own stores that are performed for its
core, whichever of the paths those were on; stores of others need nothing, since loads are performed as they run. -/
def State.acquire (s : State) (qs : List Path) : State :=
  { s with late := s.late.map fun e =>
      if s.owner e && s.performedFor e (s.reader .scalar) then qs.foldl (fun e q => s.visibleOn q e) e else e }

/-- An acquire for paths S and V. -/
def State.acquireBoth (s : State) : State := s.acquire [.scalar, .vector]

/-- Stores performed for every observer. -/
def State.performAll (s : State) (p : Late → Bool) : State :=
  { s with late := s.late.map fun e => if p e then e.performed e.core 4 else e }

/-- Every store of a launch performed for every observer (R332). -/
def State.launchOrder (s : State) (launch : Nat) : State := s.performAll fun e => e.launch == launch

/-- Every store of the stepping strand performed for every observer (R157); its copies and collectives run on. -/
def State.drained (s : State) : State :=
  s.performAll fun e => s.owner e && e.way.path != .copy && e.way.path != .collective

/-- What the vector instructions of the stepping strand have stored since its counter stood at `n`, performed for every observer. -/
def State.performSince (s : State) (n : Nat) : State :=
  s.performAll fun e => s.owner e && decide (n ≤ e.way.inst) && e.way.path.base == .vector

/-- What one vector instruction of the stepping strand has stored, performed for every observer (R280). -/
def State.performInst (s : State) (inst : Nat) : State :=
  s.performAll fun e => s.owner e && e.way.inst == inst && e.way.path.base == .vector

/-- What a barrier's arrivals ordered, performed for a wider scope too (R22); every store that is performed for some scope is taken. -/
def State.widenOrder (s : State) (sc : Nat) : State :=
  { s with late := s.late.map fun e => { e with perf := e.perf.map fun p => (p.1, max p.2 (sc + 1)) } }

end Sys2Proof.Machine
end

