-- ==== Sys2Proof/Machine/Memory.lean ====
section
/-!
DEFINITION. Physical memory and the way to it: the map (R400), bytes, tags (R341), poison (R374), the page-table walk (R308 to
R317), a strand's loads and stores on tagged and untagged memory (R142, R190, R191), the accesses of engines.
-/

namespace Sys2Proof.Machine

/-! ## The physical map (Table 11.22) -/

/-- What stands at a physical address. -/
inductive Region where
  | lpddr
  | slice (core : Nat)
  | window (core off : Nat)
  | info
  | host
  | peer
  | notMemory
  deriving DecidableEq, Repr

/-- Where the windows begin. -/
def windowBase : Nat := 0x00D000000000

/-- The physical address of an offset of a core's window (R264). -/
def windowAddr (core off : Nat) : Nat := windowBase + core * 0x800000 + off

/-- Whether a die's parts of the map are memory: at service level 2 those of die 1 are not (R393). -/
def State.dieReached (s : State) (die : Nat) : Bool := die == 0 || s.mod.svclvl != 2#2

/-- The die of an LPDDR6 byte (R262). -/
def homeDie (pa : Nat) : Nat := if pa < 0x006000000000 then 0 else 1

/-- What stands at a physical address (R400). -/
def State.region (s : State) (pa : Nat) : Region :=
  if pa < 0x00C000000000 then (if s.dieReached (homeDie pa) then .lpddr else .notMemory)
  else if pa < 0x00D000000000 then
    let n := (pa - 0x00C000000000) / 0xC00000
    if n < s.ncore && s.dieReached (s.dieOf n) then .slice n else .notMemory
  else if pa < 0x00E000000000 then
    let n := (pa - 0x00D000000000) / 0x800000
    if n < s.ncore && s.dieReached (s.dieOf n) then .window n ((pa - 0x00D000000000) % 0x800000) else .notMemory
  else if pa < 0x00E000001000 then .info
  else if pa < 0x1000000000000 then .notMemory
  else if pa < 0x2000000000000 then .host
  else if pa < 0x3000000000000 then .peer
  else .notMemory

/-! ## Bytes, tags and poison -/

/-- A byte of physical memory. -/
def State.byte (s : State) (pa : Nat) : Byte := Sparse.get memDefault s.mem pa

/-- Bytes of physical memory. -/
def State.bytes (s : State) (pa n : Nat) : List Byte := (List.range n).map fun i => s.byte (pa + i)

/-- Bytes written one after another. -/
def Memory.write (m : List Host.Cell) (pa : Nat) : List Byte → List Host.Cell
  | [] => m
  | b :: bs => Memory.write (Sparse.put memDefault m pa b) (pa + 1) bs

/-- A range of memory zero-filled: `memDefault` is zero, so nothing in it stays listed (log entry 3). -/
def Memory.clear (m : List Host.Cell) (pa n : Nat) : List Host.Cell := m.filter fun c => decide (c.1 < pa ∨ pa + n ≤ c.1)

/-- The size of the poison unit at an address: a granule of tagged storage, or 32 bytes (Table 22.1). -/
def poisonUnit (pa : Nat) : Nat := if windowBase ≤ pa ∧ pa < 0x00E000000000 then 64 else 32

/-- Whether a range holds a byte of a poisoned unit. -/
def State.poisoned (s : State) (pa n : Nat) : Bool :=
  s.poison.any fun u => decide (u < pa + n ∧ pa < u + poisonUnit u)

/-- Poison marks but for the units that a range holds whole. -/
def clearPoison (p : List Nat) (pa n : Nat) : List Nat := p.filter fun u => !decide (pa ≤ u ∧ u + poisonUnit u ≤ pa + n)

/-- The units that hold a range marked poisoned. -/
def State.poisonRange (s : State) (pa n : Nat) : State :=
  let unit := poisonUnit pa
  let us := (List.range ((pa % unit + n - 1) / unit + 1)).map fun i => pa / unit * unit + i * unit
  { s with poison := s.poison ++ us.filter fun u => !s.poison.contains u }

/-- Whether ranges cover a poison unit. -/
def unitCovered (ws : List (Nat × Nat)) (u : Nat) : Bool :=
  (List.range (poisonUnit u)).all fun i => ws.any fun w => decide (w.1 ≤ u + i ∧ u + i < w.1 + w.2)

/-- Bytes put where they stand. A poisoned unit that one instruction or event has written whole is poisoned no more; a partial write leaves
it poisoned (R374). -/
def State.putBytes (s : State) (pa : Nat) (bs : List Byte) : State :=
  if s.poisoned pa bs.length then
    let ws := (pa, bs.length) :: s.wrote
    { s with mem := Memory.write s.mem pa bs, wrote := ws, poison := s.poison.filter fun u => !unitCovered ws u }
  else { s with mem := Memory.write s.mem pa bs }

/-- Untagged memory written for every observer at once. -/
def State.writeBytes (s : State) (pa : Nat) (bs : List Byte) : State := (s.overwritten pa (s.bytes pa bs.length) 0#16).putBytes pa bs

/-- The tag of the granule that holds a window address. -/
def State.tag (s : State) (pa : Nat) : Gen := Sparse.get 0#16 s.tags (pa / 64)

/-- A granule stamped: a stale one is zero-filled first (R64). -/
def State.stamp (s : State) (g : Nat) (gen : Gen) : State :=
  if Sparse.get 0#16 s.tags g = gen then s
  else { s with mem := Memory.clear s.mem (64 * g) 64, tags := Sparse.put 0#16 s.tags g gen,
                poison := clearPoison s.poison (64 * g) 64 }

/-- Granules stamped one after another. -/
def State.stampFrom (s : State) (g : Nat) (gen : Gen) : Nat → State
  | 0 => s
  | n + 1 => (s.stamp g gen).stampFrom (g + 1) gen n

/-- Tagged storage written under a generation (R64): every granule touched is stamped. -/
def State.writeTagged (s : State) (pa : Nat) (bs : List Byte) (gen : Gen) : State :=
  if bs = [] then s else (s.stampFrom (pa / 64) gen ((pa + bs.length - 1) / 64 + 1 - pa / 64)).putBytes pa bs

/-- Tagged storage read under a generation: a stale granule reads as zero (R63, R66). -/
def State.bytesTagged (s : State) (pa n : Nat) (gen : Gen) : List Byte :=
  (List.range n).map fun i => if s.tag (pa + i) = gen then s.byte (pa + i) else 0#8

/-! ## Who holds a granule (R402, R403, R55) -/

/-- Bytes of a strand's share of vector storage (R43). -/
def Thread.shareBytes (t : Thread) : Nat := 524288 / 2 ^ (t.arch.ucr.vcfg.extractLsb' 2 2).toNat

/-- Whether a strand's share, accumulators or allocation hold a window offset. A fork child holds no share (R402) and shares its
parent's allocation. -/
def Thread.holds (t : Thread) (off : Nat) : Bool :=
  t.bound &&
  (if off < 0x80000 then t.parentSlot.isNone && decide (t.vbase ≤ off ∧ off < t.vbase + t.shareBytes)
   else if off < 0xC0000 then t.acc.getLsbD 0
   else if off < 0x100000 then t.acc.getLsbD 1
   else decide (0x100000 + t.scrBase ≤ off ∧ off < 0x100000 + t.scrBase + t.scrSize))

/-- The slot of the strand that holds a window offset of a core; a parent before its children. -/
def State.holder (s : State) (core off : Nat) : Option Nat :=
  match (coreKeys core).find? fun k => (s.getThr k).parentSlot.isNone && (s.getThr k).holds off with
  | some k => some k
  | none => (coreKeys core).find? fun k => (s.getThr k).holds off

/-- A strand's generation for the pool of a window offset (Table 20.1). -/
def Thread.genAt (t : Thread) (off : Nat) : Gen :=
  if off < 0x80000 then t.genV else if off < 0x100000 then t.genA else t.genP

/-- Whether the stepping strand holds the granule itself. -/
def State.owns (s : State) (core off : Nat) : Bool := coreOf s.cur == core && s.thr.holds off

/-! ## The user control registers as words (Table 2.5, Table 2.12) -/

/-- The value of a user CR; none for a number outside Table 2.5. -/
def UserCR.read (u : UserCR) : Nat → Option Word
  | 0x00 => some (u.vlen.setWidth 64)
  | 0x01 => some (u.vrows.setWidth 64)
  | 0x02 => some (u.vsew.setWidth 64)
  | 0x03 => some (u.vcfg.setWidth 64)
  | 0x04 => some (u.vstart.setWidth 64)
  | 0x05 => some (u.frm.setWidth 64)
  | 0x06 => some (u.fflags.setWidth 64)
  | 0x07 => some (u.pstep.setWidth 64)
  | 0x08 => some (u.mrow.setWidth 64)
  | 0x09 => some (u.mfmt.setWidth 64)
  | 0x0A => some (u.mxerr.setWidth 64)
  | 0x0B => some (u.vfmt.setWidth 64)
  | 0x0C => some (u.xstrip.setWidth 64)
  | 0x0D => some (u.xidx.setWidth 64)
  | 0x0E => some (u.nstat.setWidth 64)
  | 0x0F => some (u.rmode.setWidth 64)
  | 0x10 => some (u.genmode.setWidth 64)
  | 0x11 => some u.retcnt
  | 0x12 => some (u.utvec.setWidth 64)
  | 0x13 => some (u.ucause.setWidth 64)
  | 0x14 => some ((u.uepc ++ 0#2).setWidth 64)
  | 0x15 => some ((u.uenpc ++ 0#2).setWidth 64)
  | 0x16 => some ((u.uennpc ++ 0#2).setWidth 64)
  | 0x17 => some (u.uannul.setWidth 64)
  | 0x18 => some u.uval
  | 0x19 => some (u.mascale.setWidth 64)
  | 0x1A => some u.vrstr
  | 0x1B => some (u.smc.setWidth 64)
  | 0x1C => some u.cpyshape
  | 0x1D => some (u.xgrp.setWidth 64)
  | _ => none

/-! ## The device information page (R334 to R336) -/

/-- An entry of the logical-to-physical core table (Table 19.7). -/
def State.lctEntry (s : State) (n : Nat) : BitVec 8 :=
  if n < s.ncore then BitVec.ofNat 8 (128 + 64 * (s.physOf n).1 + (s.physOf n).2) else 0#8

/-- LCTk (R335). -/
def State.lct (s : State) (k : Nat) : Word :=
  (List.range 8).foldr (fun i acc => acc ||| ((s.lctEntry (8 * k + i)).setWidth 64 <<< (8 * i))) 0#64

/-- A doubleword of the information page (R336). -/
def State.infoWord (s : State) (off : Nat) : Word :=
  if off = 0 then s.mod.harv0.setWidth 64
  else if off = 8 then s.mod.harv1.setWidth 64
  else if off = 16 then BitVec.ofNat 64 s.ncore
  else if 0x40 ≤ off ∧ off < 0x88 then s.lct ((off - 0x40) / 8)
  else 0#64

/-- A byte of the information page. -/
def State.infoByte (s : State) (off : Nat) : Byte := ((s.infoWord (off / 8 * 8)).extractLsb' (8 * (off % 8)) 8)

/-! ## The walk (R308 to R312) -/

/-- Where a walk ends; at a poisoned frame, with the entry where an uncorrectable error was found (R317). -/
inductive Walk where
  | leaf (e : WalkEntry)
  | fault (reason : BitVec 8) (level : Nat)
  | poison (frame level : Nat) (entry : Option Nat)
  deriving DecidableEq, Repr

/-- The physical frame a page-table entry names, as a byte address. -/
def ptePpn (e : Word) : Nat := (e.extractLsb' 12 40).toNat * 4096

/-- Bits of a page below its level's page size. -/
def pageBits (level : Nat) : Nat := 12 + 9 * level

/-- Whether the zero fields of an entry are zero, and ATTR is no reserved value (R310). -/
def pteFieldsOk (e : Word) : Bool :=
  e.extractLsb' 52 9 == 0#9 && e.extractLsb' 7 5 == 0#5 && !e.getLsbD 2 && e.extractLsb' 62 2 != 3#2

/-- Whether a valid entry is malformed at a level (R310). -/
def pteMalformed (e : Word) (level : Nat) : Bool :=
  !pteFieldsOk e ||
  (if e.getLsbD 1 then
     decide (3 ≤ level) || (e.getLsbD 61 && decide (level ≠ 0)) || decide (ptePpn e % 2 ^ pageBits level ≠ 0)
   else decide (level = 0) || e.extractLsb' 61 3 != 0#3 || e.extractLsb' 3 4 != 0#4)

/-- Whether an entry is a valid CONT entry of a group (R311). -/
def pteCont (e : Word) : Bool := e.getLsbD 0 && e.getLsbD 1 && e.getLsbD 61 && !pteMalformed e 0

/-- The generation under which a walk reads a granule of a window: the holder's; none where no strand holds it (R314). -/
def State.holderGen (s : State) (core off : Nat) : Option Gen :=
  (s.holder core off).map fun k => (s.getThr k).genAt off

/-- A byte of a CR page: user CR c stands at 8c. -/
def UserCR.byte (u : UserCR) (o : Nat) : Byte := ((u.read (o / 8)).getD 0#64).extractLsb' (8 * (o % 8)) 8

/-- A read of a CR page (Table 11.2): the CRs of the slot's strand, zero for a fallow slot. -/
def State.crBytes (s : State) (core off n : Nat) : List Byte :=
  let t := s.getThr (4 * core + (off - 0x300000) / 4096)
  (List.range n).map fun i => if t.bound && !s.offline core then t.arch.ucr.byte (off % 4096 + i) else 0#8

/-- An entry as a walk reads it, and whether it holds an uncorrectable error (R314, R317). At a reserved offset of a window nothing stands, and
an entry there reads zero (DEDUCED, log entry 51). -/
def State.readPte (s : State) (pa : Nat) : Word × Bool :=
  match s.region pa with
  | .lpddr | .slice _ => (BitVec.ofNat 64 (numOf (s.bytes pa 8)), s.poisoned pa 8)
  | .window core off =>
    if 0x304000 ≤ off then (0#64, false)
    else if 0x300000 ≤ off then (BitVec.ofNat 64 (numOf (s.crBytes core off 8)), false)
    else match (if s.offline core then none else s.holderGen core off) with
    | some g => (BitVec.ofNat 64 (numOf (s.bytesTagged pa 8 g)), s.poisoned pa 8 && s.tag pa == g)
    | none => (0#64, false)
  | _ => (0#64, false)

/-- Whether a table may lie at an address (R310). -/
def State.tableOk (s : State) (pa : Nat) : Bool :=
  match s.region pa with
  | .lpddr | .slice _ | .window _ _ => true
  | _ => false

/-- The index of a table at a level (Table 18.2). -/
def walkIndex (va : Nat) (level : Nat) : Nat := va / 2 ^ pageBits level % (if level = 4 then 256 else 512)

/-- A leaf at the physical address that its entry and the low bits of the virtual address give. -/
def leafAt (asid : BitVec 12) (va level : Nat) (e : Word) (frames : List Nat) : WalkEntry :=
  if level = 0 ∧ e.getLsbD 61 = true then
    { asid := asid, page := va / 65536 * 16, pages := 16, frame := ptePpn e / 65536 * 16, leaf := e, frames := frames }
  else
    { asid := asid, page := va / 2 ^ pageBits level * 512 ^ level, pages := 512 ^ level, frame := ptePpn e / 4096, leaf := e,
      frames := frames }

/-- A level-0 entry in its group of 16 (R311): a consistent group, or one without a CONT entry, uses the access's own entry;
an inconsistent one uses its own or a valid CONT entry, as the device chooses, which `contChoice` leaves open. -/
def groupEntry (own : Word × Nat) (group : List (Word × Nat)) (free : Nat) : Option (Word × Nat) :=
  let ownOk := own.1.getLsbD 0 && !pteMalformed own.1 0
  let self := if ownOk then some own else none
  let consistent := group.all fun e =>
    pteCont e.1 && e.1.extractLsb' 12 4 == BitVec.ofNat 4 e.2 && e.1 &&& ~~~0xF000#64 == own.1 &&& ~~~0xF000#64
  if !(group.any fun e => pteCont e.1) || consistent then self
  else
    match group.find? fun e => e.2 == (Config.contChoice free).toNat && pteCont e.1 with
    | some pick => if ownOk || !Config.contTraps free then some pick else none
    | none => if ownOk then self else if Config.contTraps free then none else group.find? fun e => pteCont e.1

/-- The walk from a table at a level downwards. -/
def State.walkFrom (s : State) (asid : BitVec 12) (va : Nat) : Nat → Nat → List Nat → Walk
  | 0, frame, frames =>
    let idx := walkIndex va 0
    let at_ := fun (i : Nat) => frame + 8 * (idx / 16 * 16 + i)
    let (e, bad) := s.readPte (at_ (idx % 16))
    if s.badFrames.contains frame then .poison frame 0 none
    else if bad then .poison frame 0 (some (at_ (idx % 16)))
    else
      match groupEntry (e, idx % 16) ((List.range 16).map fun i => ((s.readPte (at_ i)).1, i)) s.free with
      | some l => if (s.readPte (at_ l.2)).2 then .poison frame 0 (some (at_ l.2)) else .leaf (leafAt asid va 0 l.1 (frame :: frames))
      | none => .fault (if e.getLsbD 0 then 1#8 else 0#8) 0
  | level + 1, frame, frames =>
    let pa := frame + 8 * walkIndex va (level + 1)
    let (e, bad) := s.readPte pa
    if s.badFrames.contains frame then .poison frame (level + 1) none
    else if bad then .poison frame (level + 1) (some pa)
    else if !e.getLsbD 0 then .fault 0#8 (level + 1)
    else if pteMalformed e (level + 1) then .fault 1#8 (level + 1)
    else if e.getLsbD 1 then .leaf (leafAt asid va (level + 1) e (frame :: frames))
    else if !s.tableOk (ptePpn e) then .fault 4#8 (level + 1)
    else s.walkFrom asid va level (ptePpn e) (frame :: frames)

/-- The physical address of a virtual address under a leaf. -/
def WalkEntry.addr (e : WalkEntry) (va : Nat) : Nat := e.frame * 4096 + (va - e.page * 4096)

/-- Whether a leaf covers a virtual address of a context. -/
def WalkEntry.covers (e : WalkEntry) (asid : BitVec 12) (va : Nat) : Bool :=
  e.asid == asid && decide (e.page * 4096 ≤ va ∧ va < (e.page + e.pages) * 4096)

/-- The end of a walk for a virtual address: a leaf's address that is not memory stops it (R310). -/
def State.checked (s : State) (va : Nat) : Walk → Walk
  | .leaf e => if s.region (e.addr va) = .notMemory then .fault 4#8 (5 - e.frames.length) else .leaf e
  | w => w

/-- The walk of a virtual address below 2^56 (R308). A root where no table may lie stops it with reason 4 at level 4, as R310 says of a next
table (DEDUCED, log entry 51: R310 does not speak of the root). -/
def State.walk (s : State) (asid : BitVec 12) (root : BitVec 40) (va : Nat) : Walk :=
  if !s.tableOk (root.toNat * 4096) then .fault 4#8 4 else s.checked va (s.walkFrom asid va 4 (root.toNat * 4096) [])

/-- The kinds of access (Table 18.6). -/
inductive Access where
  | load
  | store
  | fetch
  | atomic
  deriving DecidableEq, Repr

/-- SCAUSE.DETAIL of a kind of access. -/
def Access.detail : Access → BitVec 8
  | .load => 0#8
  | .store => 1#8
  | .fetch => 2#8
  | .atomic => 3#8

/-- Whether a leaf permits an access at a level (R312). -/
def permits (e : Word) (system : Bool) : Access → Bool
  | .load => (system || e.getLsbD 6) && e.getLsbD 3
  | .store => (system || e.getLsbD 6) && e.getLsbD 4
  | .fetch => (system || e.getLsbD 6) && e.getLsbD 5
  | .atomic => (system || e.getLsbD 6) && e.getLsbD 3 && e.getLsbD 4

/-- The outcome of a translation: a physical address with the page's attribute, or the TFLT reason and level of its fault. -/
inductive Xlat where
  | ok (pa : Nat) (attr : BitVec 2)
  | fault (reason : BitVec 8) (level : Nat)
  deriving DecidableEq, Repr

/-- A frame listed as poisoned; every cached translation through it is to be dropped, as a shootdown drops one (R317). -/
def State.poisonFrame (s : State) (frame : Nat) : State :=
  { s with
    badFrames := if s.badFrames.contains frame || 64 ≤ s.badFrames.length then s.badFrames else s.badFrames ++ [frame]
    dropping := if s.dropping.contains frame then s.dropping else frame :: s.dropping }

/-- The state with a translation noted: walk caches may keep it (R314). -/
def State.noteWalk (s : State) (e : WalkEntry) : State := if s.walks.contains e then s else { s with walks := e :: s.walks }

/-- The translation an access uses: what the tables give, or any translation noted since the last shootdown that differs from it, as the
device chooses (R314, R316). -/
def State.chooseWalk (s : State) (asid : BitVec 12) (root : BitVec 40) (va : Nat) : Walk × State :=
  let fresh := s.walk asid root va
  match ((s.walks.filter fun e => e.covers asid va).map fun c => s.checked va (.leaf c)).filter fun w => w ≠ fresh with
  | [] => (fresh, s)
  | ws => ((fresh :: ws).getD (Config.cachedWalk s.free % (ws.length + 1)) fresh, s.tick)

/-- The source number of the error log for an address (Tables 22.1 and 22.5). -/
def State.errorSource (s : State) (pa : Nat) : BitVec 8 × BitVec 8 :=
  match s.region pa with
  | .lpddr => (1#8, 0xFF#8)
  | .slice n => (2#8, BitVec.ofNat 8 n)
  | .window n _ => (3#8, BitVec.ofNat 8 n)
  | _ => (7#8, 0xFF#8)

/-- The log entry of a consumption of poison (R383). -/
def State.logConsumed (s : State) (pa : Nat) : State :=
  s.logError (s.errorSource pa).1 (s.errorSource pa).2 2#2 (BitVec.ofNat 64 pa) 2#4

/-- Translation for a context at a level (R308 to R312). -/
def State.translate (s : State) (asid : BitVec 12) (root : BitVec 40) (system : Bool) (va : Word) (k : Access) : Xlat × State :=
  if va.extractLsb' 56 8 ≠ 0#8 then (.fault 2#8 0, s)
  else
    match s.chooseWalk asid root va.toNat with
    | (.fault r l, s) => (.fault r l, s)
    | (.poison f l e, s) => (.fault 5#8 l, (match e with | some pa => s.logConsumed pa | none => s).poisonFrame f)
    | (.leaf e, s) =>
      if permits e.leaf system k then (.ok (e.addr va.toNat) (e.leaf.extractLsb' 62 2), s.noteWalk e)
      else (.fault 3#8 0, s.noteWalk e)

/-- Where an address lies, whatever its page permits (R308 to R311). -/
def State.place (s : State) (asid : BitVec 12) (root : BitVec 40) (va : Word) : Option Nat × State :=
  if va.extractLsb' 56 8 ≠ 0#8 then (none, s)
  else
    match s.chooseWalk asid root va.toNat with
    | (.leaf e, s) => (some (e.addr va.toNat), s.noteWalk e)
    | (.poison f _ e, s) => (none, (match e with | some pa => s.logConsumed pa | none => s).poisonFrame f)
    | (.fault _ _, s) => (none, s)

/-- The trap that a translation fault is (R310, R312, R317). -/
def xlatTrap (reason : BitVec 8) (k : Access) (va : Word) : Trap :=
  if reason = 3#8 then ⟨Cause.prot, k.detail, va⟩
  else if reason = 5#8 then ⟨Cause.walkpoison, 0#8, va⟩
  else ⟨Cause.page, k.detail, va⟩

/-! ## A strand's accesses -/

/-- Where an access goes. -/
structure Phys where
  pa   : Nat
  attr : BitVec 2
  deriving DecidableEq, Repr

/-- A page of attribute SO (R269). -/
def Phys.so (p : Phys) : Bool := p.attr == 1#2

/-- Whether a peer module refuses an address of its own (R387): its windows and device range always, and what lies past the slices of 72
cores (R400); where its own cores and service level decide what is memory, as the peer has it. -/
def peerBars (free pa : Nat) : Bool :=
  let a := pa % 0x100000000000
  decide (0x00C000000000 + 72 * 0xC00000 ≤ a) || (decide (0x006000000000 ≤ a) && Config.peerRefuses free pa)

/-- Whether the region refuses an access that its page permits (R264, R336, R387): reserved window offsets, stores to a CR page or to
the information page, what a peer refuses. -/
def State.regionRefuses (s : State) (pa : Nat) (k : Access) : Bool :=
  match s.region pa with
  | .window _ off => decide (0x304000 ≤ off) || (decide (0x300000 ≤ off) && (k == .store || k == .atomic))
  | .info => k == .store || k == .atomic
  | .peer => peerBars s.free pa
  | _ => false

/-- Translation and protection of a strand's access (R135, R187): PAGE, PROT, WALKPOISON. TFLT records the fault. -/
def locate (va : Word) (k : Access) (s : State) : Res Phys :=
  match s.translate s.thr.asid s.thr.root s.thr.level va k with
  | (.fault r l, s) =>
    .trap (xlatTrap r k va) (s.mapSys fun c => { c with tfltReason := r, tfltLevel := BitVec.ofNat 3 l })
  | (.ok pa attr, s) =>
    if s.regionRefuses pa k then .trap ⟨Cause.prot, k.detail, va⟩ s else .done ⟨pa, attr⟩ s

/-- A strand consumes poison (R375): ERRUNC with DETAIL 0, and one log entry, made once for a deferred access. -/
def consume {α : Type} (pa : Nat) (va : Word) (s : State) : Res α :=
  .trap ⟨Cause.errunc, 0#8, va⟩ (if s.thr.deferLog then s else s.logConsumed pa)

/-- The byte at an address as a held store leaves it, the youngest first (R191). -/
def heldByte (held : List HeldStore) (pa : Nat) : Option Byte :=
  match (held.filter fun h => decide (h.pa ≤ pa ∧ pa < h.pa + h.data.length)).getLast? with
  | some h => h.data[pa - h.pa]?
  | none => none

/-- Whether a held store touches the granule of an address, and so leaves it stamped for the strand (R64, R191). -/
def heldTouches (held : List HeldStore) (pa : Nat) : Bool :=
  held.any fun h => decide (h.pa / 64 ≤ pa / 64 ∧ pa / 64 ≤ (h.pa + h.data.length - 1) / 64)

/-- Bytes with the strand's held stores over them (R191). -/
def State.forward (s : State) (pa : Nat) (bs : List Byte) : List Byte :=
  if s.thr.held = [] then bs else bs.zipIdx.map fun (b, i) => (heldByte s.thr.held (pa + i)).getD b

/-- A window read of tagged state that the reader does not hold (R66, R349, R377): under the holder's generation, zero where
there is no holder or the holder is of another context. -/
def State.windowRead (s : State) (asid : BitVec 12) (core off n : Nat) : List Byte :=
  match (if s.offline core then none else s.holder core off) with
  | some k =>
    if (s.getThr k).asid = asid then s.bytesTagged (windowAddr core off) n ((s.getThr k).genAt off)
    else List.replicate n 0#8
  | none => List.replicate n 0#8

/-- What a reader sees, or what memory holds where none is given. -/
def State.viewedBy (s : State) (r : Option Reader) (gen : Gen) (pa : Nat) (bs : List Byte) : List Byte × State :=
  match r with
  | some r => s.viewed r gen pa bs
  | none => (bs, s)

/-- A window read by a reader that may have missed late stores to a live granule. -/
def State.windowViewed (s : State) (r : Option Reader) (asid : BitVec 12) (core off n : Nat) : List Byte × State :=
  match (if s.offline core then none else s.holder core off) with
  | some k =>
    let g := (s.getThr k).genAt off
    if (s.getThr k).asid == asid && s.tag (windowAddr core off) == g then
      s.viewedBy r g (windowAddr core off) (s.windowRead asid core off n)
    else (s.windowRead asid core off n, s)
  | none => (s.windowRead asid core off n, s)

/-- Whether a window read consumes poison: its granule is poisoned, and live for the holder. -/
def State.windowPoisoned (s : State) (asid : BitVec 12) (core off n : Nat) : Bool :=
  match (if s.offline core then none else s.holder core off) with
  | some k =>
    (s.getThr k).asid == asid && s.poisoned (windowAddr core off) n &&
      s.tag (windowAddr core off) == (s.getThr k).genAt off
  | none => false

/-- A read of a CR page by a context (R349): zero where the slot's strand is of another one. -/
def State.crPageRead (s : State) (asid : BitVec 12) (core off n : Nat) : List Byte :=
  if (s.getThr (4 * core + (off - 0x300000) / 4096)).asid == asid then s.crBytes core off n else List.replicate n 0#8

/-- The bytes of a load on a path: memory's as the reader sees them (R279), with the strand's held stores over them for a scalar or a vector
load (R191). -/
def seenAt (q : Path) (gen : Gen) (pa : Nat) (bs : List Byte) (s : State) : Res (List Byte) :=
  let r := s.viewed (s.reader q) gen pa bs
  .done (if q.ordinary then s.forward pa r.1 else r.1) r.2

/-- The bytes a strand's access on a path reads at a place (R142, R190): `va` is its virtual address. -/
def readAt (q : Path) (p : Phys) (va : Word) (n : Nat) (s : State) : Res (List Byte) :=
  match s.region p.pa with
  | .window core off =>
    if 0x300000 ≤ off then .done (s.crPageRead s.thr.asid core off n) s
    else if s.owns core off then
      if s.tag p.pa = s.thr.genAt off then
        if s.poisoned p.pa n then consume p.pa va s else seenAt q (s.thr.genAt off) p.pa (s.bytes p.pa n) s
      else if s.ucr.genmode = 1#1 && !(q.ordinary && heldTouches s.thr.held p.pa) then .trap ⟨Cause.gentrap, 0#8, va⟩ s
      else .done (if q.ordinary then s.forward p.pa (List.replicate n 0#8) else List.replicate n 0#8) s
    else if s.windowPoisoned s.thr.asid core off n then consume p.pa va s
    else
      let r := s.windowViewed (some (s.reader q)) s.thr.asid core off n
      .done r.1 r.2
  | .info => .done ((List.range n).map fun i => s.infoByte (p.pa % 4096 + i)) s
  | _ => if s.poisoned p.pa n then consume p.pa va s else seenAt q 0#16 p.pa (s.bytes p.pa n) s

/-- The strand's own store performed in memory: stamped where it holds the granule (R64), plain elsewhere. Of stores to its on-core
storage only those to scratchpad can be late (log entry 5). -/
def State.perform (s : State) (w : Way) (pa : Nat) (bs : List Byte) : State :=
  match s.region pa with
  | .window core off =>
    if s.owns core off then
      let g := s.thr.genAt off
      if off < 0x100000 then s.writeTagged pa bs g
      else (s.writeTagged pa bs g).addLate (s.lateOf w pa (s.bytesTagged pa bs.length g) g)
    else s
  | _ => (s.putBytes pa bs).addLate (s.lateOf w pa (s.bytes pa bs.length) 0#16)

/-- A checkpoint after a write that another agent makes to the strand's vector side: it is no effect of the strand's annulled words, so it
stands after the checkpoint has been given back (R38). -/
def Unresolved.patched (u : Unresolved) (s : State) (pa : Nat) (bs : List Byte) (gen : Gen) : Unresolved :=
  let t := { s with mem := u.cells, tags := u.tags, poison := u.bad }.writeTagged pa bs gen
  { u with cells := t.mem, tags := t.tags, bad := t.poison }

/-- Tagged storage of a slot's strand written by another agent, for every observer at once (R65). -/
def State.writeForeign (s : State) (k pa : Nat) (bs : List Byte) (gen : Gen) : State :=
  let t := s.getThr k
  let s := if t.unres = [] ∨ 0x100000 ≤ (pa - windowBase) % 0x800000 then s else s.setThr k { t with unres := t.unres.map fun u => u.patched s pa bs gen }
  (s.overwritten pa (s.bytesTagged pa bs.length gen) gen).writeTagged pa bs gen

/-- A window write as performed (R65, R190, R349, R377): under the holder's generation; dropped where no strand holds the
granule, where the holder is of another context and the writer not at system level, where the core is offline. The answer says
whether it was performed. -/
def State.windowWrite (s : State) (asid : BitVec 12) (system : Bool) (core off : Nat) (bs : List Byte) : State × Bool :=
  match (if s.offline core then none else s.holder core off) with
  | some k =>
    if system || (s.getThr k).asid == asid then
      (s.writeForeign k (windowAddr core off) bs ((s.getThr k).genAt off), true)
    else (s, false)
  | none => (s, false)

/-- The strip of the youngest `ubrk`, none of which has resolved. -/
def youngestStrip (us : List Unresolved) : BitVec 32 := (us.getLast?.map (·.strip)).getD 0#32

/-- A window write of the stepping strand (R190): performed for every observer as it goes out. It stands above the strand's earlier late stores,
so that who sees it sees those that are ordered before it (R275, R278, R279). -/
def State.windowStore (s : State) (w : Way) (core off : Nat) (bs : List Byte) : State :=
  let r := s.windowWrite s.thr.asid s.thr.level core off bs
  if r.2 && s.late.any s.owner then
    let g := ((s.holder core off).map fun k => (s.getThr k).genAt off).getD 0#16
    r.1.addLate ((s.lateOf w (windowAddr core off) (s.bytesTagged (windowAddr core off) bs.length g) g).performed (coreOf s.cur) 4)
  else r.1

/-- The strand stores bytes at a place (R142, R190, R34): a window write never runs speculatively, another store is held while a
`ubrk` is unresolved. -/
def writeAt (w : Way) (p : Phys) (bs : List Byte) (s : State) : Res Unit :=
  match s.region p.pa with
  | .window core off =>
    if s.owns core off then
      if s.thr.unres = [] then .done () (s.perform w p.pa bs)
      else .done () (s.mapThr fun t => { t with held := t.held ++ [⟨youngestStrip t.unres, w, p.pa, bs⟩] })
    else whenResolved s fun s => .done () (s.windowStore w core off bs)
  | _ =>
    if s.thr.unres = [] then .done () (s.perform w p.pa bs)
    else .done () (s.mapThr fun t => { t with held := t.held ++ [⟨youngestStrip t.unres, w, p.pa, bs⟩] })

/-- An access to an SO page never runs speculatively (R35, R269). -/
def soGuard (p : Phys) (s : State) : Res Unit := if p.so then whenResolved s fun s => .done () s else .done () s

/-- A strand's load of `n` bytes on a path at an aligned address (R140). -/
def load (q : Path) (va : Word) (n : Nat) (s : State) : Res (List Byte) :=
  (locate va .load s).andThen fun p s => (soGuard p s).andThen fun _ s => readAt q p va n s

/-- A strand's store that goes out in some way, at an aligned address (R140). -/
def store (w : Way) (va : Word) (bs : List Byte) (s : State) : Res Unit :=
  (locate va .store s).andThen fun p s => (soGuard p s).andThen fun _ s => writeAt { w with so := p.so } p bs s

/-- ALIGN, where an address is no multiple of the access's width (R140, R187). -/
def aligned (va : Word) (w : Nat) (k : Access) (s : State) : Res Unit :=
  if va.toNat % w = 0 then .done () s else .trap ⟨Cause.align, k.detail, va⟩ s

/-! ## What fetches may still see (R404) -/

/-- Memory before a store, but for the bytes that a range of `kept` holds. -/
def Late.undone (e : Late) (kept : List (Nat × Nat)) (m : List Host.Cell) : List Host.Cell :=
  e.old.zipIdx.foldl (fun m b =>
    if kept.any fun r => decide (r.1 ≤ e.pa + b.2 ∧ e.pa + b.2 < r.1 + r.2) then m else Sparse.put memDefault m (e.pa + b.2) b.1) m

/-- Memory as fetches may see it where a strand binds: with the newest stores that are not performed at device scope undone, any number of
them; the ones performed there stand. -/
def codeMoments (m : List Host.Cell) (kept : List (Nat × Nat)) : List Late → List (List Host.Cell)
  | [] => [m]
  | e :: es =>
    if e.perf.any fun p => decide (3 < p.2) then codeMoments m ((e.pa, e.old.length) :: kept) es
    else m :: codeMoments (e.undone kept m) kept es

/-- The moments that the fetches of a strand which binds now may see. -/
def State.codeMem (s : State) : List (List Host.Cell) := codeMoments s.mem [] s.late

/-! ## The accesses of the device for a context (R306, R323, R332) -/

/-- Bytes read for a context byte by byte, each translated at user level; none where one fails or is poisoned, which is logged (R383). -/
def State.readFor (s : State) (asid : BitVec 12) (root : BitVec 40) : Word → Nat → Option (List Byte) × State
  | _, 0 => (some [], s)
  | va, n + 1 =>
    match s.translate asid root false va .load with
    | (.fault _ _, s) => (none, s)
    | (.ok pa _, s) =>
      if s.regionRefuses pa .load then (none, s)
      else
        let b : Option Byte :=
          match s.region pa with
          | .window core off =>
            if 0x300000 ≤ off then (s.crPageRead asid core off 1).head?
            else if s.windowPoisoned asid core off 1 then none
            else (s.windowRead asid core off 1).head?
          | .info => some (s.infoByte (pa % 4096))
          | _ => if s.poisoned pa 1 then none else some (s.byte pa)
        match b with
        | none => (none, s.logConsumed pa)
        | some b =>
          match s.readFor asid root (va + 1#64) n with
          | (some bs, s) => (some (b :: bs), s)
          | (none, s) => (none, s)

end Sys2Proof.Machine
end

