-- ==== Sys2Proof/Machine/Flags.lean ====
section
/-!
DEFINITION. The flag and status computations: FFLAGS (R74), MXERR (Table 2.9), NSTAT, RETCNT (R132), the rounding mode and the
float format in force (R59, R71).
-/

namespace Sys2Proof.Machine

/-- Flags ORed into FFLAGS (R74). -/
def State.orFlags (s : State) (f : Flags) : State := s.mapUcr fun u => { u with fflags := u.fflags ||| f }

/-- Bits ORed into MXERR. -/
def State.orMxerr (s : State) (b : BitVec 19) : State := s.mapUcr fun u => { u with mxerr := u.mxerr ||| b }

/-- MXERR.SAT (Table 2.9). -/
def Mxerr.sat : BitVec 19 := 0x40000#19
/-- MXERR.GONE. -/
def Mxerr.gone : BitVec 19 := 0x20000#19
/-- MXERR.NAN. -/
def Mxerr.nan : BitVec 19 := 0x10000#19
/-- The bit of MXERR.RG for a row group. -/
def Mxerr.group (g : Nat) : BitVec 19 := BitVec.ofNat 19 (2 ^ (g % 16))

/-- The outcomes of a name resolution that NSTAT holds (Table 2.9). -/
def Nstat.live : BitVec 2 := 0#2
def Nstat.gone : BitVec 2 := 1#2
def Nstat.denied : BitVec 2 := 2#2
def Nstat.unknown : BitVec 2 := 3#2

/-- NSTAT written. -/
def State.setNstat (s : State) (x : BitVec 2) : State := s.mapUcr fun u => { u with nstat := x }

/-- VSTART written. -/
def State.setVstart (s : State) (e : Nat) : State := s.mapUcr fun u => { u with vstart := BitVec.ofNat 16 e }

/-- One more execution of a microcoded or trapped retired instruction (R132). -/
def State.countRetired (s : State) : State := s.mapUcr fun u => { u with retcnt := u.retcnt + 1#64 }

/-- A trap whose value is the instruction word (Table 17.5). -/
def wordTrap {α : Type} (cause detail : BitVec 8) (i : Instr) (s : State) : Res α := .trap ⟨cause, detail, wordValue i⟩ s

/-- The rounding mode that FRM names; 5 to 7 trap ILLEGAL (R59). -/
def roundingMode (i : Instr) (s : State) : Res RM :=
  match RM.ofCode s.ucr.frm with
  | some rm => .done rm s
  | none => wordTrap Cause.illegal 0#8 i s

/-- VFMT as it stood when the instruction was posted (R170): a replayed one has it captured. -/
def State.vfmt (s : State) : BitVec 1 :=
  if s.thr.replaying then (s.thr.replay.head?.map (·.vfmt)).getD s.ucr.vfmt else s.ucr.vfmt

/-- The float format of the vector instructions (R71): F32 at e32, F16 or W16 at e16; ILLEGAL at e8 and e64. -/
def floatFormat (i : Instr) (s : State) : Res FFmt :=
  if s.ucr.vsew = 2#2 then .done .f32 s
  else if s.ucr.vsew = 1#2 then .done (if s.vfmt = 1#1 then .w16 else .f16) s
  else wordTrap Cause.illegal 0#8 i s

end Sys2Proof.Machine
end

