-- ==== Sys2Proof/Machine/Operands.lean ====
section
/-!
DEFINITION. The operand forms: immediates, the shape of the vector registers (R43 to R45), elements of vector registers, masks
(R49 to R53), the loop over active elements and the trap order of posted instructions (R166, R167).
-/

namespace Sys2Proof.Machine

/-- A signed immediate as a doubleword. -/
def sextImm {n : Nat} (x : BitVec n) : Word := x.signExtend 64
/-- An unsigned immediate as a doubleword. -/
def zextImm {n : Nat} (x : BitVec n) : Word := x.setWidth 64
/-- A word offset from an address. -/
def target {n : Nat} (pc : Word) (off : BitVec n) : Word := pc + (off.signExtend 64) * 4#64

/-! ## The shape -/

/-- SEW in bytes. -/
def UserCR.sewBytes (u : UserCR) : Nat := 2 ^ u.vsew.toNat
/-- SEW in bits. -/
def UserCR.sew (u : UserCR) : Nat := 8 * u.sewBytes
/-- VLEN × VROWS. -/
def UserCR.elems (u : UserCR) : Nat := u.vlen.toNat * u.vrows.toNat
/-- The register count (Table 2.5). -/
def UserCR.regCount (u : UserCR) : Nat := 8 * 2 ^ (u.vcfg.extractLsb' 0 2).toNat
/-- The capacity of one register in bytes (R43). -/
def UserCR.capacity (u : UserCR) : Nat := 524288 / 2 ^ (u.vcfg.extractLsb' 2 2).toNat / u.regCount

/-- The window offset of a byte of a vector register (R402); a fork child's rows begin at `roff` (R24). -/
def State.vregOff (s : State) (v : VReg) (b : Nat) : Nat :=
  s.thr.vbase + v.toNat * s.ucr.capacity + s.thr.roff + b

/-- Whether bytes of the strand's part of a vector register lie within the register: a fork child's part is shorter than the capacity that
its grants go by (log entry 11). -/
def State.inVreg (s : State) (b w : Nat) : Bool := decide (s.thr.roff + b + w ≤ s.ucr.capacity)

/-- A register number at or above the register count traps VSTATE (R47). -/
def vregOk (i : Instr) (v : VReg) (s : State) : Res Unit :=
  if v.toNat < s.ucr.regCount then .done () s else wordTrap Cause.vstate 0#8 i s

/-- Several register numbers checked. -/
def vregsOk (i : Instr) (vs : List VReg) (s : State) : Res Unit :=
  if vs.all fun v => v.toNat < s.ucr.regCount then .done () s else wordTrap Cause.vstate 0#8 i s

/-- A read of `w` bytes at byte `b` of a vector register: a stale granule reads zero, or traps GENTRAP under GENMODE = 1 with the
window offset (R63); a live poisoned one is consumed (R375). Past the register's end nothing says what is read. -/
def rdBytes (v : VReg) (b w : Nat) (s : State) : Res Nat :=
  let off := s.vregOff v b
  let pa := windowAddr (coreOf s.cur) off
  if !s.inVreg b w then .done (Config.pastEnd s.free off % 2 ^ (8 * w)) s.tick
  else if s.tag pa = s.thr.genV then
    if s.poisoned pa w then consume pa (BitVec.ofNat 64 off) s else .done (numOf (s.bytes pa w)) s
  else if s.ucr.genmode = 1#1 then .trap ⟨Cause.gentrap, 0#8, BitVec.ofNat 64 off⟩ s
  else .done 0 s

/-- rd_elem at SEW (Table 0.1). -/
def rdElem (v : VReg) (e : Nat) (s : State) : Res Nat := rdBytes v (e * s.ucr.sewBytes) s.ucr.sewBytes s

/-- wr_elem at SEW (Table 0.1): the element's low SEW bits are written, its granule stamped. Past the register's end nothing is written. -/
def State.wrElem (s : State) (v : VReg) (e : Nat) (x : Nat) : State :=
  if !s.inVreg (e * s.ucr.sewBytes) s.ucr.sewBytes then s
  else s.writeTagged (windowAddr (coreOf s.cur) (s.vregOff v (e * s.ucr.sewBytes))) (bytesOf s.ucr.sewBytes x) s.thr.genV

/-- Whether an element's granule is stale for the strand. -/
def State.elemStale (s : State) (v : VReg) (e : Nat) : Bool :=
  s.inVreg (e * s.ucr.sewBytes) s.ucr.sewBytes &&
    s.tag (windowAddr (coreOf s.cur) (s.vregOff v (e * s.ucr.sewBytes))) != s.thr.genV

/-- The value an element reads as without a trap: zero where its granule is stale. -/
def State.elemOrZero (s : State) (v : VReg) (e : Nat) : Nat :=
  let pa := windowAddr (coreOf s.cur) (s.vregOff v (e * s.ucr.sewBytes))
  if s.tag pa = s.thr.genV then numOf (s.bytes pa s.ucr.sewBytes) else 0

/-! ## Masks -/

/-- The replay slice of a bound-form mask: the pass of the running `rpt` group, else 0 (R50). -/
def State.slice (s : State) : Nat := if s.thr.replaying then 0 else (s.thr.rpt.map (·.pass)).getD 0

/-- A mask register. -/
def State.maskReg (s : State) (k : KReg) : MaskReg := s.thr.arch.mask.get k.toFin

/-- Bit `e` of a mask register in slice `j`, for an element below VLEN × VROWS (R49, R50, R53). -/
def State.maskBitAt (s : State) (k : KReg) (j e : Nat) : Bool :=
  if k = 0#4 then decide (e < s.ucr.elems)
  else
    let r := s.maskReg k
    match r.form with
    | .explicit set => r.tags.toList.getD (e / 512) 0#16 == s.thr.genM && set.contains e
    | .bound n w =>
      r.tags.toList.getD 0 0#16 == s.thr.genM &&
        decide ((j * s.ucr.elems + e) * s.ucr.sewBytes < n.toNat * 2 ^ w.toNat)

/-- Bit `e` of a mask register as the running instruction sees it. -/
def State.maskBit (s : State) (k : KReg) (e : Nat) : Bool := s.maskBitAt k s.slice e

/-- The set elements of a mask below VLEN × VROWS, in slice `j`. -/
def State.maskSetAt (s : State) (k : KReg) (j : Nat) : List Nat := (List.range s.ucr.elems).filter (s.maskBitAt k j)

/-- The set elements of a mask below VLEN × VROWS as the running instruction sees them. -/
def State.maskSet (s : State) (k : KReg) : List Nat := s.maskSetAt k s.slice

/-- Whether reading a mask register below VLEN × VROWS consumes poison: a live granule that it needs is poisoned (R375). -/
def State.maskBad (s : State) (k : KReg) : Bool :=
  k != 0#4 &&
    let r := s.maskReg k
    r.bad.any fun g => r.tags.toList.getD g 0#16 == s.thr.genM &&
      match r.form with
      | .explicit _ => decide (512 * g < s.ucr.elems)
      | .bound _ _ => g == 0

/-- The mask registers that an instruction is about to read: poison is consumed before any element is performed (Table 22.2). -/
def masksOk (ks : List KReg) (s : State) : Res Unit :=
  match ks.find? s.maskBad with
  | some k => consumeRegister 3#8 (32 + k.toNat) s
  | none => .done () s

/-- The governing mask register that a 3-bit field names. -/
def kmReg {n : Nat} (km : BitVec n) : KReg := km.setWidth 4

/-- A mask register written: every granule is stamped (R51, R163) and free of poison. -/
def State.setMaskForm (s : State) (k : KReg) (f : MaskForm) : State :=
  s.mapArch fun a => { a with mask := a.mask.set k.toNat { form := f, tags := Vector.replicate 128 s.thr.genM, bad := [] } k.isLt }

/-- The explicit form written with the bits that a condition gives below VLEN × VROWS, every other bit clear (R51). -/
def State.setMask (s : State) (k : KReg) (p : Nat → Bool) : State :=
  s.setMaskForm k (.explicit ((List.range s.ucr.elems).filter p))

/-! ## The loop over elements -/

/-- The active elements under a governing mask, from a first element on, rising (Table 0.1). -/
def State.activeFrom (s : State) (k : KReg) (start : Nat) : List Nat :=
  (List.range s.ucr.elems).filter fun e => decide (start ≤ e) && s.maskBit k e

/-- The active elements that an instruction performs: from VSTART on, below the element at which it is to stop (R292). -/
def State.active (s : State) (k : KReg) : List Nat :=
  match s.thr.stopAt with
  | none => s.activeFrom k s.ucr.vstart.toNat
  | some n => (s.activeFrom k s.ucr.vstart.toNat).filter fun e => decide (e < n)

/-- Elements performed one after another; a trap, or a wait, at one sets VSTART to it (R166, R188). -/
def forElems (f : Nat → State → Res Unit) : List Nat → State → Res Unit
  | [], s => .done () s
  | e :: es, s =>
    match f e s with
    | .done _ s => forElems f es s
    | .trap t s => .trap t (s.setVstart e)
    | .wait s => .wait (s.setVstart e)

/-- The end of an element-wise instruction: VSTART := 0. -/
def endElems (r : Res Unit) : Res Unit := r.andThen fun _ s => .done () (s.setVstart 0)

/-- An element-wise instruction past its register and format checks, with the mask registers that it reads: with VSTART at or above
VLEN × VROWS it performs nothing and reads nothing (R167). -/
def unlessDone (ks : List KReg) (s : State) (k : State → Res Unit) : Res Unit :=
  if s.ucr.elems ≤ s.ucr.vstart.toNat then .done () (s.setVstart 0) else endElems ((masksOk ks s).andThen fun _ s => k s)

/-- The second source of format V: the scalar in the low bits of `vb`, cut to SEW and read once, or a vector register (R165). -/
inductive Src2 where
  | scalar (x : Nat)
  | vector (v : VReg)
  deriving DecidableEq, Repr

/-- The second source of a format V instruction, a scalar one read (R165, R166 step 5). -/
def src2 (f : VArgs) (s : State) : Res Src2 :=
  if f.s then (readPosted (f.vb.extractLsb' 0 5) s).andThen fun x s => .done (.scalar (x.toNat % 2 ^ s.ucr.sew)) s
  else .done (.vector f.vb) s

/-- An element of the second source. -/
def rdSrc2 (b : Src2) (e : Nat) (s : State) : Res Nat :=
  match b with
  | .scalar x => .done x s
  | .vector v => rdElem v e s

/-- The vector registers that a format V instruction names. -/
def vargsRegs (f : VArgs) : List VReg := if f.s then [f.vd, f.va] else [f.vd, f.va, f.vb]

end Sys2Proof.Machine
end

