-- ==== Sys2Proof/Machine/Scalar.lean ====
section
/-!
DEFINITION. The scalar instructions of 06: arithmetic, immediates, loads and stores, branches and jumps, strip-mining, `nop`.
-/

namespace Sys2Proof.Machine

/-! ## Register arithmetic (R137, Table 6.2) -/

/-- Bits [127:64] of the exact signed product. -/
def mulHigh (a b : Word) : Word := wordOfInt (a.toInt * b.toInt / 18446744073709551616)
/-- Bits [127:64] of the exact unsigned product. -/
def mulHighU (a b : Word) : Word := BitVec.ofNat 64 (a.toNat * b.toNat / 18446744073709551616)
/-- Signed division toward zero; by 0 it gives -1 (R78). -/
def divSigned (a b : Word) : Word := if b = 0#64 then wordOfInt (-1) else wordOfInt (a.toInt.tdiv b.toInt)
/-- Unsigned division; by 0 it gives all ones (R78). -/
def divUnsigned (a b : Word) : Word := if b = 0#64 then wordOfInt (-1) else BitVec.ofNat 64 (a.toNat / b.toNat)
/-- The remainder with the dividend's sign; by 0 it gives the dividend (R78). -/
def remSigned (a b : Word) : Word := if b = 0#64 then a else wordOfInt (a.toInt.tmod b.toInt)
/-- The unsigned remainder; by 0 it gives the dividend (R78). -/
def remUnsigned (a b : Word) : Word := if b = 0#64 then a else BitVec.ofNat 64 (a.toNat % b.toNat)
/-- Leading zero bits of a `w`-bit number; `w` for zero. -/
def leadingZeros (w x : Nat) : Nat := if x = 0 then w else w - 1 - Nat.log2 x
/-- Trailing zero bits of a `w`-bit number; `w` for zero. -/
def trailingZeros (w x : Nat) : Nat := ((List.range w).find? x.testBit).getD w
/-- Set bits of a `w`-bit number. -/
def popCount (w x : Nat) : Nat := (List.range w).countP x.testBit

/-- An ALU instruction of two sources (R137): it sets no flag and traps only as R133 gives. -/
def alu (rd ra rb : SReg) (f : Word → Word → Word) (s : State) : Out :=
  runControl s ((readReg ra s).andThen fun a s => (readReg rb s).andThen fun b s => .done .fall (s.setReg rd (f a b)))

/-- An instruction of one source (R137, R138). -/
def alu1 (rd ra : SReg) (f : Word → Word) (s : State) : Out :=
  runControl s ((readReg ra s).andThen fun a s => .done .fall (s.setReg rd (f a)))

/-- `add` (R137). -/
def execAdd (rd ra rb : SReg) (s : State) : Out := alu rd ra rb (fun a b => a + b) s

/-- `sub` (R137). -/
def execSub (rd ra rb : SReg) (s : State) : Out := alu rd ra rb (fun a b => a - b) s

/-- `and` (R137). -/
def execAnd (rd ra rb : SReg) (s : State) : Out := alu rd ra rb (fun a b => a &&& b) s

/-- `or` (R137). -/
def execOr (rd ra rb : SReg) (s : State) : Out := alu rd ra rb (fun a b => a ||| b) s

/-- `xor` (R137). -/
def execXor (rd ra rb : SReg) (s : State) : Out := alu rd ra rb (fun a b => a ^^^ b) s

/-- `andn` (R137). -/
def execAndn (rd ra rb : SReg) (s : State) : Out := alu rd ra rb (fun a b => a &&& ~~~b) s

/-- `sll` (R137). -/
def execSll (rd ra rb : SReg) (s : State) : Out := alu rd ra rb (fun a b => a <<< (b.toNat % 64)) s

/-- `srl` (R137). -/
def execSrl (rd ra rb : SReg) (s : State) : Out := alu rd ra rb (fun a b => a >>> (b.toNat % 64)) s

/-- `sra` (R137). -/
def execSra (rd ra rb : SReg) (s : State) : Out := alu rd ra rb (fun a b => a.sshiftRight (b.toNat % 64)) s

/-- `slt` (R137). -/
def execSlt (rd ra rb : SReg) (s : State) : Out := alu rd ra rb (fun a b => if a.slt b then 1#64 else 0#64) s

/-- `sltu` (R137). -/
def execSltu (rd ra rb : SReg) (s : State) : Out := alu rd ra rb (fun a b => if a.ult b then 1#64 else 0#64) s

/-- `min` (R137). -/
def execMin (rd ra rb : SReg) (s : State) : Out := alu rd ra rb (fun a b => if b.slt a then b else a) s

/-- `max` (R137). -/
def execMax (rd ra rb : SReg) (s : State) : Out := alu rd ra rb (fun a b => if a.slt b then b else a) s

/-- `minu` (R137). -/
def execMinu (rd ra rb : SReg) (s : State) : Out := alu rd ra rb (fun a b => if b.ult a then b else a) s

/-- `maxu` (R137). -/
def execMaxu (rd ra rb : SReg) (s : State) : Out := alu rd ra rb (fun a b => if a.ult b then b else a) s

/-- `mul` (R137). -/
def execMul (rd ra rb : SReg) (s : State) : Out := alu rd ra rb (fun a b => a * b) s

/-- `mulh` (R137). -/
def execMulh (rd ra rb : SReg) (s : State) : Out := alu rd ra rb (fun a b => mulHigh a b) s

/-- `mulhu` (R137). -/
def execMulhu (rd ra rb : SReg) (s : State) : Out := alu rd ra rb (fun a b => mulHighU a b) s

/-- `div` (R137). -/
def execDiv (rd ra rb : SReg) (s : State) : Out := alu rd ra rb (fun a b => divSigned a b) s

/-- `divu` (R137). -/
def execDivu (rd ra rb : SReg) (s : State) : Out := alu rd ra rb (fun a b => divUnsigned a b) s

/-- `rem` (R137). -/
def execRem (rd ra rb : SReg) (s : State) : Out := alu rd ra rb (fun a b => remSigned a b) s

/-- `remu` (R137). -/
def execRemu (rd ra rb : SReg) (s : State) : Out := alu rd ra rb (fun a b => remUnsigned a b) s

/-- `clz` (R137). -/
def execClz (rd ra : SReg) (s : State) : Out := alu1 rd ra (fun a => BitVec.ofNat 64 (leadingZeros 64 a.toNat)) s

/-- `ctz` (R137). -/
def execCtz (rd ra : SReg) (s : State) : Out := alu1 rd ra (fun a => BitVec.ofNat 64 (trailingZeros 64 a.toNat)) s

/-- `popc` (R137). -/
def execPopc (rd ra : SReg) (s : State) : Out := alu1 rd ra (fun a => BitVec.ofNat 64 (popCount 64 a.toNat)) s

/-! ## Immediate forms (R138, R139) -/

/-- `addi` (R138). -/
def execAddi (rd ra : SReg) (imm : BitVec 16) (s : State) : Out := alu1 rd ra (fun a => a + sextImm imm) s

/-- `andi` (R138). -/
def execAndi (rd ra : SReg) (imm : BitVec 16) (s : State) : Out := alu1 rd ra (fun a => a &&& zextImm imm) s

/-- `ori` (R138). -/
def execOri (rd ra : SReg) (imm : BitVec 16) (s : State) : Out := alu1 rd ra (fun a => a ||| zextImm imm) s

/-- `xori` (R138). -/
def execXori (rd ra : SReg) (imm : BitVec 16) (s : State) : Out := alu1 rd ra (fun a => a ^^^ zextImm imm) s

/-- `slti` (R138). -/
def execSlti (rd ra : SReg) (imm : BitVec 16) (s : State) : Out := alu1 rd ra (fun a => if a.slt (sextImm imm) then 1#64 else 0#64) s

/-- `sltiu` (R138). -/
def execSltiu (rd ra : SReg) (imm : BitVec 16) (s : State) : Out := alu1 rd ra (fun a => if a.ult (sextImm imm) then 1#64 else 0#64) s

/-- `slli` (R138). -/
def execSlli (rd ra : SReg) (n : BitVec 6) (s : State) : Out := alu1 rd ra (fun a => a <<< n.toNat) s

/-- `srli` (R138). -/
def execSrli (rd ra : SReg) (n : BitVec 6) (s : State) : Out := alu1 rd ra (fun a => a >>> n.toNat) s

/-- `srai` (R138). -/
def execSrai (rd ra : SReg) (n : BitVec 6) (s : State) : Out := alu1 rd ra (fun a => a.sshiftRight n.toNat) s

/-- `lins` (R139): it reads rd only to merge, a stale one as zero, without a trap; poison is consumed (R375). -/
def execLins (rd : SReg) (slot : BitVec 2) (imm : BitVec 16) (s : State) : Out :=
  let sh := 16 * slot.toNat
  runControl s (if s.regBad rd then consumeRegister 4#8 rd.toNat s
    else .done .fall (s.setReg rd ((s.reg rd &&& ~~~((0xFFFF#64) <<< sh)) ||| (zextImm imm <<< sh))))

/-- `addpc` (R138): the address of the `addpc` word itself plus a word offset. -/
def execAddpc (rd : SReg) (imm : BitVec 16) (s : State) : Out :=
  runControl s (.done .fall (s.setReg rd (target s.trip.pc imm)))

/-- `nop` (R158). -/
def execNop (s : State) : Out := runControl s (.done .fall s)

/-! ## Scalar loads and stores (R140 to R142) -/

/-- The bytes of a width code (Table 6.6). -/
def widthBytes (w : BitVec 4) : Nat := 2 ^ (w.toNat % 4)

/-- A loaded value extended by its width code (Table 6.6). -/
def extendLoaded (w : BitVec 4) (x : Nat) : Word :=
  if w.toNat < 4 then wordOfInt (sextInt (8 * widthBytes w) x) else BitVec.ofNat 64 x

/-- A scalar load from an effective address (R140). -/
def loadScalar (rd : SReg) (w : BitVec 4) (ea : Word) (s : State) : Res Ctl :=
  (aligned ea (widthBytes w) .load s).andThen fun _ s =>
    (load .scalar ea (widthBytes w) s).andThen fun bs s => .done .fall (s.setReg rd (extendLoaded w (numOf bs)))

/-- A scalar store to an effective address (R140). -/
def storeScalar (x : Word) (w : BitVec 4) (ea : Word) (s : State) : Res Ctl :=
  (aligned ea (widthBytes w) .store s).andThen fun _ s =>
    (store Path.scalar.plain ea (bytesOf (widthBytes w) x.toNat) s).andThen fun _ s => .done .fall s

/-- `ld` (R140). -/
def execLd (rd ra : SReg) (w : BitVec 4) (off : BitVec 12) (s : State) : Out :=
  runControl s ((readReg ra s).andThen fun a s => loadScalar rd w (a + sextImm off) s)

/-- `st` (R140): the data register is checked after the base (R135). -/
def execSt (rd ra : SReg) (w : BitVec 4) (off : BitVec 12) (s : State) : Out :=
  runControl s ((readReg ra s).andThen fun a s => (readReg rd s).andThen fun x s => storeScalar x w (a + sextImm off) s)

/-- `ldx` (R140). -/
def execLdx (rd ra rb : SReg) (w : BitVec 4) (s : State) : Out :=
  runControl s ((readReg ra s).andThen fun a s => (readReg rb s).andThen fun b s => loadScalar rd w (a + b) s)

/-- `stx` (R140). -/
def execStx (rd ra rb : SReg) (w : BitVec 4) (s : State) : Out :=
  runControl s ((readReg ra s).andThen fun a s => (readReg rb s).andThen fun b s =>
    (readReg rd s).andThen fun x s => storeScalar x w (a + b) s)

/-! ## Branches and jumps (R143 to R145) -/

/-- A conditional branch (R143). -/
def branch (ra rb : SReg) (n : Bool) (off : BitVec 15) (cond : Word → Word → Bool) (s : State) : Out :=
  runControl s ((readReg ra s).andThen fun a s => (readReg rb s).andThen fun b s =>
    .done (if cond a b then .taken (target s.trip.pc off) else .notTaken n) s)

/-- `beq` (R143). -/
def execBeq (ra rb : SReg) (n : Bool) (off : BitVec 15) (s : State) : Out :=
  branch ra rb n off (fun a b => a == b) s

/-- `bne` (R143). -/
def execBne (ra rb : SReg) (n : Bool) (off : BitVec 15) (s : State) : Out :=
  branch ra rb n off (fun a b => a != b) s

/-- `blt` (R143). -/
def execBlt (ra rb : SReg) (n : Bool) (off : BitVec 15) (s : State) : Out :=
  branch ra rb n off (fun a b => a.slt b) s

/-- `bge` (R143). -/
def execBge (ra rb : SReg) (n : Bool) (off : BitVec 15) (s : State) : Out :=
  branch ra rb n off (fun a b => !a.slt b) s

/-- `bltu` (R143). -/
def execBltu (ra rb : SReg) (n : Bool) (off : BitVec 15) (s : State) : Out :=
  branch ra rb n off (fun a b => a.ult b) s

/-- `bgeu` (R143). -/
def execBgeu (ra rb : SReg) (n : Bool) (off : BitVec 15) (s : State) : Out :=
  branch ra rb n off (fun a b => !a.ult b) s

/-- `j` (R144). -/
def execJ (off : BitVec 26) (s : State) : Out := runControl s (.done (.taken (target s.trip.pc off)) s)

/-- `jal` (R144, R126): the link goes to `lk`. -/
def execJal (off : BitVec 26) (s : State) : Out :=
  runControl s (.done (.taken (target s.trip.pc off)) (s.setReg 1#5 (s.trip.pc + 12#64)))

/-- A register target whose low bits are not zero traps ALIGN at the jump (R144, R112). -/
def targetAligned (t : Word) (s : State) : Res Unit := aligned t 4 .fetch s

/-- `jr` (R144). -/
def execJr (ra : SReg) (s : State) : Out :=
  runControl s ((readReg ra s).andThen fun t s => (targetAligned t s).andThen fun _ s => .done (.taken t) s)

/-- `jalr` (R144, R126): ra is read before rd is written. -/
def execJalr (rd ra : SReg) (s : State) : Out :=
  runControl s ((readReg ra s).andThen fun t s => (targetAligned t s).andThen fun _ s =>
    .done (.taken t) (s.setReg rd (s.trip.pc + 12#64)))

/-! ## Strip-mining (R146 to R148) -/

/-- The grant of R160 for a request: LEN and ROWS. -/
def State.grantFor (s : State) (qr ql w : Nat) : Nat × Nat :=
  if qr = 0 ∨ ql = 0 then (0, 0)
  else
    let l0 := min ql 256
    (min l0 (s.getCore (coreOf s.cur)).plen.toNat, min qr (min 256 (s.ucr.capacity / (l0 * w))))

/-- The body of `vshape` but for rd and the shape request (R160): the grant is written, VSTART cleared. -/
def State.regrant (s : State) (qr ql : Nat) (ew : BitVec 2) : State :=
  let g := s.grantFor qr ql (2 ^ ew.toNat)
  s.mapUcr fun u => { u with vlen := BitVec.ofNat 9 g.1, vrows := BitVec.ofNat 9 g.2, vsew := ew, vstart := 0#16 }

/-- The scalar register of pointer `i` of `smine`. -/
def pointerReg (i : Nat) : SReg := BitVec.ofNat 5 (24 + i)

/-- The signed step of pointer `i` (Table 2.7). -/
def UserCR.step (u : UserCR) (i : Nat) : Word := (u.pstep.extractLsb' (8 * i) 8).signExtend 64

/-- The pointers of a set advanced by the grant (R147). -/
def advancePointers (pm : BitVec 4) (g : Word) : List Nat → State → Res Unit
  | [], s => .done () s
  | i :: is, s =>
    if pm.getLsbD i then
      (readReg (pointerReg i) s).andThen fun p s =>
        advancePointers pm g is (s.setReg (pointerReg i) (p + g * s.ucr.step i))
    else advancePointers pm g is s

/-- Every pointer of a set checked for a stale read before anything is written (R133, R135). -/
def checkPointers (pm : BitVec 4) : List Nat → State → Res Unit
  | [], s => .done () s
  | i :: is, s =>
    if pm.getLsbD i then (readReg (pointerReg i) s).andThen fun _ s => checkPointers pm is s else checkPointers pm is s

/-- `smine` (R147). -/
def execSmine (rc : SReg) (pm : BitVec 4) (row n : Bool) (off : BitVec 15) (s : State) : Out :=
  runControl s ((readReg rc s).andThen fun c s => (checkPointers pm [0, 1, 2, 3] s).andThen fun _ s =>
    let g : Word := if row then s.ucr.vrows.setWidth 64 else s.ucr.vlen.setWidth 64
    let rem : Word := if g.ult c then c - g else 0#64
    (advancePointers pm g [0, 1, 2, 3] (s.setReg rc rem)).andThen fun _ s =>
      let qr := s.thr.arch.qrows.toNat
      let ql := s.thr.arch.qlen.toNat
      let s := if row then s.regrant (min rem.toNat qr) ql s.ucr.vsew else s.regrant qr (min rem.toNat ql) s.ucr.vsew
      .done (if rem ≠ 0#64 then .taken (target s.trip.pc off) else .notTaken n) s)

end Sys2Proof.Machine
end

