-- ==== Sys2Proof/Machine/VInt.lean ====
section
/-!
DEFINITION. The integer vector families (07 section 7.3), `vshape`, `vcfg`, `klen` (7.1), the compare (7.5).
-/

namespace Sys2Proof.Machine

/-! ## The element-wise body (R165, R166) -/

/-- The element-wise body with two sources and, where the operation names it, the destination's old element: `op` gives the
result and the flags of an element from SEW, a, b and d. -/
def elementBody (f : VArgs) (readsD : Bool) (op : Nat → Nat → Nat → Nat → Nat × Flags) (s : State) : Res Unit :=
  (src2 f s).andThen fun b s =>
    forElems (fun e s =>
      (rdElem f.va e s).andThen fun x s =>
        (rdSrc2 b e s).andThen fun y s =>
          (if readsD then rdElem f.vd e s else Res.done 0 s).andThen fun d s =>
            let r := op s.ucr.sew x y d
            .done () ((s.wrElem f.vd e r.1).orFlags r.2)) (s.active (kmReg f.km)) s

/-- An integer instruction of two sources (R165, R169). -/
def vint (i : Instr) (f : VArgs) (readsD : Bool) (op : Nat → Nat → Nat → Nat → Nat) (s : State) : Out :=
  runPosted i s ((vregsOk i (vargsRegs f) s).andThen fun _ s =>
    unlessDone [kmReg f.km] s (elementBody f readsD fun w a b d => (op w a b d, 0#5)))

/-- The element-wise body with one source. -/
def elementBody1 (f : V1Args) (op : Nat → Nat → Nat × Flags) (s : State) : Res Unit :=
  forElems (fun e s =>
    (rdElem f.va e s).andThen fun x s =>
      let r := op s.ucr.sew x
      .done () ((s.wrElem f.vd e r.1).orFlags r.2)) (s.active (kmReg f.km)) s

/-- An integer instruction of one source. -/
def vint1 (i : Instr) (f : V1Args) (op : Nat → Nat → Nat) (s : State) : Out :=
  runPosted i s ((vregsOk i [f.vd, f.va] s).andThen fun _ s => unlessDone [kmReg f.km] s (elementBody1 f fun w a => (op w a, 0#5)))

/-! ## The integer operations at width `w` (Table 7.5); each result is cut to `w` bits -/

/-- The signed product's bits [2w-1:w]. -/
def mulhAt (w a b : Nat) : Nat := truncNat w (sextInt w a * sextInt w b / ((2 ^ w : Nat) : Int))
/-- Signed division (R78). -/
def divAt (w a b : Nat) : Nat := if b % 2 ^ w = 0 then 2 ^ w - 1 else truncNat w ((sextInt w a).tdiv (sextInt w b))
/-- Unsigned division (R78). -/
def divuAt (w a b : Nat) : Nat := if b % 2 ^ w = 0 then 2 ^ w - 1 else a % 2 ^ w / (b % 2 ^ w)
/-- Signed remainder (R78). -/
def remAt (w a b : Nat) : Nat := if b % 2 ^ w = 0 then a else truncNat w ((sextInt w a).tmod (sextInt w b))
/-- Unsigned remainder (R78). -/
def remuAt (w a b : Nat) : Nat := if b % 2 ^ w = 0 then a else a % 2 ^ w % (b % 2 ^ w)
/-- The least signed value of a width. -/
def minInt (w : Nat) : Int := -((2 ^ (w - 1) : Nat) : Int)
/-- The greatest signed value of a width. -/
def maxInt (w : Nat) : Int := ((2 ^ (w - 1) : Nat) : Int) - 1
/-- An integer clamped to the signed range of a width. -/
def clampSigned (w : Nat) (x : Int) : Nat := truncNat w (clampInt (minInt w) (maxInt w) x)
/-- An integer clamped to the unsigned range of a width. -/
def clampUnsigned (w : Nat) (x : Int) : Nat := (clampInt 0 (((2 ^ w : Nat) : Int) - 1) x).toNat
/-- The arithmetic right shift. -/
def sraAt (w a n : Nat) : Nat := truncNat w (sextInt w a / ((2 ^ (n % w) : Nat) : Int))
/-- The fractional product, rounded half up and clamped (`vmulq`). -/
def mulqAt (w a b : Nat) : Nat :=
  clampSigned w ((sextInt w a * sextInt w b + ((2 ^ (w - 2) : Nat) : Int)) / ((2 ^ (w - 1) : Nat) : Int))

/-- `vadd` (R169). -/
def execVadd (f : VArgs) (s : State) : Out :=
  vint (.vadd f) f false (fun w a b _ => truncNat w ((a : Int) + b)) s

/-- `vsub` (R169). -/
def execVsub (f : VArgs) (s : State) : Out :=
  vint (.vsub f) f false (fun w a b _ => truncNat w ((a : Int) - b)) s

/-- `vrsub` (R169). -/
def execVrsub (f : VArgs) (s : State) : Out :=
  vint (.vrsub f) f false (fun w a b _ => truncNat w ((b : Int) - a)) s

/-- `vmul` (R169). -/
def execVmul (f : VArgs) (s : State) : Out :=
  vint (.vmul f) f false (fun w a b _ => a * b % 2 ^ w) s

/-- `vmulh` (R169). -/
def execVmulh (f : VArgs) (s : State) : Out :=
  vint (.vmulh f) f false (fun w a b _ => mulhAt w a b) s

/-- `vmulhu` (R169). -/
def execVmulhu (f : VArgs) (s : State) : Out :=
  vint (.vmulhu f) f false (fun w a b _ => a * b / 2 ^ w) s

/-- `vdiv` (R169). -/
def execVdiv (f : VArgs) (s : State) : Out :=
  vint (.vdiv f) f false (fun w a b _ => divAt w a b) s

/-- `vdivu` (R169). -/
def execVdivu (f : VArgs) (s : State) : Out :=
  vint (.vdivu f) f false (fun w a b _ => divuAt w a b) s

/-- `vrem` (R169). -/
def execVrem (f : VArgs) (s : State) : Out :=
  vint (.vrem f) f false (fun w a b _ => remAt w a b) s

/-- `vremu` (R169). -/
def execVremu (f : VArgs) (s : State) : Out :=
  vint (.vremu f) f false (fun w a b _ => remuAt w a b) s

/-- `vmin` (R169). -/
def execVmin (f : VArgs) (s : State) : Out :=
  vint (.vmin f) f false (fun w a b _ => if sextInt w b < sextInt w a then b else a) s

/-- `vmax` (R169). -/
def execVmax (f : VArgs) (s : State) : Out :=
  vint (.vmax f) f false (fun w a b _ => if sextInt w a < sextInt w b then b else a) s

/-- `vminu` (R169). -/
def execVminu (f : VArgs) (s : State) : Out :=
  vint (.vminu f) f false (fun _ a b _ => min a b) s

/-- `vmaxu` (R169). -/
def execVmaxu (f : VArgs) (s : State) : Out :=
  vint (.vmaxu f) f false (fun _ a b _ => max a b) s

/-- `vand` (R169). -/
def execVand (f : VArgs) (s : State) : Out :=
  vint (.vand f) f false (fun _ a b _ => a &&& b) s

/-- `vor` (R169). -/
def execVor (f : VArgs) (s : State) : Out :=
  vint (.vor f) f false (fun _ a b _ => a ||| b) s

/-- `vxor` (R169). -/
def execVxor (f : VArgs) (s : State) : Out :=
  vint (.vxor f) f false (fun _ a b _ => a ^^^ b) s

/-- `vandn` (R169). -/
def execVandn (f : VArgs) (s : State) : Out :=
  vint (.vandn f) f false (fun w a b _ => a &&& (2 ^ w - 1 - b)) s

/-- `vsll` (R169). -/
def execVsll (f : VArgs) (s : State) : Out :=
  vint (.vsll f) f false (fun w a b _ => a * 2 ^ (b % w) % 2 ^ w) s

/-- `vsrl` (R169). -/
def execVsrl (f : VArgs) (s : State) : Out :=
  vint (.vsrl f) f false (fun w a b _ => a / 2 ^ (b % w)) s

/-- `vsra` (R169). -/
def execVsra (f : VArgs) (s : State) : Out :=
  vint (.vsra f) f false (fun w a b _ => sraAt w a b) s

/-- `vsadd` (R169). -/
def execVsadd (f : VArgs) (s : State) : Out :=
  vint (.vsadd f) f false (fun w a b _ => clampSigned w (sextInt w a + sextInt w b)) s

/-- `vssub` (R169). -/
def execVssub (f : VArgs) (s : State) : Out :=
  vint (.vssub f) f false (fun w a b _ => clampSigned w (sextInt w a - sextInt w b)) s

/-- `vsaddu` (R169). -/
def execVsaddu (f : VArgs) (s : State) : Out :=
  vint (.vsaddu f) f false (fun w a b _ => clampUnsigned w ((a : Int) + b)) s

/-- `vssubu` (R169). -/
def execVssubu (f : VArgs) (s : State) : Out :=
  vint (.vssubu f) f false (fun w a b _ => clampUnsigned w ((a : Int) - b)) s

/-- `vmacc` (R169). -/
def execVmacc (f : VArgs) (s : State) : Out :=
  vint (.vmacc f) f true (fun w a b d => (d + a * b) % 2 ^ w) s

/-- `vnmsac` (R169). -/
def execVnmsac (f : VArgs) (s : State) : Out :=
  vint (.vnmsac f) f true (fun w a b d => truncNat w ((d : Int) - (a * b : Nat))) s

/-- `vabsd` (R169). -/
def execVabsd (f : VArgs) (s : State) : Out :=
  vint (.vabsd f) f false (fun w a b _ => (sextInt w a - sextInt w b).natAbs) s

/-- `vmulq` (R169). -/
def execVmulq (f : VArgs) (s : State) : Out :=
  vint (.vmulq f) f false (fun w a b _ => mulqAt w a b) s

/-- `vmerge` (Table 7.5): every element from VSTART on is written, b where the mask sets it, else a. -/
def execVmerge (f : VArgs) (s : State) : Out :=
  runPosted (.vmerge f) s ((vregsOk (.vmerge f) (vargsRegs f) s).andThen fun _ s =>
    unlessDone [kmReg f.km] s fun s =>
      (src2 f s).andThen fun b s =>
        forElems (fun e s =>
          (rdElem f.va e s).andThen fun x s =>
            (rdSrc2 b e s).andThen fun y s =>
              .done () (s.wrElem f.vd e (if s.maskBit (kmReg f.km) e then y else x)))
          ((List.range s.ucr.elems).drop s.ucr.vstart.toNat) s)

/-- `vclz` (R169). -/
def execVclz (f : V1Args) (s : State) : Out := vint1 (.vclz f) f leadingZeros s

/-- `vpopc` (R169). -/
def execVpopc (f : V1Args) (s : State) : Out := vint1 (.vpopc f) f popCount s

/-! ## `vshape`, `vcfg`, `klen` (R160 to R164) -/

/-- `vshape` (R160). -/
def execVshape (rd ra rb : SReg) (ew : BitVec 2) (s : State) : Out :=
  runControl s ((readReg ra s).andThen fun qr s => (readReg rb s).andThen fun ql s =>
    let s := s.mapArch fun a => { a with qrows := qr, qlen := ql }
    let s := s.regrant qr.toNat ql.toNat ew
    .done .fall (s.setReg rd (s.ucr.vlen.setWidth 64)))

/-- The code of a register count (Table 2.5). -/
def countCode (n : Word) : Option (BitVec 2) :=
  if n = 8#64 then some 0#2 else if n = 16#64 then some 1#2 else if n = 32#64 then some 2#2 else if n = 64#64 then some 3#2
  else none

/-- The first number from a start upward that is not in a skip set, within `fuel` tries (R345). -/
def firstFree (skip : List Nat) : Nat → Nat → Nat
  | 0, n => n
  | fuel + 1, n => if skip.contains n then firstFree skip fuel (n + 1) else n

/-- The generations of a pool that bound strands of a core and parked strands hold (R344). Pools are numbered as in
Table 20.1. -/
def Thread.gen (t : Thread) (pool : Nat) : Gen :=
  match pool with
  | 0 => t.genS
  | 1 => t.genV
  | 2 => t.genM
  | 3 => t.genA
  | _ => t.genP

/-- The skip set a sweep starts with (R344): a parked strand's scalar generation stands in its token; its other generations
stand in its saved context. -/
def State.liveGens (s : State) (core pool : Nat) : List Nat :=
  ((coreKeys core).filter fun k => (s.getThr k).bound).map (fun k => ((s.getThr k).gen pool).toNat) ++
  (s.saved.filter fun v => v.core == core && s.parked.any (fun p => p.uid == v.uid)).map (fun v => (v.thread.gen pool).toNat)

/-- The sweep of a pool begun (R344): its skip set is what the pool's strands hold now, and what is allocated from now on. -/
def State.startSweep (s : State) (core pool : Nat) (given : List Nat) : State :=
  s.mapCore core fun c => { c with sweeps := c.sweeps.setIfInBounds pool (some ⟨given ++ s.liveGens core pool⟩) }

/-- What an allocation does to the sweeps of its core (R344): a running sweep of the pool skips the value; above 0xFFF0 a sweep of the pool
starts, or waits its turn while the core sweeps another pool. -/
def State.noteAllocation (s : State) (core pool v : Nat) : State :=
  let c := s.getCore core
  match c.sweeps.toList.getD pool none with
  | some w => s.mapCore core fun c => { c with sweeps := c.sweeps.setIfInBounds pool (some { w with skip := v :: w.skip }) }
  | none =>
    if v ≤ 0xFFF0 ∨ c.turns.contains pool = true then s
    else if c.sweeps.toList.any (·.isSome) then s.mapCore core fun c => { c with turns := c.turns ++ [pool] }
    else s.startSweep core pool [v]

/-- An allocation of a generation in a pool of a core (R342, R344, R345): none while it stalls, which it does above 0xFFFF until
the sweep ends. After a sweep the next allocation starts from 1 again. -/
def State.allocGen (s : State) (core pool : Nat) : Option Gen × State :=
  let c := s.getCore core
  let cnt := if c.fresh.toList.getD pool false then 0 else (c.gens.toList.getD pool 0#16).toNat
  let v := firstFree (c.skips.toList.getD pool []) 65536 (cnt + 1)
  if 0xFFFF < v then (none, s.mapCore core fun c => { c with stalls := c.stalls.setIfInBounds pool true })
  else
    (some (BitVec.ofNat 16 v), (s.noteAllocation core pool v).mapCore core fun c =>
      { c with gens := c.gens.setIfInBounds pool (BitVec.ofNat 16 v),
               fresh := c.fresh.setIfInBounds pool false, stalls := c.stalls.setIfInBounds pool false })

/-- Whether the next allocation of a pool stalls (R345). -/
def State.genStalls (s : State) (core pool : Nat) : Bool := (s.allocGen core pool).1.isNone

/-- The pools that stall marked as having an allocation that waits (Table 20.3, STALL). -/
def State.markStalls (s : State) (core : Nat) (pools : List Nat) : State :=
  pools.foldl (fun s p => if s.genStalls core p then (s.allocGen core p).2 else s) s

/-- One generation in each of several pools of a core, in order. -/
def State.takeGens (s : State) (core : Nat) : List Nat → List Gen × State
  | [] => ([], s)
  | p :: ps =>
    match s.allocGen core p with
    | (g, s) => ((g.getD 0#16) :: (s.takeGens core ps).1, (s.takeGens core ps).2)

/-- Generations in several pools at once; none is taken while one of them stalls (R345). -/
def State.allocGens (s : State) (core : Nat) (pools : List Nat) : Option (List Gen) × State :=
  if pools.any (s.genStalls core) then (none, s.markStalls core pools)
  else ((some (s.takeGens core pools).1), (s.takeGens core pools).2)

/-- `vcfg` (R162): it never runs speculatively, and it stalls with the allocation it needs (R345). In a handler it does not wait for the
pending replay (DESIGN CHOICE, log entry 10: R290 lets a handler's own instructions run before the replay). -/
def execVcfg (ra : SReg) (s : State) : Out :=
  runControl s (whenResolved s fun s => (readReg ra s).andThen fun n s =>
    match countCode n with
    | none => wordTrap Cause.shape 0#8 (.vcfg ra) s
    | some code =>
      if s.thr.parent.isSome || s.thr.forks.any (fun f => !f.ended) then wordTrap Cause.vstate 4#8 (.vcfg ra) s
      else
        match s.allocGen (coreOf s.cur) 1 with
        | (none, s) => .wait s
        | (some g, s) =>
          let s := s.mapThr fun t => { t with genV := g }
          let s := s.mapArch fun a => { a with qrows := 0#64, qlen := 0#64 }
          .done .fall (s.mapUcr fun u =>
            { u with vcfg := u.vcfg.extractLsb' 2 2 ++ code, vlen := 0#9, vrows := 1#9, vstart := 0#16 }))

/-- `klen` (R163): the bound form, kept exact. -/
def execKlen (kd : KReg) (ra : SReg) (ew : BitVec 2) (s : State) : Out :=
  runControl s ((readReg ra s).andThen fun n s => .done .fall (s.setMaskForm kd (.bound n ew)))

/-! ## The compare (R172, R173) -/

/-- An integer comparison by its code (section 7.5): no integer is unordered. -/
def compareInt (cc : Nat) (a b : Int) : Bool :=
  match cc with
  | 0 => a == b
  | 1 => a != b
  | 2 => decide (a < b)
  | 3 => decide (a ≤ b)
  | 4 => decide (b < a)
  | 5 => decide (b ≤ a)
  | 6 => false
  | _ => true

/-- One comparison of `vcmp` by code and type. -/
def compareAs (fmt : FFmt) (cc ty w a b : Nat) : Bool × Flags :=
  match ty with
  | 0 => (compareInt cc (sextInt w a) (sextInt w b), 0#5)
  | 1 => (compareInt cc a b, 0#5)
  | _ => fmt.compare cc a b

/-- The mask of a compare after elements up to `stop` (R172): below `start` the old bits, from there the results, from `stop` on the
old bits. -/
def compareMask (old res : List Nat) (start stop e : Nat) : Bool :=
  if e < start ∨ stop ≤ e then old.contains e else res.contains e

/-- The elements of a compare in turn: the set results so far, and the trap that ended it. -/
def compareElems (cmp : Nat → State → Res (Bool × Flags)) : List Nat → List Nat → State → Res (List Nat) × List Nat
  | [], acc, s => (.done acc s, acc)
  | e :: es, acc, s =>
    match cmp e s with
    | .done r s => compareElems cmp es (if r.1 then e :: acc else acc) (s.orFlags r.2)
    | .trap t s => (.trap t (s.setVstart e), acc)
    | .wait s => (.wait s, acc)

/-- The body of `vcmp` (R172). A trap above the first element, or a stop there (R292), leaves the bits below it written and the others as
they were. -/
def compareBody (kd : KReg) (cmp : Nat → State → Res (Bool × Flags)) (km : KReg) (s : State) : Res Unit :=
  let start := s.ucr.vstart.toNat
  let n := s.thr.stopAt.getD s.ucr.elems
  let old := s.maskSet kd
  match compareElems cmp (s.active km) [] s with
  | (.done res s, _) => .done () ((s.setMask kd fun e => compareMask old res start n e).setVstart 0)
  | (.trap t s, res) =>
    let e := s.ucr.vstart.toNat
    .trap t (if e = start then s else s.setMask kd fun x => compareMask old res start e x)
  | (.wait s, _) => .wait s

/-- `vcmp` (R172, R173). -/
def execVcmp (kd : KReg) (cc : BitVec 4) (va vb : VReg) (sc : Bool) (km : BitVec 3) (ty : BitVec 2) (s : State) : Out :=
  let i := Instr.vcmp kd cc va vb sc km ty
  runPosted i s ((vregsOk i (if sc then [va] else [va, vb]) s).andThen fun _ s =>
    (if ty = 2#2 then floatFormat i s else Res.done FFmt.f32 s).andThen fun fmt s =>
      if s.ucr.elems ≤ s.ucr.vstart.toNat then
        let old := s.maskSet kd
        .done () ((s.setMask kd old.contains).setVstart 0)
      else
        (src2 { vd := 0#6, va := va, vb := vb, s := sc, ca := false, cb := false, km := km } s).andThen fun b s =>
          (masksOk (kmReg km :: if s.ucr.vstart = 0#16 then [] else [kd]) s).andThen fun _ s =>
            compareBody kd (fun e s => (rdElem va e s).andThen fun x s => (rdSrc2 b e s).andThen fun y s =>
              .done (compareAs fmt cc.toNat ty.toNat s.ucr.sew x y) s) (kmReg km) s)

end Sys2Proof.Machine
end

