-- ==== Sys2Proof/Machine/VFloat.lean ====
section
/-!
DEFINITION. The float vector families and special functions (07 section 7.4), conversion (7.6), reductions (7.7) with the trees of
R89 and R90, and the ordered sum `vfredo` (R92).
-/

namespace Sys2Proof.Machine

/-! ## Float families (R170, R71, R59) -/

/-- A float instruction of two sources that rounds by FRM. -/
def vfloat (i : Instr) (f : VArgs) (readsD : Bool) (op : FFmt → RM → Nat → Nat → Nat → FRes) (s : State) : Out :=
  runPosted i s ((vregsOk i (vargsRegs f) s).andThen fun _ s => (floatFormat i s).andThen fun fmt s =>
    (roundingMode i s).andThen fun rm s =>
      unlessDone [kmReg f.km] s (elementBody f readsD fun _ a b d => let r := op fmt rm a b d; (r.bits, r.flags)))

/-- A float instruction of two sources that takes no rounding from FRM. -/
def vfloatPlain (i : Instr) (f : VArgs) (op : FFmt → Nat → Nat → FRes) (s : State) : Out :=
  runPosted i s ((vregsOk i (vargsRegs f) s).andThen fun _ s => (floatFormat i s).andThen fun fmt s =>
    unlessDone [kmReg f.km] s (elementBody f false fun _ a b _ => let r := op fmt a b; (r.bits, r.flags)))

/-- A float instruction of one source that rounds by FRM. -/
def vfloat1 (i : Instr) (f : V1Args) (op : FFmt → RM → Nat → FRes) (s : State) : Out :=
  runPosted i s ((vregsOk i [f.vd, f.va] s).andThen fun _ s => (floatFormat i s).andThen fun fmt s =>
    (roundingMode i s).andThen fun rm s =>
      unlessDone [kmReg f.km] s (elementBody1 f fun _ a => let r := op fmt rm a; (r.bits, r.flags)))

/-- The magnitude of a with a sign. -/
def FFmt.withSign (f : FFmt) (a : Nat) (neg : Bool) : Nat := f.signed neg (a % f.signBit)
/-- The sign bit of an encoding. -/
def FFmt.signOf (f : FFmt) (a : Nat) : Bool := a.testBit (f.eb + f.fb)

/-- `vfadd` (Table 7.7). -/
def execVfadd (f : VArgs) (s : State) : Out :=
  vfloat (.vfadd f) f false (fun fmt rm a b _ => fmt.add rm a b) s

/-- `vfsub` (Table 7.7). -/
def execVfsub (f : VArgs) (s : State) : Out :=
  vfloat (.vfsub f) f false (fun fmt rm a b _ => fmt.sub rm a b) s

/-- `vfmul` (Table 7.7). -/
def execVfmul (f : VArgs) (s : State) : Out :=
  vfloat (.vfmul f) f false (fun fmt rm a b _ => fmt.mul rm a b) s

/-- `vfdiv` (Table 7.7). -/
def execVfdiv (f : VArgs) (s : State) : Out :=
  vfloat (.vfdiv f) f false (fun fmt rm a b _ => fmt.div rm a b) s

/-- `vfma` (Table 7.7). -/
def execVfma (f : VArgs) (s : State) : Out :=
  vfloat (.vfma f) f true (fun fmt rm a b d => fmt.fmaVal rm (fmt.decode a) (fmt.decode b) (fmt.decode d)) s

/-- `vfms` (Table 7.7). -/
def execVfms (f : VArgs) (s : State) : Out :=
  vfloat (.vfms f) f true (fun fmt rm a b d => fmt.fmaVal rm (fmt.decode a) (fmt.decode b) (fmt.decode d).negate) s

/-- `vfnma` (Table 7.7). -/
def execVfnma (f : VArgs) (s : State) : Out :=
  vfloat (.vfnma f) f true (fun fmt rm a b d => fmt.addVal rm (fmt.decode d) (mulVal (fmt.decode a) (fmt.decode b)).negate) s

/-- `vfmin` (Table 7.7). -/
def execVfmin (f : VArgs) (s : State) : Out := vfloatPlain (.vfmin f) f (fun fmt a b => fmt.minMax false a b) s

/-- `vfmax` (Table 7.7). -/
def execVfmax (f : VArgs) (s : State) : Out := vfloatPlain (.vfmax f) f (fun fmt a b => fmt.minMax true a b) s

/-- `vfsgnj` (Table 7.7). -/
def execVfsgnj (f : VArgs) (s : State) : Out := vfloatPlain (.vfsgnj f) f (fun fmt a b => ⟨fmt.withSign a (fmt.signOf b), 0#5⟩) s

/-- `vfsgnjn` (Table 7.7). -/
def execVfsgnjn (f : VArgs) (s : State) : Out := vfloatPlain (.vfsgnjn f) f (fun fmt a b => ⟨fmt.withSign a (!fmt.signOf b), 0#5⟩) s

/-- `vfsgnjx` (Table 7.7). -/
def execVfsgnjx (f : VArgs) (s : State) : Out := vfloatPlain (.vfsgnjx f) f (fun fmt a b => ⟨fmt.withSign a (fmt.signOf a != fmt.signOf b), 0#5⟩) s

/-- `vfsqrt` (R79). -/
def execVfsqrt (f : V1Args) (s : State) : Out := vfloat1 (.vfsqrt f) f (fun fmt rm a => fmt.sqrt rm a) s

/-- `vfrcp` (R79). -/
def execVfrcp (f : V1Args) (s : State) : Out := vfloat1 (.vfrcp f) f (fun fmt rm a => fmt.rcp rm a) s

/-- `vfrsq` (R79). -/
def execVfrsq (f : V1Args) (s : State) : Out := vfloat1 (.vfrsq f) f (fun fmt rm a => fmt.rsqrt rm a) s

/-- `vfexp2` (R79). -/
def execVfexp2 (f : V1Args) (s : State) : Out := vfloat1 (.vfexp2 f) f (fun fmt rm a => fmt.exp2 rm a) s

/-- `vflog2` (R79). -/
def execVflog2 (f : V1Args) (s : State) : Out := vfloat1 (.vflog2 f) f (fun fmt rm a => fmt.log2 rm a) s

/-- `vfsigm` (R79). -/
def execVfsigm (f : V1Args) (s : State) : Out := vfloat1 (.vfsigm f) f (fun fmt rm a => fmt.sigm rm a) s

/-- `vftanh` (R79). -/
def execVftanh (f : V1Args) (s : State) : Out := vfloat1 (.vftanh f) f (fun fmt rm a => fmt.tanh rm a) s

/-- `vfcls` (R171): it reads no FRM and sets no flag. -/
def execVfcls (f : V1Args) (s : State) : Out :=
  runPosted (.vfcls f) s ((vregsOk (.vfcls f) [f.vd, f.va] s).andThen fun _ s => (floatFormat (.vfcls f) s).andThen fun fmt s =>
    unlessDone [kmReg f.km] s (elementBody1 f fun _ a => (fmt.classify a, 0#5)))

/-! ## Conversion (R174, R75 to R77) -/

/-- A format of `vcvt` (Tables 3.1 and 3.2). -/
inductive Fmt where
  | int (signed : Bool) (w : Nat)
  | planar
  | float (f : FFmt)
  deriving DecidableEq, Repr

/-- The format of a code; none for 11 and 15. -/
def Fmt.ofCode (c : BitVec 4) : Option Fmt :=
  match c.toNat with
  | 0 => some (.int true 8)
  | 1 => some (.int true 16)
  | 2 => some (.int true 32)
  | 3 => some (.int true 64)
  | 4 => some (.int false 8)
  | 5 => some (.int false 16)
  | 6 => some (.int false 32)
  | 7 => some (.int false 64)
  | 8 => some (.float .f16)
  | 9 => some (.float .w16)
  | 10 => some (.float .f32)
  | 12 => some (.float .f8a)
  | 13 => some (.float .f8b)
  | 14 => some .planar
  | _ => none

/-- The width of a format in bits. -/
def Fmt.width : Fmt → Nat
  | .int _ w => w
  | .planar => 8
  | .float f => f.width

/-- The integer that an element holds in an integer format; zero for a float format. -/
def Fmt.intOf (f : Fmt) (x : Nat) : Int :=
  match f with
  | .int true w => sextInt w x
  | .int false w => ((x % 2 ^ w : Nat) : Int)
  | .planar => sextInt 8 x
  | .float _ => 0

/-- The least value of an integer format. -/
def Fmt.lo : Fmt → Int
  | .int true w => minInt w
  | .planar => minInt 8
  | _ => 0

/-- The greatest value of an integer format. -/
def Fmt.hi : Fmt → Int
  | .int true w => maxInt w
  | .int false w => ((2 ^ w : Nat) : Int) - 1
  | .planar => maxInt 8
  | .float _ => 0

/-- The indefinite value of an integer format (Table 3.5). -/
def Fmt.bad : Fmt → Int
  | .int false w => ((2 ^ w : Nat) : Int) - 1
  | f => f.lo

/-- An integer in an element of SEW bits, extended as R46 gives: sign for I formats, zero for N formats and PI. -/
def Fmt.place (f : Fmt) (sew : Nat) (x : Int) : Nat :=
  match f with
  | .int true w => truncNat sew (sextInt w (truncNat w x))
  | .int false w => truncNat w x
  | .planar => truncNat 8 x
  | .float _ => 0

/-- One conversion (Table 3.5), placed in an element of SEW bits. -/
def convertElem (src dst : Fmt) (rm : RM) (sat : Bool) (sew x : Nat) : Nat × Flags :=
  match src, dst with
  | .float a, .float b => let r := a.convert b rm sat (x % 2 ^ a.width); (r.bits, r.flags)
  | .float a, d => let r := a.toInt rm sat d.lo d.hi d.bad (x % 2 ^ a.width); (d.place sew r.1, r.2)
  | a, .float b => let r := b.ofInt rm sat (a.intOf x); (r.bits, r.flags)
  | a, d => (d.place sew (if sat then clampInt d.lo d.hi (a.intOf x) else a.intOf x), 0#5)

/-- The rounding mode of `vcvt`: its own field, or FRM for code 7 (R72, R59). -/
def cvtMode (i : Instr) (rm : BitVec 3) (s : State) : Res RM :=
  if rm = 7#3 then roundingMode i s
  else match RM.ofCode rm with
    | some m => .done m s
    | none => wordTrap Cause.illegal 0#8 i s

/-- A format of `vcvt`; a reserved code traps ILLEGAL (R75). -/
def cvtFormat (i : Instr) (c : BitVec 4) (s : State) : Res Fmt :=
  match Fmt.ofCode c with
  | some f => .done f s
  | none => wordTrap Cause.illegal 0#8 i s

/-- `vcvt` (R174). -/
def execVcvt (vd va : VReg) (rm : BitVec 3) (sat : Bool) (km : BitVec 2) (dst src : BitVec 4) (s : State) : Out :=
  let i := Instr.vcvt vd va rm sat km dst src
  runPosted i s ((cvtFormat i src s).andThen fun fs s => (cvtFormat i dst s).andThen fun fd s =>
    (vregsOk i [vd, va] s).andThen fun _ s => (cvtMode i rm s).andThen fun mode s =>
      if s.ucr.sew < fs.width ∨ s.ucr.sew < fd.width then wordTrap Cause.shape 0#8 i s
      else
        unlessDone [kmReg km] s (forElems (fun e s => (rdElem va e s).andThen fun x s =>
          let r := convertElem fs fd mode sat s.ucr.sew x
          .done () ((s.wrElem vd e r.1).orFlags r.2)) (s.active (kmReg km))))

/-! ## Reductions (R175 to R177) -/

/-- The active elements of a range read one after another, each with its position in the reduced sequence. -/
def gather (va : VReg) (first : Nat) : List Nat → State → Res (List (Nat × Nat))
  | [], s => .done [] s
  | e :: es, s =>
    match rdElem va e s with
    | .done x s => (gather va first es s).andThen fun xs s => .done ((e - first, x) :: xs) s
    | .trap t s => .trap t (s.setVstart e)
    | .wait s => .wait s

/-- The initial value, read before any element of va; a trap there reports element 0 (R175). -/
def readInit (vb : VReg) (s : State) : Res Nat :=
  match rdElem vb 0 s with
  | .done x s => .done x s
  | .trap t s => .trap t (s.setVstart 0)
  | .wait s => .wait s

/-- The rows of the per-row form: each row's first flat element and its active elements. -/
def State.rowsOf (s : State) (k : KReg) : List (Nat × List Nat) :=
  (List.range s.ucr.vrows.toNat).map fun r =>
    (r * s.ucr.vlen.toNat, (s.activeFrom k 0).filter fun e => e / s.ucr.vlen.toNat == r)

/-- Every row's elements read, in ascending order, before any write (R175). -/
def gatherRows (va : VReg) : List (Nat × List Nat) → State → Res (List (Nat × List (Nat × Nat)))
  | [], s => .done [] s
  | (first, es) :: rows, s =>
    (gather va first es s).andThen fun xs s => (gatherRows va rows s).andThen fun rest s => .done ((first, xs) :: rest) s

/-- Results written to their elements, with their flags. -/
def State.writeResults (s : State) (vd : VReg) (rs : List (Nat × Nat × Flags)) : State :=
  rs.foldl (fun s r => (s.wrElem vd r.1 r.2.1).orFlags r.2.2) s

/-- A reduction (R175, R176): performed whole, whatever VSTART; `red` takes SEW, the initial value and the reduced sequence with
its positions. With VLEN = 0 nothing is written. -/
def reduceBody (f : VArgs) (red : Nat → Nat → List (Nat × Nat) → Nat × Flags) (s : State) : Res Unit :=
  if s.ucr.elems = 0 then .done () (s.setVstart 0)
  else
    (masksOk [kmReg f.km] s).andThen fun _ s => (readInit f.vb s).andThen fun init s =>
      if f.s then
        (gatherRows f.va (s.rowsOf (kmReg f.km)) s).andThen fun rows s =>
          .done () ((s.writeResults f.vd (rows.map fun r => (r.1, red s.ucr.sew init r.2))).setVstart 0)
      else
        (gather f.va 0 (s.activeFrom (kmReg f.km) 0) s).andThen fun xs s =>
          .done () ((s.writeResults f.vd [(0, red s.ucr.sew init xs)]).setVstart 0)

/-- An integer reduction. -/
def reduceInt (i : Instr) (f : VArgs) (op : Nat → Nat → Nat → Nat) (s : State) : Out :=
  runPosted i s ((vregsOk i [f.vd, f.va, f.vb] s).andThen fun _ s =>
    reduceBody f (fun w init xs => (xs.foldl (fun acc x => op w acc x.2) init, 0#5)) s)

/-- `vredsum` (Table 7.11). -/
def execVredsum (f : VArgs) (s : State) : Out := reduceInt (.vredsum f) f (fun w a b => (a + b) % 2 ^ w) s
/-- `vredmax` (Table 7.11). -/
def execVredmax (f : VArgs) (s : State) : Out :=
  reduceInt (.vredmax f) f (fun w a b => if sextInt w a < sextInt w b then b else a) s
/-- `vredmin` (Table 7.11). -/
def execVredmin (f : VArgs) (s : State) : Out :=
  reduceInt (.vredmin f) f (fun w a b => if sextInt w b < sextInt w a then b else a) s
/-- `vredor` (Table 7.11). -/
def execVredor (f : VArgs) (s : State) : Out := reduceInt (.vredor f) f (fun _ a b => a ||| b) s
/-- `vredand` (Table 7.11). -/
def execVredand (f : VArgs) (s : State) : Out := reduceInt (.vredand f) f (fun _ a b => a &&& b) s

/-! ## Trees of float sums (R89, R90, R92) -/

/-- A node of a tree: its value and the flags of the additions under it; none where no child is present. -/
abbrev Node := Option (Nat × Flags)

/-- Two children joined: an addition with the lower-numbered operand on the left; a lone child passes unchanged. -/
def joinNodes (fmt : FFmt) (rm : RM) (a b : Node) : Node :=
  match a, b with
  | some (x, fx), some (y, fy) => let r := fmt.add rm x y; some (r.bits, fx ||| fy ||| r.flags)
  | some x, none => some x
  | none, y => y

/-- One level of a pairwise tree. -/
def treeLevel (fmt : FFmt) (rm : RM) : List Node → List Node
  | a :: b :: rest => joinNodes fmt rm a b :: treeLevel fmt rm rest
  | l => l

/-- Levels of a pairwise tree. -/
def treeLevels (fmt : FFmt) (rm : RM) : Nat → List Node → List Node
  | 0, l => l
  | n + 1, l => treeLevels fmt rm n (treeLevel fmt rm l)

/-- Elements added one after another, each on the right; the first passes unchanged. -/
def chain (fmt : FFmt) (rm : RM) (xs : List Nat) : Node :=
  xs.foldl (fun acc x => joinNodes fmt rm acc (some (x, 0#5))) none

/-- The native tree of R89: 128 lane sums, reduced by seven levels. -/
def nativeTree (fmt : FFmt) (rm : RM) (xs : List (Nat × Nat)) : Node :=
  let lanes := (List.range 128).map fun l => chain fmt rm ((xs.filter fun p => p.1 % 128 == l).map (·.2))
  ((treeLevels fmt rm 7 lanes).head?).getD none

/-- The canonical tree of R90 over one block of 32 positions. -/
def blockTree (fmt : FFmt) (xs : List (Nat × Nat)) (b : Nat) : Node :=
  let leaves := (List.range 32).map fun i => (xs.find? fun p => p.1 == 32 * b + i).map fun p => (p.2, 0#5)
  ((treeLevels fmt .rne 5 leaves).head?).getD none

/-- Blocks added to the accumulator in ascending order (R90); absent blocks are skipped. -/
def addBlocks (fmt : FFmt) (init : Nat) (blocks : List Node) : Nat × Flags :=
  (blocks.foldl (fun acc b => joinNodes fmt .rne acc b) (some (init, 0#5))).getD (init, 0#5)

/-- NV for a signalling initial value, which a reduction reads even where no element is active (R177, R74). -/
def readFlags (fmt : FFmt) (x : Nat) : Flags := if (fmt.decode x).sig then Flags.nv else 0#5

/-- `vfredsum` on one sequence (R89, R90, R177). -/
def floatSum (fmt : FFmt) (rm : RM) (canonical : Bool) (init : Nat) (xs : List (Nat × Nat)) : Nat × Flags :=
  let r :=
    if canonical then
      addBlocks fmt init ((List.range (((xs.getLast?.map (·.1)).getD 0) / 32 + 1)).map (blockTree fmt xs))
    else (joinNodes fmt rm (some (init, 0#5)) (nativeTree fmt rm xs)).getD (init, 0#5)
  (r.1, r.2 ||| readFlags fmt init)

/-- `vfredsum` (R89, R90, R177): RNE under RMODE[0] = 1, else FRM. -/
def execVfredsum (f : VArgs) (s : State) : Out :=
  let i := Instr.vfredsum f
  runPosted i s ((vregsOk i [f.vd, f.va, f.vb] s).andThen fun _ s => (floatFormat i s).andThen fun fmt s =>
    let canonical := s.ucr.rmode.getLsbD 0
    (if canonical then Res.done RM.rne s else roundingMode i s).andThen fun rm s =>
      reduceBody f (fun _ init xs => floatSum fmt rm canonical init xs) s)

/-- A float minimum or maximum over a sequence: NV for a signalling operand only. -/
def floatExtreme (fmt : FFmt) (isMax : Bool) (init : Nat) (xs : List (Nat × Nat)) : Nat × Flags :=
  xs.foldl (fun acc x => let r := fmt.minMax isMax acc.1 x.2; (r.bits, acc.2 ||| r.flags)) (init, readFlags fmt init)

/-- `vfredmax` (Table 7.11). -/
def execVfredmax (f : VArgs) (s : State) : Out :=
  runPosted (.vfredmax f) s ((vregsOk (.vfredmax f) [f.vd, f.va, f.vb] s).andThen fun _ s =>
    (floatFormat (.vfredmax f) s).andThen fun fmt s => reduceBody f (fun _ init xs => floatExtreme fmt true init xs) s)

/-- `vfredmin` (Table 7.11). -/
def execVfredmin (f : VArgs) (s : State) : Out :=
  runPosted (.vfredmin f) s ((vregsOk (.vfredmin f) [f.vd, f.va, f.vb] s).andThen fun _ s =>
    (floatFormat (.vfredmin f) s).andThen fun fmt s => reduceBody f (fun _ init xs => floatExtreme fmt false init xs) s)

/-- `vfredo` (R92, R131): microcoded; active elements added one at a time onto the initial value, RNE. RETCNT and RCVFREDO count
the execution (R132, R369). With no active element there is no addition and no flag, whatever the initial value is (DESIGN CHOICE, log entry 57:
R177 speaks of `vfredsum` alone). -/
def execVfredo (vd va vb : SReg) (km : BitVec 3) (s : State) : Out :=
  let i := Instr.vfredo vd va vb km
  let f : VArgs := { vd := vd.setWidth 6, va := va.setWidth 6, vb := vb.setWidth 6, s := false, ca := false, cb := false, km := km }
  runPosted i s (whenResolved s fun s => (vregsOk i [f.vd, f.va, f.vb] s).andThen fun _ s => (floatFormat i s).andThen fun fmt s =>
    (reduceBody f (fun _ init xs => addBlocks fmt init (xs.map fun x => some (x.2, 0#5))) s).andThen fun _ s =>
      .done () (s.countRetired.mapMod fun m => { m with rcVfredo := m.rcVfredo + 1#64 }))

end Sys2Proof.Machine
end

