-- ==== Sys2Proof/Machine/VMove.lean ====
section
/-!
DEFINITION. Permutations (08 section 8.1) and mask operations (8.2).
-/

namespace Sys2Proof.Machine

/-! ## Permutations (R180 to R183) -/

/-- Sources read for destination elements in ascending order, before anything is written; `src` answers none where the element
keeps its value. A trap reports the destination element (R181; log entry 18). -/
def readSources (src : Nat → State → Res (Option Nat)) : List Nat → State → Res (List (Nat × Nat))
  | [], s => .done [] s
  | e :: es, s =>
    match src e s with
    | .done x s =>
      (readSources src es s).andThen fun xs s =>
        .done (match x with
          | some x => (e, x) :: xs
          | none => xs) s
    | .trap t s => .trap t (s.setVstart e)
    | .wait s => .wait s

/-- Elements written. -/
def State.writeElems (s : State) (vd : VReg) (xs : List (Nat × Nat)) : State := xs.foldl (fun s x => s.wrElem vd x.1 x.2) s

/-- A permutation that is performed whole (R181): VSTART is ignored, every source is read before any element is written. -/
def permBody (vd : VReg) (k : KReg) (src : Nat → State → Res (Option Nat)) (s : State) : Res Unit :=
  (masksOk [k] s).andThen fun _ s => (readSources src (s.activeFrom k 0) s).andThen fun xs s => .done () ((s.writeElems vd xs).setVstart 0)

/-- A permutation without a scalar operand; with no element it reads nothing. -/
def perm (i : Instr) (vd : VReg) (vs : List VReg) (k : KReg) (src : Nat → State → Res (Option Nat)) (s : State) : Out :=
  runPosted i s ((vregsOk i (vd :: vs) s).andThen fun _ s =>
    if s.ucr.elems = 0 then .done () (s.setVstart 0) else permBody vd k src s)

/-- A permutation with a scalar operand, read once at posting (R182). -/
def permScalar (i : Instr) (vd va : VReg) (r : SReg) (k : KReg) (src : Nat → Nat → State → Res (Option Nat)) (s : State) : Out :=
  runPosted i s ((vregsOk i [vd, va] s).andThen fun _ s =>
    if s.ucr.elems = 0 then .done () (s.setVstart 0)
    else (readPosted r s).andThen fun x s => permBody vd k (src x.toNat) s)

/-- An element read as a source. -/
def srcElem (v : VReg) (e : Nat) (s : State) : Res (Option Nat) := (rdElem v e s).andThen fun x s => .done (some x) s

/-- `vmv` (Table 8.2): resumable. -/
def execVmv (vd va : VReg) (k : KReg) (s : State) : Out :=
  let i := Instr.vmv vd va k
  runPosted i s ((vregsOk i [vd, va] s).andThen fun _ s =>
    unlessDone [k] s fun s =>
      forElems (fun e s => (rdElem va e s).andThen fun x s => .done () (s.wrElem vd e x)) (s.active k) s)

/-- `vmvs` (Table 8.2): resumable. -/
def execVmvs (vd : VReg) (ra : SReg) (k : KReg) (s : State) : Out :=
  let i := Instr.vmvs vd ra k
  runPosted i s ((vregOk i vd s).andThen fun _ s =>
    unlessDone [k] s fun s => (readPosted ra s).andThen fun x s =>
      forElems (fun e s => .done () (s.wrElem vd e x.toNat)) (s.active k) s)

/-- `vmvx` (Table 8.2, R180, R183): it neither reads nor writes VSTART; its traps are those of a posted instruction (R166, R289). -/
def execVmvx (rd : SReg) (va : VReg) (rb : SReg) (s : State) : Out :=
  let i := Instr.vmvx rd va rb
  runPosted i s ((vregOk i va s).andThen fun _ s => (readPosted rb s).andThen fun x s =>
    if x.toNat < s.ucr.elems then
      (rdElem va x.toNat s).andThen fun y s => .done () (s.setReg rd (wordOfInt (sextInt s.ucr.sew y)))
    else .done () (s.setReg rd 0#64))

/-- `vslideup` (Table 8.2). -/
def execVslideup (vd va : VReg) (rb : SReg) (k : KReg) (s : State) : Out :=
  permScalar (.vslideup vd va rb k) vd va rb k (fun o e s =>
    if e % s.ucr.vlen.toNat < o then .done none s else srcElem va (e - o) s) s

/-- `vslidedn` (Table 8.2). -/
def execVslidedn (vd va : VReg) (rb : SReg) (k : KReg) (s : State) : Out :=
  permScalar (.vslidedn vd va rb k) vd va rb k (fun o e s =>
    if e % s.ucr.vlen.toNat + o < s.ucr.vlen.toNat then srcElem va (e + o) s else .done (some 0) s) s

/-- `vslide1up` (Table 8.2). -/
def execVslide1up (vd va : VReg) (rb : SReg) (k : KReg) (s : State) : Out :=
  permScalar (.vslide1up vd va rb k) vd va rb k (fun x e s =>
    if e % s.ucr.vlen.toNat = 0 then .done (some x) s else srcElem va (e - 1) s) s

/-- `vslide1dn` (Table 8.2). -/
def execVslide1dn (vd va : VReg) (rb : SReg) (k : KReg) (s : State) : Out :=
  permScalar (.vslide1dn vd va rb k) vd va rb k (fun x e s =>
    if e % s.ucr.vlen.toNat + 1 = s.ucr.vlen.toNat then .done (some x) s else srcElem va (e + 1) s) s

/-- `vgather` (Table 8.2). -/
def execVgather (vd va vb : VReg) (k : KReg) (s : State) : Out :=
  perm (.vgather vd va vb k) vd [va, vb] k (fun e s =>
    (rdElem vb e s).andThen fun i s => if i < s.ucr.elems then srcElem va i s else .done (some 0) s) s

/-- The position of an element among a list's elements. -/
def rankIn (l : List Nat) (e : Nat) : Nat := (l.takeWhile fun x => decide (x < e)).length

/-- `vcompress` (Table 8.2): the j-th active element goes to element j. -/
def execVcompress (vd va : VReg) (k : KReg) (s : State) : Out :=
  let i := Instr.vcompress vd va k
  runPosted i s ((vregsOk i [vd, va] s).andThen fun _ s =>
    if s.ucr.elems = 0 then .done () (s.setVstart 0)
    else
      (masksOk [k] s).andThen fun _ s => (readSources (srcElem va) (s.activeFrom k 0) s).andThen fun xs s =>
        .done () ((s.writeElems vd (xs.zipIdx.map fun (x, j) => (j, x.2))).setVstart 0))

/-- `vexpand` (Table 8.2): the j-th active element receives element j. -/
def execVexpand (vd va : VReg) (k : KReg) (s : State) : Out :=
  perm (.vexpand vd va k) vd [va] k (fun e s => srcElem va (rankIn (s.activeFrom k 0) e) s) s

/-- `viota` (Table 8.2). -/
def execViota (vd : VReg) (ka k : KReg) (s : State) : Out :=
  perm (.viota vd ka k) vd [] k (fun e s => (masksOk [ka] s).andThen fun _ s =>
    .done (some ((List.range e).countP fun j => s.maskBit ka j && s.maskBit k j)) s) s

/-- `vid` (Table 8.2): resumable. -/
def execVid (vd : VReg) (k : KReg) (s : State) : Out :=
  runPosted (.vid vd k) s ((vregOk (.vid vd k) vd s).andThen fun _ s =>
    unlessDone [k] s fun s => forElems (fun e s => .done () (s.wrElem vd e e)) (s.active k) s)

/-- `vtrans` (Table 8.2): SHAPE unless VLEN = VROWS. -/
def execVtrans (vd va : VReg) (k : KReg) (s : State) : Out :=
  let i := Instr.vtrans vd va k
  runPosted i s ((vregsOk i [vd, va] s).andThen fun _ s =>
    if s.ucr.vlen.toNat ≠ s.ucr.vrows.toNat then wordTrap Cause.shape 0#8 i s
    else if s.ucr.elems = 0 then .done () (s.setVstart 0)
    else permBody vd k (fun e s =>
      srcElem va (e % s.ucr.vlen.toNat * s.ucr.vlen.toNat + e / s.ucr.vlen.toNat) s) s)

/-- `vrowbc` (Table 8.2). -/
def execVrowbc (vd va : VReg) (rb : SReg) (k : KReg) (s : State) : Out :=
  permScalar (.vrowbc vd va rb k) vd va rb k (fun x e s =>
    if x < s.ucr.vrows.toNat then srcElem va (x * s.ucr.vlen.toNat + e % s.ucr.vlen.toNat) s else .done (some 0) s) s

/-! ## Mask operations (R184) -/

/-- A mask operation on the bits of its operands below VLEN × VROWS, read in slice 0 (Table 8.4). -/
def kops (i : Instr) (kd : KReg) (ks : List KReg) (f : State → Nat → Bool) (s : State) : Out :=
  runPosted i s ((masksOk ks s).andThen fun _ s => .done () ((s.setMask kd (f s)).setVstart 0))

/-- `kand` (Table 8.4). -/
def execKand (kd ka kb : KReg) (s : State) : Out :=
  kops (.kand kd ka kb) kd [ka, kb] (fun s e => s.maskBitAt ka 0 e && s.maskBitAt kb 0 e) s

/-- `kor` (Table 8.4). -/
def execKor (kd ka kb : KReg) (s : State) : Out :=
  kops (.kor kd ka kb) kd [ka, kb] (fun s e => s.maskBitAt ka 0 e || s.maskBitAt kb 0 e) s

/-- `kxor` (Table 8.4). -/
def execKxor (kd ka kb : KReg) (s : State) : Out :=
  kops (.kxor kd ka kb) kd [ka, kb] (fun s e => s.maskBitAt ka 0 e != s.maskBitAt kb 0 e) s

/-- `kandn` (Table 8.4). -/
def execKandn (kd ka kb : KReg) (s : State) : Out :=
  kops (.kandn kd ka kb) kd [ka, kb] (fun s e => s.maskBitAt ka 0 e && !s.maskBitAt kb 0 e) s

/-- `knot` (Table 8.4). -/
def execKnot (kd ka : KReg) (s : State) : Out := kops (.knot kd ka) kd [ka] (fun s e => !s.maskBitAt ka 0 e) s

/-- `kmv` (Table 8.4). -/
def execKmv (kd ka : KReg) (s : State) : Out := kops (.kmv kd ka) kd [ka] (fun s e => s.maskBitAt ka 0 e) s

/-- `kpopc` (Table 8.4). -/
def execKpopc (rd : SReg) (ka : KReg) (s : State) : Out :=
  runPosted (.kpopc rd ka) s ((masksOk [ka] s).andThen fun _ s => .done () ((s.setReg rd (BitVec.ofNat 64 (s.maskSetAt ka 0).length)).setVstart 0))

/-- `kfirst` (Table 8.4). -/
def execKfirst (rd : SReg) (ka : KReg) (s : State) : Out :=
  runPosted (.kfirst rd ka) s ((masksOk [ka] s).andThen fun _ s => .done () ((s.setReg rd (match (s.maskSetAt ka 0).head? with
    | some e => BitVec.ofNat 64 e
    | none => wordOfInt (-1))).setVstart 0))

/-- The first set bit of a mask, or VLEN × VROWS. -/
def State.firstSet (s : State) (ka : KReg) : Nat := ((s.maskSetAt ka 0).head?).getD s.ucr.elems

/-- `kbrkb` (Table 8.4). -/
def execKbrkb (kd ka : KReg) (s : State) : Out := kops (.kbrkb kd ka) kd [ka] (fun s e => decide (e < s.firstSet ka)) s

/-- `kbrka` (Table 8.4). -/
def execKbrka (kd ka : KReg) (s : State) : Out := kops (.kbrka kd ka) kd [ka] (fun s e => decide (e ≤ s.firstSet ka)) s

/-- `kbrko` (Table 8.4). -/
def execKbrko (kd ka : KReg) (s : State) : Out := kops (.kbrko kd ka) kd [ka] (fun s e => decide (e = s.firstSet ka)) s

/-- `kfromv` (Table 8.4): a stale element traps before kd is written. -/
def execKfromv (kd : KReg) (va : VReg) (s : State) : Out :=
  runPosted (.kfromv kd va) s ((vregOk (.kfromv kd va) va s).andThen fun _ s =>
    (readSources (srcElem va) (List.range s.ucr.elems) s).andThen fun xs s =>
      .done () ((s.setMask kd fun e => xs.any fun x => x.1 == e && x.2 != 0).setVstart 0))

/-- `ktov` (Table 8.4): every element is written, with no mask. -/
def execKtov (vd : VReg) (ka : KReg) (s : State) : Out :=
  runPosted (.ktov vd ka) s ((vregOk (.ktov vd ka) vd s).andThen fun _ s => (masksOk [ka] s).andThen fun _ s =>
    .done () ((s.writeElems vd ((List.range s.ucr.elems).map fun e => (e, if s.maskBitAt ka 0 e then 1 else 0))).setVstart 0))

/-- `kset` (Table 8.4). -/
def execKset (kd : KReg) (ra rb : SReg) (s : State) : Out :=
  runPosted (.kset kd ra rb) s ((readPosted ra s).andThen fun lo s => (readPosted rb s).andThen fun hi s =>
    .done () ((s.setMask kd fun e => decide (lo.toNat ≤ e ∧ e < hi.toNat)).setVstart 0))

end Sys2Proof.Machine
end

