-- ==== Sys2Proof/Machine/VMem.lean ====
section
/-!
DEFINITION. Vector loads and stores (08 section 8.3): addresses, the element loop with its trap order, first-fault trimming, the
order of unordered stores.
-/

namespace Sys2Proof.Machine

/-- The addressing modes (R185). -/
inductive VMode where
  | unit
  | strided (st : SReg)
  | indexed (vi : VReg)
  deriving DecidableEq, Repr

/-- The vector registers that a mode names beside the data register. -/
def VMode.regs : VMode → List VReg
  | .indexed vi => [vi]
  | _ => []

/-- The row stride of unit-stride transfers (R185). -/
def State.rowStride (s : State) (w : Nat) : Word :=
  if s.ucr.vrstr ≠ 0#64 then s.ucr.vrstr else BitVec.ofNat 64 (s.ucr.vlen.toNat * w)

/-- The address of element `e` of a unit-stride transfer. -/
def State.eaUnit (s : State) (base : Word) (w e : Nat) : Word :=
  base + BitVec.ofNat 64 (e / s.ucr.vlen.toNat) * s.rowStride w + BitVec.ofNat 64 (e % s.ucr.vlen.toNat * w)

/-- The address of element `e` (R185): `stride` is the stride register's value. A stale index element traps GENTRAP under
GENMODE = 1. -/
def elemAddr (m : VMode) (base stride : Word) (w e : Nat) (s : State) : Res Word :=
  match m with
  | .unit => .done (s.eaUnit base w e) s
  | .strided _ => .done (base + BitVec.ofNat 64 e * stride) s
  | .indexed vi => (rdElem vi e s).andThen fun x s => .done (base + wordOfInt (sextInt s.ucr.sew x)) s

/-- The address of element `e`, with a stale index as zero: for the checks made before any element is performed. -/
def State.peekAddr (s : State) (m : VMode) (base stride : Word) (w e : Nat) : Word :=
  match m with
  | .unit => s.eaUnit base w e
  | .strided _ => base + BitVec.ofNat 64 e * stride
  | .indexed vi => base + wordOfInt (sextInt s.ucr.sew (s.elemOrZero vi e))

/-- Where an access would go. -/
def State.peek (s : State) (va : Word) (k : Access) : Option Phys :=
  match (s.translate s.thr.asid s.thr.root s.thr.level va k).1 with
  | .ok pa attr => some ⟨pa, attr⟩
  | .fault _ _ => none

/-- Whether a place is window storage that the strand does not hold. -/
def State.foreignWindow (s : State) (p : Phys) : Bool :=
  match s.region p.pa with
  | .window core off => !s.owns core off
  | _ => false

/-- Whether an instruction touches an SO page (R272). -/
def State.touchesSo (s : State) (k : Access) (addr : Nat → Word) (es : List Nat) : Bool :=
  es.any fun e => (s.peek (addr e) k).any fun p => p.so

/-- An instruction that touches an SO page, or that writes window storage the strand does not hold, never runs speculatively
(R35, R190, R272). -/
def vectorGuard (k : Access) (addr : Nat → Word) (es : List Nat) (s : State) : Res Unit :=
  if s.thr.unres ≠ [] && (s.touchesSo k addr es || (k == .store && es.any fun e => (s.peek (addr e) k).any s.foreignWindow))
  then whenResolved s fun s => .done () s
  else .done () s

/-- The scalar operands: the base, then the stride register (R187). -/
def vectorBase (f : MArgs) (m : VMode) (s : State) : Res (Word × Word) :=
  (readPosted f.sb s).andThen fun base s =>
    match m with
    | .strided st => (readPosted st s).andThen fun x s => .done (base, x) s
    | _ => .done (base, 0#64) s

/-- The path of a vector memory instruction's accesses, by its x bit (R189). -/
def memPath (f : MArgs) : Path := if f.x then .vectorLoose else .vector

/-- The bytes of a memory width. -/
def MArgs.bytes (f : MArgs) : Nat := 2 ^ f.w.toNat

/-- One element of a load (R187): index, ALIGN, PAGE and PROT, then the read. -/
def loadElem (f : MArgs) (m : VMode) (sign : Bool) (base stride : Word) (e : Nat) (s : State) : Res Unit :=
  (elemAddr m base stride (2 ^ f.w.toNat) e s).andThen fun a s =>
    (aligned a (2 ^ f.w.toNat) .load s).andThen fun _ s =>
      (load (memPath f) a (2 ^ f.w.toNat) s).andThen fun bs s =>
        let x := if sign then truncNat s.ucr.sew (sextInt (8 * 2 ^ f.w.toNat) (numOf bs)) else numOf bs
        .done () (s.wrElem f.v e x)

/-- Where one element of a store goes, and its bytes (R187): index, data, ALIGN, PAGE and PROT. -/
def storePlace (f : MArgs) (m : VMode) (base stride : Word) (e : Nat) (s : State) : Res (Phys × List Byte) :=
  (elemAddr m base stride (2 ^ f.w.toNat) e s).andThen fun a s =>
    (rdElem f.v e s).andThen fun x s =>
      (aligned a (2 ^ f.w.toNat) .store s).andThen fun _ s =>
        (locate a .store s).andThen fun p s => .done (p, bytesOf (2 ^ f.w.toNat) x) s

/-- Bytes stored at a place that has been checked. -/
def storeTo (w : Way) (x : Phys × List Byte) (s : State) : Res Unit :=
  (soGuard x.1 s).andThen fun _ s => writeAt { w with so := x.1.so } x.1 x.2 s

/-- One element of a store. -/
def storeElem (w : Way) (f : MArgs) (m : VMode) (base stride : Word) (e : Nat) (s : State) : Res Unit :=
  (storePlace f m base stride e s).andThen fun x s => storeTo w x s

/-- Checks before the element loop: register numbers, then SHAPE (R166, R187). -/
def vectorChecks (i : Instr) (f : MArgs) (m : VMode) (s : State) : Res Unit :=
  (vregsOk i (f.v :: m.regs) s).andThen fun _ s =>
    if s.ucr.sew < 8 * 2 ^ f.w.toNat then wordTrap Cause.shape 0#8 i s else .done () s

/-- A vector load (R187). -/
def vectorLoad (i : Instr) (f : MArgs) (m : VMode) (sign : Bool) (s : State) : Out :=
  runPosted i s ((vectorChecks i f m s).andThen fun _ s =>
    unlessDone [kmReg f.km] s fun s => (vectorBase f m s).andThen fun b s =>
      let es := s.active (kmReg f.km)
      (vectorGuard .load (s.peekAddr m b.1 b.2 (2 ^ f.w.toNat)) es s).andThen fun _ s =>
        forElems (loadElem f m sign b.1 b.2) es s)

/-! ## The order of unordered stores (R188, R270, R271) -/

/-- An element put into a list ordered by rank. -/
def insertRanked (rank : Nat → Nat) (e : Nat) : List Nat → List Nat
  | [] => [e]
  | x :: xs => if rank e < rank x then e :: x :: xs else x :: insertRanked rank e xs

/-- Elements ordered by rank. -/
def sortRanked (rank : Nat → Nat) (es : List Nat) : List Nat := es.foldr (insertRanked rank) []

/-- Elements above a trap that an unordered store had already performed, as the device chooses (R188): each on its own, without a
trap of its own. -/
def performAbove (f : Nat → State → Res Unit) (free : Nat) : List Nat → State → State
  | [], s => s
  | e :: es, s =>
    if Config.performedAbove free e then
      match f e s with
      | .done _ s' => performAbove f free es s'
      | _ => performAbove f free es s
    else performAbove f free es s

/-- The elements of a store checked in ascending order, up to one that traps (R313): the places of those below it. -/
def checkedPlaces (place : Nat → State → Res (Phys × List Byte)) : List Nat → State → List (Phys × List Byte) × Res Unit
  | [], s => ([], .done () s)
  | e :: es, s =>
    match place e s with
    | .done x s => let r := checkedPlaces place es s; (x :: r.1, r.2)
    | .trap t s => ([], .trap t (s.setVstart e))
    | .wait s => ([], .wait (s.setVstart e))

/-- The order in which elements of which some lie on UO pages are performed (R271, R272): those in an order the device chooses, after the
others in ascending order. -/
def uoOrder (free : Nat) (xs : List (Phys × List Byte)) : List (Phys × List Byte) :=
  xs.filter (fun x => x.1.attr != 2#2) ++
    (sortRanked (fun i => (Config.elementRank free i).toNat) (List.range xs.length)).filterMap fun i => xs[i]?.filter fun x => x.1.attr == 2#2

/-- Elements stored one after another; each has been checked. -/
def storeAll (w : Way) (xs : List (Phys × List Byte)) (s : State) : State :=
  xs.foldl (fun s x => match storeTo w x s with
    | .done _ s' => s'
    | _ => s) s

/-- A store that traps at element `e`: every active element below it is performed for every observer (R280), and one with o = 0 may have
performed some above it. -/
def storeTrapped (ordered : Bool) (w : Way) (f : Nat → State → Res Unit) (es : List Nat) (t : Trap) (s : State) : Res Unit :=
  let s := s.performInst w.inst
  if ordered then .trap t s
  else
    let e := s.ucr.vstart.toNat
    .trap t ((performAbove f s.free (es.filter fun x => decide (e < x)) s).setVstart e).tick

/-- The elements of a store: in ascending order with o = 1, on an SO page, and where no element lies on a UO page; else in any order, once
they have been checked in ascending order (R187, R188, R270 to R272, R313). -/
def storeElems (uo : Bool) (w : Way) (place : Nat → State → Res (Phys × List Byte)) (es : List Nat) (s : State) : Res Unit :=
  let f := fun e s => (place e s).andThen fun x s => storeTo w x s
  if uo && !w.ord then
    let r := checkedPlaces place es s
    match r.2 with
    | .done _ s => .done () (storeAll w (uoOrder s.free r.1) s).tick
    | .trap t s => storeTrapped false w f es t (storeAll w (uoOrder s.free r.1) s)
    | .wait s => .wait s
  else
    match forElems f es s with
    | .trap t s => storeTrapped w.ord w f es t s
    | r => r

/-- Whether a store has an element on a UO page (R271). -/
def State.touchesUo (s : State) (addr : Nat → Word) (es : List Nat) : Bool :=
  es.any fun e => (s.peek (addr e) .store).any fun p => p.attr == 2#2

/-- A vector store (R187). -/
def vectorStore (i : Instr) (f : MArgs) (m : VMode) (s : State) : Out :=
  runPosted i s ((vectorChecks i f m s).andThen fun _ s =>
    unlessDone [kmReg f.km] s fun s => (vectorBase f m s).andThen fun b s =>
      let es := s.active (kmReg f.km)
      let addr := s.peekAddr m b.1 b.2 (2 ^ f.w.toNat)
      (vectorGuard .store addr es s).andThen fun _ s =>
        let w : Way := { path := memPath f, inst := s.free, ord := f.o || s.touchesSo .store addr es, so := false }
        storeElems (s.touchesUo addr es) w (storePlace f m b.1 b.2) es s)

/-! ## First-fault loads (R192) -/

/-- The elements of a first-fault load after the first active one: PAGE or PROT trims, and answers the element it trims at. A fault that is
not raised leaves TFLT as it was (DESIGN CHOICE, log entry 16). -/
def trimElems (f : Nat → State → Res Unit) : List Nat → State → Res (Option Nat)
  | [], s => .done none s
  | e :: es, s =>
    match f e s with
    | .done _ s => trimElems f es s
    | .trap t s' =>
      if t.cause = Cause.page ∨ t.cause = Cause.prot then .done (some e) { s with walks := s'.walks, free := s'.free }
      else .trap t (s'.setVstart e)
    | .wait s => .wait s

/-- The end of a first-fault load: VLEN trimmed where an element was, k15 set below the final VLEN, VSTART cleared. -/
def State.endTrimmed (s : State) (trim : Option Nat) : State :=
  let s' := match trim with
    | some k => s.mapUcr fun u => { u with vlen := BitVec.ofNat 9 k }
    | none => s
  (s'.setMaskForm 15#4 (.explicit (List.range s'.ucr.vlen.toNat))).setVstart 0

/-- A first-fault load (R187, R192). -/
def firstFaultLoad (i : Instr) (f : MArgs) (sign : Bool) (s : State) : Out :=
  runPosted i s ((vectorChecks i f .unit s).andThen fun _ s =>
    if s.ucr.vrows ≠ 1#9 then wordTrap Cause.shape 0#8 i s
    else if s.ucr.elems ≤ s.ucr.vstart.toNat then .done () (s.endTrimmed none)
    else (masksOk [kmReg f.km] s).andThen fun _ s => (vectorBase f .unit s).andThen fun b s =>
      let es := s.active (kmReg f.km)
      (vectorGuard .load (s.peekAddr .unit b.1 b.2 (2 ^ f.w.toNat)) es s).andThen fun _ s =>
        match es with
        | [] => .done () (s.endTrimmed none)
        | e :: es =>
          (forElems (loadElem f .unit sign b.1 b.2) [e] s).andThen fun _ s =>
            (trimElems (loadElem f .unit sign b.1 b.2) es s).andThen fun trim s => .done () (s.endTrimmed trim))

/-! ## The instructions (Table 5.9) -/

/-- `vld` (R187). -/
def execVld (f : MArgs) (s : State) : Out := vectorLoad (.vld f) f .unit false s
/-- `vldstr` (R187). -/
def execVldstr (f : MArgs) (st : SReg) (s : State) : Out := vectorLoad (.vldstr f st) f (.strided st) false s
/-- `vldx` (R187). -/
def execVldx (f : MArgs) (vi : VReg) (s : State) : Out := vectorLoad (.vldx f vi) f (.indexed vi) false s
/-- `vldff` (R192). -/
def execVldff (f : MArgs) (s : State) : Out := firstFaultLoad (.vldff f) f false s
/-- `vld`, sign-extending (R186). -/
def execVldSignExtending (f : MArgs) (s : State) : Out := vectorLoad (.vldSignExtending f) f .unit true s
/-- `vldstr`, sign-extending (R186). -/
def execVldstrSignExtending (f : MArgs) (st : SReg) (s : State) : Out :=
  vectorLoad (.vldstrSignExtending f st) f (.strided st) true s
/-- `vldx`, sign-extending (R186). -/
def execVldxSignExtending (f : MArgs) (vi : VReg) (s : State) : Out :=
  vectorLoad (.vldxSignExtending f vi) f (.indexed vi) true s
/-- `vldff`, sign-extending (R186, R192). -/
def execVldffSignExtending (f : MArgs) (s : State) : Out := firstFaultLoad (.vldffSignExtending f) f true s
/-- `vst` (R187). -/
def execVst (f : MArgs) (s : State) : Out := vectorStore (.vst f) f .unit s
/-- `vststr` (R187). -/
def execVststr (f : MArgs) (st : SReg) (s : State) : Out := vectorStore (.vststr f st) f (.strided st) s
/-- `vstx` (R187). -/
def execVstx (f : MArgs) (vi : VReg) (s : State) : Out := vectorStore (.vstx f vi) f (.indexed vi) s

end Sys2Proof.Machine
end

