-- ==== Sys2Proof/Machine/Atomic.lean ====
section
/-!
DEFINITION. Atomics (10 sections 10.1 to 10.3): homes and scopes, scalar and vector atomics, histograms; wait-on-address (10.4).
-/

namespace Sys2Proof.Machine

/-! ## Homes and scopes (R227, Table 10.1) -/

/-- The narrowest scope that contains a place at a core, for the stepping strand. -/
def State.scopeOfCore (s : State) (n : Nat) : Nat := s.scopeBetween (coreOf s.cur) n

/-- The narrowest scope that contains the home of an atomic target. -/
def State.homeScope (s : State) (pa : Nat) : Nat :=
  match s.region pa with
  | .slice n => s.scopeOfCore n
  | .window n _ => s.scopeOfCore n
  | .lpddr => if homeDie pa = s.dieOf (coreOf s.cur) then 2 else 3
  | _ => 4

/-- Whether an address lies in the host or the peer aperture (Table 11.22). -/
def State.isAperture (s : State) (pa : Nat) : Bool :=
  match s.region pa with
  | .host | .peer => true
  | _ => false

/-- Whether an atomic's place is refused (R227, R230): window storage outside the scratchpad, or an aperture for an operation it does
not carry. -/
def State.atomicRefuses (s : State) (pa : Nat) (onAperture : Bool) : Bool :=
  match s.region pa with
  | .window _ off => decide (off < 0x100000 ∨ 0x300000 ≤ off)
  | .host | .peer => !onAperture
  | _ => false

/-- Translation and protection of an atomic (R135, R227, R230). -/
def locateAtomic (va : Word) (onAperture : Bool) (s : State) : Res Phys :=
  (locate va .atomic s).andThen fun p s =>
    if s.atomicRefuses p.pa onAperture then .trap ⟨Cause.prot, Access.atomic.detail, va⟩ s else .done p s

/-- The slot whose generation an atomic on a scratchpad granule acts under (R229): the strand itself, or the holder, unless it is of
another context and the strand not at system level (R349; log entry 19). -/
def State.atomicHolder (s : State) (core off : Nat) : Option Nat :=
  if s.owns core off then some s.cur
  else
    match (if s.offline core then none else s.holder core off) with
    | some k => if s.thr.level || (s.getThr k).asid == s.thr.asid then some k else none
    | none => none

/-- The checks of an atomic's target before it is performed: GENTRAP on the strand's own stale granule (R229), poison (R375). -/
def atomicCheck (p : Phys) (va : Word) (w : Nat) (s : State) : Res Unit :=
  match s.region p.pa with
  | .window core off =>
    match s.atomicHolder core off with
    | some k =>
      if s.tag p.pa = (s.getThr k).genP then (if s.poisoned p.pa w then consume p.pa va s else .done () s)
      else if s.owns core off && s.ucr.genmode == 1#1 then .trap ⟨Cause.gentrap, 0#8, va⟩ s
      else .done () s
    | none => .done () s
  | _ => if s.poisoned p.pa w then consume p.pa va s else .done () s

/-- The value an atomic reads at its home (R229). -/
def State.atomicRead (s : State) (pa w : Nat) : Nat :=
  match s.region pa with
  | .window core off =>
    match s.atomicHolder core off with
    | some k => numOf (s.bytesTagged pa w (s.getThr k).genP)
    | none => 0
  | _ => numOf (s.bytes pa w)

/-- The generation that an atomic's target lies under: zero outside the windows. -/
def State.atomicGen (s : State) (pa : Nat) : Gen :=
  match s.region pa with
  | .window core off => ((s.atomicHolder core off).map fun k => (s.getThr k).genP).getD 0#16
  | _ => 0#16

/-- An atomic on a path reads the newest value at its home, and so the strand reads nothing older there (R266, R273). -/
def State.atomicSees (s : State) (q : Path) (pa w : Nat) : State := s.readNewest (s.reader q) (s.atomicGen pa) pa w

/-- What an atomic stores, performed for every observer (R266). -/
def State.atomicLate (s : State) (w : Way) (pa : Nat) (old : List Byte) (gen : Gen) : Late :=
  (s.lateOf w pa old gen).performed (coreOf s.cur) 4

/-- The value an atomic writes at its home (R229): nothing where no strand holds the granule. -/
def State.atomicWrite (s : State) (q : Way) (pa w x : Nat) : State :=
  match s.region pa with
  | .window core off =>
    match s.atomicHolder core off with
    | some k =>
      let g := (s.getThr k).genP
      (s.writeTagged pa (bytesOf w x) g).addLate (s.atomicLate q pa (s.bytesTagged pa w g) g)
    | none => s
  | _ => (s.putBytes pa (bytesOf w x)).addLate (s.atomicLate q pa (s.bytes pa w) 0#16)

/-- What an atomic operation writes (Table 10.3); none where it writes nothing. `w` is the width in bits. -/
def atomicOp (op w old x exp : Nat) : Option Nat :=
  match op with
  | 0 => some ((old + x) % 2 ^ w)
  | 1 => some x
  | 2 => some (old &&& x)
  | 3 => some (old ||| x)
  | 4 => some (old ^^^ x)
  | 5 => some (if sextInt w x < sextInt w old then x else old)
  | 6 => some (if sextInt w old < sextInt w x then x else old)
  | 7 => some (min old x)
  | 8 => some (max old x)
  | 9 => if 0 < sextInt w old then some (old - 1) else none
  | _ => if old = exp then some x else none

/-- Whether an aperture carries an operation (R230). -/
def apertureCarries (op : Nat) : Bool := op == 0 || op == 1 || op == 10

/-- An atomic that goes out in some way performed at its home: the old value, and the state after (R228). -/
def State.atomicApply (s : State) (q : Way) (pa w : Nat) (f : Nat → Option Nat) : Nat × State :=
  let old := s.atomicRead pa w
  let s := s.atomicSees q.path pa w
  (old, match f old with
    | some x => s.atomicWrite q pa w x
    | none => s)

/-- A scalar atomic at an address (R231): `op` is the operation's code. -/
def atomicBody (f : AmoArgs) (op : Nat) (a x exp : Word) (s : State) : Res Ctl :=
  let w := if f.d then 8 else 4
  (aligned a w .atomic s).andThen fun _ s =>
    (locateAtomic a (apertureCarries op) s).andThen fun p s =>
      (atomicCheck p a w s).andThen fun _ s =>
        let s := if f.rl then s.coreOrder.release [.scalar] f.sc.toNat else s.coreOrder
        let (old, s) := s.atomicApply Path.scalar.plain p.pa w fun old => atomicOp op (8 * w) old (x.toNat % 2 ^ (8 * w)) (exp.toNat % 2 ^ (8 * w))
        .done .fall (s.setReg f.rd (wordOfInt (sextInt (8 * w) old)))

/-- `amo` (R231): `dip` reads no rb. -/
def execAmo (f : AmoArgs) (op : BitVec 4) (s : State) : Out :=
  runControl s (whenResolved s fun s => (readReg f.ra s).andThen fun a s =>
    (if op = 9#4 then Res.done 0#64 s else readReg f.rb s).andThen fun x s => atomicBody f op.toNat a x 0#64 s)

/-- `cas` (R231): it reads rd too. -/
def execCas (f : AmoArgs) (s : State) : Out :=
  runControl s (whenResolved s fun s => (readReg f.ra s).andThen fun a s => (readReg f.rb s).andThen fun x s =>
    (readReg f.rd s).andThen fun exp s => atomicBody f 10 a x exp s)

/-! ## Vector atomics (R234 to R238) -/

/-- An element of a vector atomic that has passed its checks: its number, place, and the values it takes. -/
structure AtomElem where
  e   : Nat
  p   : Phys
  va  : Word
  x   : Nat
  exp : Nat
  deriving DecidableEq, Repr

/-- The checks of every active element, in ascending order, before any is performed (R236). -/
def checkAtoms (f : Nat → State → Res AtomElem) : List Nat → State → Res (List AtomElem)
  | [], s => .done [] s
  | e :: es, s =>
    match f e s with
    | .done a s => (checkAtoms f es s).andThen fun as s => .done (a :: as) s
    | .trap t s => .trap t (s.setVstart e)
    | .wait s => .wait s

/-- What an element of a vector atomic of a scope uses of its target: nothing, where its home lies outside the scope (R237). -/
def scopedCheck (sc : Nat) (p : Phys) (va : Word) (w : Nat) (s : State) : Res Unit :=
  if sc < s.homeScope p.pa then .done () s else atomicCheck p va w s

/-- One element checked: index, data, ALIGN, PAGE and PROT, the granule (R187, R236). `vamo.dip` reads its element of v too, as R235 gives x for
every operation (DEDUCED, log entry 52: R231 has the scalar `dip` read no rb). -/
def checkAtom (f : AVArgs) (cas : Bool) (onAperture : Bool) (base : Word) (e : Nat) (s : State) : Res AtomElem :=
  (rdElem f.vx e s).andThen fun i s =>
    (rdElem f.v e s).andThen fun x s =>
      (if cas then rdElem (f.v + 1#6) e s else Res.done 0 s).andThen fun y s =>
        let a := base + wordOfInt (sextInt s.ucr.sew i)
        (aligned a s.ucr.sewBytes .atomic s).andThen fun _ s =>
          (locateAtomic a onAperture s).andThen fun p s =>
            (scopedCheck f.sc.toNat p a s.ucr.sewBytes s).andThen fun _ s =>
              .done { e := e, p := p, va := a, x := if cas then y else x, exp := x } s

/-- The elements whose home lies outside the scope (R237). -/
def State.misses (s : State) (sc : Nat) (as : List AtomElem) : List AtomElem := as.filter fun a => decide (sc < s.homeScope a.p.pa)

/-- k13 and SMC after misses, if there are any (R237). -/
def State.noteMisses (s : State) (ms : List AtomElem) : State :=
  if ms = [] then s
  else
    (s.setMask 13#4 fun e => ms.any fun a => a.e == e).mapUcr fun u =>
      { u with smc := BitVec.ofNat 32 (min 0xFFFFFFFF (u.smc.toNat + ms.length)) }

/-- How a vector atomic goes out: as a vector memory instruction with x = 0 (R189, 10 section 10.3), its elements ordered with o = 1 (R278). -/
def atomWay (f : AVArgs) (inst : Nat) : Way := { path := .vector, inst := inst, ord := f.o, so := false }

/-- The elements performed one after another: each writes the old value into its element of v (R235). -/
def performAtoms (w : Way) (v : VReg) (op : Nat → Nat → Nat → Nat → Option Nat) : List AtomElem → State → State
  | [], s => s
  | a :: as, s =>
    let (old, s) := s.atomicApply w a.p.pa s.ucr.sewBytes fun old => op s.ucr.sew old a.x a.exp
    performAtoms w v op as (s.wrElem v a.e old)

/-- The order of the elements: ascending with o = 1 or on an SO page, else as the device chooses (R236, R269). -/
def atomOrder (o : Bool) (free : Nat) (as : List AtomElem) : List AtomElem :=
  if o || as.any (fun a => a.p.so) then as
  else
    let order := sortRanked (fun e => (Config.elementRank free e).toNat) (as.map (·.e))
    order.filterMap fun e => as.find? fun a => a.e == e

/-- Whether two elements touch one address, so that their order shows (R236). -/
def sharesPlace : List AtomElem → Bool
  | [] => false
  | a :: as => as.any (fun b => b.p.pa == a.p.pa) || sharesPlace as

/-- A vector atomic (R234 to R237): `sewOk` says which SEW it takes. -/
def vamo (i : Instr) (f : AVArgs) (cas onAperture : Bool) (sewOk : Nat → Bool) (op : Nat → Nat → Nat → Nat → Option Nat)
    (s : State) : Out :=
  runPosted i s (whenResolved s fun s =>
    (vregsOk i [f.v, f.vx] s).andThen fun _ s =>
      if cas && decide (s.ucr.regCount ≤ f.v.toNat + 1) then wordTrap Cause.vstate 0#8 i s
      else if !sewOk s.ucr.sew then wordTrap Cause.shape 0#8 i s
      else unlessDone [kmReg f.km] s fun s => (readPosted f.sb s).andThen fun base s =>
        (checkAtoms (checkAtom f cas onAperture base) (s.active (kmReg f.km)) s).andThen fun as s =>
          let sc := f.sc.toNat
          let ms := s.misses sc as
          let hits := as.filter fun a => !ms.contains a
          let order := if sharesPlace hits then atomOrder f.o s.free hits else hits
          .done () ((performAtoms (atomWay f s.free) f.v op order s).noteMisses ms).tick)

/-- An integer operation of Table 10.3 as a vector atomic. -/
def vamoInt (i : Instr) (f : AVArgs) (code : Nat) (s : State) : Out :=
  vamo i f (code == 10) (apertureCarries code) (fun w => w == 32 || w == 64) (fun w old x exp => atomicOp code w old x exp) s

/-- `vamo.add` (R235). -/
def execVamoAdd (f : AVArgs) (s : State) : Out := vamoInt (.vamoAdd f) f 0 s
/-- `vamo.swap` (R235). -/
def execVamoSwap (f : AVArgs) (s : State) : Out := vamoInt (.vamoSwap f) f 1 s
/-- `vamo.and` (R235). -/
def execVamoAnd (f : AVArgs) (s : State) : Out := vamoInt (.vamoAnd f) f 2 s
/-- `vamo.or` (R235). -/
def execVamoOr (f : AVArgs) (s : State) : Out := vamoInt (.vamoOr f) f 3 s
/-- `vamo.xor` (R235). -/
def execVamoXor (f : AVArgs) (s : State) : Out := vamoInt (.vamoXor f) f 4 s
/-- `vamo.min` (R235). -/
def execVamoMin (f : AVArgs) (s : State) : Out := vamoInt (.vamoMin f) f 5 s
/-- `vamo.max` (R235). -/
def execVamoMax (f : AVArgs) (s : State) : Out := vamoInt (.vamoMax f) f 6 s
/-- `vamo.minu` (R235). -/
def execVamoMinu (f : AVArgs) (s : State) : Out := vamoInt (.vamoMinu f) f 7 s
/-- `vamo.maxu` (R235). -/
def execVamoMaxu (f : AVArgs) (s : State) : Out := vamoInt (.vamoMaxu f) f 8 s
/-- `vamo.dip` (R235). -/
def execVamoDip (f : AVArgs) (s : State) : Out := vamoInt (.vamoDip f) f 9 s
/-- `vamo.cas` (R234, R235). -/
def execVamoCas (f : AVArgs) (s : State) : Out := vamoInt (.vamoCas f) f 10 s
/-- `vamo.fadd` (R234, R235): RNE_F32, at e32 only, no flag; no aperture carries it. -/
def execVamoFadd (f : AVArgs) (s : State) : Out :=
  vamo (.vamoFadd f) f false false (fun w => w == 32) (fun _ old x _ => some (FFmt.f32.add .rne old x).bits) s

/-- One element of a histogram checked (R238). -/
def checkBin (f : AVArgs) (base : Word) (e : Nat) (s : State) : Res AtomElem :=
  (rdElem f.vx e s).andThen fun i s =>
    let a := base + BitVec.ofNat 64 (4 * i)
    (aligned a 4 .atomic s).andThen fun _ s =>
      (locateAtomic a true s).andThen fun p s =>
        (scopedCheck f.sc.toNat p a 4 s).andThen fun _ s => .done { e := e, p := p, va := a, x := 0, exp := 0 } s

/-- The elements that name one bin, in ascending order, receive the numbers from one on. -/
def giveSlots (v : VReg) : Nat → List AtomElem → State → State
  | _, [], s => s
  | x, a :: as, s => giveSlots v (x + 1) as (s.wrElem v a.e x)

/-- The bins counted, each by one atomic (R238): the number of elements that name it is added, and each of them receives the bin's value before
plus the number of those below it. -/
def countBins (w : Way) (v : VReg) (hits : List AtomElem) : List Nat → State → State
  | [], s => s
  | pa :: ps, s =>
    let mine := hits.filter fun a => a.p.pa == pa
    let (old, s) := s.atomicApply w pa 4 fun old => some (old + mine.length)
    countBins w v hits ps (giveSlots v old mine s)

/-- `vhist` (R238). -/
def execVhist (f : AVArgs) (s : State) : Out :=
  let i := Instr.vhist f
  runPosted i s (whenResolved s fun s =>
    (vregsOk i [f.v, f.vx] s).andThen fun _ s =>
      if s.ucr.sew = 8 then wordTrap Cause.shape 0#8 i s
      else unlessDone [kmReg f.km] s fun s => (readPosted f.sb s).andThen fun base s =>
        (checkAtoms (checkBin f base) (s.active (kmReg f.km)) s).andThen fun as s =>
          let ms := s.misses f.sc.toNat as
          let hits := as.filter fun a => !ms.contains a
          .done () ((countBins (atomWay f s.free) f.v hits (hits.map (·.p.pa)).eraseDups s).noteMisses ms).tick)

/-! ## Wait-on-address (R239 to R241) -/

/-- The checks that `waddr` and `wake` share (R239, R240). -/
def monitorPlace (va : Word) (s : State) : Res Phys :=
  (aligned va 8 .atomic s).andThen fun _ s => locateAtomic va false s

/-- A waiting strand's wait ended with a status, and its monitor entry freed (R239). -/
def State.endWait (s : State) (k : Nat) (status : BitVec 3) : State :=
  let t := s.getThr k
  let s := { s with monitors := s.monitors.filter fun m => m.key ≠ k }
  match t.wa with
  | .armed rd => s.setThr k { t with wa := .done rd status, waiting := false }
  | _ => s

/-- `waddr` (R239): status 2 with a full table, 1 where the doubleword differs, else the strand waits armed until its wait ends. With 0 or 1
it is an acquire. What a read of the doubleword traps, a stale granule or poison, comes where it is read, behind the search for a free entry, and
`wake`, which reads none, has no such check (DEDUCED, log entry 53). -/
def execWaddr (rd ra rb : SReg) (s : State) : Out :=
  runControl s (whenResolved s fun s =>
    match s.thr.wa with
    | .done rd st =>
      let s := if st.toNat ≤ 1 then s.acquireBoth else s
      .done .fall ((s.mapThr fun t => { t with wa := .none }).setReg rd (st.setWidth 64))
    | .armed _ => .wait s
    | .none =>
      (readReg ra s).andThen fun a s => (readReg rb s).andThen fun x s => (monitorPlace a s).andThen fun p s =>
        if 64 ≤ (s.monitors.filter fun m => m.cluster == s.cluster).length then .done .fall (s.setReg rd 2#64)
        else
          (atomicCheck p a 8 s).andThen fun _ s =>
            let s := s.atomicSees .scalar p.pa 8
            if s.atomicRead p.pa 8 ≠ x.toNat then .done .fall (s.acquireBoth.setReg rd 1#64)
            else .wait { s with monitors := s.monitors ++ [⟨s.cluster, s.cur, p.pa⟩], thr := { s.thr with wa := .armed rd } })

/-- The armed entries on a doubleword, oldest first; all of them for a count of 0 (R240). -/
def State.selectMonitors (s : State) (pa count : Nat) : List Monitor :=
  let ms := s.monitors.filter fun m => m.pa == pa
  if count = 0 then ms else ms.take count

/-- Entries woken (R239, R240). -/
def State.wakeAll (s : State) (ms : List Monitor) : State := ms.foldl (fun s m => s.endWait m.key 0#3) s

/-- `wake` (R240). -/
def execWake (rd ra rb : SReg) (s : State) : Out :=
  runControl s (whenResolved s fun s =>
    (readReg ra s).andThen fun a s => (readReg rb s).andThen fun x s => (monitorPlace a s).andThen fun p s =>
      let s := s.releaseDevice
      let ms := s.selectMonitors p.pa x.toNat
      .done .fall ((s.wakeAll ms).setReg rd (BitVec.ofNat 64 ms.length)))

/-- A monitor entry evicted: its waiter wakes with status 3 (R239). -/
def execMonitorEvict (key : Nat) (s : State) : Out := .next (s.endWait key 3#3)

end Sys2Proof.Machine
end

