-- ==== Sys2Proof/Machine/Sync.lean ====
section
/-!
DEFINITION. Fences (10 section 10.5), barriers (10.6), group queries (10.7), splitting a lane group (01 section 1.5, 10.8).
-/

namespace Sys2Proof.Machine

/-! ## Fences (R242, R243)

A fence waits for stores held behind an unresolved `ubrk` (log entries 5 and 10). -/

/-- A fence with what it does to late stores: it stalls while a store is held. -/
def fenceBody (f : State → State) (s : State) : Res Ctl :=
  if s.thr.held = [] then .done .fall (f s) else whenResolved s fun s => .done .fall (f s)

/-- `fence` (R242): one that orders earlier stores performs them for its scope; loads are performed as they run. -/
def execFence (_ll _ls sl ss : Bool) (sc : BitVec 3) (s : State) : Out :=
  runControl s (fenceBody (fun s => if sl || ss then s.storeFence sc.toNat else s) s)

/-- `pfence` (R243). -/
def execPfence (p q : BitVec 5) (sc : BitVec 3) (s : State) : Out :=
  runControl s (fenceBody (fun s => s.pathFence (Path.ofCode p.toNat) (Path.ofCode q.toNat) sc.toNat) s)

/-! ## Groups (R20 to R22, R247) -/

/-- The launch of the stepping strand. -/
def State.launch? (s : State) : Option Launch := s.launches.find? fun l => l.id == s.thr.launch

/-- The code of a group's scope (R22). -/
def State.groupScope (s : State) (g : Nat) : Nat := ((s.launch?.map fun l => (l.scopes.getD g (3, 0)).1).getD 3)

/-- The members of a group of the strand's launch, by strand index; empty past the table. -/
def State.members (s : State) (g : Nat) : List Nat := (s.launch?.map fun l => l.groups.getD g []).getD []

/-- Whether the stepping strand is a member of a group; a fork child is no strand of the launch (log entry 11). -/
def State.isMember (s : State) (g : Nat) : Bool := s.thr.parent.isNone && (s.members g).contains s.thr.index

/-- The token of the bound member with a strand index; zero while it is unbound (R247). -/
def State.memberToken (s : State) (index : Nat) : BitVec 32 :=
  match s.keys.find? fun k => let t := s.getThr k; t.bound && t.launch == s.thr.launch && t.index == index && t.parent.isNone with
  | some k => tokenOf k (s.getThr k)
  | none => 0#32

/-- A group ID of 256 or more traps SHAPE (R247). -/
def groupId (i : Instr) (x : Word) (s : State) : Res Nat :=
  if x.toNat < 256 then .done x.toNat s else wordTrap Cause.shape 0#8 i s

/-- `gsize` (R247). -/
def execGsize (rd ra : SReg) (s : State) : Out :=
  runControl s ((readReg ra s).andThen fun x s => (groupId (.gsize rd ra) x s).andThen fun g s =>
    .done .fall (s.setReg rd (BitVec.ofNat 64 (s.members g).length)))

/-- `grank` (R247). -/
def execGrank (rd ra : SReg) (s : State) : Out :=
  runControl s ((readReg ra s).andThen fun x s => (groupId (.grank rd ra) x s).andThen fun g s =>
    .done .fall (s.setReg rd (if s.isMember g then BitVec.ofNat 64 (rankIn (s.members g) s.thr.index) else wordOfInt (-1))))

/-- `gmember` (R247). -/
def execGmember (rd ra rb : SReg) (s : State) : Out :=
  runControl s ((readReg ra s).andThen fun x s => (readReg rb s).andThen fun r s =>
    (groupId (.gmember rd ra rb) x s).andThen fun g s =>
      .done .fall (s.setReg rd (match (s.members g)[r.toNat]? with
        | some index => (s.memberToken index).setWidth 64
        | none => 0#64)))

/-! ## Barriers (R54, R244 to R246) -/

/-- The counters of a barrier of the strand's launch; all zero before the first arrival. -/
def State.barrier (s : State) (g n : Nat) : Barrier :=
  (s.barriers.find? fun b => b.launch == s.thr.launch && b.group == g && b.num == n).getD
    { launch := s.thr.launch, group := g, num := n, phi := 0, cur := 0, nxt := 0 }

/-- The state with a barrier's counters replaced. -/
def State.setBarrier (s : State) (b : Barrier) : State :=
  { s with barriers := b :: s.barriers.filter fun x => !(x.launch == b.launch && x.group == b.group && x.num == b.num) }

/-- A barrier register of the strand. -/
def State.breg (s : State) (b : BReg) : BarrierReg := s.thr.arch.breg.get b.toFin

/-- Whether a barrier register is bound: written under the strand's generation (R54). -/
def State.bregBound (s : State) (b : BReg) : Bool := (s.breg b).bound && (s.breg b).tag == s.thr.genS

/-- A barrier register read by an instruction that needs it bound: VSTATE where it is not (R54); poison is consumed (R375). -/
def readBreg (i : Instr) (b : BReg) (s : State) : Res BarrierReg :=
  if !s.bregBound b then wordTrap Cause.vstate 2#8 i s
  else if (s.breg b).bad then consumeRegister 4#8 (64 + b.toNat) s
  else .done (s.breg b) s

/-- The state with a barrier register replaced. -/
def State.setBreg (s : State) (b : BReg) (x : BarrierReg) : State :=
  s.mapArch fun a => { a with breg := a.breg.set b.toNat x b.isLt }

/-- `bset` (R244): a group ID of 256 or more, or a group the strand is no member of, traps SHAPE. -/
def execBset (b : BReg) (ra : SReg) (s : State) : Out :=
  runControl s ((readReg ra s).andThen fun x s => (groupId (.bset b ra) x s).andThen fun g s =>
    if s.isMember g then
      .done .fall (s.setBreg b
        { bound := true, group := BitVec.ofNat 8 g, target := (s.barrier g b.toNat).phi, tag := s.thr.genS, bad := false })
    else wordTrap Cause.shape 0#8 (.bset b ra) s)

/-- A barrier after an arrival for phase `t` of one of `n` members (R245). -/
def Barrier.arrive (b : Barrier) (t n : Nat) : Barrier :=
  let b := if t = b.phi then { b with cur := b.cur + 1 } else { b with nxt := b.nxt + 1 }
  if b.cur = n then { b with phi := b.phi + 1, cur := b.nxt, nxt := 0 } else b

/-- `arrive` (R245): an arrival two phases ahead waits. -/
def execArrive (rd : SReg) (b : BReg) (s : State) : Out :=
  runControl s (whenResolved s fun s =>
    (readBreg (.arrive rd b) b s).andThen fun r s =>
      let bar := s.barrier r.group.toNat b.toNat
      if r.target = bar.phi + 2 then .wait s
      else
        let s := s.release [.scalar, .vector] (s.groupScope r.group.toNat)
        let s := s.setBarrier (bar.arrive r.target (s.members r.group.toNat).length)
        let s := s.setBreg b { r with target := r.target + 1 }
        .done .fall (s.setReg rd (BitVec.ofNat 64 (r.target % 2))))

/-- `bwait` (R246): it waits while the phase bit equals bit 0 of rb; it is an acquire. -/
def execBwait (b : BReg) (rb : SReg) (s : State) : Out :=
  runControl s ((readReg rb s).andThen fun x s =>
    (readBreg (.bwait b rb) b s).andThen fun r s =>
      if (s.barrier r.group.toNat b.toNat).phi % 2 = x.toNat % 2 then .wait s else .done .fall s.acquireBoth)

/-! ## Forks (R24 to R28, R248, R249) -/

/-- The bind record of the stepping strand. -/
def BindRec.empty : BindRec := Vector.replicate 8 0#64
def State.bindRec (s : State) (n : Nat) : BindRec := Sparse.get BindRec.empty s.binds n

/-- FORK and SMASK of a bind record (Table 19.3). -/
def BindRec.fork (b : BindRec) : Bool := (b.get 2).getLsbD 21
def BindRec.smask (b : BindRec) : BitVec 4 := (b.get 2).extractLsb' 8 4

/-- The lowest fallow slot of the core that the strand's bind record permits for forking (R24); an offline core binds nothing (R377). -/
def State.forkSlot (s : State) : Option Nat :=
  let b := s.bindRec s.thr.bindNo
  (coreKeys (coreOf s.cur)).find? fun k =>
    b.fork && b.smask.getLsbD (slotOf k) && !(s.getThr k).bound && !s.offline (coreOf s.cur)

/-- Tags of one generation in a range of granules become another (R25); data stay where they are. -/
def State.restamp (s : State) (lo n : Nat) (old new : Gen) : State :=
  { s with tags := (s.tags.map fun (g, t) => if lo ≤ g ∧ g < lo + n ∧ t = old then (g, new) else (g, t)).filter fun p => p.2 ≠ 0#16 }

/-- The granules of every register from byte `b` of the strand's part to the register's end restamped (R25). -/
def State.restampRegs (s : State) (t : Thread) (key b : Nat) (old new : Gen) : State :=
  let cap := t.arch.ucr.capacity
  (List.range t.arch.ucr.regCount).foldl (fun s r =>
    let first := t.vbase + r * cap + t.roff + b
    s.restamp (windowAddr (coreOf key) first / 64) ((t.vbase + r * cap + cap - first) / 64) old new) s

/-- The set elements of a mask register of a strand below a bound, at an element width in bytes (R50, R53). -/
def Thread.maskBits (t : Thread) (k : KReg) (n w : Nat) : List Nat :=
  let r := t.arch.mask.get k.toFin
  (List.range n).filter fun e =>
    match r.form with
    | .explicit set => r.tags.toList.getD (e / 512) 0#16 == t.genM && set.contains e
    | .bound cnt cw => r.tags.toList.getD 0 0#16 == t.genM && decide (e * w < cnt.toNat * 2 ^ cw.toNat)

/-- Whether elements from `lo` up to `hi` of a mask register need a live granule that is poisoned. -/
def Thread.maskBadIn (t : Thread) (k : Fin 16) (lo hi : Nat) : Bool :=
  let r := t.arch.mask.get k
  r.bad.any fun g => r.tags.toList.getD g 0#16 == t.genM &&
    match r.form with
    | .explicit _ => decide (512 * g < hi ∧ lo < 512 * (g + 1))
    | .bound _ _ => g == 0

/-- Mask registers k1 to k15 that a fork's child starts with: the parent's rows from element `off` on (R25), poison with them. -/
def childMasks (t : Thread) (off n w : Nat) (gen : Gen) : Vector MaskReg 16 :=
  Vector.ofFn fun (k : Fin 16) =>
    if k.val = 0 then MaskReg.reset
    else
      { form := .explicit (((t.maskBits (BitVec.ofFin k) (off + n) w).filter fun e => decide (off ≤ e)).map fun e => e - off),
        tags := Vector.replicate 128 gen,
        bad := (List.range 128).filter fun g =>
          decide (512 * g < n) && t.maskBadIn k (off + 512 * g) (off + min n (512 * (g + 1))) }

/-- The child of a fork (Table 1.5, R248): it starts at a target, its registers are copies of what the parent reads, its shape request is
(0, 0) as at any binding (R146), its system registers are as at binding (log entry 11). -/
def forkChild (s : State) (rd : SReg) (target : Word) (g : Vector Gen 4) : Thread :=
  let t := s.thr
  let u := t.arch.ucr
  let m := u.vrows.toNat
  let off := m / 2 * u.vlen.toNat
  let b := s.bindRec t.bindNo
  let regs : Vector Word 32 := Vector.ofFn fun (r : Fin 32) => if BitVec.ofFin r = rd then 1#64 else s.reg (BitVec.ofFin r)
  { Thread.reset with
    bound := true, uid := s.nextId, launch := t.launch, index := t.index, queue := t.queue, bindNo := t.bindNo, prio := t.prio,
    ecl := t.ecl, asid := t.asid, root := t.root, genS := g[0], genV := g[1], genM := g[2], genA := g[3], genP := t.genP,
    vbase := t.vbase, roff := t.roff + off * u.sewBytes, scrBase := t.scrBase, scrSize := t.scrSize,
    arch := { Arch.reset with
      sreg := regs, stag := Vector.replicate 32 g[0],
      sbad := (List.range 32).filter fun r => s.regBad (BitVec.ofNat 5 r) && decide (r ≠ rd.toNat),
      mask := childMasks t off ((m - m / 2) * u.vlen.toNat) u.sewBytes g[2],
      ucr := { u with vrows := BitVec.ofNat 9 (m - m / 2) },
      trip := Triple.start target }
    sys := SysCR.atBinding (b.get 5) (b.get 6), parent := some s.cur, preempt := t.preempt, codeMem := s.codeMem,
    kernel := t.kernel, kver := t.kver }

/-- A fork that succeeds (R24, R25): the child is bound and takes the rows from m div 2 on. -/
def State.forked (s : State) (rd : SReg) (key : Nat) (target : Word) (g : Vector Gen 4) : State :=
  let u := s.ucr
  let m := u.vrows.toNat
  let child := forkChild s rd target g
  let s' := s.restampRegs s.thr s.cur (m / 2 * u.vlen.toNat * u.sewBytes) s.thr.genV g[1]
  let s' := s'.setThr key child
  let s' := { s' with nextId := s.nextId + 1 }
  let s' := s'.mapThr fun t =>
    { t with forks := t.forks ++ [{ child := key, vlen := u.vlen, vrows := u.vrows, vsew := u.vsew, qrows := t.arch.qrows,
                                    qlen := t.arch.qlen, ended := false, returned := false }] }
  (s'.mapUcr fun u => { u with vrows := BitVec.ofNat 9 (m / 2) }).setReg rd 0#64

/-- `lfork` (R248, R24, R26): -1 where no strand can be created. It never runs speculatively (log entry 10). -/
def execLfork (rd ra : SReg) (s : State) : Out :=
  runControl s (whenResolved s fun s => (readReg ra s).andThen fun target s => (targetAligned target s).andThen fun _ s =>
    let m := s.ucr.vrows.toNat
    match s.forkSlot with
    | none => .done .fall (s.setReg rd (wordOfInt (-1)))
    | some key =>
      if m < 2 ∨ m / 2 * s.ucr.vlen.toNat * s.ucr.sewBytes % 64 ≠ 0 then .done .fall (s.setReg rd (wordOfInt (-1)))
      else
        match s.allocGens (coreOf s.cur) [0, 1, 2, 3] with
        | (none, s) => .wait s
        | (some gs, s) => .done .fall (s.forked rd key target (Vector.ofFn fun i => gs.getD i.val 0#16)))

/-- The first element and the number of elements that a fork gave to its child, in the rows that the parent had then. -/
def ForkRec.first (f : ForkRec) : Nat := f.vrows.toNat / 2 * f.vlen.toNat
def ForkRec.count (f : ForkRec) : Nat := (f.vrows.toNat - f.vrows.toNat / 2) * f.vlen.toNat

/-- Mask granules `g` that hold one of `n` elements from `off` on. -/
def granuleIn (off n g : Nat) : Bool := decide (512 * g < off + n ∧ off < 512 * (g + 1) ∧ 0 < n)

/-- A mask register of a parent with the elements from `off` on replaced by the `n` bits that a fork gives back (R25): `back` lists the set
ones, `bad` the granules that are poisoned with them. Every other bit stays; a bound form becomes the bits that it set, at `w` bytes an
element; a granule that is written is stamped, and if it was stale its other bits are zero. -/
def returnedMask (r : MaskReg) (gen : Gen) (off n w : Nat) (back bad : List Nat) : MaskReg :=
  let live := fun g => r.tags.toList.getD g 0#16 == gen
  let whole := match r.form with
    | .explicit _ => false
    | .bound _ _ => live 0
  let own := match r.form with
    | .explicit set => set.filter fun e => live (e / 512) || !granuleIn off n (e / 512)
    | .bound cnt cw => if live 0 then (List.range 65536).filter fun e => decide (e * w < cnt.toNat * 2 ^ cw.toNat) else []
  { form := .explicit (own.filter (fun e => decide (e < off)) ++ back.map (fun e => off + e) ++ own.filter fun e => decide (off + n ≤ e))
    tags := Vector.ofFn fun (g : Fin 128) => if whole || granuleIn off n g.val then gen else r.tags.get g
    bad := (List.range 128).filter fun g =>
      (if whole then r.bad.contains 0 else r.bad.contains g && (live g || !granuleIn off n g)) || bad.contains g }

/-- A strand's mask registers k1 to k15 after the elements of a fork have come back: `c` is the child that returned them; with none, the
child has ended otherwise, and they read as zero (R28). -/
def Thread.returnMasks (p : Thread) (f : ForkRec) (c : Option Thread) : Vector MaskReg 16 :=
  Vector.ofFn fun (k : Fin 16) =>
    if k.val = 0 then p.arch.mask.get k
    else
      let back := (c.map fun t => t.maskBits (BitVec.ofFin k) f.count t.arch.ucr.sewBytes).getD []
      let bad := (List.range 128).filter fun g => granuleIn f.first f.count g &&
        (c.any fun t => t.maskBadIn k (512 * g - f.first) (512 * (g + 1) - f.first))
      returnedMask (p.arch.mask.get k) p.genM f.first f.count (2 ^ f.vsew.toNat) back bad

/-- A strand whose forks that have ended without returning their rows have lost them (R28). -/
def Thread.loseRows (t : Thread) : Thread :=
  (t.forks.filter fun f => !f.returned).foldl (fun t f => { t with arch := { t.arch with mask := t.returnMasks f none } }) t

/-- Whether an address lies in a granule of a strand's part of the vector registers of its core that carries a generation. -/
def State.inRows (s : State) (t : Thread) (key : Nat) (gen : Gen) (pa : Nat) : Bool :=
  let cap := t.arch.ucr.capacity
  s.tag pa == gen && (List.range t.arch.ucr.regCount).any fun r =>
    let first := t.vbase + r * cap + t.roff
    decide (windowAddr (coreOf key) first / 64 ≤ pa / 64 ∧ pa / 64 < windowAddr (coreOf key) (t.vbase + r * cap + cap) / 64)

/-- A parent's checkpoint with the rows that a child returns (R27, R38): their bytes, tags and poison as the child left them, and its mask
rows. A return is no effect of the words that an exit annuls. -/
def Unresolved.returned (u : Unresolved) (s : State) (p : Thread) (f : ForkRec) : Unresolved :=
  let mine := s.inRows s.thr s.cur s.thr.genV
  { u with
    arch := { u.arch with mask := { p with arch := u.arch }.returnMasks f (some s.thr) }
    cells := (s.mem.filter fun c => mine c.1).foldl (fun m c => Sparse.put memDefault m c.1 c.2) (u.cells.filter fun c => !mine c.1)
    tags := (s.tags.filter fun t => mine (64 * t.1)).foldl (fun m t => Sparse.put 0#16 m t.1 p.genV) (u.tags.filter fun t => !mine (64 * t.1))
    bad := u.bad.filter (fun a => !mine a) ++ s.poison.filter mine }

/-- A child's rows returned to its parent (R25, R27): vector granules restamped, mask rows copied back, in its checkpoints too. -/
def State.returnRows (s : State) (pk : Nat) : State :=
  let c := s.thr
  let p := s.getThr pk
  match p.forks.find? fun f => f.child == s.cur && !f.ended with
  | none => s
  | some f =>
    let us := p.unres.map fun u => u.returned s p f
    let s := s.restampRegs c s.cur 0 c.genV p.genV
    s.setThr pk { p with
      arch := { p.arch with mask := p.returnMasks f (some c) }
      unres := us
      forks := p.forks.map fun (f : ForkRec) => if f.child = s.cur ∧ f.ended = false then { f with returned := true } else f }

/-- Whether every child that the strand forked has ended. -/
def Thread.childrenEnded (t : Thread) : Bool := t.forks.all (·.ended)

/-- `ljoin` (R249, R27): a child waits as `halt` waits, then ends and returns its rows; a parent gets back the shape it held before the
oldest fork it has not joined (log entry 11). -/
def execLjoin (s : State) : Out :=
  runControl s (whenResolved s fun s =>
    if !s.thr.childrenEnded then .wait s
    else
      match s.thr.parent with
      | some pk => .done .stay (((s.drained.mapThr Thread.loseRows).returnRows pk).endStrand s.cur none)
      | none =>
        match s.thr.forks with
        | [] => .done .fall s
        | f :: _ =>
          let s := (s.mapThr Thread.loseRows).mapThr fun t =>
            { t with forks := [], arch := { t.arch with qrows := f.qrows, qlen := f.qlen } }
          .done .fall (s.mapUcr fun u => { u with vlen := f.vlen, vrows := f.vrows, vsew := f.vsew }))

end Sys2Proof.Machine
end

