-- ==== Sys2Proof/Machine/Fetch.lean ====
section
/-!
DEFINITION. Instruction fetch (R371, R404), the encoding checks (R123, R124), the energy budget at issue (R391).
-/

namespace Sys2Proof.Machine

/-- The code image that the stepping strand fetches (R371): that of the kernel name and version under which it was launched. -/
def State.image? (s : State) : Option CodeImage :=
  s.images.find? fun c => c.asid == s.thr.asid && c.name == s.thr.kernel && c.version == s.thr.kver

/-- The four bytes of an image at an address, none for one whose page has not been mapped so far, and whether one of them was read from a
poisoned unit; none where one lies outside it. -/
def CodeImage.word (c : CodeImage) (va : Word) : Option (List (Option Byte) × Bool) :=
  let o := va.toNat - c.base.toNat
  if c.base.toNat ≤ va.toNat ∧ o + 4 ≤ c.bytes.length then
    some ((c.bytes.drop o).take 4, c.bad.any fun i => decide (o ≤ i ∧ i < o + 4))
  else none

/-- The bytes of ordinary memory that a fetch returns (R404): as they stand, or as they stood at some moment since the strand's binding. -/
def State.fetchBytes (s : State) (pa : Nat) : List Byte × State :=
  let now := s.bytes pa 4
  match (s.thr.codeMem.map fun m => (List.range 4).map fun i => Sparse.get memDefault m (pa + i)).filter fun bs => bs ≠ now with
  | [] => (now, s)
  | olds => ((now :: olds).getD (Config.fetchMoment s.free % (olds.length + 1)) now, s.tick)

/-- A word from a place: a window as a window read, ordinary memory (R404). -/
def fetchPlace (p : Phys) (va : Word) (s : State) : Res (List Byte) :=
  match s.region p.pa with
  | .window core off =>
    if 0x300000 ≤ off then .done (s.crPageRead s.thr.asid core off 4) s
    else if s.windowPoisoned s.thr.asid core off 4 then consume p.pa va s
    else .done (s.windowRead s.thr.asid core off 4) s
  | .info => .done ((List.range 4).map fun i => s.infoByte (p.pa % 4096 + i)) s
  | _ => if s.poisoned p.pa 4 then consume p.pa va s else .done (s.fetchBytes p.pa).1 (s.fetchBytes p.pa).2

/-- Bytes put into an image at an address, where none stands there yet. -/
def CodeImage.fill (c : CodeImage) (va : Word) (bs : List Byte) : CodeImage :=
  let o := va.toNat - c.base.toNat
  { c with bytes := c.bytes.zipIdx.map fun x => if x.1.isNone && decide (o ≤ x.2) then bs[x.2 - o]? else x.1 }

/-- A word of the code image (R371) or of what else is fetched. Bytes of the image whose page had not been mapped are read when a fetch first
needs them, and stand in the image from then on (log entry 21). -/
def fetchAt (p : Phys) (va : Word) (s : State) : Res (List Byte) :=
  match s.image?.bind fun c => c.word va with
  | some (bs, bad) =>
    if bad then consume p.pa va s
    else if bs.all Option.isSome then .done (bs.map fun b => b.getD 0#8) s
    else
      (fetchPlace p va s).andThen fun now s =>
        .done ((bs.zip now).map fun b => b.1.getD b.2)
          { s with images := s.images.map fun c => if s.image? = some c then c.fill va now else c }
  | none => fetchPlace p va s

/-- The word at an address (R112, R144): ALIGN, PAGE and PROT name the address. -/
def fetchWord (va : Word) (s : State) : Res (BitVec 32) :=
  (aligned va 4 .fetch s).andThen fun _ s => (locate va .fetch s).andThen fun p s =>
    (soGuard p s).andThen fun _ s => (fetchAt p va s).andThen fun bs s => .done (BitVec.ofNat 32 (numOf bs)) s

/-- The instruction at an address: a word that fails an encoding check traps ILLEGAL with the word (R123, Table 17.5). -/
def fetchInstr (va : Word) (s : State) : Res Instr :=
  (fetchWord va s).andThen fun w s =>
    match decode w with
    | .ok i => .done i s
    | .error _ => .trap ⟨Cause.illegal, 0#8, w.setWidth 64⟩ s

/-! ## The energy budget (R391) -/

/-- The cost of an energy class. -/
def State.energyCost (s : State) (c : BitVec 3) : BitVec 32 := (s.mod.ecost.extractLsb' (8 * c.toNat) 8).setWidth 32

/-- The budget of a context. -/
def State.energy (s : State) (asid : BitVec 12) : Energy := Sparse.get Energy.reset s.energies asid.toNat

/-- The state with a context's budget replaced. -/
def State.setEnergy (s : State) (asid : BitVec 12) (e : Energy) : State :=
  { s with energies := Sparse.put Energy.reset s.energies asid.toNat e }

/-- The energy check of an issue (R391): an instruction of an energy-class context that has not paid yet pays its class's cost
while EBUD > 0; else it stalls, and the stall's beginning is logged. -/
def payEnergy (s : State) : Res Unit :=
  if !s.thr.ecl || s.thr.debited then .done () s
  else
    let e := s.energy s.thr.asid
    if 0 < e.ebud.toInt then
      .done () ((s.setEnergy s.thr.asid { e with ebud := e.ebud - s.energyCost s.thr.eclass }).mapThr fun t => { t with debited := true })
    else .wait (if s.thr.waiting then s else { s with out := s.out ++ [.energy s.thr.asid] })

end Sys2Proof.Machine
end

