-- ==== Sys2Proof/Machine/Loop.lean ====
section
/-!
DEFINITION. Uncounted loops (R32 to R40, R193 to R197), staged replay (R149 to R151), annulled steps (R125), the delivery of a
posted instruction's trap (R289).
-/

namespace Sys2Proof.Machine

/-! ## The checkpoint of the vector side (R38) -/

/-- Whether a window offset lies in the vector storage or the accumulators that the strand may write. -/
def Thread.vectorSide (t : Thread) (off : Nat) : Bool :=
  decide (t.vbase ≤ off ∧ off < t.vbase + t.shareBytes) || decide (0x80000 ≤ off ∧ off < 0x100000)

/-- Whether an address lies in that part of the stepping strand's core. -/
def State.vectorSide (s : State) (pa : Nat) : Bool :=
  let lo := windowAddr (coreOf s.cur) 0
  decide (lo ≤ pa ∧ pa < lo + 0x100000) && s.thr.vectorSide (pa - lo)

/-- Whether the strand has written a granule of its vector side: the granule carries its generation. -/
def State.ownVector (s : State) (pa : Nat) : Bool := s.vectorSide pa && s.tag pa == s.thr.genAt (pa - windowAddr (coreOf s.cur) 0)

/-- The state with the strand's vector side as a checkpoint has it: every granule that it has written since is put back. -/
def State.restoreVector (s : State) (u : Unresolved) : State :=
  let own := s.ownVector
  { s with
    mem := (u.cells.filter fun c => own c.1).foldl (fun m c => Sparse.put memDefault m c.1 c.2) (s.mem.filter fun c => !own c.1)
    tags := (u.tags.filter fun p => own (64 * p.1)).foldl (fun m p => Sparse.put 0#16 m p.1 p.2)
      (s.tags.filter fun p => !own (64 * p.1))
    poison := s.poison.filter (fun a => !own a) ++ u.bad.filter own }

/-! ## The loop instructions -/

/-- `uloop` (R193). -/
def execUloop (h : BitVec 2) (s : State) : Out :=
  runControl s (whenResolved s fun s => .done .fall (s.mapThr fun t => { t with loop := some { horizon := h, next := 0#32 } }))

/-- A checkpoint with the vector side as it stands once every posted instruction before the `ubrk` has retired (R38): mask registers, user
control registers and storage; the `ubrk`'s mask is then computed too (R33, R194). -/
def Unresolved.taken (u : Unresolved) (s : State) : Unresolved :=
  { u with
    older := 0, hit := (s.maskSetAt u.mask 0).head?
    arch := { u.arch with mask := s.thr.arch.mask, ucr := s.thr.arch.ucr }
    cells := s.mem.filter fun c => s.vectorSide c.1, tags := s.tags.filter fun p => s.vectorSide (64 * p.1)
    bad := s.poison.filter s.vectorSide }

/-- The checkpoint that a `ubrk` takes (R33): the scalar and barrier registers and the triple; the vector side with them, where no posted
instruction is unretired. -/
def State.checkpoint (s : State) (k : KReg) (exit : Word) (strip : BitVec 32) : Unresolved :=
  ({ strip := strip, mask := k, older := 0, hit := none, exit := exit, arch := s.thr.arch, cells := [], tags := [], bad := [] } :
    Unresolved).taken s

/-- `ubrk` (R194): it ends a strip and opens the next. -/
def execUbrk (k : KReg) (off : BitVec 15) (s : State) : Out :=
  runControl s (match s.thr.loop with
    | none => wordTrap Cause.vstate 3#8 (.ubrk k off) s
    | some l =>
      let u := s.checkpoint k (target s.trip.pc off) l.next
      .done .fall (s.mapThr fun t => { t with loop := some { l with next := l.next + 1#32 }, unres := t.unres ++ [u] }))

/-- A held store performed in memory; where it goes to the strand's own vector side, in the checkpoints of younger `ubrk`s too, before which
it stands (R34, R37). -/
def State.performPast (s : State) (h : HeldStore) : State :=
  let off := (h.pa - windowBase) % 0x800000
  let us := if s.vectorSide h.pa && s.owns (coreOf s.cur) off then s.thr.unres.map fun u => u.patched s h.pa h.data (s.thr.genAt off)
    else s.thr.unres
  (s.perform h.way h.pa h.data).mapThr fun t => { t with unres := us }

/-- The held stores that a `ubrk` released are performed in program order (R34). Each instruction's are a write of their own (R374); `last` is the
instruction of the one before. -/
def performHeld (last : Nat) : List HeldStore → State → State
  | [], s => s
  | h :: hs, s =>
    performHeld h.way.inst hs ((if last = h.way.inst ∧ last ≠ 0 then s else { s with wrote := [] }).performPast h)

/-- The oldest `ubrk` resolves without exit (R37): its strip's stores, held behind it alone, are performed. -/
def State.goOn (s : State) (u : Unresolved) (us : List Unresolved) : State :=
  performHeld 0 (s.thr.held.filter fun h => h.strip == u.strip)
    (s.mapThr fun t =>
      { t with unres := us, held := t.held.filter fun h => h.strip != u.strip, defer := t.defer && !us.isEmpty,
               waiting := t.waiting && !us.isEmpty })

/-- The oldest `ubrk` resolves with element `e` set (R37, R38): every younger instruction is annulled, those among them that are posted and
not retired, and the loop closes. A replay that a handler keeps pending is older. -/
def State.exitLoop (s : State) (u : Unresolved) (e : Nat) : State :=
  let s := (s.restoreVector u).mapThr fun t =>
    { t with
      arch := { u.arch with
        trip := Triple.start u.exit
        ucr := { u.arch.ucr with xidx := BitVec.ofNat 16 e, xstrip := u.strip } }
      loop := none, unres := [], held := [], defer := false, deferLog := false, rpt := none, rptResume := none, waiting := false
      replay := if t.replaying then [] else t.replay, replaying := false }
  s.setMask 14#4 fun i => decide (i < e)

/-- The oldest unresolved `ubrk` resolves (R37, R195), once the posted instructions before it have retired. -/
def execUbrkResolve (s : State) : Out :=
  match s.thr.unres with
  | [] => .next s
  | u :: us =>
    if u.older ≠ 0 then .next s
    else match u.hit with
    | none => .next (s.goOn u us)
    | some e => .next (s.exitLoop u e)

/-- The strips that hold stores (R33). -/
def heldStrips (held : List HeldStore) : Nat := (held.map (·.strip)).eraseDups.length

/-- Whether the control thread may issue nothing more before the oldest `ubrk` resolves (R33, R35): the horizon is reached, the
HEB holds four strips, or an instruction waits for it. -/
def Thread.mustResolve (t : Thread) : Bool :=
  !t.unres.isEmpty &&
    (t.defer || decide (4 ≤ heldStrips t.held) ||
      (match t.loop with
       | some l => decide (l.horizon.toNat < t.unres.length)
       | none => true))

/-- Whether a `vbx` is taken (Table 8.7). -/
def vbxTaken (c : BitVec 2) (set n : Nat) : Bool :=
  match c with
  | 0#2 => decide (0 < set)
  | 1#2 => decide (set = 0)
  | 2#2 => decide (set = n)
  | _ => decide (set < n)

/-- `vbx` (R197): it waits for every older `ubrk`. -/
def execVbx (k : KReg) (c : BitVec 2) (n : Bool) (off : BitVec 15) (s : State) : Out :=
  runControl s (whenResolved s fun s =>
    .done (if vbxTaken c (s.maskSetAt k 0).length s.ucr.elems then .taken (target s.trip.pc off) else .notTaken n) s)

/-! ## Containment (R292) -/

/-- The registers that a containment goes back to with an unresolved `ubrk`: all of the checkpoint; while posted instructions before the `ubrk`
are unretired, its scalar and barrier registers and triple alone, as nothing after it has run on the vector side. -/
def Unresolved.resume (u : Unresolved) (a : Arch) : Arch := if u.older = 0 then u.arch else { u.arch with mask := a.mask, ucr := a.ucr }

/-- The stepping strand contained at its boundary (R292): with an unresolved `ubrk` it stands at the oldest one's checkpoint, every younger
effect is undone, and the pending replay keeps the posted instructions before it; else the replay keeps every one that is not retired. -/
def State.contained (s : State) : State :=
  match s.thr.unres with
  | [] => s
  | u :: _ =>
    (if u.older = 0 then s.restoreVector u else s).mapThr fun t =>
      let kept := if t.replaying then t.replay.take u.older else t.replay
      { t with
        arch := u.resume t.arch, unres := [], held := [], defer := false, deferLog := false, rpt := none, rptResume := none
        waiting := false, loop := t.loop.map fun l => { l with next := u.strip }
        replay := kept, replaying := t.replaying && !kept.isEmpty }

/-! ## Staged replay (R149, R150) -/

/-- The majors whose words `rpt` captures. -/
def capturable (w : BitVec 32) : Bool :=
  let m := (w.extractLsb' 26 6).toNat
  decide ((0x1E ≤ m ∧ m ≤ 0x25) ∨ (0x27 ≤ m ∧ m ≤ 0x2B) ∨ m = 0x2C ∨ m = 0x2D ∨ m = 0x2E)

/-- The words that a group captures, in step order from a triple on: it ends at an annulled word, one of another major, or one that
cannot be fetched or decoded. -/
def captureWords : Nat → Triple → State → List (Instr × Word) × State
  | 0, _, s => ([], s)
  | n + 1, t, s =>
    if t.a0 then ([], s)
    else
      match fetchWord t.pc s with
      | .done w s' =>
        if capturable w then
          match decode w with
          | .ok i => ((i, t.pc) :: (captureWords n t.fall s').1, (captureWords n t.fall s').2)
          | .error _ => ([], s)
        else ([], s)
      | _ => ([], s)

/-- A triple after several steps that fall through. -/
def Triple.fallBy : Nat → Triple → Triple
  | 0, t => t
  | n + 1, t => Triple.fallBy n t.fall

/-- The group at the position where it starts: at its first word, or where a return resumes it (R151, R291); none past its end. -/
def RptGroup.startAt (g : RptGroup) (resume : Option (Nat × Nat)) : Option RptGroup :=
  match resume with
  | none => if g.words = [] then none else some g
  | some (pass, word) => if word < g.words.length ∧ pass < g.reps then some { g with pass := pass, word := word } else none

/-- `rpt` (R149): the captured words run next, one a step; the triple stands behind them. -/
def execRpt (cnt : BitVec 4) (reps : BitVec 6) (sd sa sb : BitVec 4) (s : State) : Out :=
  let t := s.trip
  let (ws, s') := captureWords (cnt.toNat + 1) t.fall s
  let g : RptGroup := { start := t, words := ws, reps := reps.toNat + 1, sd := sd.toNat, sa := sa.toNat, sb := sb.toNat,
                        pass := 0, word := 0 }
  runControl s (.done .stay ((s'.setTrip (Triple.fallBy (ws.length + 1) t)).mapThr fun th =>
    { th with rpt := g.startAt th.rptResume, rptResume := none }))

/-- The register fields of format V replaced; a second source is replaced where s = 0 (R150). -/
def stepV (f : VArgs) (d a b : VReg → VReg) : VArgs :=
  { f with vd := d f.vd, va := a f.va, vb := if f.s then f.vb else b f.vb }

/-- The register fields of a one-source instruction replaced. -/
def stepV1 (f : V1Args) (d a : VReg → VReg) : V1Args := { f with vd := d f.vd, va := a f.va }

/-- A captured instruction with its register fields replaced (R150); none for one that no group captures. -/
def stepFields (d a b : VReg → VReg) : Instr → Option Instr
  | .vadd f => some (.vadd (stepV f d a b))
  | .vsub f => some (.vsub (stepV f d a b))
  | .vrsub f => some (.vrsub (stepV f d a b))
  | .vmul f => some (.vmul (stepV f d a b))
  | .vmulh f => some (.vmulh (stepV f d a b))
  | .vmulhu f => some (.vmulhu (stepV f d a b))
  | .vdiv f => some (.vdiv (stepV f d a b))
  | .vdivu f => some (.vdivu (stepV f d a b))
  | .vrem f => some (.vrem (stepV f d a b))
  | .vremu f => some (.vremu (stepV f d a b))
  | .vmin f => some (.vmin (stepV f d a b))
  | .vmax f => some (.vmax (stepV f d a b))
  | .vminu f => some (.vminu (stepV f d a b))
  | .vmaxu f => some (.vmaxu (stepV f d a b))
  | .vand f => some (.vand (stepV f d a b))
  | .vor f => some (.vor (stepV f d a b))
  | .vxor f => some (.vxor (stepV f d a b))
  | .vandn f => some (.vandn (stepV f d a b))
  | .vsll f => some (.vsll (stepV f d a b))
  | .vsrl f => some (.vsrl (stepV f d a b))
  | .vsra f => some (.vsra (stepV f d a b))
  | .vsadd f => some (.vsadd (stepV f d a b))
  | .vssub f => some (.vssub (stepV f d a b))
  | .vsaddu f => some (.vsaddu (stepV f d a b))
  | .vssubu f => some (.vssubu (stepV f d a b))
  | .vmerge f => some (.vmerge (stepV f d a b))
  | .vmacc f => some (.vmacc (stepV f d a b))
  | .vnmsac f => some (.vnmsac (stepV f d a b))
  | .vabsd f => some (.vabsd (stepV f d a b))
  | .vmulq f => some (.vmulq (stepV f d a b))
  | .vfadd f => some (.vfadd (stepV f d a b))
  | .vfsub f => some (.vfsub (stepV f d a b))
  | .vfmul f => some (.vfmul (stepV f d a b))
  | .vfdiv f => some (.vfdiv (stepV f d a b))
  | .vfma f => some (.vfma (stepV f d a b))
  | .vfms f => some (.vfms (stepV f d a b))
  | .vfnma f => some (.vfnma (stepV f d a b))
  | .vfmin f => some (.vfmin (stepV f d a b))
  | .vfmax f => some (.vfmax (stepV f d a b))
  | .vfsgnj f => some (.vfsgnj (stepV f d a b))
  | .vfsgnjn f => some (.vfsgnjn (stepV f d a b))
  | .vfsgnjx f => some (.vfsgnjx (stepV f d a b))
  | .vredsum f => some (.vredsum (stepV f d a b))
  | .vredmax f => some (.vredmax (stepV f d a b))
  | .vredmin f => some (.vredmin (stepV f d a b))
  | .vredor f => some (.vredor (stepV f d a b))
  | .vfredsum f => some (.vfredsum (stepV f d a b))
  | .vfredmax f => some (.vfredmax (stepV f d a b))
  | .vfredmin f => some (.vfredmin (stepV f d a b))
  | .vredand f => some (.vredand (stepV f d a b))
  | .vclz f => some (.vclz (stepV1 f d a))
  | .vpopc f => some (.vpopc (stepV1 f d a))
  | .vfsqrt f => some (.vfsqrt (stepV1 f d a))
  | .vfrcp f => some (.vfrcp (stepV1 f d a))
  | .vfrsq f => some (.vfrsq (stepV1 f d a))
  | .vfexp2 f => some (.vfexp2 (stepV1 f d a))
  | .vflog2 f => some (.vflog2 (stepV1 f d a))
  | .vfsigm f => some (.vfsigm (stepV1 f d a))
  | .vftanh f => some (.vftanh (stepV1 f d a))
  | .vfcls f => some (.vfcls (stepV1 f d a))
  | .vcvt vd va rm sat km dst src => some (.vcvt (d vd) (a va) rm sat km dst src)
  | _ => none

/-- A field in pass `j` (R150): the base itself in pass 0, where a number at or above the count traps (R47). -/
def stepField (rc j step : Nat) (r : VReg) : VReg := if j = 0 then r else BitVec.ofNat 6 ((r.toNat + j * step) % rc)

/-- The instruction that the running group runs next. -/
def RptGroup.current (g : RptGroup) (rc : Nat) : Option Instr :=
  (g.words[g.word]?).bind fun w =>
    stepFields (stepField rc g.pass g.sd) (stepField rc g.pass g.sa) (stepField rc g.pass g.sb) w.1

/-! ## Steps without an instruction -/

/-- An annulled step (R125): the word at PC is not run, only the triple moves. -/
def execAnnulledStep (s : State) : Out :=
  .next (s.mapThr fun t => { t with arch := { t.arch with trip := t.arch.trip.fall }, rptResume := none })

/-- The pending trap of a posted instruction is delivered (R289), the strand contained (R292): the frame holds the triple at which it resumes,
inside a group the `rpt` word and the position (R151). -/
def execPostedTrapDelivery (s : State) : Out :=
  match s.thr.ptrap with
  | none => .next s
  | some p => .next (s.contained.deliverHere ⟨p.cause, p.detail, p.value⟩ p.entry.addr)

end Sys2Proof.Machine
end

