-- ==== Sys2Proof/Machine/Names.lean ====
section
/-!
DEFINITION. Names, tensor entries and operand records: the tables in memory (R353 to R359, Tables 3.8 and 3.9), resolution (R354 to
R357), the instructions of 09 sections 9.2 and 9.3, and the vector instructions of section 9.4.
-/

namespace Sys2Proof.Machine

/-! ## Tables in physical memory -/

/-- A doubleword of a table. -/
def State.word (s : State) (pa : Nat) : Word := BitVec.ofNat 64 (numOf (s.bytes pa 8))

/-- The state with a doubleword of a table replaced. -/
def State.setWord (s : State) (pa : Nat) (x : Word) : State := s.writeBytes pa (bytesOf 8 x.toNat)

/-- Doublewords written one after another. -/
def State.setWords (s : State) (pa : Nat) : List Word → State
  | [] => s
  | x :: xs => (s.setWord pa x).setWords (pa + 8) xs

/-- A list without neighbours that are equal. -/
def dedup : List Nat → List Nat
  | a :: b :: rest => if a = b then dedup (b :: rest) else a :: dedup (b :: rest)
  | l => l

/-- The units of a table that hold a byte other than zero, ascending: every other unit reads as zeros (log entry 3). -/
def State.touched (s : State) (base size unit : Nat) : List Nat :=
  dedup ((s.mem.filter fun c => decide (base ≤ c.1 ∧ c.1 < base + size)).map fun c => (c.1 - base) / unit)

/-- A frame as a byte address. -/
def frameAddr {n : Nat} (f : BitVec n) : Nat := f.toNat * 4096

/-! ## The name table (R353, R354) -/

/-- The address of an entry of the name table (Table 20.5). -/
def State.ntAddr (s : State) (i : Nat) : Nat := frameAddr s.mod.ntBase + 32 * i

/-- STATE of a name table entry. -/
def State.ntState (s : State) (i : Nat) : Nat := ((s.word (s.ntAddr i + 24)).extractLsb' 30 2).toNat
/-- VERSION of a name table entry. -/
def State.ntVersion (s : State) (i : Nat) : BitVec 32 := (s.word (s.ntAddr i + 24)).extractLsb' 32 32
/-- The owner of a name table entry. -/
def State.ntOwner (s : State) (i : Nat) : BitVec 12 := (s.word (s.ntAddr i + 24)).extractLsb' 16 12
/-- LOC of a name table entry. -/
def State.ntLoc (s : State) (i : Nat) : Word := (s.word (s.ntAddr i + 8)) &&& 0x00FFFFFFFFFFFFFF#64
/-- SIZE of a name table entry. -/
def State.ntSize (s : State) (i : Nat) : Nat := ((s.word (s.ntAddr i + 16)).extractLsb' 24 40).toNat
/-- GRANT of a name table entry. -/
def State.ntGrant (s : State) (i : Nat) : Nat := ((s.word (s.ntAddr i + 16)).extractLsb' 0 24).toNat

/-- The last word of an entry: VERSION, STATE, ASID. -/
def ntLast (version : BitVec 32) (state : BitVec 2) (owner : BitVec 12) : Word := version ++ state ++ 0#2 ++ owner ++ 0#16

/-- The home slot of a name (R354). -/
def nameHome (x : Word) (logn : Nat) : Nat := (x * 0x9B5C3E71D04A86F3#64).toNat / 2 ^ (64 - logn)

/-- The slots that a lookup probes. -/
def State.probes (s : State) (x : Word) : List Nat :=
  (List.range 64).map fun i => (nameHome x s.mod.ntLogn.toNat + i) % 2 ^ s.mod.ntLogn.toNat

/-- A lookup along its probes: it ends at the entry of the name that is no tombstone, or at an empty entry. -/
def State.lookupIn (s : State) (x : Word) : List Nat → Option Nat
  | [] => none
  | i :: is =>
    if s.ntState i = 0 then none
    else if s.word (s.ntAddr i) = x ∧ s.ntState i ≠ 3 then some i
    else s.lookupIn x is

/-- The entry of a name (R354). -/
def State.lookup (s : State) (x : Word) : Option Nat := s.lookupIn x (s.probes x)

/-- The class of a name (R351). -/
def nameClass (x : Word) : Nat := (x.extractLsb' 60 4).toNat
/-- The serial of a name. -/
def nameSerial (x : Word) : BitVec 60 := x.extractLsb' 0 60

/-! ## Grants (R356) -/

/-- The address of a grant block. -/
def State.grantAddr (s : State) (i : Nat) : Nat := frameAddr s.mod.gntBase + 64 * i

/-- A grant of a block: V and the ASID. -/
def State.grant (s : State) (b i : Nat) : BitVec 16 := BitVec.ofNat 16 (numOf (s.bytes (s.grantAddr b + 2 * i) 2))

/-- The block after a block; 0 ends the list. -/
def State.nextGrant (s : State) (b : Nat) : Nat := numOf (s.bytes (s.grantAddr b + 60) 3)

/-- The blocks of a grant list, at most `fuel`. -/
def State.grantBlocks (s : State) : Nat → Nat → List Nat
  | 0, _ => []
  | fuel + 1, b => if b = 0 then [] else b :: s.grantBlocks fuel (s.nextGrant b)

/-- Whether a grant names a context. -/
def grantsTo (g : BitVec 16) (asid : BitVec 12) : Bool := g.getLsbD 15 && g.extractLsb' 0 12 == asid

/-- Whether a context holds a grant for the name of an entry. -/
def State.granted (s : State) (i : Nat) (asid : BitVec 12) : Bool :=
  s.ntOwner i == asid ||
    (s.grantBlocks 0x1000000 (s.ntGrant i)).any fun b => (List.range 30).any fun j => grantsTo (s.grant b j) asid

/-! ## Resolution (R219, R355, R357, R401) -/

/-- The outcome of a resolution: NSTAT's code, and for a live granted name its location, size and version. -/
structure Resolved where
  st      : BitVec 2
  loc     : Word
  size    : Nat
  version : BitVec 32
  deriving DecidableEq, Repr

/-- An outcome that is not live. -/
def Resolved.none (st : BitVec 2) : Resolved := { st := st, loc := 0#64, size := 0, version := 0#32 }

/-- What the tables give for a name and a context. -/
def State.resolveTable (s : State) (asid : BitVec 12) (x : Word) : Resolved :=
  if !s.mod.ntEn || decide (nameClass x = 0 ∨ 7 ≤ nameClass x) then .none Nstat.unknown
  else
    match s.lookup x with
    | some i =>
      if s.ntState i ≠ 1 then .none Nstat.gone
      else if s.granted i asid then ⟨Nstat.live, s.ntLoc i, s.ntSize i, s.ntVersion i⟩
      else .none Nstat.denied
    | none => .none (if (nameSerial x).ult s.mod.nserial then Nstat.gone else Nstat.unknown)

/-- What a cached result says (R357). -/
def NameEntry.result (e : NameEntry) : Resolved :=
  if e.granted then ⟨Nstat.live, e.loc, e.size, e.version⟩ else .none Nstat.denied

/-- A cluster's cached results with room for one more: it holds up to 256, and the device chooses which one it gives up (R357). -/
def roomForName (free cluster : Nat) (es : List NameEntry) : List NameEntry :=
  let mine := es.filter fun e => e.cluster == cluster
  if mine.length < 256 then es
  else match mine[Config.nameVictim free % mine.length]? with
    | some v => es.filter fun e => e ≠ v
    | none => es

/-- The state with a result of a live name in a cluster's cache; GONE and UNKNOWN are never cached. -/
def State.noteName (s : State) (cluster : Nat) (asid : BitVec 12) (x : Word) (r : Resolved) : State :=
  if r.st = Nstat.live ∨ r.st = Nstat.denied then
    { s with nameCache :=
        { cluster := cluster, asid := asid, name := x, loc := r.loc, size := r.size, version := r.version,
          granted := r.st == Nstat.live } ::
        roomForName s.free cluster (s.nameCache.filter fun e => !(e.cluster == cluster && e.asid == asid && e.name == x)) }
  else s

/-- A name resolved in a cluster for a context: what the tables give, or a cached result that differs, as the device chooses
(R356, R357). -/
def State.resolve (s : State) (cluster : Nat) (asid : BitVec 12) (x : Word) : Resolved × State :=
  let r := s.resolveTable asid x
  match s.nameCache.find? fun e => e.cluster == cluster && e.asid == asid && e.name == x with
  | some e =>
    if s.mod.ntEn && decide (e.result ≠ r) then
      if Config.useCachedName s.free then (e.result, s.tick) else (r, s.tick.noteName cluster asid x r)
    else (r, s.noteName cluster asid x r)
  | none => (r, s.noteName cluster asid x r)

/-- A resolution that accepts one class (R401): a name of another class is UNKNOWN, and no cache is changed. -/
def State.resolveClass (s : State) (cluster : Nat) (asid : BitVec 12) (cls : Nat) (x : Word) : Resolved × State :=
  if nameClass x = cls then s.resolve cluster asid x else (.none Nstat.unknown, s)

/-- A resolution by the stepping strand. -/
def State.resolveHere (s : State) (cls : Nat) (x : Word) : Resolved × State := s.resolveClass s.cluster s.thr.asid cls x

/-! ## Poison in the tables (R375) -/

/-- The entries that a lookup reads along its probes. -/
def State.probed (s : State) (x : Word) : List Nat → List Nat
  | [] => []
  | i :: is => if s.ntState i = 0 ∨ (s.word (s.ntAddr i) = x ∧ s.ntState i ≠ 3) then [i] else i :: s.probed x is

/-- The table bytes that a resolution reads: name entries, and the grants of a name that another context owns. -/
def State.resolveReads (s : State) (asid : BitVec 12) (x : Word) : List (Nat × Nat) :=
  (s.probed x (s.probes x)).map (fun i => (s.ntAddr i, 32)) ++
    match s.lookup x with
    | some i => if s.ntOwner i = asid then [] else (s.grantBlocks 0x1000000 (s.ntGrant i)).map fun b => (s.grantAddr b, 64)
    | none => []

/-- Table bytes that an instruction uses: poison among them is consumed (Table 22.2). -/
def tableOk (pa n : Nat) (s : State) : Res Unit := if s.poisoned pa n then consume pa (BitVec.ofNat 64 pa) s else .done () s

/-- The tables behind a name that an instruction resolves or changes, where no cached result stands for them; a name of class 0 or of 7 and
up stands in none (R351). -/
def nameTablesOk (x : Word) (s : State) : Res Unit :=
  if s.poison = [] ∨ s.mod.ntEn = false ∨ nameClass x = 0 ∨ 7 ≤ nameClass x ∨
      (s.nameCache.any fun e => e.cluster == s.cluster && e.asid == s.thr.asid && e.name == x) then .done () s
  else
    match (s.resolveReads s.thr.asid x).find? fun p => s.poisoned p.1 p.2 with
    | some p => consume p.1 (BitVec.ofNat 64 p.1) s
    | none => .done () s

/-- The same for an instruction that accepts one class: a name of another is resolved in no table (R401). -/
def classTablesOk (cls : Nat) (x : Word) (s : State) : Res Unit := if nameClass x = cls then nameTablesOk x s else .done () s

/-! ## Contexts (R359) -/

/-- The address of a context descriptor (Table 20.6). -/
def State.ctxAddr (s : State) (asid : BitVec 12) : Nat := frameAddr s.mod.ctxTab + 64 * asid.toNat
/-- STATE of a context. -/
def State.ctxState (s : State) (asid : BitVec 12) : Nat := ((s.word (s.ctxAddr asid)).extractLsb' 0 2).toNat
/-- FUNC of a context. -/
def State.ctxFunc (s : State) (asid : BitVec 12) : BitVec 8 := (s.word (s.ctxAddr asid + 16)).extractLsb' 0 8
/-- The state with a context's STATE replaced. -/
def State.setCtxState (s : State) (asid : BitVec 12) (x : BitVec 2) : State :=
  s.setWord (s.ctxAddr asid) ((s.word (s.ctxAddr asid) &&& ~~~3#64) ||| x.setWidth 64)
/-- The address of a tensor entry of a context. -/
def State.tensorAddr (s : State) (asid : BitVec 12) (t : Nat) : Nat :=
  ((s.word (s.ctxAddr asid)).extractLsb' 16 36).toNat * 65536 + 64 * t
/-- The address of an operand record of a context. -/
def State.recordAddr (s : State) (asid : BitVec 12) (n : Nat) : Nat :=
  ((s.word (s.ctxAddr asid + 8)).extractLsb' 15 37).toNat * 32768 + 32 * n

/-! ## Tensor entries (Table 3.8) and operand records (Table 3.9) -/

/-- A tensor image or entry as its eight doublewords. -/
abbrev Tensor := Vector Word 8

/-- Doublewords of a table as a vector. -/
def State.wordsAt (s : State) (pa : Nat) (n : Nat) : Vector Word n := Vector.ofFn fun i => s.word (pa + 8 * i.val)

/-- A tensor entry of a context. -/
def State.tensor (s : State) (asid : BitVec 12) (t : Nat) : Tensor := s.wordsAt (s.tensorAddr asid t) 8

def Tensor.fmt (t : Tensor) : BitVec 4 := (t.get 0).extractLsb' 0 4
def Tensor.planes (t : Tensor) : Nat := ((t.get 0).extractLsb' 4 4).toNat
def Tensor.mid (t : Tensor) : Bool := (t.get 0).getLsbD 8
def Tensor.state (t : Tensor) : BitVec 2 := (t.get 0).extractLsb' 11 2
def Tensor.sb (t : Tensor) : BitVec 32 := (t.get 0).extractLsb' 32 32
def Tensor.base (t : Tensor) : Word := t.get 1 &&& 0x00FFFFFFFFFFFFFF#64
def Tensor.name (t : Tensor) : Word := t.get 2
def Tensor.version (t : Tensor) : BitVec 32 := (t.get 3).extractLsb' 0 32
def Tensor.stride1 (t : Tensor) : Nat := ((t.get 3).extractLsb' 32 32).toNat
def Tensor.dim0 (t : Tensor) : Nat := ((t.get 4).extractLsb' 0 32).toNat
def Tensor.dim1 (t : Tensor) : Nat := ((t.get 4).extractLsb' 32 32).toNat
/-- A live entry (R84). -/
def Tensor.live (t : Tensor) : Bool := t.state == 1#2

/-- Whether a tensor image is valid (R213, R83). -/
def Tensor.valid (t : Tensor) : Bool :=
  let planar := t.fmt == 14#4
  t.fmt != 11#4 && t.fmt != 15#4 &&
  (if planar then decide (2 ≤ t.planes ∧ t.planes ≤ 8) && decide ((t.dim0 + 255) / 256 * 288 ≤ t.stride1 * 32)
   else decide (t.planes = 0)) &&
  decide (t.dim0 ≠ 0) && decide (t.dim1 ≠ 0) && decide (t.base.toNat % 32 = 0)

/-- The entry that a bind writes (R213): the image with STATE, ASID and VERSION; zero fields are ignored (R6). -/
def Tensor.bound (t : Tensor) (asid : BitVec 12) (version : BitVec 32) : List Word :=
  [((t.get 0 &&& 0xFFFFFFFF000007FF#64) ||| 0x800#64) ||| (asid.setWidth 64 <<< 16), t.base, t.name,
   (t.get 3 &&& 0xFFFFFFFF00000000#64) ||| version.setWidth 64, t.get 4, t.get 5, t.get 6, 0#64]

/-- The state with a tensor entry's STATE replaced. -/
def State.setTensorState (s : State) (asid : BitVec 12) (t : Nat) (x : BitVec 2) : State :=
  let pa := s.tensorAddr asid t
  s.setWord pa ((s.word pa &&& ~~~0x1800#64) ||| (x.setWidth 64 <<< 11))

/-- An operand record as its four doublewords. -/
abbrev Record := Vector Word 4

/-- An operand record of a context. -/
def State.record (s : State) (asid : BitVec 12) (n : Nat) : Record := s.wordsAt (s.recordAddr asid n) 4

def Record.name (r : Record) : Word := r.get 0
def Record.tid (r : Record) : Nat := ((r.get 1).extractLsb' 0 10).toNat
def Record.asid (r : Record) : BitVec 12 := (r.get 1).extractLsb' 16 12
def Record.state (r : Record) : BitVec 2 := (r.get 1).extractLsb' 28 2
def Record.rowBase (r : Record) : Nat := ((r.get 2).extractLsb' 0 32).toNat
def Record.rowCount (r : Record) : Nat := ((r.get 2).extractLsb' 32 32).toNat

/-- The state with an operand record's STATE replaced. -/
def State.setRecordState (s : State) (asid : BitVec 12) (n : Nat) (x : BitVec 2) : State :=
  let pa := s.recordAddr asid n + 8
  s.setWord pa ((s.word pa &&& ~~~0x30000000#64) ||| (x.setWidth 64 <<< 28))

/-! ## Shootdown (R220, R357, R358) -/

/-- Tensor entries of a context that are bound to a name marked gone. -/
def State.markTensors (s : State) (asid : BitVec 12) (x : Word) : State :=
  (s.touched (s.tensorAddr asid 0) 65536 64).foldl (fun s t =>
    let e := s.tensor asid t
    if e.live && e.name == x then s.setTensorState asid t 2#2 else s) s

/-- Operand records of a context that are bound to a name marked gone. -/
def State.markRecords (s : State) (asid : BitVec 12) (x : Word) : State :=
  (s.touched (s.recordAddr asid 0) 32768 32).foldl (fun s n =>
    let r := s.record asid n
    if r.state == 1#2 && r.name == x then s.setRecordState asid n 2#2 else s) s

/-- Every cached result of a name dropped, in every cluster. -/
def State.dropName (s : State) (x : Word) : State := { s with nameCache := s.nameCache.filter fun e => e.name ≠ x }

/-- The contexts that have a descriptor. -/
def State.contexts (s : State) : List (BitVec 12) :=
  (s.touched (frameAddr s.mod.ctxTab) 262144 64).map fun a => BitVec.ofNat 12 a

/-- A name shot down (R220): caches, and every entry and record bound to it in every context. -/
def State.shootdown (s : State) (x : Word) : State :=
  s.contexts.foldl (fun s a => (s.markTensors a x).markRecords a x) (s.dropName x)

/-! ## Blocks that an instruction reads -/

/-- Doublewords read by a strand on path S, one after another. -/
def loadWords (va : Word) : Nat → State → Res (List Word)
  | 0, s => .done [] s
  | n + 1, s =>
    (load .scalar va 8 s).andThen fun bs s =>
      (loadWords (va + 8#64) n s).andThen fun ws s => .done (BitVec.ofNat 64 (numOf bs) :: ws) s

/-- The doublewords of bytes. -/
def wordsOf : Nat → List Byte → List Word
  | 0, _ => []
  | n + 1, bs => BitVec.ofNat 64 (numOf (bs.take 8)) :: wordsOf n (bs.drop 8)

/-- An aligned block read: a block that its alignment keeps in one granule is one access (R5, R213, R216); another is read by doublewords
(R218, R221, R260). -/
def loadBlock (va : Word) (align n : Nat) (s : State) : Res (List Word) :=
  (aligned va align .load s).andThen fun _ s =>
    if 8 * n ≤ align ∧ align ≤ 64 then (load .scalar va (8 * n) s).andThen fun bs s => .done (wordsOf n bs) s
    else loadWords va n s

/-- Doublewords as a vector; zeros past the list's end. -/
def toWords (n : Nat) (ws : List Word) : Vector Word n := Vector.ofFn fun i => ws.getD i.val 0#64

/-! ## Name instructions (R218 to R221) -/

/-- The slot in which a new name is inserted (R354). -/
def State.insertSlot (s : State) (x : Word) : Option Nat := (s.probes x).find? fun i => s.ntState i == 0 || s.ntState i == 3

/-- A new name of a class with its entry (R218): the next serial is consumed. -/
def State.issueName (s : State) (x : Word) (i : Nat) (loc size : Word) : State :=
  let s := s.setWords (s.ntAddr i) [x, loc &&& 0x00FFFFFFFFFFFFFF#64, size <<< 24, ntLast 1#32 1#2 s.thr.asid]
  s.mapMod fun m => { m with nserial := m.nserial + 1#60 }

/-- `nnew` past its checks (R218, R352): it waits while a serial block is reserved. With no name table (NTCFG.EN = 0) NSTAT is 2 as the
spec says, and rd is 0 as for a full table (DESIGN CHOICE, log entry 22). -/
def newName (rd : SReg) (cls : BitVec 4) (loc size : Word) (s : State) : Res Ctl :=
  let full := (s.setReg rd 0#64).setNstat Nstat.denied
  if !s.mod.ntEn then .done .fall full
  else if s.mod.nserial = s.mod.nblkEnd then
    if s.mod.flashBlock = 0xFFFFFF#24 then .done .fall full
    else .wait (if s.due.contains .serialBlockReserve then s else s.push .serialBlockReserve)
  else
    let x : Word := cls ++ s.mod.nserial
    (nameTablesOk x s).andThen fun _ s =>
      match s.insertSlot x with
      | none => .done .fall full
      | some i => .done .fall (((s.issueName x i loc size).setReg rd x).setNstat Nstat.live)

/-- `nnew` (R218). -/
def execNnew (rd ra : SReg) (s : State) : Out :=
  runControl s (whenResolved s fun s => (readReg ra s).andThen fun a s => (loadBlock a 8 3 s).andThen fun ws s =>
    let c := ws.getD 2 0#64
    if c.extractLsb' 0 4 = 4#4 ∧ s.thr.level = false then wordTrap Cause.priv 0#8 (.nnew rd ra) s
    else if c.toNat = 0 ∨ 7 ≤ c.toNat then wordTrap Cause.shape 0#8 (.nnew rd ra) s
    else newName rd (c.extractLsb' 0 4) (ws.getD 0 0#64) (ws.getD 1 0#64) s)

/-- `nres` (R219). -/
def execNres (rd ra : SReg) (s : State) : Out :=
  runControl s (whenResolved s fun s => (readReg ra s).andThen fun x s => (nameTablesOk x s).andThen fun _ s =>
    let (r, s) := s.resolve s.cluster s.thr.asid x
    .done .fall ((s.setNstat r.st).setReg rd r.loc))

/-- What `nkill` and `ncas` find (R220): the entry of a live name that the context owns, or NSTAT's code. -/
def State.ownedName (s : State) (x : Word) : Nat ⊕ BitVec 2 :=
  if !s.mod.ntEn || decide (nameClass x = 0 ∨ 7 ≤ nameClass x) then .inr Nstat.unknown
  else
    match s.lookup x with
    | some i =>
      if s.ntState i ≠ 1 then .inr Nstat.gone
      else if s.ntOwner i = s.thr.asid then .inl i
      else .inr Nstat.denied
    | none => .inr (if (nameSerial x).ult s.mod.nserial then Nstat.gone else Nstat.unknown)

/-- An entry marked dead, and its name shot down. -/
def State.killEntry (s : State) (i : Nat) (x : Word) : State :=
  (s.setWord (s.ntAddr i + 24) (ntLast (s.ntVersion i) 2#2 (s.ntOwner i))).shootdown x

/-- `nkill` (R220): it completes in one step, every cluster's acknowledgement included (log entry 5). -/
def execNkill (ra : SReg) (s : State) : Out :=
  runControl s (whenResolved s fun s => (readReg ra s).andThen fun x s => (nameTablesOk x s).andThen fun _ s =>
    match s.ownedName x with
    | .inl i => .done .fall ((s.killEntry i x).setNstat Nstat.live)
    | .inr st => .done .fall (s.setNstat st))

/-- `ncas` (R221). -/
def execNcas (rd ra rb : SReg) (s : State) : Out :=
  runControl s (whenResolved s fun s => (readReg ra s).andThen fun x s => (readReg rb s).andThen fun b s =>
    (loadBlock b 8 2 s).andThen fun ws s =>
      let e := ws.getD 1 0#64
      if e.extractLsb' 32 32 ≠ 0#32 then wordTrap Cause.shape 0#8 (.ncas rd ra rb) s
      else (nameTablesOk x s).andThen fun _ s =>
        match s.ownedName x with
        | .inr st => .done .fall ((s.setNstat st).setReg rd 0#64)
        | .inl i =>
          let v := s.ntVersion i
          if v = e.extractLsb' 0 32 then
            let s := s.setWord (s.ntAddr i + 8) (ws.getD 0 0#64 &&& 0x00FFFFFFFFFFFFFF#64)
            let s := (s.setWord (s.ntAddr i + 24) (ntLast (v + 1#32) 1#2 (s.ntOwner i))).shootdown x
            .done .fall ((s.setNstat Nstat.live).setReg rd ((v + 1#32).setWidth 64))
          else .done .fall ((s.setNstat Nstat.live).setReg rd (v.setWidth 64)))

/-! ## Tensor and record instructions (R212 to R217) -/

/-- A TID or record index of 1,024 or more traps SHAPE. -/
def tableIndex (i : Instr) (x : Word) (s : State) : Res Nat :=
  if x.toNat < 1024 then .done x.toNat s else wordTrap Cause.shape 0#8 i s

/-- A tensor image bound for a context once its name is resolved (R213): the result that `tbind` writes to rd; nothing changes unless
it is 0. -/
def State.bindTensor (s : State) (r : Resolved) (asid : BitVec 12) (t : Nat) (img : Tensor) : Nat × State :=
  if r.st ≠ Nstat.live then (r.st.toNat, s)
  else if !img.valid then (4, s)
  else (0, s.setWords (s.tensorAddr asid t) (img.bound asid r.version))

/-- `tbind` (R213): stale registers are checked before SHAPE, as R135 has every scalar instruction check its sources first (log entry 22).
Every earlier matrix instruction has retired by then, but for those of a replay that a handler keeps pending, which it does not wait for (R212;
DESIGN CHOICE, log entry 10). -/
def execTbind (rd ra rb : SReg) (s : State) : Out :=
  runControl s (whenResolved s fun s => (readReg ra s).andThen fun a s => (readReg rb s).andThen fun t s =>
    (tableIndex (.tbind rd ra rb) t s).andThen fun t s => (loadBlock a 64 8 s).andThen fun ws s =>
      let img : Tensor := toWords 8 ws
      (classTablesOk 1 img.name s).andThen fun _ s =>
      let (x, s) := s.resolveHere 1 img.name
      let (r, s) := s.bindTensor x s.thr.asid t img
      .done .fall ((s.setNstat (if r = 4 then 0#2 else BitVec.ofNat 2 r)).setReg rd (BitVec.ofNat 64 r)))

/-- `tunbind` (R214). A replay that a handler keeps pending does not hold it up (R212; DESIGN CHOICE, log entry 10). -/
def execTunbind (ra : SReg) (s : State) : Out :=
  runControl s (whenResolved s fun s => (readReg ra s).andThen fun t s => (tableIndex (.tunbind ra) t s).andThen fun t s =>
    .done .fall (s.setTensorState s.thr.asid t 0#2))

/-- What `tq` reports of an entry (R215). -/
def Tensor.query (t : Tensor) : Word := t.version ++ 0#19 ++ (t.get 0).extractLsb' 0 13

/-- `tq` (R215). -/
def execTq (rd ra : SReg) (s : State) : Out :=
  runControl s (whenResolved s fun s => (readReg ra s).andThen fun t s => (tableIndex (.tq rd ra) t s).andThen fun t s =>
    (tableOk (s.tensorAddr s.thr.asid t) 64 s).andThen fun _ s => .done .fall (s.setReg rd (s.tensor s.thr.asid t).query))

/-- The record that `orset` writes: the image with STATE and ASID; its zero fields are ignored (R6, R216). -/
def Record.written (r : Record) (asid : BitVec 12) (state : BitVec 2) : List Word :=
  [r.name, (state.setWidth 64 <<< 28) ||| (asid.setWidth 64 <<< 16) ||| (r.get 1 &&& 0x3FF#64), r.get 2, 0#64]

/-- `orset` (R216). A replay that a handler keeps pending does not hold it up (R212; DESIGN CHOICE, log entry 10). -/
def execOrset (ra rb : SReg) (s : State) : Out :=
  let i := Instr.orset ra rb
  runControl s (whenResolved s fun s => (readReg ra s).andThen fun n s => (readReg rb s).andThen fun b s =>
    (tableIndex i n s).andThen fun n s => (loadBlock b 32 4 s).andThen fun ws s =>
      let img : Record := toWords 4 ws
      if 1024 ≤ ((img.get 1).extractLsb' 0 16).toNat then wordTrap Cause.shape 0#8 i s
      else
        (tableOk (s.tensorAddr s.thr.asid img.tid) 64 s).andThen fun _ s => (classTablesOk 2 img.name s).andThen fun _ s =>
        let t := s.tensor s.thr.asid img.tid
        if t.live && decide (t.dim1 < img.rowBase + img.rowCount) then wordTrap Cause.shape 0#8 i s
        else
          let (r, s) := s.resolveHere 2 img.name
          let (state, st) : BitVec 2 × BitVec 2 :=
            if r.st = Nstat.live then (if t.live then (1#2, 0#2) else (2#2, 1#2)) else (2#2, r.st)
          .done .fall ((s.setWords (s.recordAddr s.thr.asid n) (img.written s.thr.asid state)).setNstat st))

/-- `orclr` (R217). A replay that a handler keeps pending does not hold it up (R212; DESIGN CHOICE, log entry 10). -/
def execOrclr (ra : SReg) (s : State) : Out :=
  runControl s (whenResolved s fun s => (readReg ra s).andThen fun n s => (tableIndex (.orclr ra) n s).andThen fun n s =>
    .done .fall (s.setRecordState s.thr.asid n 0#2))

/-! ## Attention and sampling (R224 to R226) -/

/-- An element at F32 with its flags added to what came before. -/
abbrev Acc := Nat × Flags

/-- A factor of a merge (R224): 0 for a maximum of -infinity, else 2^(m - mm), both roundings RNE. -/
def mergeFactor (m mm : Nat) : Acc :=
  if FFmt.f32.decode m = .inf true then (0, 0#5)
  else
    let d := FFmt.f32.sub .rne m mm
    let p := FFmt.f32.exp2 .rne d.bits
    (p.bits, d.flags ||| p.flags)

/-- x * f1 + y * f2, each operation rounded RNE (R224). -/
def mergeSum (x f1 y f2 : Nat) : Acc :=
  let a := FFmt.f32.mul .rne x f1
  let b := FFmt.f32.mul .rne y f2
  let c := FFmt.f32.add .rne a.bits b.bits
  (c.bits, a.flags ||| b.flags ||| c.flags)

/-- One row's sums: each pair of o merged. -/
def mergeRow (f1 f2 : Nat) : List (Nat × Nat) → List Nat × Flags
  | [] => ([], 0#5)
  | (x, y) :: rest =>
    let r := mergeSum x f1 y f2
    let (xs, fl) := mergeRow f1 f2 rest
    (r.1 :: xs, r.2 ||| fl)

/-- The columns of a row of a register read. -/
def readRow (v : VReg) (first : Nat) : Nat → State → Res (List Nat)
  | 0, s => .done [] s
  | n + 1, s => (rdElem v first s).andThen fun x s => (readRow v (first + 1) n s).andThen fun xs s => .done (x :: xs) s

/-- The columns of a row that a merge reads after column 0, in ascending order: va's element, then vd's (R166). -/
def readPairs (vd va : VReg) (first : Nat) : Nat → State → Res (List (Nat × Nat))
  | 0, s => .done [] s
  | n + 1, s => (rdElem va first s).andThen fun y s => (rdElem vd first s).andThen fun x s =>
    (readPairs vd va (first + 1) n s).andThen fun xs s => .done ((x, y) :: xs) s

/-- The columns of a row written. -/
def State.writeRow (s : State) (v : VReg) (first : Nat) : List Nat → State
  | [] => s
  | x :: xs => (s.wrElem v first x).writeRow v (first + 1) xs

/-- One row of `smerge` (R224): every source is read before any write, element by element those of va, then those of vd (R166). A NaN
maximum makes o and l NaN, and the maximum that is a number stands; with both maxima -infinity, o and l become +0 whatever they held (log
entry 23). -/
def mergeOne (vd va : VReg) (r : Nat) (s : State) : Res Unit :=
  let first := r * s.ucr.vlen.toNat
  (rdElem va first s).andThen fun y s => (rdElem (va + 1#6) first s).andThen fun m2 s => (rdElem (va + 2#6) first s).andThen fun l2 s =>
    (rdElem vd first s).andThen fun x s => (rdElem (vd + 1#6) first s).andThen fun m1 s => (rdElem (vd + 2#6) first s).andThen fun l1 s =>
      (readPairs vd va (first + 1) (s.ucr.vlen.toNat - 1) s).andThen fun rest s =>
        let pairs := (x, y) :: rest
        let mm := FFmt.f32.minMax true m1 m2
        let put := fun (l : Nat) (o : List Nat) => ((s.wrElem (vd + 1#6) first mm.bits).wrElem (vd + 2#6) first l).writeRow vd first o
        if (FFmt.f32.decode m1).isNan || (FFmt.f32.decode m2).isNan then
          .done () ((put FFmt.f32.nanBits (pairs.map fun _ => FFmt.f32.nanBits)).orFlags
            (if (FFmt.f32.decode m1).sig || (FFmt.f32.decode m2).sig then Flags.nv else 0#5))
        else if FFmt.f32.decode mm.bits = .inf true then .done () (put 0 (pairs.map fun _ => 0))
        else
          let f1 := mergeFactor m1 mm.bits
          let f2 := mergeFactor m2 mm.bits
          let l := mergeSum l1 f1.1 l2 f2.1
          let o := mergeRow f1.1 f2.1 pairs
          .done () ((put l.1 o.1).orFlags (mm.flags ||| f1.2 ||| f2.2 ||| l.2 ||| o.2))

/-- `smerge` (R224): VSTART counts rows, and the mask of column 0 governs its row. -/
def execSmerge (f : V1Args) (s : State) : Out :=
  let i := Instr.smerge f
  runPosted i s ((vregsOk i [f.vd, f.va] s).andThen fun _ s =>
    if s.ucr.regCount ≤ f.vd.toNat + 2 ∨ s.ucr.regCount ≤ f.va.toNat + 2 then wordTrap Cause.vstate 0#8 i s
    else if s.ucr.sew ≠ 32 then wordTrap Cause.shape 0#8 i s
    else
      let rows := (List.range s.ucr.vrows.toNat).filter fun r =>
        decide (s.ucr.vstart.toNat ≤ r ∧ r * s.ucr.vlen.toNat < s.ucr.elems) && s.maskBit (kmReg f.km) (r * s.ucr.vlen.toNat)
      (masksOk [kmReg f.km] s).andThen fun _ s => endElems (forElems (mergeOne f.vd f.va) rows s))

/-- One round of the vrng mix (R225). -/
def vrngRound (x y : Word) : Word × Word :=
  let y := y + 0x5A17C3E9B24D0F6B#64
  let x := x ^^^ y
  let x := x * 0x8F3B64D12E97A5C3#64
  (x ^^^ (x >>> 31), y)

/-- The vrng mix of a counter and a key (R225). -/
def vrngMix (c key : Word) : Word :=
  let (x, y) := vrngRound c key
  let (x, y) := vrngRound x y
  let (x, y) := vrngRound x y
  (vrngRound x y).1

/-- The key of `vrng` (R225): the scalar's 64 bits with s = 1, else the element of vb. -/
def vrngKey (f : VArgs) (s : State) : Res (Option Word) :=
  if f.s then (readPosted (f.vb.extractLsb' 0 5) s).andThen fun x s => .done (some x) s else .done none s

/-- `vrng` (R225). -/
def execVrng (f : VArgs) (s : State) : Out :=
  let i := Instr.vrng f
  runPosted i s ((vregsOk i (vargsRegs f) s).andThen fun _ s =>
    if s.ucr.sew ≠ 32 ∧ s.ucr.sew ≠ 64 then wordTrap Cause.shape 0#8 i s
    else unlessDone [kmReg f.km] s fun s => (vrngKey f s).andThen fun key s =>
      forElems (fun e s => (rdElem f.va e s).andThen fun c s =>
        (match key with
         | some k => Res.done k s
         | none => (rdElem f.vb e s).andThen fun y s => .done (BitVec.ofNat 64 y) s).andThen fun k s =>
          let x := vrngMix (BitVec.ofNat 64 c) k
          .done () (s.wrElem f.vd e (if s.ucr.sew = 32 then x.toNat / 2 ^ 32 else x.toNat))) (s.active (kmReg f.km)) s)

/-- `vexpd` (R226): 2^(a - b) of the exact difference, rounded once. -/
def execVexpd (f : VArgs) (s : State) : Out :=
  let i := Instr.vexpd f
  runPosted i s ((vregsOk i (vargsRegs f) s).andThen fun _ s => (floatFormat i s).andThen fun fmt s =>
    (roundingMode i s).andThen fun rm s =>
      unlessDone [kmReg f.km] s (elementBody f false fun _ a b _ =>
        let r := fmt.exp2Val rm (subVal (fmt.decode a) (fmt.decode b)); (r.bits, r.flags)))

end Sys2Proof.Machine
end

