-- ==== Sys2Proof/Machine/Matrix.lean ====
section
/-!
DEFINITION. The matrix array (09 section 9.1, 03 sections 3.7 to 3.9): products, tile transfers.
-/

namespace Sys2Proof.Machine

/-! ## Formats (R86) -/

/-- Whether a format code is I8 or N8. -/
def isInt8 (c : BitVec 4) : Bool := c == 0#4 || c == 4#4
/-- Whether a format code is F8A or F8B. -/
def isFloat8 (c : BitVec 4) : Bool := c == 12#4 || c == 13#4

/-- Table 3.10: formats A, B and C (`c` set for F32). -/
def combination (a b : BitVec 4) (c : Bool) : Bool :=
  (isInt8 a && (isInt8 b || b == 14#4)) || (isFloat8 a && isFloat8 b && c) ||
  (c && ((a == 8#4 && b == 8#4) || (a == 9#4 && b == 9#4) || (a == 10#4 && b == 10#4)))

/-- Whether A and C stand together in some row of Table 3.10. -/
def someCombination (a : BitVec 4) (c : Bool) : Bool := [0#4, 8#4, 9#4, 10#4, 12#4].any fun b => combination a b c

/-- MFMT.A, MFMT.B, MFMT.C and MFMT.SAT (Table 2.8). -/
def UserCR.fmtA (u : UserCR) : BitVec 4 := u.mfmt.extractLsb' 0 4
def UserCR.fmtB (u : UserCR) : BitVec 4 := u.mfmt.extractLsb' 4 4
def UserCR.fmtC (u : UserCR) : Bool := u.mfmt.getLsbD 8
def UserCR.fmtSat (u : UserCR) : Bool := u.mfmt.getLsbD 9

/-- The width in bits of an element format; 0 for a reserved code. -/
def fmtWidth (c : BitVec 4) : Nat := ((Fmt.ofCode c).map Fmt.width).getD 0

/-! ## Elements and tiles -/

/-- An element of A or B: an integer with the power of two of its block scale, a float value, or one of a NaN block. -/
inductive MElem where
  | int (x : Int) (scale : Int)
  | float (v : FVal)
  | nanBlock
  deriving DecidableEq, Repr

/-- An element in a format, from the bits that hold it (R46, R199). -/
def MElem.ofBits (c : BitVec 4) (x : Nat) : MElem :=
  match Fmt.ofCode c with
  | some (.float f) => .float (f.decode (x % 2 ^ f.width))
  | some f => .int (f.intOf x) 0
  | none => .int 0 0

/-- The window offset of a tile element (R402). -/
def tileOff (ac : Bool) (i j : Nat) : Nat := 0x80000 + (if ac then 0x40000 else 0) + 4 * (256 * i + j)

/-- A tile element read by an accumulating step: a stale granule reads as zero under either GENMODE (R200). -/
def tileRead (ac : Bool) (i j : Nat) (s : State) : Res Nat :=
  let pa := windowAddr (coreOf s.cur) (tileOff ac i j)
  if s.tag pa = s.thr.genA then
    if s.poisoned pa 4 then consume pa (BitVec.ofNat 64 (tileOff ac i j)) s else .done (numOf (s.bytes pa 4)) s
  else .done 0 s

/-- A tile element read by `mst` or `mva` (R200): a stale granule under GENMODE = 1 traps GENTRAP. -/
def tileSource (ac : Bool) (i j : Nat) (s : State) : Res Nat :=
  if s.ucr.genmode = 1#1 && s.tag (windowAddr (coreOf s.cur) (tileOff ac i j)) != s.thr.genA then
    .trap ⟨Cause.gentrap, 0#8, BitVec.ofNat 64 (tileOff ac i j)⟩ s
  else tileRead ac i j s

/-- The state with a tile element written, its granule stamped. -/
def State.tileWrite (s : State) (ac : Bool) (i j x : Nat) : State :=
  s.writeTagged (windowAddr (coreOf s.cur) (tileOff ac i j)) (bytesOf 4 x) s.thr.genA

/-- An accumulator that is not granted traps VSTATE (R55). -/
def accOk (i : Instr) (ac : Bool) (s : State) : Res Unit :=
  if s.thr.acc.getLsbD ac.toNat then .done () s else wordTrap Cause.vstate 1#8 i s

/-! ## One k-step (R87, R88) -/

/-- The scale of an integer step: RNE_F32(MASCALE * SB). -/
def stepScale (u : UserCR) (sb : BitVec 32) : Nat := (FFmt.f32.mul .rne u.mascale.toNat sb.toNat).bits

/-- A value rounded to F32 (RNE): its bits. -/
def roundF32 (v : FVal) : Nat :=
  match v with
  | .nan _ => FFmt.f32.nanBits
  | .inf n => FFmt.f32.signed n FFmt.f32.infBits
  | .fin n m e => if m = 0 then FFmt.f32.signed n 0 else (FFmt.f32.round .rne n m e false false).bits

/-- The term of an integer product under C = F32 (R87): `P * S`, rounded once. A product of zero counts as +0 whatever the factors' signs,
so that the term has the sign of S (DESIGN CHOICE, log entry 46). -/
def scaledTerm (p : Int) (e : Int) (scale : Nat) : Nat :=
  roundF32 (mulVal (.fin (p < 0) p.natAbs e) (FFmt.f32.decode scale))

/-- A tile element after a step, and the bits of MXERR that the step sets there (R87, R88). -/
def updateElem (u : UserCR) (scale t : Nat) (a b : MElem) : Nat × BitVec 19 :=
  match a, b with
  | _, .nanBlock => (if u.fmtC then FFmt.f32.nanBits else t, Mxerr.nan)
  | .float x, .float y => ((FFmt.f32.fmaVal .rne x y (FFmt.f32.decode t)).bits, 0#19)
  | .int x e, .int y f =>
    if u.fmtC then ((FFmt.f32.add .rne t (scaledTerm (x * y) (e + f) scale)).bits, 0#19)
    else
      let z := sextInt 32 t + x * y
      if u.fmtSat then (truncNat 32 (clampInt (minInt 32) (maxInt 32) z),
        if clampInt (minInt 32) (maxInt 32) z = z then 0#19 else Mxerr.sat)
      else (truncNat 32 z, 0#19)
  | _, _ => (t, 0#19)

/-- A tile element after a step that contributes zero (R88, R205): the term of R87 is +0 (log entry 24). -/
def zeroStep (u : UserCR) (t : Nat) : Nat := if u.fmtC then (FFmt.f32.add .rne t 0).bits else t

/-- The B row of a step for some rows of the tile: none where the step contributes zero (R205; log entry 24). -/
structure BRow where
  rows  : List Nat
  cols  : Option (List MElem)
  scale : Nat
  deriving DecidableEq, Repr

/-- The tile elements that a step writes, with their new values and the MXERR bits: every old value is read first. -/
def stepElems (ac : Bool) (a : List MElem) (b : BRow) : List (Nat × Nat) → State → Res (List (Nat × Nat × Nat) × BitVec 19)
  | [], s => .done ([], 0#19) s
  | (i, j) :: rest, s =>
    (tileRead ac i j s).andThen fun t s =>
      let r := match b.cols with
        | some cs => updateElem s.ucr b.scale t (a.getD i (.int 0 0)) (cs.getD j (.int 0 0))
        | none => (zeroStep s.ucr t, 0#19)
      (stepElems ac a b rest s).andThen fun out s => .done ((i, j, r.1) :: out.1, r.2 ||| out.2) s

/-- The elements of a step's rows in its columns (R199, R202). A step that contributes zero has no extents to go by and writes every column
of J (R88; DESIGN CHOICE, log entry 24). -/
def stepPlaces (b : BRow) (js : List Nat) : List (Nat × Nat) :=
  let js := match b.cols with
    | some cs => js.filter fun j => decide (j < cs.length)
    | none => js
  b.rows.flatMap fun i => js.map fun j => (i, j)

/-- Every group of rows of a step computed. -/
def stepGroups (ac : Bool) (a : List MElem) (js : List Nat) : List BRow → State → Res (List (Nat × Nat × Nat) × BitVec 19)
  | [], s => .done ([], 0#19) s
  | b :: bs, s =>
    (stepElems ac a b (stepPlaces b js) s).andThen fun x s =>
      (stepGroups ac a js bs s).andThen fun y s => .done (x.1 ++ y.1, x.2 ||| y.2) s

/-- A whole step performed: all reads before any write. NaN blocks in written columns set MXERR.NAN whatever the rows. -/
def performStep (ac : Bool) (a : List MElem) (js : List Nat) (bs : List BRow) (s : State) : Res Unit :=
  (stepGroups ac a js bs s).andThen fun r s =>
    .done () ((r.1.foldl (fun s w => s.tileWrite ac w.1 w.2.1 w.2.2) s).orMxerr r.2)

/-! ## Operands -/

/-- Row `k` of a vector register in a format (R199). -/
def vectorRow (v : VReg) (c : BitVec 4) (k : Nat) (s : State) : Res (List MElem) :=
  (readRow v (k * s.ucr.vlen.toNat) s.ucr.vlen.toNat s).andThen fun xs s => .done (xs.map (MElem.ofBits c)) s

/-- A range of addresses cut into its aligned 32-byte units, each as an address and a length (R274). -/
def piecesOf (va : Word) : Nat → Nat → List (Word × Nat)
  | 0, _ => []
  | _ + 1, 0 => []
  | fuel + 1, n =>
    let k := min n (32 - va.toNat % 32)
    (va, k) :: piecesOf (va + BitVec.ofNat 64 k) fuel (n - k)

/-- The pieces of a range of `n` bytes. -/
def rangePieces (va : Word) (n : Nat) : List (Word × Nat) := piecesOf va (n / 32 + 2) n

/-- A load's place under a translation that the same access uses already (R316). -/
def locateUnder (e : WalkEntry) (va : Word) (s : State) : Res Phys :=
  let pa := e.addr va.toNat
  if s.region pa = .notMemory then
    .trap (xlatTrap 4#8 .load va) (s.mapSys fun c => { c with tfltReason := 4#8, tfltLevel := BitVec.ofNat 3 (5 - e.frames.length) })
  else if s.regionRefuses pa .load then .trap ⟨Cause.prot, Access.load.detail, va⟩ s
  else .done ⟨pa, e.leaf.extractLsb' 62 2⟩ s

/-- The translations of the pages that a k-step reads, by page number: `done` are those made so far, `used` the leaves behind them. A leaf that
covers several pages is chosen once (R316). -/
def locatePages : List (Word × Nat) → List (Nat × Phys) → List WalkEntry → State → Res (List (Nat × Phys))
  | [], done, _, s => .done done s
  | (va, _) :: ps, done, used, s =>
    if done.any fun d => d.1 == va.toNat / 4096 then locatePages ps done used s
    else
      (match used.find? fun (e : WalkEntry) => e.covers s.thr.asid va.toNat with
       | some e => locateUnder e va s
       | none => locate va .load s).andThen fun p s => (soGuard p s).andThen fun _ s =>
        locatePages ps ((va.toNat / 4096, { p with pa := p.pa - va.toNat % 4096 }) :: done)
          ((s.walks.filter fun (e : WalkEntry) => e.covers s.thr.asid va.toNat && e.addr va.toNat == p.pa).take 1 ++ used) s

/-- Pieces read on path M through translations that have been made, one after another. -/
def readPieces (ts : List (Nat × Phys)) : List (Word × Nat) → State → Res (List Byte)
  | [], s => .done [] s
  | (va, k) :: ps, s =>
    let p := ((ts.find? fun d => d.1 == va.toNat / 4096).map (·.2)).getD ⟨0, 0#2⟩
    (readAt .matrix { p with pa := p.pa + va.toNat % 4096 } va k s).andThen fun bs s =>
      (readPieces ts ps s).andThen fun rest s => .done (bs ++ rest) s

/-- The read of a k-step (R202): every page is translated before a byte is read. -/
def loadPieces (ps : List (Word × Nat)) (s : State) : Res (List Byte) :=
  (locatePages ps [] [] s).andThen fun ts s => readPieces ts ps s

/-- The element at position `e` of a planar block read at `p` planes (R81), from its plane bytes and its scale bytes. -/
def planarElem (p : Nat) (mid : Bool) (planes scales : List Byte) (e : Nat) : MElem :=
  let q := (List.range p).foldl (fun acc i => 2 * acc + (planes.getD (32 * i + e / 8) 0#8).toNat / 2 ^ (e % 8) % 2) 0
  let m : Int := if mid ∧ p < 8 then ((2 ^ (7 - p) : Nat) : Int) else 0
  let x := sextInt p q * ((2 ^ (8 - p) : Nat) : Int) + m
  let sc := (scales.getD (e / 8) 0#8).toNat
  if sc = 255 then .nanBlock else .int x ((sc : Int) - 127)

/-- The columns that a step reads of a tensor (R202). -/
def rowColumns (t : Tensor) (s : State) : Nat := min s.ucr.vlen.toNat t.dim0

/-- The pieces that a step reads of a row of a live tensor (R80, R81, R202): every plane byte and scale byte of the blocks that hold a column,
or the columns' elements. -/
def rowPieces (t : Tensor) (r n : Nat) : List (Word × Nat) :=
  let va := t.base + BitVec.ofNat 64 (r * t.stride1 * 32)
  if t.fmt = 14#4 then
    (List.range ((n + 255) / 256)).flatMap fun b =>
      rangePieces (va + BitVec.ofNat 64 (288 * b)) (32 * t.planes) ++ rangePieces (va + BitVec.ofNat 64 (288 * b + 256)) 32
  else rangePieces va (n * (fmtWidth t.fmt / 8))

/-- The elements that the bytes of a row give (R80 to R82). -/
def rowElems (t : Tensor) (n : Nat) (bs : List Byte) : List MElem :=
  if t.fmt = 14#4 then
    (List.range n).map fun j =>
      let block := bs.drop (j / 256 * (32 * t.planes + 32))
      planarElem t.planes t.mid (block.take (32 * t.planes)) ((block.drop (32 * t.planes)).take 32) (j % 256)
  else
    let w := fmtWidth t.fmt / 8
    (List.range n).map fun j => MElem.ofBits t.fmt (numOf ((bs.drop (j * w)).take w))

/-- The columns that a step reads of row `r` of a live tensor (R202). -/
def tensorRow (t : Tensor) (r : Nat) (s : State) : Res (List MElem) :=
  (loadPieces (rowPieces t r (rowColumns t s)) s).andThen fun bs s' => .done (rowElems t (rowColumns t s) bs) s'

/-- The scale of a tensor's steps: SB counts for PI alone (R87). -/
def tensorScale (u : UserCR) (t : Tensor) : Nat := stepScale u (if t.fmt = 14#4 then t.sb else 0x3F800000#32)

/-- The set J (R199). -/
def State.columns (s : State) (k : KReg) : List Nat := (List.range s.ucr.vlen.toNat).filter (s.maskBit k)

/-- Every row of the tile below VLEN. -/
def State.tileRows (s : State) : List Nat := List.range s.ucr.vlen.toNat

/-- The issue checks of a product (R198 steps 2 to 4). -/
def productChecks (i : Instr) (ac : Bool) (vs : List VReg) (legal wide : Bool) (s : State) : Res Unit :=
  (vregsOk i vs s).andThen fun _ s => (accOk i ac s).andThen fun _ s =>
    if !legal then wordTrap Cause.illegal 0#8 i s
    else if wide then wordTrap Cause.shape 0#8 i s
    else .done () s

/-- A trap at step `k` (R198): VSTART := k. -/
def atStep {α : Type} (k : Nat) (r : Res α) : Res α :=
  match r with
  | .trap t s => .trap t (s.setVstart k)
  | r => r

/-- The end of a product (R201, R206): MROW moves, NSTAT is written, VSTART := 0. -/
def State.endProduct (s : State) (rows : Nat) (st : BitVec 2) : State :=
  ((s.mapUcr fun u => { u with mrow := u.mrow + BitVec.ofNat 16 rows }).setNstat st).setVstart 0

/-- `mop` (R199, R201): every element below VLEN of va and vb is read, whatever km holds, as R202 has it for a tensor's row (DEDUCED, log entry
54). -/
def execMop (ac : Bool) (va vb : VReg) (km : BitVec 3) (s : State) : Out :=
  let i := Instr.mop ac va vb km
  let u := s.ucr
  runPosted i s
    ((productChecks i ac [va, vb] (combination u.fmtA u.fmtB u.fmtC) (u.sew < fmtWidth u.fmtA ∨ u.sew < fmtWidth u.fmtB) s).andThen
      fun _ s => (atStep 0 ((masksOk [kmReg km] s).andThen fun _ s => (vectorRow va u.fmtA 0 s).andThen fun a s => (vectorRow vb u.fmtB 0 s).andThen fun b s =>
        performStep ac a (s.columns (kmReg km)) [⟨s.tileRows, some b, stepScale u 0x3F800000#32⟩] s)).andThen
        fun _ s => .done () (s.setVstart 0))

/-- Whether a matrix step may use a tensor (R205, R362): its entry is live, and its name resolves as live for the strand's context. -/
def State.tensorUsable (s : State) (t : Tensor) : Bool × State :=
  if t.live then (let r := s.resolve s.cluster s.thr.asid t.name; (r.1.st == Nstat.live, r.2)) else (false, s)

/-- The same for a matrix step: poison in the tables behind the name is consumed (R375). -/
def useTensor (t : Tensor) (s : State) : Res Bool :=
  (if t.live then nameTablesOk t.name s else .done () s).andThen fun _ s => .done (s.tensorUsable t).1 (s.tensorUsable t).2

/-- A step of `mopt` or `mopk` on tensor row `r` (R202, R205): whether the tensor was gone. -/
def tensorStep (i : Instr) (ac : Bool) (va : VReg) (tid : BitVec 10) (km : BitVec 3) (k r : Nat) (s : State) : Res Bool :=
  (tableOk (s.tensorAddr s.thr.asid tid.toNat) 64 s).andThen fun _ s =>
    let t := s.tensor s.thr.asid tid.toNat
    if t.live && decide (t.dim1 ≤ r) then wordTrap Cause.shape 0#8 i s
    else
      (useTensor t s).andThen fun use s =>
      (masksOk [kmReg km] s).andThen fun _ s => (vectorRow va s.ucr.fmtA k s).andThen fun a s =>
        if !use then
          (performStep ac a (s.columns (kmReg km)) [⟨s.tileRows, none, 0⟩] s).andThen fun _ s => .done true (s.orMxerr Mxerr.gone)
        else
          (tensorRow t r s).andThen fun b s =>
            (performStep ac a (s.columns (kmReg km)) [⟨s.tileRows, some b, tensorScale s.ucr t⟩] s).andThen fun _ s => .done false s

/-- The checks of `mopt` and `mopk` (R198): a tensor that is not live at issue is exempt from the format check, which reads its entry. -/
def tensorChecks (i : Instr) (ac : Bool) (va : VReg) (tid : BitVec 10) (s : State) : Res Unit :=
  (vregsOk i [va] s).andThen fun _ s => (accOk i ac s).andThen fun _ s =>
    (tableOk (s.tensorAddr s.thr.asid tid.toNat) 64 s).andThen fun _ s =>
      let t := s.tensor s.thr.asid tid.toNat
      productChecks i ac [va] (!t.live || combination s.ucr.fmtA t.fmt s.ucr.fmtC) (s.ucr.sew < fmtWidth s.ucr.fmtA) s

/-- `mopt` (R201, R202). -/
def execMopt (ac : Bool) (va : VReg) (tid : BitVec 10) (km : BitVec 3) (s : State) : Out :=
  let i := Instr.mopt ac va tid km
  runPosted i s ((tensorChecks i ac va tid s).andThen fun _ s =>
    (atStep 0 (tensorStep i ac va tid km 0 s.ucr.mrow.toNat s)).andThen fun gone s =>
      .done () (s.endProduct 1 (if gone then 1#2 else 0#2)))

/-- Steps of a `mopk`, from a first one (R201): whether some step found the tensor gone. -/
def mopkSteps (i : Instr) (ac : Bool) (va : VReg) (tid : BitVec 10) (km : BitVec 3) (mrow : Nat) : List Nat → State → Res Bool
  | [], s => .done s.thr.goneStep s
  | k :: ks, s =>
    match atStep k (tensorStep i ac va tid km k (mrow + k) s) with
    | .done gone s => mopkSteps i ac va tid km mrow ks (s.mapThr fun t => { t with goneStep := t.goneStep || gone })
    | .trap t s => .trap t s
    | .wait s => .wait (s.setVstart k)

/-- Whether the instruction that runs, an entry of the replay, has found its tensor gone in a part that has run already (R206). -/
def Thread.goneBefore (t : Thread) : Bool := t.replaying && t.replay.head?.any (·.gone)

/-- The steps of a `mopk` from VSTART on, below a bound; what an earlier part of it found counts. -/
def mopkPart (i : Instr) (ac : Bool) (va : VReg) (tid : BitVec 10) (km : BitVec 3) (stop : Nat) (s : State) : Res Bool :=
  (tensorChecks i ac va tid s).andThen fun _ s =>
    let s := s.mapThr fun t => { t with goneStep := t.goneBefore }
    mopkSteps i ac va tid km s.ucr.mrow.toNat ((List.range stop).filter fun k => decide (s.ucr.vstart.toNat ≤ k)) s

/-- The end of a `mopk`. -/
def State.endMopk (s : State) (gone : Bool) : State :=
  (s.endProduct s.ucr.vrows.toNat (if gone then 1#2 else 0#2)).mapThr fun t => { t with goneStep := false }

/-- `mopk` (R201, R202, R206): the steps from VSTART on; where a containment stops it at a step, those below (R292). -/
def execMopk (ac : Bool) (va : VReg) (tid : BitVec 10) (km : BitVec 3) (s : State) : Out :=
  let i := Instr.mopk ac va tid km
  match s.thr.stopAt with
  | none =>
    runPosted i s ((mopkPart i ac va tid km s.ucr.vrows.toNat s).andThen fun gone s => .done () (s.endMopk gone))
  | some k =>
    match mopkPart i ac va tid km k s with
    | .done _ s' => .next s'
    | .trap t s' => runPosted i s (.trap t s')
    | .wait s' => runPosted i s (.wait s')

/-- What the check of an operand record finds (R85, R203, R362): it passes, or it fails with the NSTAT of its cause (R206): 1 for a record or
tensor that is not live, else 2 for its ASID or grant, else 0. Poison in what it reads is consumed (R375). -/
def recordCheck (idx : Nat) (s : State) : Res (Option (BitVec 2)) :=
  if 1024 ≤ idx then .done (some 0#2) s
  else
    (tableOk (s.recordAddr s.thr.asid idx) 32 s).andThen fun _ s =>
    let r := s.record s.thr.asid idx
    (tableOk (s.tensorAddr s.thr.asid r.tid) 64 s).andThen fun _ s =>
    let t := s.tensor s.thr.asid r.tid
    (useTensor t s).andThen fun use s =>
    if r.state ≠ 1#2 ∨ use = false then .done (some 1#2) s
    else if r.asid ≠ s.thr.asid then .done (some 2#2) s
    else
      (nameTablesOk r.name s).andThen fun _ s =>
      let (x, s) := s.resolve s.cluster s.thr.asid r.name
      if x.st ≠ Nstat.live then .done (some 2#2) s
      else if r.rowCount ≤ s.ucr.mrow.toNat then .done (some 0#2) s
      else if !combination s.ucr.fmtA t.fmt s.ucr.fmtC then .done (some 0#2) s
      else .done none s

/-- The rows of a group below VLEN. -/
def groupRows (g vlen : Nat) : List Nat := (List.range 16).filterMap fun i => if 16 * g + i < vlen then some (16 * g + i) else none

/-- A group of a `mopi` step once its record has been checked: the cause for which it fails, or none; its tensor and the tensor's row. -/
structure GroupCheck where
  g     : Nat
  cause : Option (BitVec 2)
  t     : Tensor
  row   : Nat
  deriving DecidableEq, Repr

/-- The groups of a `mopi` step checked as they stand when the step begins (R203, R205): SHAPE comes before any element of va or vb is read
(R198). An index element that is going to trap GENTRAP counts for nothing here. -/
def checkGroups (i : Instr) (vb : VReg) : List Nat → State → Res (List GroupCheck)
  | [], s => .done [] s
  | g :: gs, s =>
    if s.ucr.genmode = 1#1 && s.elemStale vb g then checkGroups i vb gs s
    else
      let idx := s.elemOrZero vb g
      (recordCheck idx s).andThen fun cause s =>
        match cause with
        | some c => (checkGroups i vb gs s).andThen fun r s => .done (⟨g, some c, Vector.replicate 8 0#64, 0⟩ :: r) s
        | none =>
          let rec_ := s.record s.thr.asid idx
          let t := s.tensor s.thr.asid rec_.tid
          let row := rec_.rowBase + s.ucr.mrow.toNat
          if t.dim1 ≤ row then wordTrap Cause.shape 0#8 i s
          else (checkGroups i vb gs s).andThen fun r s => .done (⟨g, none, t, row⟩ :: r) s

/-- The index elements of vb read, for GENTRAP. -/
def readIndices (vb : VReg) : List Nat → State → Res Unit
  | [], s => .done () s
  | g :: gs, s => (rdElem vb g s).andThen fun _ s => readIndices vb gs s

/-- The pieces that a group reads of its tensor's row; none where it contributes zero. -/
def GroupCheck.pieces (c : GroupCheck) (s : State) : List (Word × Nat) :=
  if c.cause.isSome then [] else rowPieces c.t c.row (rowColumns c.t s)

/-- The B row of each group read through translations that have been made (R203): the tensor's row under its own scale, or none where the group
contributes zero. -/
def readGroups (ts : List (Nat × Phys)) : List GroupCheck → State → Res (List BRow)
  | [], s => .done [] s
  | c :: cs, s =>
    let rows := groupRows c.g s.ucr.vlen.toNat
    match c.cause with
    | some _ => (readGroups ts cs s).andThen fun r s => .done (⟨rows, none, 0⟩ :: r) s
    | none =>
      (readPieces ts (c.pieces s) s).andThen fun bs s =>
        (readGroups ts cs s).andThen fun r s => .done (⟨rows, some (rowElems c.t (rowColumns c.t s) bs), tensorScale s.ucr c.t⟩ :: r) s

/-- The B rows of a `mopi` step: one k-step read over all groups, every page translated before a byte is read (R202, R316). -/
def groupBRows (cs : List GroupCheck) (s : State) : Res (List BRow) :=
  (locatePages (cs.flatMap fun c => c.pieces s) [] [] s).andThen fun ts s => readGroups ts cs s

/-- The RG bits of the groups that failed (R203). -/
def groupBits (cs : List GroupCheck) : BitVec 19 := cs.foldl (fun x c => if c.cause.isSome then x ||| Mxerr.group c.g else x) 0#19

/-- NSTAT of a `mopi` (R206). -/
def groupStat (cs : List GroupCheck) : BitVec 2 :=
  if cs.any fun c => c.cause == some 1#2 then 1#2 else if cs.any fun c => c.cause == some 2#2 then 2#2 else 0#2

/-- The groups of a `mopi`. -/
def mopiGroups (s : State) : List Nat := List.range ((s.ucr.vlen.toNat + 15) / 16)

/-- `mopi` (R203, R206). -/
def execMopi (ac : Bool) (va vb : VReg) (km : BitVec 3) (s : State) : Out :=
  let i := Instr.mopi ac va vb km
  let u := s.ucr
  runPosted i s
    ((productChecks i ac [va, vb] (someCombination u.fmtA u.fmtC) (u.sew < fmtWidth u.fmtA) s).andThen fun _ s =>
      (atStep 0 ((checkGroups i vb (mopiGroups s) s).andThen fun cs s =>
        (masksOk [kmReg km] s).andThen fun _ s => (vectorRow va u.fmtA 0 s).andThen fun a s =>
          (readIndices vb (mopiGroups s) s).andThen fun _ s => (groupBRows cs s).andThen fun bs s =>
            (performStep ac a (s.columns (kmReg km)) bs s).andThen fun _ s => .done cs s)).andThen fun cs s =>
        .done () ((s.orMxerr (groupBits cs)).endProduct 1 (groupStat cs)))

/-! ## The checksum words (R378) -/

/-- Where a row's difference from its checksum word stands in `sums`. -/
def sumKey (core : Nat) (ac : Bool) (row : Nat) : Nat := 512 * core + 256 * ac.toNat + row

/-- An accumulator of a core poisoned whole. -/
def State.poisonTile (s : State) (core : Nat) (ac : Bool) : State :=
  let lo := windowAddr core (tileOff ac 0 0)
  { s with poison := (s.poison.filter fun u => !decide (lo ≤ u ∧ u < lo + 262144)) ++ (List.range 4096).map fun i => lo + 64 * i }

/-- A row of the tile checked against its checksum word by an instruction that touches element (i, j) (R378): where they differ, the
accumulator is poisoned whole and ERRUNC follows, with an entry of the checksum column. -/
def checksumOk (ac : Bool) (i j : Nat) (s : State) : Res Unit :=
  let core := coreOf s.cur
  if Sparse.get 0#32 s.sums (sumKey core ac i) = 0#32 then .done () s
  else
    let pa := windowAddr core (tileOff ac i j)
    let s := s.poisonTile core ac
    .trap ⟨Cause.errunc, 0#8, BitVec.ofNat 64 (tileOff ac i j)⟩
      (if s.thr.deferLog then s else s.logError 0x11#8 (BitVec.ofNat 8 core) 2#2 (BitVec.ofNat 64 pa) 2#4)

/-- The rows of an accumulator of a core with their checksum words as they ought to be (log entry 20). -/
def State.clearSumsAt (s : State) (core : Nat) (ac : Bool) : State :=
  let lo := sumKey core ac 0
  { s with sums := s.sums.filter fun p => !decide (lo ≤ p.1 ∧ p.1 < lo + 256) }

/-- Those of the stepping strand's core. -/
def State.clearSums (s : State) (ac : Bool) : State := s.clearSumsAt (coreOf s.cur) ac

/-- Those of the accumulators granted to a strand. -/
def State.clearSumsOf (s : State) (core : Nat) (acc : BitVec 2) : State :=
  let s := if acc.getLsbD 0 then s.clearSumsAt core false else s
  if acc.getLsbD 1 then s.clearSumsAt core true else s

/-! ## Tile transfers (R210, R211) -/

/-- Granules of a range zeroed and stamped, whatever they held. -/
def State.zeroGranules (s : State) (pa n : Nat) (gen : Gen) : State :=
  { s with
    mem := Memory.clear s.mem pa (64 * n)
    tags := (s.tags.filter fun p => decide (p.1 < pa / 64)) ++
      (if gen = 0#16 then [] else (List.range n).map fun i => (pa / 64 + i, gen)) ++
      s.tags.filter fun p => decide (pa / 64 + n ≤ p.1)
    poison := clearPoison s.poison pa (64 * n) }

/-- `mzero` (R210). -/
def execMzero (ac : Bool) (s : State) : Out :=
  runPosted (.mzero ac) s ((accOk (.mzero ac) ac s).andThen fun _ s =>
    .done () (((s.clearSums ac).zeroGranules (windowAddr (coreOf s.cur) (tileOff ac 0 0)) 4096 s.thr.genA).setVstart 0))

/-- The tile row and column of a flat element (R211). -/
def State.tilePlace (s : State) (e : Nat) : Nat × Nat :=
  (s.ucr.mrow.toNat + e / s.ucr.vlen.toNat, e % s.ucr.vlen.toNat)

/-- The address of a flat element of a tile transfer (R211). -/
def State.tileEa (s : State) (base : Word) (e : Nat) : Word :=
  let rs : Word := if s.ucr.vrstr = 0#64 then BitVec.ofNat 64 (4 * s.ucr.vlen.toNat) else s.ucr.vrstr
  base + BitVec.ofNat 64 (e / s.ucr.vlen.toNat) * rs + BitVec.ofNat 64 (4 * (e % s.ucr.vlen.toNat))

/-- A tile transfer past its register check (R211): SHAPE, then the elements from VSTART on. -/
def transfer (i : Instr) (ac : Bool) (e32 : Bool) (sb : Option SReg) (km : BitVec 3) (f : Word → Nat → State → Res Unit) (s : State) :
    Res Unit :=
  (accOk i ac s).andThen fun _ s =>
    if 256 < s.ucr.mrow.toNat + s.ucr.vrows.toNat ∨ (e32 = true ∧ s.ucr.sew ≠ 32) then wordTrap Cause.shape 0#8 i s
    else unlessDone [kmReg km] s fun s =>
      (match sb with
       | some r => readPosted r s
       | none => Res.done 0#64 s).andThen fun base s => forElems (f base) (s.active (kmReg km)) s

/-- `mld` (R211). -/
def execMld (ac : Bool) (sb : SReg) (km : BitVec 3) (s : State) : Out :=
  let i := Instr.mld ac sb km
  runPosted i s (transfer i ac false (some sb) km (fun base e s =>
    let a := s.tileEa base e
    (aligned a 4 .load s).andThen fun _ s => (load .matrix a 4 s).andThen fun bs s =>
      .done () (s.tileWrite ac (s.tilePlace e).1 (s.tilePlace e).2 (numOf bs))) s)

/-- `mst` (R211, R209): it never runs speculatively. -/
def execMst (ac : Bool) (sb : SReg) (km : BitVec 3) (s : State) : Out :=
  let i := Instr.mst ac sb km
  runPosted i s (whenResolved s fun s => transfer i ac false (some sb) km (fun base e s =>
    let a := s.tileEa base e
    (checksumOk ac (s.tilePlace e).1 (s.tilePlace e).2 s).andThen fun _ s =>
      (tileSource ac (s.tilePlace e).1 (s.tilePlace e).2 s).andThen fun x s =>
        (aligned a 4 .store s).andThen fun _ s => store Path.matrix.plain a (bytesOf 4 x) s) s)

/-- `mva` (R211). -/
def execMva (ac : Bool) (vd : VReg) (km : BitVec 3) (s : State) : Out :=
  let i := Instr.mva ac vd km
  runPosted i s ((vregOk i vd s).andThen fun _ s => transfer i ac true none km (fun _ e s =>
    (checksumOk ac (s.tilePlace e).1 (s.tilePlace e).2 s).andThen fun _ s =>
      (tileSource ac (s.tilePlace e).1 (s.tilePlace e).2 s).andThen fun x s => .done () (s.wrElem vd e x)) s)

/-- `mav` (R211). -/
def execMav (ac : Bool) (va : VReg) (km : BitVec 3) (s : State) : Out :=
  let i := Instr.mav ac va km
  runPosted i s ((vregOk i va s).andThen fun _ s => transfer i ac true none km (fun _ e s =>
    (checksumOk ac (s.tilePlace e).1 (s.tilePlace e).2 s).andThen fun _ s =>
      (rdElem va e s).andThen fun x s => .done () (s.tileWrite ac (s.tilePlace e).1 (s.tilePlace e).2 x)) s)

end Sys2Proof.Machine
end

