-- ==== Sys2Proof/Machine/Engine.lean ====
section
/-!
DEFINITION. The engines: copies (10 section 10.9), collectives (10.10), sequence rows and launches from the device (10.11), the
retired opcode `mop8` (R370).
-/

namespace Sys2Proof.Machine

/-! ## Accesses of an engine -/

/-- What stops an engine: a translation fault with its reason, a failed check of Table 18.6, a place that refuses the access, poison at a physical
address. -/
inductive Stop where
  | translation (reason : BitVec 8)
  | denied
  | refused
  | error (pa : Nat)
  deriving DecidableEq, Repr

/-- The parts in which an engine goes through a range (R274): aligned 8-byte units whole, where they stay together, every other byte on its
own. -/
def enginePieces (whole : Bool) (va : Word) (n : Nat) : List (Word × Nat) :=
  let head := if whole then min n ((8 - va.toNat % 8) % 8) else n
  let units := (n - head) / 8
  ((List.range head).map fun i => (va + BitVec.ofNat 64 i, 1)) ++
    ((List.range units).map fun i => (va + BitVec.ofNat 64 (head + 8 * i), 8)) ++
    ((List.range (n - head - 8 * units)).map fun i => (va + BitVec.ofNat 64 (head + 8 * units + i), 1))

/-- A part read for a context at a level (R66, R306, R374), as a reader sees it. The collective engine reads no tagged state (R265). -/
def State.engineRead (s : State) (who : Option Reader) (asid : BitVec 12) (root : BitVec 40) (level : Bool) (va : Word) (n : Nat) :
    (List Byte ⊕ Stop) × State :=
  match s.translate asid root level va .load with
  | (.fault r _, s) => (.inr (if r = 3#8 then .denied else .translation r), s)
  | (.ok pa _, s) =>
    if s.regionRefuses pa .load then (.inr .refused, s)
    else
      match s.region pa with
      | .window core off =>
        if (who.map (·.path)) == some .collective then (.inr .refused, s)
        else if 0x300000 ≤ off then (.inl (s.crPageRead asid core off n), s)
        else if s.windowPoisoned asid core off n then (.inr (.error pa), s)
        else
          let r := s.windowViewed who asid core off n
          (.inl r.1, r.2)
      | .info => (.inl ((List.range n).map fun i => s.infoByte (pa % 4096 + i)), s)
      | _ =>
        if s.poisoned pa n then (.inr (.error pa), s)
        else
          let r := s.viewedBy who 0#16 pa (s.bytes pa n)
          (.inl r.1, r.2)

/-- Parts read one after another, up to the first stop. -/
def State.readAll (s : State) (who : Option Reader) (asid : BitVec 12) (root : BitVec 40) (level : Bool) :
    List (Word × Nat) → (List Byte × Option Stop) × State
  | [] => (([], none), s)
  | (va, n) :: ps =>
    match s.engineRead who asid root level va n with
    | (.inr e, s) => (([], some e), s)
    | (.inl bs, s) =>
      let r := s.readAll who asid root level ps
      ((bs ++ r.1.1, r.1.2), r.2)

/-- Bytes read up to the first stop. -/
def State.engineReads (s : State) (who : Option Reader) (asid : BitVec 12) (root : BitVec 40) (level whole : Bool) (va : Word) (n : Nat) :
    (List Byte × Option Stop) × State :=
  s.readAll who asid root level (enginePieces whole va n)

/-- Where a part may be written for a context (R251): core windows, the information page and what a peer bars (R387) refuse it. -/
def State.enginePlace (s : State) (asid : BitVec 12) (root : BitVec 40) (level : Bool) (va : Word) : (Nat ⊕ Stop) × State :=
  match s.translate asid root level va .store with
  | (.fault r _, s) => (.inr (if r = 3#8 then .denied else .translation r), s)
  | (.ok pa _, s) =>
    match s.region pa with
    | .window _ _ => (.inr .refused, s)
    | _ => if s.regionRefuses pa .store then (.inr .refused, s) else (.inl pa, s)

/-- The places of parts, up to the first stop. -/
def State.placeAll (s : State) (asid : BitVec 12) (root : BitVec 40) (level : Bool) :
    List (Word × Nat) → (List (Nat × Nat) × Option Stop) × State
  | [] => (([], none), s)
  | (va, n) :: ps =>
    match s.enginePlace asid root level va with
    | (.inr e, s) => (([], some e), s)
    | (.inl pa, s) =>
      let r := s.placeAll asid root level ps
      (((pa, n) :: r.1.1, r.1.2), r.2)

/-- The places of bytes to be written, part by part, up to the first stop. -/
def State.enginePlaces (s : State) (asid : BitVec 12) (root : BitVec 40) (level whole : Bool) (va : Word) (n : Nat) :
    (List (Nat × Nat) × Option Stop) × State :=
  s.placeAll asid root level (enginePieces whole va n)

/-- One part written by an engine for a strand: other observers may see it late (R279). `e` says whose store it is. -/
def State.engineWrite (s : State) (e : Late) (pa : Nat) (bs : List Byte) : State :=
  (s.putBytes pa bs).addLate { e with pa := pa, old := s.bytes pa bs.length }

/-- Parts written one after another, as far as their bytes have been read. -/
def State.engineWrites (s : State) (e : Late) : List (Nat × Nat) → List Byte → State
  | [], _ => s
  | (pa, n) :: ps, bs => if n ≤ bs.length then (s.engineWrite e pa (bs.take n)).engineWrites e ps (bs.drop n) else s

/-- Bytes of a list of parts. -/
def placedBytes (ps : List (Nat × Nat)) : Nat := ps.foldl (fun n p => n + p.2) 0

/-- Whether two ranges keep their aligned 8-byte units together (R274). -/
def sameUnits (a b : Word) : Bool := a.toNat % 8 == b.toNat % 8

/-! ## Copies (R250 to R255) -/

/-- Whether a copy's descriptor is in use: it is not complete, or its fault has not been delivered. -/
def Copy.inUse (c : Copy) : Bool :=
  match c.state with
  | .running => true
  | .done _ => false
  | .stopped _ _ _ _ => !c.reported

/-- The copies of a strand that are not complete. -/
def State.openCopies (s : State) : List Copy := s.copies.filter fun c => c.uid == s.thr.uid && c.inUse

/-- The batches that are closed and outstanding (R254). -/
def State.closedBatches (s : State) : List Nat :=
  ((s.openCopies.filter fun c => decide (c.batch < s.thr.batch)).map (·.batch)).eraseDups

/-- Whether the open batch holds a copy. -/
def State.openBatch (s : State) : Bool := s.copies.any fun c => c.uid == s.thr.uid && c.batch == s.thr.batch

/-- Whether a cluster's 128 descriptors are in use. -/
def State.descriptorsFull (s : State) : Bool := decide (128 ≤ (s.copies.filter fun c => c.cluster == s.cluster && c.inUse).length)

/-- A copy put into the open batch (R251): rd receives the engine's estimate of its completion. -/
def State.issueCopy (s : State) (rd : SReg) (c : Copy) : State :=
  let promise := s.counter s.cluster + (Config.copyEstimate s.free).setWidth 64
  let c := { c with id := s.nextId, uid := s.thr.uid, cluster := s.cluster, batch := s.thr.batch, asid := s.thr.asid, launch := s.thr.launch, core := coreOf s.cur,
                    root := s.thr.root, level := s.thr.level, promise := promise }
  ({ s with copies := if c.len = 0 then s.copies else s.copies ++ [c], nextId := s.nextId + 1, free := s.free + 1 }).setReg rd promise

/-- A copy as issued, before its strand is filled in. -/
def Copy.fresh (dst src : Word) (len rows : Nat) (dstr sstr : Int) (tok : Option (BitVec 32)) : Copy :=
  { id := 0, uid := 0, launch := 0, core := 0, cluster := 0, batch := 0, asid := 0#12, root := 0#40, level := false, toToken := tok, dst := dst, src := src,
    len := len, rows := rows, dstr := dstr, sstr := sstr, promise := 0#64, state := .running, reported := false }

/-- PROT, where an address lies in a core window, whatever its page permits (R251, R265). -/
def windowBarred (k : Access) (va : Word) (s : State) : Res Unit :=
  match s.place s.thr.asid s.thr.root va with
  | (some pa, s) =>
    match s.region pa with
    | .window _ _ => .trap ⟨Cause.prot, k.detail, va⟩ s
    | _ => .done () s
  | (none, s) => .done () s

/-- `cpy` (R251). The length in rd is read behind the two addresses, as R231 has it for an atomic (DEDUCED, log entry 55). -/
def execCpy (rd ra rb : SReg) (twoD : Bool) (s : State) : Out :=
  runControl s (whenResolved s fun s => (readReg ra s).andThen fun d s => (readReg rb s).andThen fun f s =>
    (readReg rd s).andThen fun n s =>
      if 2 ^ 32 < n.toNat then wordTrap Cause.shape 0#8 (.cpy rd ra rb twoD) s
      else
        (if n = 0#64 then Res.done () s else windowBarred .store d s).andThen fun _ s =>
          if s.descriptorsFull then .wait s
          else
            let sh := s.ucr.cpyshape
            let c := if twoD then
                Copy.fresh d f n.toNat ((sh.extractLsb' 0 12).toNat + 1) (sh.extractLsb' 38 26).toInt (sh.extractLsb' 12 26).toInt none
              else Copy.fresh d f n.toNat 1 0 0 none
            .done .fall (s.issueCopy rd c))

/-- `cpyw` (R253). rd is read last (DEDUCED, log entry 55). -/
def execCpyw (rd ra rb : SReg) (s : State) : Out :=
  runControl s (whenResolved s fun s => (readReg ra s).andThen fun f s => (readReg rb s).andThen fun tok s =>
    (readReg rd s).andThen fun n s =>
      let len := (n.extractLsb' 0 32).toNat
      let off := (n.extractLsb' 32 23).toNat
      if n.extractLsb' 55 9 ≠ 0#9 ∨ 0x300000 < off + len then wordTrap Cause.shape 0#8 (.cpyw rd ra rb) s
      else if s.descriptorsFull then .wait s
      else .done .fall (s.issueCopy rd (Copy.fresh (BitVec.ofNat 64 off) f len 1 0 0 (some (tok.extractLsb' 0 32)))))

/-- The open batch closed (R254): one that holds no copy makes no batch. -/
def State.closeBatch (s : State) : State := if s.openBatch then s.mapThr fun t => { t with batch := t.batch + 1 } else s

/-- `cbatch` (R254). -/
def execCbatch (s : State) : Out :=
  runControl s (whenResolved s fun s => if s.openBatch && decide (16 ≤ s.closedBatches.length) then .wait s else .done .fall s.closeBatch)

/-- The oldest stopped copy whose fault a `cwait` or `csleep` that covers it delivers (R255): it counts as complete from then on. A failed
check of Table 18.6 is recorded in TFLT as it is delivered (R312; log entry 16). -/
def State.reportStop (s : State) (covers : Copy → Bool) : Option (Trap × State) :=
  match s.copies.find? fun c => c.uid == s.thr.uid && covers c && !c.reported && (match c.state with | .stopped _ _ _ _ => true | _ => false) with
  | some c =>
    match c.state with
    | .stopped cause detail va denied =>
      let s := { s with copies := s.copies.map fun x => if x.id = c.id then { x with reported := true } else x }
      some (⟨cause, detail, va⟩, if denied then s.mapSys fun c => { c with tfltReason := 3#8, tfltLevel := 0#3 } else s)
    | _ => none
  | none => none

/-- Whether a copy of a completed batch completed GONE. -/
def Copy.wentGone (c : Copy) : Bool := c.state == .done true

/-- `cwait` (R254, R255). -/
def execCwait (ra : SReg) (s : State) : Out :=
  runControl s (whenResolved s fun s => (readReg ra s).andThen fun n s =>
    let s := s.closeBatch
    match s.reportStop fun c => decide (c.batch < s.thr.batch) with
    | some (t, s) => .trap t s
    | none =>
      if n.toNat < s.closedBatches.length then .wait s
      else
        let out := s.closedBatches
        let mine := fun (c : Copy) => c.uid == s.thr.uid && decide (c.batch < s.thr.batch) && !out.contains c.batch
        let gone := s.copies.any fun c => mine c && c.wentGone
        .done .fall ({ s with copies := s.copies.filter fun c => !mine c }.setNstat (if gone then 1#2 else 0#2)))

/-- `csleep` (R254, R255): the wait ends at the counter's value; an incomplete copy that was promised by then raises PROMISE. -/
def execCsleep (ra : SReg) (s : State) : Out :=
  runControl s (whenResolved s fun s => (readReg ra s).andThen fun x s =>
    if (s.counter s.cluster).toNat < x.toNat then .wait (s.mapThr fun t => { t with sleep := some x })
    else
      let s := s.mapThr fun t => { t with sleep := none }
      match s.reportStop fun c => decide (c.promise.toNat ≤ x.toNat) with
      | some (t, s) => .trap t s
      | none =>
        if s.openCopies.any fun c => decide (c.promise.toNat ≤ x.toNat) then
          let n := s.closedBatches.length + (if s.openCopies.any fun c => c.batch == s.thr.batch then 1 else 0)
          .trap ⟨Cause.promise, 0#8, BitVec.ofNat 64 n⟩ s
        else .done .fall s)

/-- `rdcnt` (R250). -/
def execRdcnt (rd : SReg) (s : State) : Out := runControl s (.done .fall (s.setReg rd (s.counter s.cluster)))

/-! ## The engine performs a copy (R252, R255)

One event performs a copy whole, or up to the byte at which it stops (log entry 5). -/

/-- How far an engine's attempt at a copy came. -/
inductive Attempt where
  | complete (gone : Bool) (s : State)
  | stop (cause detail : BitVec 8) (va : Word) (denied : Bool) (s : State)
  | waits (s : State)

/-- A copy's engine as a reader, and its stores (Table 11.3, path C). -/
def Copy.reader (c : Copy) : Reader := { uid := c.uid, core := c.core, path := .copy, inst := c.id }
def Copy.late (c : Copy) : Late :=
  { uid := c.uid, core := c.core, launch := c.launch, way := { path := .copy, inst := c.id, ord := false, so := false }, pa := 0, old := [],
    gen := 0#16, perf := [], seen := [] }

/-- A copy that stops at a byte: poison that it consumes is logged (R383); a translation fault leaves it waiting. -/
def stopAt (e : Option Stop) (detail : BitVec 8) (va : Word) (s : State) : Attempt :=
  match e with
  | some .denied => .stop Cause.prot detail va true s
  | some .refused => .stop Cause.prot detail va false s
  | some (.error pa) => .stop Cause.errunc 0#8 va false (s.logConsumed pa)
  | _ => .waits s

/-- One row of a plain copy: every source byte is read before any destination byte is written (R252). -/
def State.copyRow (s : State) (c : Copy) (dst src : Word) : Attempt :=
  let whole := sameUnits dst src
  let r := s.engineReads (some c.reader) c.asid c.root c.level whole src c.len
  let w := r.2.enginePlaces c.asid c.root c.level whole dst c.len
  let read := r.1.1.length
  let placed := placedBytes w.1.1
  let done := w.2.engineWrites c.late w.1.1 r.1.1
  if read = c.len ∧ placed = c.len then .complete false done
  else if read ≤ placed then stopAt r.1.2 0#8 (src + BitVec.ofNat 64 read) done
  else stopAt w.1.2 1#8 (dst + BitVec.ofNat 64 placed) done

/-- The rows of a plain copy in ascending order. A translation fault in any row leaves the whole copy waiting. -/
def State.copyRows (s : State) (c : Copy) : List Nat → State → Attempt
  | [], t => .complete false t
  | i :: is, t =>
    let dst := c.dst + wordOfInt (i * c.dstr)
    let src := c.src + wordOfInt (i * c.sstr)
    match t.copyRow c dst src with
    | .complete _ t => s.copyRows c is t
    | .stop a b v d t => .stop a b v d t
    | .waits t => .waits { s with walks := t.walks, badFrames := t.badFrames, dropping := t.dropping, free := t.free, elog := t.elog, mod := t.mod }

/-- The bytes of a `cpyw` put into a slot's window from an offset on, each under the pool's generation that the strand there has (R65). -/
def State.putWindow (s : State) (k off : Nat) (bs : List Byte) : State :=
  let t := s.getThr k
  let s := s.writeForeign k (windowAddr (coreOf k) off) (bs.take (0x80000 - off)) t.genV
  let s := s.writeForeign k (windowAddr (coreOf k) (max off 0x80000)) ((bs.drop (0x80000 - off)).take (0x100000 - max off 0x80000)) t.genA
  s.writeForeign k (windowAddr (coreOf k) (max off 0x100000)) (bs.drop (0x100000 - off)) t.genP

/-- The bytes of a `cpyw` (R253, R65, R349, R377): dropped, and the copy GONE, where the token is stale, the target of another
context, or its core offline. They carry the target's generation (log entry 25). -/
def State.copyWindow (s : State) (c : Copy) (tok : BitVec 32) : Attempt :=
  let off := c.dst.toNat
  let r := s.engineReads (some c.reader) c.asid c.root c.level (sameUnits c.dst c.src) c.src c.len
  let target := (r.2.liveToken tok).filter fun k => (c.level || (r.2.getThr k).asid == c.asid) && !r.2.offline (coreOf k)
  let done := match target with
    | some k => r.2.putWindow k off r.1.1
    | none => r.2
  match r.1.2 with
  | none => .complete target.isNone done
  | some (.translation _) => .waits r.2
  | e => stopAt e 0#8 (c.src + BitVec.ofNat 64 r.1.1.length) done

/-- The engine's attempt at a copy. -/
def State.attempt (s : State) (c : Copy) : Attempt :=
  match c.toToken with
  | some tok => s.copyWindow c tok
  | none => s.copyRows c (List.range c.rows) s

/-- The state with a copy's standing replaced. -/
def State.setCopy (s : State) (id : Nat) (x : CopyState) : State :=
  { s with copies := s.copies.map fun c => if c.id = id then { c with state := x } else c }

/-- The running copy of a number. -/
def State.runningCopy (s : State) (id : Nat) : Option Copy := s.copies.find? fun c => c.id == id && c.state == .running

/-- A copy completes (R252): nothing happens while something stops it. -/
def execCopyComplete (id : Nat) (s : State) : Out :=
  .next (match s.runningCopy id with
    | some c =>
      match s.attempt c with
      | .complete gone t => t.setCopy id (.done gone)
      | _ => s
    | none => s)

/-- A copy meets PROT or an uncorrectable error and stops there (R255). -/
def execCopyStop (id : Nat) (s : State) : Out :=
  .next (match s.runningCopy id with
    | some c =>
      match s.attempt c with
      | .stop cause detail va denied t => t.setCopy id (.stopped cause detail va denied)
      | _ => s
    | none => s)

/-- A copy meets a translation fault and waits (R255): it copies nothing more until the fault has been serviced. -/
def execCopyTranslationFault (id : Nat) (s : State) : Out :=
  .next (match s.runningCopy id with
    | some c =>
      match s.attempt c with
      | .waits t => t
      | _ => s
    | none => s)

/-! ## Collectives (R256, R257, R265, R389) -/

/-- The pages of a range, for the check at issue. -/
def rangePages (va : Word) (n : Nat) : List Word :=
  if n = 0 then []
  else (List.range ((va.toNat % 4096 + n - 1) / 4096 + 1)).map fun i => if i = 0 then va else BitVec.ofNat 64 ((va.toNat / 4096 + i) * 4096)

/-- A failed check of Table 18.6 (R312). -/
def pageAllows (k : Access) (va : Word) (s : State) : Res Unit :=
  match s.translate s.thr.asid s.thr.root s.thr.level va k with
  | (.fault r l, s) =>
    if r = 3#8 then .trap ⟨Cause.prot, k.detail, va⟩ (s.mapSys fun c => { c with tfltReason := r, tfltLevel := BitVec.ofNat 3 l })
    else .done () s
  | (.ok _ _, s) => .done () s

/-- The check of a collective's range at issue, page by page: one that reaches a core window traps PROT (R265), and so does a failed check of
Table 18.6 where the strand's range is accessed. A page that does not translate holds the collective later (log entry 26). -/
def noWindow (k : Access) (accessed : Bool) : List Word → State → Res Unit
  | [], s => .done () s
  | va :: vas, s =>
    (windowBarred k va s).andThen fun _ s => (if accessed then pageAllows k va s else .done () s).andThen fun _ s => noWindow k accessed vas s

/-- The entry of the domain table for a context (R389, Table 23.3). -/
def State.domain (s : State) (asid : BitVec 12) : Word :=
  if s.mod.xdtab = 0#40 then 0#64 else s.word (frameAddr s.mod.xdtab + 8 * asid.toNat)

/-- The modules of a context's domain, and this one's position. -/
def State.modules (s : State) (asid : BitVec 12) : Nat × Nat :=
  (((s.domain asid).extractLsb' 40 6).toNat + 1, ((s.domain asid).extractLsb' 32 6).toNat)

/-- The kernel's name of a launch (Table 19.1). -/
def State.kernelOf (s : State) (launch : Nat) : Word := ((s.launches.find? fun l => l.id == launch).map fun l => l.record.get 0).getD 0#64

/-- Members of a group on the modules below a position (R389): those of the launches there that carry the same kernel name. -/
def peersBelow (launch : Nat) (name : Word) (g here : Nat) : Nat → Nat
  | 0 => 0
  | p + 1 => peersBelow launch name g here p + (if p = here then 0 else (Config.peerMembers launch name p g).toNat)

/-- The members of a group of the stepping strand's launch, on every module of its domain. -/
def State.globalMembers (s : State) (g : Nat) : Nat :=
  let m := s.modules s.thr.asid
  (s.members g).length + if m.1 = 1 then 0 else peersBelow s.thr.launch (s.kernelOf s.thr.launch) g m.2 m.1

/-- The collectives that a strand has outstanding. -/
def State.outstanding (s : State) : Nat :=
  (s.colls.filter fun c => c.status.isNone && c.parts.any fun p => p.uid == s.thr.uid).length

/-- A part added to the collective of its ticket. -/
def addPart (cs : List Collective) (launch group ticket id : Nat) (p : Contribution) : List Collective :=
  if cs.any fun c => c.launch == launch && c.group == group && c.ticket == ticket then
    cs.map fun c => if c.launch = launch ∧ c.group = group ∧ c.ticket = ticket then { c with parts := c.parts ++ [p] } else c
  else cs ++ [{ id := id, launch := launch, group := group, ticket := ticket, parts := [p], status := none }]

/-- Whether an operation reads the source of the stepping strand (Table 10.12): `xbc` reads that of the member of rank 0 alone. -/
def State.readsSource (s : State) (op : BitVec 2) (g : Nat) : Bool :=
  let m := s.modules s.thr.asid
  op != 1#2 || (rankIn (s.members g) s.thr.index +
    (if m.1 = 1 then 0 else peersBelow s.thr.launch (s.kernelOf s.thr.launch) g m.2 m.2) == 0)

/-- A collective is issued (R256): the strand's part joins the operation that its issue order on the group gives. The count in rd is read behind
the two addresses (DEDUCED, log entry 55). -/
def collective (i : Instr) (op : BitVec 2) (rd ra rb : SReg) (fmt : BitVec 4) (s : State) : Out :=
  runControl s (whenResolved s fun s => (readReg ra s).andThen fun src s => (readReg rb s).andThen fun dst s =>
    (readReg rd s).andThen fun n s =>
      let g := s.ucr.xgrp.toNat
      let size := fmtWidth fmt / 8
      if !s.isMember g || decide (2 ^ 32 < n.toNat * size) then wordTrap Cause.shape 0#8 i s
      else
        let total := if op = 2#2 then n.toNat * size * s.globalMembers g else n.toNat * size
        (noWindow .load (s.readsSource op g) (rangePages src (n.toNat * size)) s).andThen fun _ s =>
          (noWindow .store true (rangePages dst total) s).andThen fun _ s =>
            if 8 ≤ s.outstanding then .wait s
            else
              let k := Sparse.get 0 s.thr.tickets g
              let p : Contribution :=
                { uid := s.thr.uid, core := coreOf s.cur, rank := rankIn (s.members g) s.thr.index, op := op, fmt := fmt, n := n.toNat, src := src,
                  dst := dst, rank1 := s.ucr.rmode.getLsbD 1, asid := s.thr.asid, root := s.thr.root, level := s.thr.level }
              let s := { s with colls := addPart s.colls s.thr.launch g k s.nextId p, nextId := s.nextId + 1 }
              let s := s.mapThr fun t => { t with tickets := Sparse.put 0 t.tickets g (k + 1) }
              .done .fall (s.setReg rd (Config.firstTicket + BitVec.ofNat 64 k)))

/-- `xred` (R256). -/
def execXred (rd ra rb : SReg) (fmt : BitVec 4) (s : State) : Out := collective (.xred rd ra rb fmt) 0#2 rd ra rb fmt s
/-- `xbc` (R256). -/
def execXbc (rd ra rb : SReg) (fmt : BitVec 4) (s : State) : Out := collective (.xbc rd ra rb fmt) 1#2 rd ra rb fmt s
/-- `xag` (R256). -/
def execXag (rd ra rb : SReg) (fmt : BitVec 4) (s : State) : Out := collective (.xag rd ra rb fmt) 2#2 rd ra rb fmt s

/-- The worst status of a strand's collectives (R257). -/
def State.worstStatus (s : State) : Nat :=
  (s.colls.filter fun c => c.parts.any fun p => p.uid == s.thr.uid).foldl (fun w c => max w ((c.status.getD 0#2).toNat)) 0

/-- `xwait` (R257). -/
def execXwait (rd : SReg) (s : State) : Out :=
  runControl s (whenResolved s fun s =>
    if s.outstanding ≠ 0 then .wait s else .done .fall (s.setReg rd (BitVec.ofNat 64 s.worstStatus)))

/-- The sum of two elements of a collective (Table 10.12): floats RNE, integers wrap. -/
def addElems (fmt : BitVec 4) (a b : Nat) : Nat :=
  match Fmt.ofCode fmt with
  | some (.float f) => (f.add .rne a b).bits
  | some f => (a + b) % 2 ^ f.width
  | none => 0

/-- One level of the rank-order tree (R91): a last node without a sibling passes up. -/
def pairLevel (op : Nat → Nat → Nat) : List Nat → List Nat
  | a :: b :: rest => op a b :: pairLevel op rest
  | l => l

/-- The rank-order tree over contributions (R91). -/
def pairTree (op : Nat → Nat → Nat) : Nat → List Nat → Nat
  | 0, l => l.headD 0
  | n + 1, l => if l.length ≤ 1 then l.headD 0 else pairTree op n (pairLevel op l)

/-- The top two nodes of a stack joined, up to `n` times. -/
def mergeTop (op : Nat → Nat → Nat) : Nat → List Nat → List Nat
  | 0, st => st
  | n + 1, b :: a :: st => mergeTop op n (op a b :: st)
  | _ + 1, st => st

/-- A sum in an order and a tree that the device chooses (R91). -/
def pathTree (op : Nat → Nat → Nat) (free : Nat) (xs : List Nat) : Nat :=
  let order := sortRanked (fun i => (Config.collectiveRank free i).toNat) (List.range xs.length)
  let st := (order.zipIdx).foldl (fun st p =>
    mergeTop op (Config.collectiveMerges free p.2).toNat (xs.getD p.1 0 :: st)) []
  (mergeTop op st.length st).headD 0

/-- Elements of `w` bytes from bytes. -/
def elemsOf (w : Nat) (bs : List Byte) (n : Nat) : List Nat := (List.range n).map fun i => numOf ((bs.drop (i * w)).take w)

/-- A member's engine as a reader, and its stores (Table 11.3, path X), in a collective. -/
def Contribution.reader (p : Contribution) (coll : Nat) : Reader := { uid := p.uid, core := p.core, path := .collective, inst := coll }
def Contribution.late (p : Contribution) (launch coll : Nat) : Late :=
  { uid := p.uid, core := p.core, launch := launch, way := { path := .collective, inst := coll, ord := false, so := false }, pa := 0,
    old := [], gen := 0#16, perf := [], seen := [] }

/-- What a member contributes: where its elements stood, for a member on this module, and the elements. -/
structure Leaf where
  src : Option Word
  xs  : List Nat
  deriving DecidableEq, Repr

/-- Contributions read (R256), or what stops the engine. Units that some destination takes whole are read whole (R274). -/
def State.readParts (s : State) (coll w : Nat) (whole : Word → Bool) : List Contribution → (List Leaf × Option Stop) × State
  | [] => (([], none), s)
  | p :: ps =>
    match s.engineReads (some (p.reader coll)) p.asid p.root p.level (whole p.src) p.src (p.n * w) with
    | ((_, some e), s) => (([], some e), s)
    | ((bs, none), s) =>
      let r := s.readParts coll w whole ps
      (({ src := some p.src, xs := elemsOf w bs p.n } :: r.1.1, r.1.2), r.2)

/-- The contributions of every member in global rank order (R389): those of other modules are free values. -/
def globalLeaves (launch : Nat) (name : Word) (modules here g id n : Nat) (own : List Leaf) : List Leaf :=
  (List.range modules).flatMap fun p =>
    if p = here then own
    else
      (List.range (Config.peerMembers launch name p g).toNat).map fun r =>
        { src := none, xs := (List.range n).map fun e => (Config.peerElement id (peersBelow launch name g here p + r) e).toNat }

/-- Bytes that a destination receives, where, and whether their aligned units stay together (R274). -/
structure Block where
  va    : Word
  bytes : List Byte
  whole : Bool
  deriving DecidableEq, Repr

/-- A block copied from a contribution. -/
def Leaf.block (l : Leaf) (w : Nat) (va : Word) : Block :=
  { va := va, bytes := l.xs.flatMap fun x => bytesOf w x, whole := (l.src.map fun a => sameUnits va a).getD false }

/-- The blocks that each member's destination receives (Table 10.12). Where the members' RMODE[1] differ, each destination goes by its own
member's bit, as it stood at that member's issue (DESIGN CHOICE, log entry 26: R91 does not say whose bit counts, or when). -/
def collectiveResult (op : BitVec 2) (fmt : BitVec 4) (n free : Nat) (leaves : List Leaf) (p : Contribution) : List Block :=
  let w := fmtWidth fmt / 8
  if op = 0#2 then
    let sum := fun (e : Nat) =>
      let col := leaves.map fun l => l.xs.getD e 0
      if p.rank1 then pairTree (addElems fmt) col.length col else pathTree (addElems fmt) free col
    [{ va := p.dst, bytes := (List.range n).flatMap fun e => bytesOf w (sum e), whole := false }]
  else if op = 1#2 then (leaves.take 1).map fun l => l.block w p.dst
  else leaves.zipIdx.map fun (l, r) => l.block w (p.dst + BitVec.ofNat 64 (r * n * w))

/-- The parts of a member's destination, each with its place and its bytes; or what stops the engine. -/
def State.placeBlocks (s : State) (p : Contribution) : List Block → (List (List (Nat × Nat) × List Byte) × Option Stop) × State
  | [] => (([], none), s)
  | b :: bs =>
    match s.enginePlaces p.asid p.root p.level b.whole b.va b.bytes.length with
    | ((_, some e), s) => (([], some e), s)
    | ((ps, none), s) =>
      let r := s.placeBlocks p bs
      (((ps, b.bytes) :: r.1.1, r.1.2), r.2)

/-- The parts of every member's destination. -/
def State.placeParts (s : State) : List (Contribution × List Block) →
    (List (Contribution × List (List (Nat × Nat) × List Byte)) × Option Stop) × State
  | [] => (([], none), s)
  | (p, bs) :: rest =>
    match s.placeBlocks p bs with
    | ((_, some e), s) => (([], some e), s)
    | ((ws, none), s) =>
      let r := s.placeParts rest
      (((p, ws) :: r.1.1, r.1.2), r.2)

/-- The launch's strand of an index has ended: it was bound once and is neither bound nor saved. -/
def State.strandEnded (s : State) (launch index : Nat) : Bool :=
  match s.launches.find? fun l => l.id == launch with
  | some l =>
    decide (index < l.bound) &&
    !s.keys.any (fun k => let t := s.getThr k; t.bound && t.launch == launch && t.index == index && t.parent.isNone) &&
    !s.saved.any fun v => v.thread.launch == launch && v.thread.index == index && v.thread.parent.isNone
  | none => true

/-- The group members of a collective's launch. -/
def State.collMembers (s : State) (c : Collective) : List Nat :=
  ((s.launches.find? fun l => l.id == c.launch).map fun l => l.groups.getD c.group []).getD []

/-- Whether a member of the group has ended without its part (R257). -/
def State.abandoned (s : State) (c : Collective) : Bool :=
  ((s.collMembers c).zipIdx).any fun (index, rank) => !c.parts.any (fun p => p.rank == rank) && s.strandEnded c.launch index

/-- Whether the members gave different operations, formats or counts (R257). -/
def Collective.mismatched (c : Collective) : Bool :=
  match c.parts with
  | [] => false
  | p :: ps => ps.any fun q => q.op != p.op || q.fmt != p.fmt || q.n != p.n

/-- The state with a collective's status written. -/
def State.setStatus (s : State) (id : Nat) (st : BitVec 2) : State :=
  { s with colls := s.colls.map fun c => if c.id = id then { c with status := some st } else c }

/-- The contributions that an operation reads (Table 10.12): of `xbc` only the source of the member of rank 0, if it is on this module. -/
def sourceParts (op : BitVec 2) (lower : Nat) (parts : List Contribution) : List Contribution :=
  if op = 1#2 then (if lower = 0 then parts.take 1 else []) else parts

/-- A collective that something stops: a translation fault leaves it waiting, PROT or poison ends it with status 1 and nothing written (log
entry 26); poison that it consumes is logged (R383). -/
def State.stopCollective (s : State) (id : Nat) : Stop → State
  | .translation _ => s
  | .error pa => (s.logConsumed pa).setStatus id 1#2
  | _ => s.setStatus id 1#2

/-- A collective whose parts have all arrived is performed (R256). -/
def State.performCollective (s : State) (c : Collective) (p : Contribution) : State :=
  let w := fmtWidth p.fmt / 8
  let parts := sortRanked (fun i => (c.parts.getD i p).rank) (List.range c.parts.length) |>.map fun i => c.parts.getD i p
  let (modules, here) := s.modules p.asid
  let name := s.kernelOf c.launch
  let here := if modules = 1 then 0 else here
  let whole := fun (a : Word) => p.op ≠ 0#2 && parts.any fun q => sameUnits q.dst a
  match s.readParts c.id w whole (sourceParts p.op (peersBelow c.launch name c.group here here) parts) with
  | ((_, some e), t) => t.stopCollective c.id e
  | ((own, none), t) =>
    let leaves := globalLeaves c.launch name modules here c.group c.id p.n own
    match t.placeParts (parts.map fun q => (q, collectiveResult p.op p.fmt p.n t.free leaves q)) with
    | ((_, some e), t) => t.stopCollective c.id e
    | ((ws, none), t) =>
      (ws.foldl (fun t w => w.2.foldl (fun t b => t.engineWrites (w.1.late c.launch c.id) b.1 b.2) t) t.tick).setStatus c.id 0#2

/-- A collective completes (R256, R257): abandoned, mismatched, ended by another module's parts, or performed. -/
def execCollectiveComplete (id : Nat) (s : State) : Out :=
  .next (match s.colls.find? fun c => c.id == id && c.status.isNone with
    | none => s
    | some c =>
      if s.abandoned c then s.setStatus id (if c.mismatched then 2#2 else 1#2)
      else if c.parts.length < (s.collMembers c).length then s
      else if c.mismatched then s.setStatus id 2#2
      else
        match c.parts with
        | [] => s
        | p :: _ =>
          if (s.modules p.asid).1 = 1 then s.performCollective c p
          else if Config.peerStatus id = 1#2 ∨ Config.peerStatus id = 2#2 then s.setStatus id (Config.peerStatus id)
          else s.performCollective c p)

/-- A headland link fails (R388): a collective that may use it ends with status 1, and the error is logged. -/
def execHeadlandLinkFail (link : BitVec 4) (s : State) : Out :=
  let uses := fun (c : Collective) => c.status.isNone && c.parts.any fun p =>
    decide ((s.modules p.asid).1 ≠ 1) && ((s.domain p.asid).extractLsb' 0 16).getLsbD link.toNat
  let s := { s with colls := s.colls.map fun c => if uses c then { c with status := some 1#2 } else c }
  let s := s.logError 7#8 0xFF#8 1#2 (link.setWidth 64) 4#4
  .next (s.mapMod fun m => { m with hlstat := m.hlstat &&& ~~~(1#16 <<< link.toNat) })

/-- A headland link is trained (R388). -/
def execHeadlandLinkTrained (link : BitVec 4) (s : State) : Out :=
  .next (s.mapMod fun m => { m with hlstat := m.hlstat ||| (1#16 <<< link.toNat) })

/-! ## Sequence rows (R258, R259, R337, R338, R348) -/

/-- Whether a row that carries a token is claimed (R338, R348): by a bound or a parked strand, in whose claim set it is. -/
def State.rowClaimed (s : State) (tok : BitVec 32) (name : Word) (row : Nat) : Bool :=
  (match s.liveToken tok with
   | some k => (s.getThr k).claims.contains (name, row)
   | none => false) ||
  s.parked.any fun p => p.token == tok && p.claims.contains (name, row)

/-- Byte 0 of a row. -/
def rowByte (x : Nat) : Nat := x % 256
/-- Bytes 8 to 11 of a row. -/
def rowToken (x : Nat) : BitVec 32 := BitVec.ofNat 32 (x / 2 ^ 64)

/-- The first 12 bytes of a row with byte 0 and bytes 8 to 11 replaced. -/
def rowWith (x b : Nat) (tok : BitVec 32) : Nat := b + (x / 256 % 2 ^ 56) * 256 + tok.toNat * 2 ^ 64

/-- Whether a row is a candidate for a phase (R258, R348). -/
def State.candidate (s : State) (name : Word) (row f x : Nat) : Bool :=
  rowByte x == f || (rowByte x == f + 128 && !s.rowClaimed (rowToken x) name row)

/-- The lowest candidate among rows from one on (R258): its index, place and first 12 bytes. -/
def findRow (name loc : Word) (f : Nat) : Nat → Nat → State → Res (Option (Nat × Nat × Nat))
  | 0, _, s => .done none s
  | n + 1, row, s =>
    let va := loc + BitVec.ofNat 64 (64 * row)
    (locateAtomic va false s).andThen fun p s => (atomicCheck p va 12 s).andThen fun _ s =>
      let x := s.atomicRead p.pa 12
      let s := s.atomicSees .scalar p.pa 12
      if s.candidate name row f x then .done (some (row, p.pa, x)) s else findRow name loc f n (row + 1) s

/-- The stepping strand's token. -/
def State.token (s : State) : BitVec 32 := tokenOf s.cur s.thr

/-- `glean` (R258, R337): an acquire where it claims a row. -/
def execGlean (rd ra rb : SReg) (s : State) : Out :=
  runControl s (whenResolved s fun s => (readReg ra s).andThen fun name s => (readReg rb s).andThen fun f s =>
    if 128 ≤ f.toNat then wordTrap Cause.shape 0#8 (.glean rd ra rb) s
    else
      (classTablesOk 5 name s).andThen fun _ s =>
      let (r, s) := s.resolveHere 5 name
      let s := s.setNstat r.st
      if 8 ≤ s.thr.claims.length then .done .fall (s.setReg rd (wordOfInt (-2)))
      else if r.st ≠ Nstat.live then .done .fall (s.setReg rd (wordOfInt (-1)))
      else
        (findRow name r.loc f.toNat (r.size / 64) 0 s).andThen fun hit s =>
          match hit with
          | none => .done .fall (s.setReg rd (wordOfInt (-1)))
          | some (row, pa, x) =>
            let s := s.atomicWrite Path.scalar.plain pa 12 (rowWith x (f.toNat + 128) s.token)
            let s := s.mapThr fun t => { t with claims := t.claims ++ [(name, row)] }
            .done .fall (s.acquireBoth.setReg rd (BitVec.ofNat 64 row)))

/-- `gadv` (R259, R348). The name in rd is read behind ra and rb (DEDUCED, log entry 55). -/
def execGadv (rd ra rb : SReg) (s : State) : Out :=
  runControl s (whenResolved s fun s => (readReg ra s).andThen fun row s => (readReg rb s).andThen fun f s =>
    (readReg rd s).andThen fun name s =>
      if 128 ≤ f.toNat then wordTrap Cause.shape 0#8 (.gadv rd ra rb) s
      else
        (classTablesOk 5 name s).andThen fun _ s =>
        let s := s.releaseDevice
        let (r, s) := s.resolveHere 5 name
        let s := s.setNstat r.st
        if r.st ≠ Nstat.live then .done .fall (s.setReg rd 2#64)
        else if r.size / 64 ≤ row.toNat then .done .fall (s.setReg rd 3#64)
        else
          let va := r.loc + row * 64#64
          (locateAtomic va false s).andThen fun p s => (atomicCheck p va 12 s).andThen fun _ s =>
            let x := s.atomicRead p.pa 12
            let s := s.atomicSees .scalar p.pa 12
            if 128 ≤ rowByte x ∧ rowToken x = s.token ∧ s.thr.claims.contains (name, row.toNat) = true then
              let s := s.atomicWrite Path.scalar.plain p.pa 12 (rowWith x f.toNat 0#32)
              let s := s.mapThr fun t => { t with claims := t.claims.filter fun c => c ≠ (name, row.toNat) }
              .done .fall (s.setReg rd 0#64)
            else .done .fall (s.setReg rd 1#64))

/-! ## Launches (R260, R320 to R322) -/

/-- Fields of a launch record (Table 19.1). -/
def LaunchRec.bits (r : LaunchRec) (i : Fin 16) (hi lo : Nat) : Nat := bitsOf (r.get i).toNat hi lo

/-- Why the record checks refuse a record (R322, Table 19.2); none for one that passes. A record that fails several checks gets the lowest reason
(DESIGN CHOICE, log entry 56: no rule orders them). -/
def LaunchRec.refusal (r : LaunchRec) : Option (BitVec 8) :=
  let zeros := decide (bitsOf (r.get 1).toNat 63 46 = 0 ∧ bitsOf (r.get 1).toNat 39 33 = 0 ∧ bitsOf (r.get 2).toNat 63 36 = 0 ∧
    bitsOf (r.get 3).toNat 63 56 = 0 ∧ bitsOf (r.get 4).toNat 63 31 = 0 ∧ bitsOf (r.get 9).toNat 63 11 = 0) &&
    [10, 11, 12, 13, 14, 15].all fun i => r.toList.getD i 0#64 == 0#64
  let count := bitsOf (r.get 1).toNat 31 0
  let scratch := bitsOf (r.get 2).toNat 31 0
  let argsz := bitsOf (r.get 4).toNat 15 0
  if count = 0 ∨ 2 ^ 20 < count then some 1#8
  else if !zeros || decide (bitsOf (r.get 4).toNat 25 24 = 3) then some 2#8
  else if bitsOf (r.get 2).toNat 35 34 = 3 ∨ scratch % 64 ≠ 0 ∨ 0x200000 < scratch ∨ argsz % 8 ≠ 0 ∨ 4096 < argsz then some 3#8
  else if (r.get 3).toNat % 8 ≠ 0 ∨ (r.get 5).toNat % 8 ≠ 0 ∨ (r.get 6).toNat % 8 ≠ 0 ∨ (r.get 8).toNat % 16 ≠ 0 ∨
      1024 < bitsOf (r.get 9).toNat 10 0 then some 4#8
  else none

/-- PRIO of a launch record. -/
def Launch.prio (l : Launch) : Nat := bitsOf (l.record.get 4).toNat 28 26

/-- A launch put into its queue's order (R320): behind every launch of its own or a higher PRIO, and behind one that has been accepted: its
strands are binding, and it keeps the head (R331). -/
def enqueueAt (ls : List Launch) (id prio : Nat) : List Nat → List Nat
  | [] => [id]
  | x :: xs =>
    if (ls.find? fun l => l.id == x).any fun l => l.accepted || decide (prio ≤ l.prio) then x :: enqueueAt ls id prio xs else id :: x :: xs

/-- A launch as enqueued. -/
def Launch.fresh (id : Nat) (q : Queue) (r : LaunchRec) : Launch :=
  { id := id, queue := q.name, owner := q.owner, root := 0#40, record := r, accepted := false, groups := [], scopes := [], bound := 0,
    finished := 0, ended := 0, err := none, codeBase := 0#64, version := 0#32 }

/-- A record enqueued (R320). -/
def State.enqueue (s : State) (q : Queue) (r : LaunchRec) : State :=
  let l := Launch.fresh s.nextId q r
  let ls := s.launches ++ [l]
  { s with
    launches := ls, nextId := s.nextId + 1
    queues := s.queues.map fun x => if x.name = q.name then { x with waiting := enqueueAt ls l.id l.prio x.waiting } else x }

/-- `lenq` past the record read (R260 steps 2 to 5): rd and NSTAT. A live name that no queue was created under answers as UNKNOWN
(log entry 29). -/
def State.lenqueue (s : State) (name : Word) (r : LaunchRec) : Nat × BitVec 2 × State :=
  let (x, s) := s.resolveHere 3 name
  if x.st ≠ Nstat.live then (x.st.toNat, x.st, s)
  else
    match s.queues.find? fun q => q.name == name with
    | none => (3, Nstat.unknown, s)
    | some q =>
      if q.owner ≠ s.thr.asid then (2, Nstat.denied, s)
      else if r.refusal.isSome || s.ctxState q.owner ≠ 1 then (5, Nstat.live, s)
      else if q.depth ≤ q.waiting.length then (4, Nstat.live, s)
      else (0, Nstat.live, s.enqueue q r)

/-- `lenq` (R260). -/
def execLenq (rd ra rb : SReg) (s : State) : Out :=
  runControl s (whenResolved s fun s => (readReg ra s).andThen fun name s => (readReg rb s).andThen fun b s =>
    (loadBlock b 128 16 s).andThen fun ws s => (classTablesOk 3 name s).andThen fun _ s =>
      let (x, st, s) := s.releaseDevice.lenqueue name (toWords 16 ws)
      .done .fall ((s.setNstat st).setReg rd (BitVec.ofNat 64 x)))

/-! ## The retired opcode (R131, R132, R369, R370) -/

/-- `mop8`: it traps RETIRED to system software, and RETCNT and RCMOP8 count it. -/
def execMop8 (rd ra rb : SReg) (fn : BitVec 7) (s : State) : Out :=
  runControl s (wordTrap Cause.retired 0#8 (.mop8 rd ra rb fn) (s.countRetired.mapMod fun m => { m with rcMop8 := m.rcMop8 + 1#64 }))

end Sys2Proof.Machine
end

