-- ==== Sys2Proof/Machine/System.lean ====
section
/-!
DEFINITION. Control registers (R152, R153; Tables 2.5, 17.1, 18.1, 19.5, 20.3, 21.1, 22.3, 23.5), the commands that their writes
start (R315, R318, R360, R383), traps on purpose, `eret`, `halt`, `ecls`.
-/

namespace Sys2Proof.Machine

/-! ## User control registers (R6, R398) -/

/-- A user CR written by its access code and its bits (Tables 2.5 and 2.12); RO registers ignore the write. -/
def UserCR.write (u : UserCR) (n : Nat) (x : Word) : UserCR :=
  match n with
  | 0x04 => { u with vstart := x.extractLsb' 0 16 }
  | 0x05 => { u with frm := x.extractLsb' 0 3 }
  | 0x06 => { u with fflags := x.extractLsb' 0 5 }
  | 0x07 => { u with pstep := x.extractLsb' 0 32 }
  | 0x08 => { u with mrow := x.extractLsb' 0 16 }
  | 0x09 => { u with mfmt := x.extractLsb' 0 10 }
  | 0x0A => { u with mxerr := u.mxerr &&& ~~~(x.extractLsb' 0 19) }
  | 0x0B => { u with vfmt := x.extractLsb' 0 1 }
  | 0x0F => { u with rmode := x.extractLsb' 0 2 }
  | 0x10 => { u with genmode := x.extractLsb' 0 1 }
  | 0x11 => { u with retcnt := x }
  | 0x12 => { u with utvec := x.extractLsb' 0 56 }
  | 0x13 => { u with ucause := x.extractLsb' 0 8 }
  | 0x14 => { u with uepc := x.extractLsb' 2 54 }
  | 0x15 => { u with uenpc := x.extractLsb' 2 54 }
  | 0x16 => { u with uennpc := x.extractLsb' 2 54 }
  | 0x17 => { u with uannul := x.extractLsb' 0 2 }
  | 0x18 => { u with uval := x }
  | 0x19 => { u with mascale := x.extractLsb' 0 32 }
  | 0x1A => { u with vrstr := x }
  | 0x1B => { u with smc := x.extractLsb' 0 32 }
  | 0x1C => { u with cpyshape := x }
  | 0x1D => { u with xgrp := x.extractLsb' 0 8 }
  | _ => u

/-! ## The device hash (R365) -/

/-- The message that the hash digests: ARCHID, STEP, FEATEN. -/
def State.hashMessage (s : State) : List Byte :=
  bytesOf 8 Config.archId.toNat ++ bytesOf 8 s.mod.stepping.toNat ++ bytesOf 8 Config.featEn.toNat

/-- DHASH0 (with `lo`) and DHASH1. -/
def State.dhash (s : State) (lo : Bool) : Word :=
  BitVec.ofNat 64 (Sha384.beNum (((Sha384.digest s.hashMessage).drop (if lo then 8 else 0)).take 8))

/-! ## System control registers: reading -/

/-- SSTATUS (Table 17.2). -/
def State.sstatus (s : State) : Word :=
  let c := s.thr.sys
  (BitVec.ofBool (!s.thr.replay.isEmpty) ++ BitVec.ofBool c.hw ++ BitVec.ofBool c.ppl ++ BitVec.ofBool c.sta).setWidth 64

/-- GCNT of a pool of the strand's core (Table 20.3). -/
def State.gcnt (s : State) (pool : Nat) : Word :=
  let c := s.getCore (coreOf s.cur)
  (BitVec.ofBool (c.stalls.toList.getD pool false) ++ BitVec.ofBool (c.sweeps.toList.getD pool none).isSome ++
    c.gens.toList.getD pool 0#16).setWidth 64

/-- A frame field at [51:12]. -/
def frameField (f : BitVec 40) : Word := (f ++ 0#12).setWidth 64

/-- The power of a die's last window. -/
def State.diePower (s : State) (d : Fin 2) : BitVec 16 := (s.dies.get d).power

/-- A system CR's value; none for a number that no table names. WO registers read zero (Table 0.2). -/
def State.sysRead (s : State) (n : Nat) : Option Word :=
  let c := s.thr.sys
  let m := s.mod
  let core := s.getCore (coreOf s.cur)
  match n with
  | 0x100 => some s.sstatus
  | 0x101 => some c.stvec
  | 0x102 => some (c.scause.setWidth 64)
  | 0x103 => some c.sepc
  | 0x104 => some c.senpc
  | 0x105 => some c.sennpc
  | 0x106 => some (c.sannul.setWidth 64)
  | 0x107 => some c.sval
  | 0x108 => some c.sxpc
  | 0x109 => some (c.srpt.setWidth 64)
  | 0x10A => some c.swdcnt
  | 0x10B => some c.swdlim
  | 0x10C => some c.sscratch
  | 0x10D => some Config.ctxFeat
  | 0x140 => some (s.thr.asid.setWidth 64)
  | 0x141 => some (frameField s.thr.root)
  | 0x142 => some ((c.tfltReason ++ 0#5 ++ c.tfltLevel).setWidth 64)
  | 0x143 => some c.tinva
  | 0x144 => some 0#64
  | 0x145 => some (BitVec.ofNat 64 s.badFrames.length)
  | 0x160 => some (m.harv0.setWidth 64)
  | 0x161 => some (m.harv1.setWidth 64)
  | 0x162 => some (BitVec.ofNat 64 s.ncore)
  | 0x163 => some (BitVec.ofNat 64 s.parked.length)
  | 0x170 => some (s.lct 0)
  | 0x171 => some (s.lct 1)
  | 0x172 => some (s.lct 2)
  | 0x173 => some (s.lct 3)
  | 0x174 => some (s.lct 4)
  | 0x175 => some (s.lct 5)
  | 0x176 => some (s.lct 6)
  | 0x177 => some (s.lct 7)
  | 0x178 => some (s.lct 8)
  | 0x1C0 => some (frameField m.ntBase ||| (BitVec.ofBool m.ntEn ++ m.ntLogn).setWidth 64)
  | 0x1C1 => some (frameField m.gntBase)
  | 0x1C2 => some (m.nserial.setWidth 64)
  | 0x1C3 => some (m.nblkEnd.setWidth 64)
  | 0x1C4 => some (frameField m.ctxTab)
  | 0x1C5 => some c.tcmda
  | 0x1C6 => some 0#64
  | 0x1C7 => some (c.tcmds.setWidth 64)
  | 0x1C8 => some (s.gcnt 0)
  | 0x1C9 => some (s.gcnt 1)
  | 0x1CA => some (s.gcnt 2)
  | 0x1CB => some (s.gcnt 3)
  | 0x1CC => some (s.gcnt 4)
  | 0x1E0 => some Config.archId
  | 0x1E1 => some (m.stepping.setWidth 64)
  | 0x1E2 => some Config.featEn
  | 0x1E3 => some (s.dhash true)
  | 0x1E4 => some (s.dhash false)
  | 0x1E8 => some m.rcVfredo
  | 0x1E9 => some m.rcMop8
  | 0x1F0 => some (m.estat.setWidth 64)
  | 0x1F1 => some ((s.elog.head?.map (·.a)).getD 0#64)
  | 0x1F2 => some ((s.elog.head?.map (·.b)).getD 0#64)
  | 0x1F3 => some 0#64
  | 0x1F4 => some m.eccnt
  | 0x1F5 => some ((BitVec.ofNat 4 (min 4 core.retired.length) ++ core.logged).setWidth 64)
  | 0x1F6 => some (m.coff.extractLsb' 0 64)
  | 0x1F7 => some ((m.coff.extractLsb' 64 8).setWidth 64)
  | 0x1F8 => some (m.scrmul.setWidth 64)
  | 0x200 => some (m.svclvl.setWidth 64)
  | 0x201 => some (m.plim.setWidth 64)
  | 0x202 => some ((s.diePower 1 ++ s.diePower 0).setWidth 64)
  | 0x203 => some ((BitVec.ofNat 16 (s.dies.toList.getD (s.dieOf (coreOf s.cur)) Die.reset).clock ++ 0#7 ++ core.plen).setWidth 64)
  | 0x204 => some m.ecost
  | 0x205 => some ((s.energy s.thr.asid).ebud.setWidth 64)
  | 0x206 => some ((s.energy s.thr.asid).ebcap.setWidth 64)
  | 0x207 => some (frameField m.xdtab)
  | 0x208 => some (m.hlstat.setWidth 64)
  | 0x209 => some (frameField m.hftab)
  | _ => none

/-! ## Commands that a write starts -/

/-- Cached translations that a shootdown covers dropped; every access that used one has been performed (R315): all late stores are, since
none of them says which translation it used (log entry 5). -/
def State.dropWalks (s : State) (covers : WalkEntry → Bool) : State :=
  { s.performAll fun _ => true with walks := s.walks.filter fun e => !covers e }

/-- TINVB OP 0 (R315): COUNT pages of one ASID; none for a COUNT of 0. -/
def State.invalidateRange (s : State) (asid : BitVec 12) (vpn count : Nat) : State :=
  if count = 0 then s else s.dropWalks fun e => e.asid == asid && decide (e.page < vpn + count ∧ vpn < e.page + e.pages)

/-- TINVB OP 1 (R315). -/
def State.invalidateAsid (s : State) (asid : BitVec 12) : State := s.dropWalks fun e => e.asid == asid
/-- TINVB OP 2 (R315). -/
def State.invalidateAll (s : State) : State := s.dropWalks fun _ => true
/-- TINVB OP 3 (R318): the frame at TINVA[51:12]. -/
def State.unpoison (s : State) (frame : Nat) : State :=
  { s with badFrames := s.badFrames.filter fun f => f ≠ frame % 2 ^ 40 * 4096 }

/-- Whether a strand, of a context if one is given, holds stores: they were translated when they issued, and a shootdown completes only after
they have been performed or dropped (R315). -/
def State.holdsStores (s : State) (asid : Option (BitVec 12)) : Bool :=
  s.keys.any fun k => let t := s.getThr k; t.bound && !t.held.isEmpty && (asid.isNone || asid == some t.asid)

/-- Whether a TINVB write waits for held stores (R315): OP 3 and a COUNT of 0 need none. -/
def State.tinvbWaits (s : State) (x : Word) : Bool :=
  match x.extractLsb' 0 2 with
  | 0#2 => x.extractLsb' 32 32 ≠ 0#32 && s.holdsStores (some (s.thr.sys.tinva.extractLsb' 0 12))
  | 1#2 => s.holdsStores (some (s.thr.sys.tinva.extractLsb' 0 12))
  | 2#2 => s.holdsStores none
  | _ => false

/-- The stepping strand's TCMDS written (R360). -/
def State.setTcmds (s : State) (x : BitVec 2) : State := s.mapSys fun c => { c with tcmds := x }

/-- STATE of every entry that a context's two tables hold set to 0 (R360): other entries are zeros already. -/
def State.freeTables (s : State) (asid : BitVec 12) : State :=
  let s := (s.touched (s.tensorAddr asid 0) 65536 64).foldl (fun s t => s.setTensorState asid t 0#2) s
  (s.touched (s.recordAddr asid 0) 32768 32).foldl (fun s n => s.setRecordState asid n 0#2) s

/-- TCMDB OP 0 (R360, R391). -/
def State.createContext (s : State) (asid : BitVec 12) : State :=
  if s.ctxState asid ≠ 0 then s.setTcmds 1#2
  else
    let s := (s.freeTables asid).setEnergy asid { ebud := 0#32, ebcap := 0x7FFFFFFF#31 }
    (s.setCtxState asid 1#2).setTcmds 0#2

/-- Whether a bound or a parked strand is of an ASID (R360). -/
def State.asidInUse (s : State) (asid : BitVec 12) : Bool :=
  s.keys.any (fun k => (s.getThr k).bound && (s.getThr k).asid == asid) ||
  s.parked.any fun p => s.saved.any fun v => v.uid == p.uid && v.thread.asid == asid

/-- The entries of the name table that hold a byte. -/
def State.nameEntries (s : State) : List Nat := s.touched (frameAddr s.mod.ntBase) (32 * 2 ^ s.mod.ntLogn.toNat) 32

/-- Entries sorted by the serial of their names. -/
def State.bySerial (s : State) (is : List Nat) : List Nat := sortRanked (fun i => (nameSerial (s.word (s.ntAddr i))).toNat) is

/-- A context's grants in a block cleared. -/
def State.clearGrants (s : State) (asid : BitVec 12) (b : Nat) : State :=
  (List.range 30).foldl (fun s j => if grantsTo (s.grant b j) asid then s.writeBytes (s.grantAddr b + 2 * j) [0#8, 0#8] else s) s

/-- TCMDB OP 1 (R360): every live name that the context owns is killed in serial order, its grants are removed. -/
def State.destroyContext (s : State) (asid : BitVec 12) : State :=
  if s.ctxState asid ≠ 1 then s.setTcmds 1#2
  else if s.asidInUse asid then s.setTcmds 2#2
  else
    let s := s.setCtxState asid 2#2
    let mine := s.nameEntries.filter fun i => s.mod.ntEn && s.ntState i == 1 && s.ntOwner i == asid
    let s := (s.bySerial mine).foldl (fun s i => s.killEntry i (s.word (s.ntAddr i))) s
    let lists := (s.nameEntries.filter fun i => s.ntGrant i ≠ 0).flatMap fun i => s.grantBlocks 0x1000000 (s.ntGrant i)
    let s := lists.foldl (fun s b => s.clearGrants asid b) s
    (s.setCtxState asid 0#2).setTcmds 0#2

/-- TCMDB OP 2 (R360). -/
def State.revokeName (s : State) (x : Word) (asid : BitVec 12) : State :=
  match (if s.mod.ntEn then s.lookup x else none) with
  | some i =>
    if s.ntState i = 1 then (((s.dropName x).markTensors asid x).markRecords asid x).setTcmds 0#2 else s.setTcmds 3#2
  | none => s.setTcmds 3#2

/-- The oldest entry of the error log removed (R383). -/
def State.popError (s : State) : State := { s with elog := s.elog.tail }

/-- A write of TINVB (Table 18.5) with the operands in TINVA: a release at device scope, the command, an acquire (R315). -/
def State.writeTinvb (s : State) (x : Word) : State :=
  let s := s.releaseDevice
  let a := s.thr.sys.tinva
  let vpn := (a.extractLsb' 12 44).toNat
  let asid := a.extractLsb' 0 12
  let s := match x.extractLsb' 0 2 with
    | 0#2 => s.invalidateRange asid vpn (x.extractLsb' 32 32).toNat
    | 1#2 => s.invalidateAsid asid
    | 2#2 => s.invalidateAll
    | _ => s.unpoison vpn
  s.acquireBoth

/-- A write of TCMDB (Table 20.7) with the operand in TCMDA, between a release and an acquire (R360). -/
def State.writeTcmdb (s : State) (x : Word) : State :=
  let s := s.releaseDevice
  let a := s.thr.sys.tcmda
  let s := match x.extractLsb' 0 2 with
    | 0#2 => s.createContext (a.extractLsb' 0 12)
    | 1#2 => s.destroyContext (a.extractLsb' 0 12)
    | 2#2 => s.revokeName a (x.extractLsb' 32 12)
    | _ => s.setTcmds 1#2
  s.acquireBoth

/-- NTCFG written (Table 20.4): BASE and LOGN are ignored while EN = 1; EN needs LOGN in 16 to 24. -/
def Module.writeNtcfg (m : Module) (x : Word) : Module :=
  let en := x.getLsbD 5
  if m.ntEn then { m with ntEn := en }
  else
    let logn := x.extractLsb' 0 5
    { m with ntBase := x.extractLsb' 12 40, ntLogn := logn, ntEn := en && decide (16 ≤ logn.toNat ∧ logn.toNat ≤ 24) }

/-- PLIM written (Table 23.5). -/
def plimOf (x : BitVec 11) : BitVec 11 := if 1900 < x.toNat then 1900#11 else if x.toNat < 100 then Config.plimBelow x else x

/-- A system CR written by its access code; RO registers ignore the write. -/
def State.sysWrite (s : State) (n : Nat) (x : Word) : State :=
  match n with
  | 0x100 => s.mapSys fun c => { c with hw := x.getLsbD 2, ppl := x.getLsbD 1, sta := x.getLsbD 0 }
  | 0x101 => s.mapSys fun c => { c with stvec := x }
  | 0x102 => s.mapSys fun c => { c with scause := x.extractLsb' 0 16 }
  | 0x103 => s.mapSys fun c => { c with sepc := x }
  | 0x104 => s.mapSys fun c => { c with senpc := x }
  | 0x105 => s.mapSys fun c => { c with sennpc := x }
  | 0x106 => s.mapSys fun c => { c with sannul := x.extractLsb' 0 2 }
  | 0x107 => s.mapSys fun c => { c with sval := x }
  | 0x109 => s.mapSys fun c => { c with srpt := x.extractLsb' 0 11 }
  | 0x10A => s.mapSys fun c => { c with swdcnt := x }
  | 0x10B => s.mapSys fun c => { c with swdlim := x }
  | 0x10C => s.mapSys fun c => { c with sscratch := x }
  | 0x142 => s.mapSys fun c => { c with tfltReason := x.extractLsb' 8 8, tfltLevel := x.extractLsb' 0 3 }
  | 0x143 => s.mapSys fun c => { c with tinva := x &&& 0x00FFFFFFFFFFFFFF#64 }
  | 0x144 => s.writeTinvb x
  | 0x1C0 => s.mapMod fun m => m.writeNtcfg x
  | 0x1C1 => s.mapMod fun m => { m with gntBase := x.extractLsb' 12 40 }
  | 0x1C4 => s.mapMod fun m => { m with ctxTab := x.extractLsb' 12 40 }
  | 0x1C5 => s.mapSys fun c => { c with tcmda := x }
  | 0x1C6 => s.writeTcmdb x
  | 0x1E8 => s.mapMod fun m => { m with rcVfredo := x }
  | 0x1E9 => s.mapMod fun m => { m with rcMop8 := x }
  | 0x1F0 => s.mapMod fun m => { m with estat := m.estat &&& ~~~(x.extractLsb' 0 4) }
  | 0x1F3 => s.popError
  | 0x1F4 => s.mapMod fun m => { m with eccnt := x }
  | 0x1F6 => s.mapMod fun m => { m with coff := m.coff ||| x.setWidth 72 }
  | 0x1F7 => s.mapMod fun m => { m with coff := m.coff ||| ((x.extractLsb' 0 8).setWidth 72 <<< 64) }
  | 0x201 => s.mapMod fun m => { m with plim := plimOf (x.extractLsb' 0 11) }
  | 0x204 => s.mapMod fun m => { m with ecost := x }
  | 0x205 => s.setEnergy s.thr.asid { s.energy s.thr.asid with ebud := x.extractLsb' 0 32 }
  | 0x206 => s.setEnergy s.thr.asid { s.energy s.thr.asid with ebcap := x.extractLsb' 0 31 }
  | 0x207 => s.mapMod fun m => { m with xdtab := x.extractLsb' 12 40 }
  | 0x209 => s.mapMod fun m => { m with hftab := x.extractLsb' 12 40 }
  | _ => s

/-- A control register by its number, as the stepping strand reads it. -/
def State.crRead (s : State) (n : Nat) : Option Word := if n < 0x100 then s.ucr.read n else s.sysRead n

/-- A control register written. -/
def State.crWrite (s : State) (n : Nat) (x : Word) : State :=
  if n < 0x100 then s.mapUcr fun u => u.write n x else s.sysWrite n x

/-- The last number of the system ranges: 0x100 to 0x21F follow one another without a gap. -/
def sysLast : Nat := 0x21F

/-- The checks of R152, and the register's value. -/
def crAccess (i : Instr) (cr : BitVec 11) (s : State) : Res Word :=
  if sysLast < cr.toNat then wordTrap Cause.illegal 0#8 i s
  else if 0x100 ≤ cr.toNat ∧ s.thr.level = false then wordTrap Cause.priv 0#8 i s
  else match s.crRead cr.toNat with
    | some x => .done x s
    | none => wordTrap Cause.illegal 0#8 i s

/-- What a command's write waits for or consumes before it starts: TINVB waits for held stores (R315); TCMDB reads a context's descriptor or
the tables behind a name (R360, R375). -/
def commandGuard (n : Nat) (x : Word) (s : State) : Res Unit :=
  let a := s.thr.sys.tcmda
  if n = 0x144 ∧ s.tinvbWaits x = true then .wait s
  else if n = 0x1C6 ∧ x.extractLsb' 0 2 = 2#2 then nameTablesOk a s
  else if n = 0x1C6 ∧ x.extractLsb' 0 2 ≠ 3#2 then tableOk (s.ctxAddr (a.extractLsb' 0 12)) 64 s
  else .done () s

/-- `crd` (R152). -/
def execCrd (rd : SReg) (cr : BitVec 11) (s : State) : Out :=
  runControl s ((crAccess (.crd rd cr) cr s).andThen fun x s => .done .fall (s.setReg rd x))

/-- `cwr` (R152, R136). -/
def execCwr (ra : SReg) (cr : BitVec 11) (s : State) : Out :=
  runControl s (whenResolved s fun s => (crAccess (.cwr ra cr) cr s).andThen fun _ s => (readReg ra s).andThen fun a s =>
    (commandGuard cr.toNat a s).andThen fun _ s => .done .fall (s.crWrite cr.toNat a))

/-- `crs` and `crc` (R152, R136): rd takes the old value before ra is read for the write, so that with rd = ra the old value stands in both. -/
def crUpdate (i : Instr) (f : Word → Word → Word) (rd ra : SReg) (cr : BitVec 11) (s : State) : Out :=
  runControl s (whenResolved s fun s => (crAccess i cr s).andThen fun x s => (readReg ra s).andThen fun a s =>
    let y := f x (if rd = ra then (s.setReg rd x).reg ra else a)
    (commandGuard cr.toNat y s).andThen fun _ s => .done .fall ((s.setReg rd x).crWrite cr.toNat y))

/-- `crs` (R152). -/
def execCrs (rd ra : SReg) (cr : BitVec 11) (s : State) : Out :=
  crUpdate (.crs rd ra cr) (fun x a => x ||| a) rd ra cr s

/-- `crc` (R152). -/
def execCrc (rd ra : SReg) (cr : BitVec 11) (s : State) : Out :=
  crUpdate (.crc rd ra cr) (fun x a => x &&& ~~~a) rd ra cr s

/-! ## Traps on purpose, return, the end (R154 to R159) -/

/-- `trap` (R154). -/
def execTrap (code : BitVec 11) (s : State) : Out :=
  runControl s (whenResolved s fun s => .trap ⟨Cause.trap, 0#8, code.setWidth 64⟩ s)

/-- `brk` (R154). -/
def execBrk (code : BitVec 11) (s : State) : Out :=
  runControl s (whenResolved s fun s => .trap ⟨Cause.brk, 0#8, code.setWidth 64⟩ s)

/-- `eret` (R129, R156, R291). -/
def execEret (s : State) : Out := runControl s (whenResolved s fun s => .done .stay s.returned)

/-- `halt` (R157): it waits for every child, its stores are performed, then the strand ends. In a handler that a pending replay waits behind, it
ends the strand at once and the replay is dropped, since nothing but a return would run it (DESIGN CHOICE, log entry 10). -/
def execHalt (s : State) : Out :=
  runControl s (whenResolved s fun s => if s.thr.childrenEnded then .done .stay (s.drained.endStrand s.cur none) else .wait s)

/-- `ecls` (R159). -/
def execEcls (n : BitVec 3) (s : State) : Out :=
  runControl s (whenResolved s fun s => .done .fall (s.mapThr fun t => { t with eclass := n }))

/-! ## The commands as events -/

/-- TINVB OP 0 as an event (R315). -/
def execRangeInAsid (asid : BitVec 12) (vpn : BitVec 44) (count : BitVec 32) (s : State) : Out :=
  .next (s.invalidateRange asid vpn.toNat count.toNat)
/-- TINVB OP 1 as an event (R315). -/
def execWholeAsid (asid : BitVec 12) (s : State) : Out := .next (s.invalidateAsid asid)
/-- TINVB OP 2 as an event (R315). -/
def execEveryAsid (s : State) : Out := .next s.invalidateAll
/-- TINVB OP 3 as an event (R318). -/
def execUnpoisonFrame (frame : BitVec 44) (s : State) : Out := .next (s.unpoison frame.toNat)
/-- TCMDB OP 0 as an event (R360). -/
def execCreate (asid : BitVec 12) (s : State) : Out := .next (s.createContext asid)
/-- TCMDB OP 1 as an event (R360). -/
def execDestroy (asid : BitVec 12) (s : State) : Out := .next (s.destroyContext asid)
/-- TCMDB OP 2 as an event (R360). -/
def execRevoke (name : BitVec 64) (asid : BitVec 12) (s : State) : Out := .next (s.revokeName name asid)
/-- TCMDB OP 3 as an event (R360): no effect but TCMDS. -/
def execTcmdbReserved (s : State) : Out := .next (s.setTcmds 1#2)
/-- A write of ELOGPOP (R383). -/
def execElogpop (s : State) : Out := .next s.popError
/-- A write to a control register by its access codes (R6): the stepping strand's, or EBUD and EBCAP of any context as the
management core writes them (R391). -/
def execRegisterWrite (target : CrTarget) (value : BitVec 64) (s : State) : Out :=
  .next (match target.cr.toNat with
    | 0x205 => let c := target.context.getD s.thr.asid; s.setEnergy c { s.energy c with ebud := value.extractLsb' 0 32 }
    | 0x206 => let c := target.context.getD s.thr.asid; s.setEnergy c { s.energy c with ebcap := value.extractLsb' 0 31 }
    | n => s.crWrite n value)

end Sys2Proof.Machine
end

