-- ==== Sys2Proof/Machine/Contain.lean ====
section
/-!
DEFINITION. Containment (R292, R295), asynchronous events, preemption (R296 to R300), the context image (R301), lane mismatches
(R293, R376, R377).
-/

namespace Sys2Proof.Machine

/-! ## Fork families (R299) -/

/-- The slot of a family's root: parents followed at most three times, as a core has four slots. -/
def State.rootOf (s : State) (k : Nat) : Nat :=
  let up := fun k => (s.getThr k).parentSlot.getD k
  up (up (up k))

/-- The slots of the family that a bound strand belongs to. -/
def State.familyOf (s : State) (k : Nat) : List Nat :=
  (coreKeys (coreOf k)).filter fun j => (s.getThr j).bound && s.rootOf j == s.rootOf k

/-- Preemption requested of a strand, and so of its whole family (R296, R299). -/
def State.requestPreempt (s : State) (k : Nat) : State :=
  (s.familyOf k).foldl (fun s j => s.setThr j { s.getThr j with preempt := true }) s

/-! ## Events at a boundary -/

/-- A triple past the annulled words at which it stands: an event is taken only where A0 = 0 (R127). -/
def Triple.passed (t : Triple) : Triple := if t.a0 then (if t.fall.a0 then t.fall.fall else t.fall) else t

/-- A wait on an address abandoned (R297, R305): the strand stands behind the `waddr`, and behind words that are annulled there; rd holds 4,
or the status of a wait that had ended already (log entry 45); the monitor entry is freed. -/
def State.abandonWait (s : State) : State :=
  let done := fun (rd : SReg) (st : BitVec 3) =>
    let s := ((({ s with monitors := s.monitors.filter fun m => m.key ≠ s.cur }).mapThr fun t => { t with wa := .none }).setReg rd
      (st.setWidth 64)).retired
    s.setTrip s.trip.passed
  match s.thr.wa with
  | .none => s
  | .armed rd => done rd 4#3
  | .done rd st => done rd st

/-- The pending asynchronous event is taken at a boundary (R295): ERRUNC before WATCHDOG. -/
def execAsyncEventTake (s : State) : Out :=
  match s.thr.errunc with
  | some (detail, va) =>
    .next ((s.abandonWait.contained.mapThr fun t => { t with errunc := none }).deliverHere ⟨Cause.errunc, detail, va⟩ 0#64)
  | none =>
    if s.thr.wdPend then
      .next ((s.abandonWait.contained.mapThr fun t => { t with wdPend := false }).deliverHere ⟨Cause.watchdog, 0#8, 0#64⟩ 0#64)
    else .next s

/-- A preemption request is served (R296, R297): the strand stands contained, in a group at its `rpt` word with the position kept
(R151), and issues nothing more. -/
def execPreempt (s : State) : Out :=
  .next (s.abandonWait.contained.mapThr fun t =>
    { t with
      preempt := false, stopping := true, waiting := false, sleep := none, debited := false, rpt := none,
      arch := { t.arch with trip := t.frameAt.1 }
      rptResume := match t.rpt with
        | some g => some (g.pass, g.word)
        | none => t.rptResume })

/-! ## The context image (R301, Tables 17.7 to 17.9) -/

/-- One bit of CRC-32C. -/
def crcBit (c : BitVec 32) : BitVec 32 := if c.getLsbD 0 then (c >>> 1) ^^^ 0x82F63B78#32 else c >>> 1

/-- One byte of CRC-32C. -/
def crcByte (c : BitVec 32) (b : Byte) : BitVec 32 :=
  crcBit (crcBit (crcBit (crcBit (crcBit (crcBit (crcBit (crcBit (c ^^^ b.setWidth 32))))))))

/-- CRC-32C of bytes. -/
def crc32c (bs : List Byte) : BitVec 32 := ~~~(bs.foldl crcByte 0xFFFFFFFF#32)

/-- The granules of a part of a core's window that carry a generation, with their bytes and poison. -/
def State.imageOf (s : State) (core off size : Nat) (gen : Gen) : Image :=
  let lo := windowAddr core off
  let mine := fun pa => decide (lo ≤ pa ∧ pa < lo + size) && s.tag pa == gen
  { granules := (s.tags.filter fun p => decide (lo ≤ 64 * p.1 ∧ 64 * p.1 < lo + size) && p.2 == gen).map fun p => p.1 - lo / 64
    cells := (s.mem.filter fun c => mine c.1).map fun c => (c.1 - lo, c.2)
    bad := (s.poison.filter mine).map fun u => u - lo }

/-- A part of an image written to storage and stamped (R303). -/
def State.restoreImage (s : State) (core off : Nat) (gen : Gen) (im : Image) : State :=
  let lo := windowAddr core off
  let s := im.granules.foldl (fun s g => s.stamp (lo / 64 + g) gen) s
  { s with
    mem := im.cells.foldl (fun m c => Sparse.put memDefault m (lo + c.1) c.2) s.mem
    poison := s.poison ++ im.bad.map fun u => lo + u }

/-- Bits packed into bytes, bit 0 first. -/
def bitmap (n : Nat) (set : Nat → Bool) : List Byte :=
  (List.range ((n + 7) / 8)).map fun i =>
    (List.range 8).foldl (fun b j => if set (8 * i + j) then b ||| (1#8 <<< j) else b) 0#8

/-- Bytes of an image, and whether they were saved from a poisoned unit: no poison is saved as data (R375; log entry 58). -/
abbrev Chunk := List Byte × Bool

/-- The bytes of a section. -/
def sectionBytes (cs : List Chunk) : List Byte := cs.flatMap (·.1)

/-- A part of an image as a presence bitmap and the present granules ascending (Table 17.9). -/
def Image.section (im : Image) (granules : Nat) : List Chunk :=
  (bitmap granules (fun g => im.granules.contains g), false) ::
    im.granules.map fun g => ((List.range 64).map fun i => Sparse.get memDefault im.cells (64 * g + i), im.bad.contains (64 * g))

/-- The granules of an image from one on. -/
def Image.slice (im : Image) (g n : Nat) : Image :=
  { granules := (im.granules.filter fun x => decide (g ≤ x ∧ x < g + n)).map fun x => x - g
    cells := (im.cells.filter fun c => decide (64 * g ≤ c.1 ∧ c.1 < 64 * (g + n))).map fun c => (c.1 - 64 * g, c.2)
    bad := (im.bad.filter fun x => decide (64 * g ≤ x ∧ x < 64 * (g + n))).map fun x => x - 64 * g }

/-- Section 0: the presence mask of the scalar registers and the present ones. -/
def Thread.scalarSection (t : Thread) : List Chunk :=
  let live := (List.range 32).filter fun r => r ≠ 0 && t.arch.stag.toList.getD r 0#16 == t.genS
  (bitmap 32 (fun r => live.contains r), false) ::
    live.map fun r => (bytesOf 8 (t.arch.sreg.toList.getD r 0#64).toNat, t.arch.sbad.contains r)

/-- Section 2: the user CRs and the system CRs 0x100 to 0x10C of the strand in a slot; SRPT holds the position of a group that the strand
stands in (R151). -/
def State.crSection (s : State) (k : Nat) : List Byte :=
  let t := s.switchTo k
  let word := fun n =>
    match n, t.thr.rptResume with
    | 0x109, some p => (srptOf p.1 p.2).setWidth 64
    | _, _ => (t.crRead n).getD 0#64
  (List.range 30 ++ (List.range 13).map fun i => 0x100 + i).flatMap fun n => bytesOf 8 (word n).toNat

/-- Bytes of an image of which no rule says what they hold. -/
def freeBytes (uid at_ n : Nat) : List Byte := (List.range n).map fun i => Config.imageByte uid (at_ + i)

/-- Section 1: the group, the target and the position of each bound barrier register. -/
def Thread.barrierSection (t : Thread) : List Chunk :=
  (t.arch.breg.toList.zipIdx.filter fun p => p.1.bound && p.1.tag == t.genS).map fun p =>
    (bytesOf 8 p.1.group.toNat ++ bytesOf 8 p.1.target ++ freeBytes t.uid (8 * p.2) 8, p.1.bad)

/-- Section 3: the shape request, the energy class, the batches outstanding, the `waddr` resume flag. -/
def State.hiddenSection (s : State) (t : Thread) : List Byte :=
  let batches := ((s.copies.filter fun c => c.uid == t.uid && c.inUse).map (·.batch)).eraseDups.length
  bytesOf 8 t.arch.qrows.toNat ++ bytesOf 8 t.arch.qlen.toNat ++ bytesOf 8 t.eclass.toNat ++ bytesOf 8 batches ++
    freeBytes t.uid 64 8

/-- The scalar registers whose values a posted word captures as its operands, in the order of its fields (Tables 5.6 to 5.11). -/
def operandRegs (i : Instr) : List SReg :=
  match i with
  | .vmvs _ ra _ => [ra]
  | .vslideup _ _ rb _ | .vslidedn _ _ rb _ | .vslide1up _ _ rb _ | .vslide1dn _ _ rb _ | .vrowbc _ _ rb _ => [rb]
  | .kset _ ra rb => [ra, rb]
  | .vldstr f st | .vldstrSignExtending f st | .vststr f st => [f.sb, st]
  | .mld _ sb _ | .mst _ sb _ => [sb]
  | .vcmp _ _ _ vb s _ _ => if s then [vb.setWidth 5] else []
  | i =>
    match encode i with
    | none => []
    | some w =>
      let m := (w.extractLsb' 26 6).toNat
      if (0x1E ≤ m ∧ m ≤ 0x25) ∨ (0x27 ≤ m ∧ m ≤ 0x2B) ∨ m = 0x3B then (if w.getLsbD 7 then [w.extractLsb' 8 5] else [])
      else if (0x31 ≤ m ∧ m ≤ 0x35) then [w.extractLsb' 15 5]
      else []

/-- An entry of section 4: the word, its address, its scalar operands, zero where it has none, and its stop point. -/
def Replay.entry (e : Replay) : List Byte :=
  let ops := (operandRegs e.instr).map fun r => (if r = 0#5 then 0#64 else e.sreg.get r.toFin).toNat
  bytesOf 4 ((encode e.instr).getD 0#32).toNat ++ bytesOf 8 e.addr.toNat ++ bytesOf 8 (ops.getD 0 0) ++ bytesOf 8 (ops.getD 1 0) ++
    bytesOf 4 e.stop.toNat

/-- Whether one of an entry's captured operands is poisoned. -/
def Replay.poisoned (e : Replay) : Bool := (operandRegs e.instr).any fun r => e.bad.contains r.toNat

/-- Section 4: the pending replay. -/
def Thread.replaySection (t : Thread) : List Chunk :=
  (bytesOf 8 t.replay.length, false) :: t.replay.map fun e => (e.entry, e.poisoned)

/-- Section 6: which granules of k1 to k15 are present, the bound forms, the granules of explicit ones. -/
def Thread.maskSection (t : Thread) : List Chunk :=
  let ms := (t.arch.mask.toList.drop 1)
  let live := fun (m : MaskReg) (g : Nat) => m.tags.toList.getD g 0#16 == t.genM
  (bitmap (15 * 128) (fun i => live (ms.getD (i / 128) MaskReg.reset) (i % 128)), false) ::
    (ms.flatMap fun m => match m.form with
      | .bound n w => if live m 0 then [(bytesOf 8 n.toNat ++ bytesOf 8 w.toNat, m.bad.contains 0)] else []
      | .explicit _ => []) ++
    ms.flatMap fun m => match m.form with
      | .bound _ _ => []
      | .explicit set =>
        ((List.range 128).filter (live m)).map fun g => (bitmap 512 fun e => set.contains (512 * g + e), m.bad.contains g)

/-- The accumulators granted to a strand as one part, 0x80000 on: both or one of them. -/
def accBase (acc : BitVec 2) : Nat := if acc.getLsbD 0 then 0x80000 else 0xC0000
def accSize (acc : BitVec 2) : Nat :=
  (if acc.getLsbD 0 then 0x40000 else 0) + (if acc.getLsbD 1 then 0x40000 else 0)

/-- Whether a CR of the matrix feature differs from its value at binding (Table 17.8). -/
def UserCR.matrixUsed (u : UserCR) : Bool :=
  u.mfmt != 0#10 || u.mrow != 0#16 || u.mascale != 0x3F800000#32 || u.mxerr != 0#19

/-- LIVE of an image (Table 17.8). -/
def Saved.live (v : Saved) : Word :=
  let t := v.thread
  (BitVec.ofBool (t.sys.srpt.getLsbD 10 || t.rptResume.isSome) ++ BitVec.ofBool (!t.replay.isEmpty) ++
    BitVec.ofBool (t.ecl && t.eclass != 0#3) ++ BitVec.ofBool (!v.scratch.granules.isEmpty) ++ BitVec.ofBool t.loop.isSome ++
    BitVec.ofBool (!v.acc.granules.isEmpty || t.arch.ucr.matrixUsed) ++ 1#1).setWidth 64

/-- The word at 0x18 of the header. -/
def Thread.headerState (t : Thread) (fork : Bool) : Word :=
  (t.arch.ucr.vcfg ++ t.acc ++ BitVec.ofBool t.level ++ BitVec.ofBool t.handler ++ BitVec.ofBool fork ++
    BitVec.ofBool t.loop.isSome ++ (t.loop.map (·.horizon)).getD 0#2).setWidth 64

/-- STRIP of the header: the strip that the oldest unresolved `ubrk` closes again, or the next one. -/
def Thread.headerStrip (t : Thread) : BitVec 32 := (t.loop.map (·.next)).getD 0#32

/-- Where the sections of an image begin, from the image's start: one after another, the first behind the header, each behind bytes that no
rule gives (log entry 14); and the bytes of the whole image. -/
def sectionPlaces (uid : Nat) : Nat → Nat → List (List Byte) → List Nat × Nat
  | n, o, [] => ([], o + (Config.imagePadding uid n).toNat)
  | n, o, x :: xs =>
    let o := o + (Config.imagePadding uid n).toNat
    let r := sectionPlaces uid (n + 1) (o + x.length) xs
    (o :: r.1, r.2)

/-- The 31 doublewords that CHK covers. -/
def Saved.headerWords (v : Saved) (fork : Bool) (token : BitVec 32) (secs : List (List Byte)) : List Word :=
  let places := sectionPlaces v.uid 0 256 secs
  [BitVec.ofNat 32 places.2 ++ 1#32, Config.ctxFeat, v.live, v.thread.headerState fork, v.thread.headerStrip ++ 0#32,
   token.setWidth 64, v.thread.sys.swdcnt, 0#64] ++
  ((places.1.zip secs).flatMap fun p => [BitVec.ofNat 64 p.1, BitVec.ofNat 64 p.2.length]) ++
  [0#64, 0#64, 0#64, 0#64, 0#64]

/-- The 256 bytes of a header. -/
def headerBytes (ws : List Word) : List Byte :=
  let body := ws.flatMap fun w => bytesOf 8 w.toNat
  body ++ bytesOf 8 (crc32c body).toNat

/-- Section 7: the granted accumulators one after another. -/
def Saved.accSection (v : Saved) : List Chunk :=
  (List.range (accSize v.thread.acc / 0x40000)).flatMap fun i => (v.acc.slice (4096 * i) 4096).section 4096

/-- The sections of an image (Table 17.9). -/
def State.sections (s : State) (k : Nat) (v : Saved) : List (List Chunk) :=
  let t := v.thread
  let scr := if t.parentSlot.isNone then t.scrSize else 0
  [t.scalarSection, t.barrierSection, [(s.crSection k, false)], [(s.hiddenSection t, false)], t.replaySection,
   v.vector.section (t.shareBytes / 64), t.maskSection, v.accSection, (bytesOf 8 scr, false) :: v.scratch.section (scr / 64)]

/-- The strand in a slot as its image holds it. -/
def State.saveOf (s : State) (family : Nat) (k : Nat) : Saved :=
  let t := s.getThr k
  let core := coreOf k
  let save := ((s.bindRec t.bindNo).get 7).extractLsb' 12 52
  { uid := t.uid, family := family, thread := t, core := core, slot := slotOf k,
    vector := s.imageOf core t.vbase t.shareBytes t.genV,
    acc := s.imageOf core (accBase t.acc) (accSize t.acc) t.genA,
    scratch := if t.parentSlot.isNone then s.imageOf core (0x100000 + t.scrBase) t.scrSize t.genP else ⟨[], [], []⟩,
    header := save.toNat * 4096 + (Config.imageOffset t.uid).toNat }

/-- The chunks of a section that stand from an address on marked poisoned, where they were saved poisoned. -/
def State.poisonChunks (s : State) (pa : Nat) : List Chunk → State
  | [] => s
  | c :: cs => (if c.2 then s.poisonRange pa c.1.length else s).poisonChunks (pa + c.1.length) cs

/-- An image's bytes written to the save area: the sections, then the header; what was saved from a poisoned unit is poisoned there. -/
def State.writeImage (s : State) (k : Nat) (v : Saved) (fork : Bool) : State :=
  let secs := s.sections k v
  let bytes := secs.map sectionBytes
  let places := (sectionPlaces v.uid 0 256 bytes).1
  let s := (places.zip bytes).foldl (fun s p => s.writeBytes (v.header + p.1) p.2) s
  let s := s.writeBytes v.header (headerBytes (v.headerWords fork (tokenOf k v.thread) bytes))
  (places.zip secs).foldl (fun s p => s.poisonChunks (v.header + p.1) p.2) s

/-- A stopped strand's image written and its slot fallow (R296); its claims enter the parked table (R338). -/
def State.saveStrand (s : State) (family : Nat) (fork : Bool) (k : Nat) : State :=
  let v := s.saveOf family k
  let s := s.writeImage k v fork
  let s := if v.thread.claims = [] then s
    else { s with parked := s.parked ++ [{ uid := v.uid, token := tokenOf k v.thread, claims := v.thread.claims }] }
  let s := { s with saved := s.saved ++ [v] }
  s.setThr k (s.getThr k).freed

/-- The image writes of a stopped family finish together (R296, R299); nothing happens before every member has stopped. -/
def execImageWriteComplete (key : Nat) (s : State) : Out :=
  let ks := s.familyOf key
  let family := (s.getThr (s.rootOf key)).uid
  .next (if ks.all fun k => (s.getThr k).stopping then ks.foldl (fun s k => s.saveStrand family (decide (1 < ks.length)) k) s else s)

/-- Whether a preemption request may be served (R338): a strand with claims needs a free entry of the parked table, beside those that
stopping strands are about to take. -/
def State.parkedRoom (s : State) : Bool :=
  s.thr.claims.isEmpty ||
    decide (s.parked.length +
      (s.keys.filter fun k => (s.getThr k).stopping && !(s.getThr k).claims.isEmpty).length < 4096)

/-! ## Lanes (R293, R376, R377) -/

/-- Whether a physical lane is in a core's lane map. -/
def Core.lanesIn (c : Core) (lane : Nat) : Bool := decide (lane < 128 + c.retired.length) && !c.retired.contains lane

/-- The shifted-lane compare of a strand's vector unit fails (R293): the vector side is run again with no visible effect; the third
performance charges a lane, and a lane with 2 charges is retired to a spare, or ERRUNC pends when none is left. -/
def execShiftedLaneMismatch (key : Nat) (lane : Option Nat) (s : State) : Out :=
  let core := coreOf key
  let b := BitVec.ofNat 8 core
  match lane with
  | none => .next (s.logError 0x10#8 b Config.transientKind (Config.laneLog core none) 0#4)
  | some l =>
    let c := s.getCore core
    if !c.lanesIn l then .next s
    else
      let n := Sparse.get 0 c.charges l + 1
      let s := s.mapCore core fun c =>
        { c with charges := Sparse.put 0 c.charges l n, logged := if c.logged = 0xFF#8 then c.logged else c.logged + 1#8 }
      let s := s.mapMod fun m => { m with estat := m.estat ||| 1#4 }
      if n < 2 then .next s
      else if c.retired.length < 4 then
        .next ((s.mapCore core fun c => { c with retired := c.retired ++ [l] }).logError 0x10#8 b 3#2 (Config.laneLog core (some l)) 1#4)
      else
        let t := s.getThr key
        .next (if t.bound then s.setThr key { t with errunc := some (1#8, 0#64) } else s)

end Sys2Proof.Machine
end

