-- ==== Sys2Proof/Machine/Launch.lean ====
section
/-!
DEFINITION. Queues and launches as the dispatch hardware handles them (19 sections 19.1, 19.2, 19.4): creation of a queue, acceptance
of a launch, its completion.
-/

namespace Sys2Proof.Machine

/-! ## Bind records (Table 19.3) -/

def BindRec.queue (b : BindRec) : Word := b.get 0
def BindRec.cmask (b : BindRec) : BitVec 72 := (b.get 2).extractLsb' 0 8 ++ b.get 1
def BindRec.share (b : BindRec) : BitVec 2 := (b.get 2).extractLsb' 16 2
def BindRec.acc (b : BindRec) : BitVec 2 := (b.get 2).extractLsb' 18 2
def BindRec.stand (b : BindRec) : Bool := (b.get 2).getLsbD 20
def BindRec.ecl (b : BindRec) : Bool := (b.get 2).getLsbD 22
def BindRec.prio (b : BindRec) : BitVec 3 := (b.get 2).extractLsb' 24 3
def BindRec.asid (b : BindRec) : BitVec 12 := (b.get 2).extractLsb' 32 12
def BindRec.erefill (b : BindRec) : Nat := ((b.get 3).extractLsb' 0 32).toNat
def BindRec.quantum (b : BindRec) : Nat := ((b.get 3).extractLsb' 32 32).toNat
def BindRec.root (b : BindRec) : BitVec 40 := (b.get 4).extractLsb' 12 40

/-- A record as the table holds it: zero fields ignore what is written (R6). -/
def BindRec.stored (b : BindRec) : BindRec :=
  Vector.ofFn fun i => match i with
    | 2 => b.get 2 &&& 0x00000FFF077F0FFF#64
    | 4 => b.get 4 &&& 0x000FFFFFFFFFF000#64
    | 7 => b.get 7 &&& 0xFFFFFFFFFFFFF000#64
    | i => b.get i

/-- Whether some record names a context (R323). -/
def State.contextRecord (s : State) (asid : BitVec 12) : Option BindRec :=
  (s.binds.find? fun p => p.2.queue ≠ 0#64 && p.2.asid == asid).map (·.2)

/-! ## Queues (R319) -/

/-- A queue created under a live class-3 name (R319): at most 64 in a context and 8,192 in the module, one to a page of a function. The
management core's request for more, or for a name that is not live, makes none. -/
def execQueueCreate (name : BitVec 64) (depth prio : Nat) (owner : BitVec 12) (page : BitVec 6) (s : State) : Out :=
  let mine := s.queues.filter fun q => q.owner == owner
  let live := match s.lookup name with
    | some i => s.mod.ntEn && s.ntState i == 1
    | none => false
  let taken := s.queues.any fun q => q.name == name || (q.page == page && s.ctxFunc q.owner == s.ctxFunc owner)
  if !live || taken || decide (64 ≤ mine.length ∨ 8192 ≤ s.queues.length) then .next s
  else
    .next { s with queues := s.queues ++ [{ name := name, depth := depth, prio := prio, owner := owner, page := page, waiting := [],
                                            record := Vector.replicate 16 0#64, seq := 0#32, reason := 0#8, result := 0#8 }] }

/-- The queue of a name. -/
def State.queue? (s : State) (name : Word) : Option Queue := s.queues.find? fun q => q.name == name

/-- The launch of a number. -/
def State.launchOf (s : State) (id : Nat) : Option Launch := s.launches.find? fun l => l.id == id

/-- The state with a launch changed. -/
def State.mapLaunch (s : State) (id : Nat) (f : Launch → Launch) : State :=
  { s with launches := s.launches.map fun l => if l.id = id then f l else l }

/-- A launch taken from its queue. -/
def State.dequeue (s : State) (id : Nat) : State :=
  { s with queues := s.queues.map fun q => { q with waiting := q.waiting.filter fun x => x ≠ id } }

/-! ## Scopes of groups (R22) -/

/-- Whether the scope of a level around a core contains another core. -/
def State.scopeHolds (s : State) (level anchor core : Nat) : Bool :=
  match level with
  | 0 => anchor == core
  | 1 => s.clusterOf anchor == s.clusterOf core
  | 2 => s.dieOf anchor == s.dieOf core
  | _ => true

/-- The smallest scope that contains a scope and a core. -/
def State.widen (s : State) (sc : Nat × Nat) (core : Nat) : Nat × Nat :=
  (((List.range 4).find? fun l => decide (sc.1 ≤ l) && s.scopeHolds l sc.2 core).getD 3, sc.2)

/-- What the arrivals of a strand's groups ordered, performed for the scope of each group that a core widens (R22). -/
def State.widenOrderFor (s : State) (launch index core : Nat) : State :=
  match s.launches.find? fun l => l.id == launch with
  | none => s
  | some l =>
    let wider := (l.scopes.zip l.groups).filterMap fun p =>
      if p.2.contains index && decide ((s.widen p.1 core).1 ≠ p.1.1) then some (s.widen p.1 core).1 else none
    if wider = [] then s else s.widenOrder (wider.foldl max 0)

/-- The smallest scope that contains every core of a list. For no core at all R22 gives none: the model takes the narrowest, core scope
(DESIGN CHOICE, log entry 48); the first binding widens it. -/
def State.scopeOf (s : State) : List Nat → Nat × Nat
  | [] => (0, 0)
  | c :: cs => cs.foldl s.widen (0, c)

/-- Whether a core binds strands at all: present, not offline (R377), on die 0 at service level 2 (R393). -/
def State.binding (s : State) (core : Nat) : Bool :=
  decide (core < s.ncore) && !s.offline core && (s.mod.svclvl == 3#2 || (s.mod.svclvl == 2#2 && s.dieOf core == 0))

/-- The cores on which a record permits a strand of a queue's context with a share (R22, R328). -/
def State.permitted (s : State) (name : Word) (owner : BitVec 12) (share : BitVec 2) : List Nat :=
  (List.range s.ncore).filter fun c => s.binding c &&
    s.binds.any fun p => p.2.queue == name && p.2.asid == owner && p.2.cmask.getLsbD c && p.2.share == share &&
      (p.2.get 2).extractLsb' 8 4 != 0#4

/-! ## The completion region (R332, Table 19.4) -/

/-- Where the device may store a doubleword for a context at user level. -/
def State.regionPlace (s : State) (asid : BitVec 12) (root : BitVec 40) (va : Word) : Option Nat × State :=
  match s.translate asid root false va .store with
  | (.fault _ _, s) => (none, s)
  | (.ok pa _, s) => (if s.regionRefuses pa .store then none else some pa, s)

/-- A doubleword stored for a context. -/
def State.regionStore (s : State) (asid : BitVec 12) (pa : Nat) (x : Word) : State :=
  match s.region pa with
  | .window core off => (s.windowWrite asid false core off (bytesOf 8 x.toNat)).1
  | _ => s.setWord pa x

/-- The completion of a launch, or its refusal (R332): the words at +8 and +16, CVAL, the wake, the interrupt; a region that is not
writable as a whole is not written and wakes nobody. -/
def State.report (s : State) (l : Launch) (root : BitVec 40) (w8 w16 : Word) : State :=
  let va := l.record.get 6
  let (p0, s) := s.regionPlace l.owner root va
  let (p1, s) := s.regionPlace l.owner root (va + 8#64)
  let (p2, s) := s.regionPlace l.owner root (va + 16#64)
  let s := match p0, p1, p2 with
    | some p0, some p1, some p2 =>
      let s := (s.regionStore l.owner p1 w8).regionStore l.owner p2 w16
      let s := s.regionStore l.owner p0 (l.record.get 7)
      s.wakeAll (s.selectMonitors p0 0)
    | _, _, _ => s
  if (l.record.get 1).getLsbD 32 then
    { s with out := s.out ++ [.msix (s.ctxFunc l.owner) ((l.record.get 1).extractLsb' 40 6)] }
  else s

/-- The word at +16 of a completed launch: the first ended strand with its detail and cause. -/
def Launch.errorWord (l : Launch) : Word :=
  match l.err with
  | some (index, cause, detail) => (BitVec.ofNat 20 index ++ 0#16 ++ detail ++ cause).setWidth 64
  | none => 0#64

/-- Whether a launch's strands are all done. -/
def Launch.done (l : Launch) : Bool := l.accepted && l.finished == l.count

/-- A launch completes (R331, R332); its group table and barriers go with it, and a collective that it leaves unmatched ends. -/
def execLaunchComplete (launch : Nat) (s : State) : Out :=
  match s.launchOf launch with
  | none => .next s
  | some l =>
    if !l.done then .next s
    else
      let s := { s with colls := s.colls.map fun (c : Collective) =>
        if c.launch = launch ∧ c.status.isNone ∧ s.abandoned c = true then { c with status := some 1#2 } else c }
      let s := (s.launchOrder launch).report l l.root (BitVec.ofNat 64 (min l.ended 0xFFFFFFFF)) l.errorWord
      .next ({ s with launches := s.launches.filter fun x => x.id ≠ launch,
                      barriers := s.barriers.filter fun b => b.launch ≠ launch }.dequeue launch)

/-- A launch refused at acceptance (R323): no strand ran. -/
def State.refuse (s : State) (l : Launch) (root : BitVec 40) (reason detail : BitVec 8) : State :=
  let s := s.report l root 0#64 ((1#1 ++ 0#47 ++ detail ++ reason).setWidth 64)
  { s with launches := s.launches.filter fun x => x.id ≠ l.id }.dequeue l.id

/-! ## Acceptance (R323) -/

/-- A refusal: reason and detail. -/
abbrev Refused := BitVec 8 × BitVec 8

/-- Whether a code object's header is well formed and carries this device's stamp (R366, R367). -/
def State.headerOk (s : State) (h : List Byte) : Bool :=
  let w := fun n => numOf ((h.drop (8 * n)).take 8)
  decide (w 0 % 2 ^ 32 = 0x43584D55) && decide (w 0 / 2 ^ 32 % 2 ^ 16 = 1) &&
    decide (w 2 = (s.dhash true).toNat) && decide (w 3 = (s.dhash false).toNat)

/-- A byte of a code image as it stands in memory when its name and version are first launched, whatever its page permits, and whether its
unit is poisoned; none where no ordinary memory is mapped (log entry 21). A poisoned table frame is listed (R317). -/
def State.codeByte (s : State) (asid : BitVec 12) (root : BitVec 40) (va : Nat) : (Option Byte × Bool) × State :=
  match s.walk asid root va with
  | .leaf e =>
    match s.region (e.addr va) with
    | .window _ _ | .info => ((none, false), s)
    | _ => ((some (s.byte (e.addr va)), s.poisoned (e.addr va) 1), s)
  | .poison f _ entry => ((none, false), (match entry with | some pa => s.logConsumed pa | none => s).poisonFrame f)
  | .fault _ _ => ((none, false), s)

/-- The bytes of a code image from an address on. -/
def State.codeBytes (s : State) (asid : BitVec 12) (root : BitVec 40) : Nat → Nat → List (Option Byte × Bool) × State
  | _, 0 => ([], s)
  | va, n + 1 =>
    let b := s.codeByte asid root va
    let r := b.2.codeBytes asid root (va + 1) n
    (b.1 :: r.1, r.2)

/-- The state with the image of a kernel's name and version, read once for all its launches (R371). -/
def State.withImage (s : State) (asid : BitVec 12) (root : BitVec 40) (name : Word) (version : BitVec 32) (base : Word) (n : Nat) : State :=
  if s.images.any fun c => c.asid == asid && c.name == name && c.version == version then s
  else
    let r := s.codeBytes asid root base.toNat n
    { r.2 with images := r.2.images ++ [{ asid := asid, name := name, version := version, base := base, bytes := r.1.map (·.1),
                                          bad := (r.1.zipIdx.filter fun p => p.1.2).map (·.2) }] }

/-- The kernel of a launch (R323, step 1): where its image lies, and the version of its name. A header that cannot be read counts as
malformed. -/
def State.acceptKernel (s : State) (l : Launch) (root : BitVec 40) : Except Refused (Word × BitVec 32) × State :=
  let name := l.record.get 0
  let r := s.resolveTable l.owner name
  if nameClass name ≠ 4 ∨ r.st ≠ Nstat.live then (.error (5#8, 0#8), s)
  else
    match s.readFor l.owner root r.loc 64 with
    | (none, s) => (.error (5#8, 0x11#8), s)
    | (some h, s) =>
      if s.headerOk h then
        let w := numOf ((h.drop 8).take 8)
        let base := r.loc + BitVec.ofNat 64 (w % 2 ^ 32)
        (.ok (base, r.version), s.withImage l.owner root name r.version base (w / 2 ^ 32))
      else (.error (5#8, 0x11#8), s)

/-- The groups that an entry of a mode-0 table names (R325, R21); none for one that breaks a rule. -/
def groupEntryIds (n : Nat) (bs : List Byte) : Option (List Nat) :=
  let xs := bs.map (·.toNat)
  let cnt := xs.getD 4 0
  let ids := xs.take cnt
  if 4 < cnt ∨ ((xs.take 4).drop cnt).any (· ≠ 0) = true ∨ (xs.drop 5).any (· ≠ 0) = true then none
  else if ids.any (fun g => n ≤ g) || ids.eraseDups.length ≠ ids.length then none
  else some ids

/-- The groups of each strand in mode 0, entry by entry (R323, step 2). -/
def State.groupTable (s : State) (l : Launch) (root : BitVec 40) (n : Nat) : Word → Nat → Except Refused (List (List Nat)) × State
  | _, 0 => (.ok [], s)
  | va, k + 1 =>
    match s.readFor l.owner root va 8 with
    | (none, s) => (.error (8#8, 0#8), s)
    | (some bs, s) =>
      match groupEntryIds n bs with
      | none => (.error (6#8, 0#8), s)
      | some ids =>
        match s.groupTable l root n (va + 8#64) k with
        | (.ok rest, s) => (.ok (ids :: rest), s)
        | e => e

/-- The groups of each strand (Table 1.4). -/
def State.strandGroups (s : State) (l : Launch) (root : BitVec 40) : Except Refused (List (List Nat)) × State :=
  let n := bitsOf (l.record.get 4).toNat 23 16 + 1
  let count := l.count
  match bitsOf (l.record.get 4).toNat 25 24 with
  | 0 => s.groupTable l root n (l.record.get 5) count
  | 1 => (.ok ((List.range count).map fun i => [i / ((count + n - 1) / n)]), s)
  | _ => (.ok ((List.range count).map fun i => [i % n]), s)

/-- The members of each of `n` groups, by strand index. -/
def groupMembers (n : Nat) (of : List (List Nat)) : List (List Nat) :=
  (List.range n).map fun g => (of.zipIdx.filter fun p => p.1.contains g).map (·.2)

/-- The preload entries in ascending order (R323, step 3; R326): each runs as `tbind` does. -/
def State.preload (s : State) (l : Launch) (root : BitVec 40) : Word → Nat → Nat → Except Refused Unit × State
  | _, _, 0 => (.ok (), s)
  | va, i, k + 1 =>
    match s.readFor l.owner root va 16 with
    | (none, s) => (.error (8#8, 0#8), s)
    | (some bs, s) =>
      let img := numOf (bs.take 8)
      let tid := numOf (bs.drop 8)
      if img % 64 ≠ 0 ∨ 1024 ≤ tid then (.error (7#8, BitVec.ofNat 8 i), s)
      else
        match s.readFor l.owner root (BitVec.ofNat 64 img) 64 with
        | (none, s) => (.error (8#8, 0#8), s)
        | (some bs, s) =>
          let t : Tensor := Vector.ofFn fun (j : Fin 8) => BitVec.ofNat 64 (numOf ((bs.drop (8 * j.val)).take 8))
          let r := if nameClass t.name = 1 then s.resolveTable l.owner t.name else .none Nstat.unknown
          match s.bindTensor r l.owner tid t with
          | (0, s) => s.preload l root (va + 16#64) (i + 1) k
          | (_, s) => (.error (7#8, BitVec.ofNat 8 i), s)

/-- A launch accepted or refused, with the context's root known. -/
def State.accept (s : State) (l : Launch) (root : BitVec 40) : State :=
  if s.ctxState l.owner ≠ 1 then s.refuse l root 5#8 0#8
  else
    match s.acceptKernel l root with
    | (.error e, s) => s.refuse l root e.1 e.2
    | (.ok (base, version), s) =>
      match s.strandGroups l root with
      | (.error e, s) => s.refuse l root e.1 e.2
      | (.ok of, s) =>
        match s.preload l root (l.record.get 8) 0 (bitsOf (l.record.get 9).toNat 10 0) with
        | (.error e, s) => s.refuse l root e.1 e.2
        | (.ok _, s) =>
          let n := bitsOf (l.record.get 4).toNat 23 16 + 1
          let sc := s.scopeOf (s.permitted l.queue l.owner (BitVec.ofNat 2 (bitsOf (l.record.get 2).toNat 35 34)))
          s.mapLaunch l.id fun l =>
            { l with accepted := true, root := root, groups := groupMembers n of, scopes := List.replicate n sc, codeBase := base,
                     version := version }

/-- The launch at the head of a queue that has not been accepted. -/
def State.headToAccept (s : State) (q : Queue) : Option Launch :=
  match q.waiting with
  | [] => none
  | id :: _ => (s.launchOf id).filter fun l => !l.accepted

/-- Acceptance of a queue's head (R323): it waits until a bind record names the owning context. -/
def execLaunchAccept (queue : BitVec 64) (s : State) : Out :=
  .next (match s.queue? queue with
    | none => s
    | some q =>
      match s.headToAccept q, s.contextRecord q.owner with
      | some l, some b => s.accept l b.root
      | _, _ => s)

end Sys2Proof.Machine
end

