-- ==== Sys2Proof/Machine/Bind.lean ====
section
/-!
DEFINITION. Binding (R328, R329), preemption for a waiting strand or by a changed record (R330), restore (R303, R304, R339), the
watchdog and the quantum.
-/

namespace Sys2Proof.Machine

/-! ## Which slots qualify (R328, R402, R403) -/

/-- What a waiting strand asks of a slot: its queue and context, its share and its scratchpad bytes. -/
structure Need where
  queue   : Word
  asid    : BitVec 12
  share   : BitVec 2
  scratch : Nat
  deriving DecidableEq, Repr

/-- The strands of a core that hold storage, but for those that would have gone. -/
def State.residents (s : State) (core : Nat) (gone : Nat → Bool) : List Thread :=
  ((coreKeys core).filter fun k => !gone k && (s.getThr k).bound).map s.getThr

/-- Bytes of a share of a code. -/
def shareSize (code : BitVec 2) : Nat := 524288 / 2 ^ code.toNat

/-- Whether two extents meet. -/
def meets (a n b m : Nat) : Bool := decide (a < b + m ∧ b < a + n)

/-- The lowest aligned extent of vector storage for a share (R402). -/
def shareBase (rs : List Thread) (code : BitVec 2) : Option Nat :=
  ((List.range (2 ^ code.toNat)).map fun i => i * shareSize code).find? fun b =>
    !rs.any fun t => t.parentSlot.isNone && meets b (shareSize code) t.vbase t.shareBytes

/-- The lowest extent of the scratchpad for an allocation (R403). -/
def scratchBase (rs : List Thread) (n : Nat) : Option Nat :=
  if n = 0 then some 0
  else
    let held := rs.filter fun t => t.parentSlot.isNone && t.scrSize ≠ 0
    let starts := (0 :: held.map fun t => t.scrBase + t.scrSize).filter fun b =>
      decide (b + n ≤ 0x200000) && !held.any fun t => meets b n t.scrBase t.scrSize
    starts.min?

/-- Whether a record permits a slot for a strand (R328): masks, and a core that binds. -/
def State.permits (s : State) (b : BindRec) (key : Nat) : Bool :=
  b.cmask.getLsbD (coreOf key) && b.smask.getLsbD (slotOf key) && s.binding (coreOf key)

/-- Whether a strand can bind into a slot under a record (R328), taking some strands as gone. -/
def State.qualifies (s : State) (n : Need) (b : BindRec) (key : Nat) (gone : Nat → Bool) : Bool :=
  let rs := s.residents (coreOf key) gone
  b.queue == n.queue && b.queue != 0#64 && b.asid == n.asid && s.permits b key && b.share == n.share &&
    (gone key || !(s.getThr key).bound) && (shareBase rs n.share).isSome && (scratchBase rs n.scratch).isSome &&
    rs.all fun t => t.acc &&& b.acc == 0#2

/-- A record and a slot: the record's number and PRIO, the slot. -/
structure Place where
  num  : Nat
  prio : BitVec 3
  key  : Nat
  deriving DecidableEq, Repr

/-- The order in which the device takes places (R328): highest PRIO, lowest core, lowest slot; then the lowest record number. -/
def Place.before (a b : Place) : Bool :=
  decide (b.prio.toNat < a.prio.toNat) ||
    (a.prio == b.prio && (decide (a.key < b.key) || (a.key == b.key && decide (a.num < b.num))))

/-- The first place of a list. -/
def firstPlace (ps : List Place) : Option Place :=
  ps.foldl (fun best p => match best with
    | none => some p
    | some b => if p.before b then some p else some b) none

/-- Every place that qualifies for a need. -/
def State.places (s : State) (n : Need) (gone : Nat → Bool) : List Place :=
  s.binds.flatMap fun p =>
    ((List.range 288).filter fun k => s.qualifies n p.2 k gone).map fun k => { num := p.1, prio := p.2.prio, key := k }

/-- No strand taken as gone. -/
def nobody : Nat → Bool := fun _ => false

/-! ## Who waits (R320, R330) -/

/-- The strand of a queue that binds next: a preempted one before any that was never bound. -/
inductive Want where
  | saved (v : Saved)
  | fresh (l : Launch)
  deriving DecidableEq, Repr

/-- The preempted strands of a queue, family by family, the longest waiting first. -/
def State.savedOf (s : State) (queue : Word) : List Saved :=
  s.saved.filter fun v => v.thread.queue == queue && v.thread.parentSlot.isNone

/-- The launch of a queue whose strand binds next: the first that has one unbound, if it is accepted (R320). -/
def State.bindingLaunch (s : State) (q : Queue) : Option Launch :=
  (q.waiting.head?.bind s.launchOf).filter fun l => l.accepted && decide (l.bound < l.count)

/-- The strand of a queue that binds next. -/
def State.want (s : State) (q : Queue) : Option Want :=
  match s.savedOf q.name with
  | v :: _ => some (.saved v)
  | [] => (s.bindingLaunch q).map .fresh

/-- The need of a launch's strands. -/
def Launch.need (l : Launch) : Need :=
  { queue := l.queue, asid := l.owner, share := BitVec.ofNat 2 (bitsOf (l.record.get 2).toNat 35 34),
    scratch := bitsOf (l.record.get 2).toNat 31 0 }

/-- The need of a bound or preempted strand. -/
def Thread.need (t : Thread) : Need :=
  { queue := t.queue, asid := t.asid, share := t.arch.ucr.vcfg.extractLsb' 2 2, scratch := t.scrSize }

/-- What the next strand of a queue needs. -/
def Want.need : Want → Need
  | .saved v => v.thread.need
  | .fresh l => l.need

/-! ## Binding (R62, R324, Table 2.11) -/

/-- The argument slots up to a number as they are read at binding (R324): zero at or beyond ARGSZ; the trap that ends the strand, where one
cannot be read. -/
def State.readArgs (s : State) (asid : BitVec 12) (root : BitVec 40) (argp : Word) (slots : Nat) :
    Nat → List Word × Option (BitVec 8 × BitVec 8) × State
  | 0 => ([], none, s)
  | n + 1 =>
    match s.readArgs asid root argp slots n with
    | (ws, some e, s) => (ws, some e, s)
    | (ws, none, s) =>
      if slots ≤ n then (ws ++ [0#64], none, s)
      else
        match s.engineReads none asid root false true (argp + BitVec.ofNat 64 (8 * n)) 8 with
        | ((bs, none), s) => (ws ++ [BitVec.ofNat 64 (numOf bs)], none, s)
        | ((_, some (.translation _)), s) => (ws, some (Cause.page, 0#8), s)
        | ((_, some (.error pa)), s) => (ws, some (Cause.errunc, 0#8), s.logConsumed pa)
        | ((_, some _), s) => (ws, some (Cause.prot, 0#8), s)

/-- Scalar registers s3 to s11 of a strand at its first instruction (Table 2.11): the others keep what the slot held, stale. -/
def firstRegs (old : Vector Word 32) (tags : Vector Gen 32) (gen : Gen) (l : Launch) (index : Nat) (args : List Word) :
    Vector Word 32 × Vector Gen 32 :=
  let vals := l.record.get 3 :: BitVec.ofNat 64 index :: BitVec.ofNat 64 l.count :: args
  (Vector.ofFn fun i => if 3 ≤ i.val ∧ i.val ≤ 11 then vals.getD (i.val - 3) 0#64 else old.get i,
   Vector.ofFn fun i => if 3 ≤ i.val ∧ i.val ≤ 11 then gen else tags.get i)

/-- A strand at its first instruction, in a slot that held `old` (R62); s3 to s11 are written whole, and so free of poison (R374). -/
def firstThread (s : State) (old : Thread) (l : Launch) (n : Nat) (b : BindRec) (gs : Vector Gen 5) (vbase scr : Nat)
    (args : List Word) : Thread :=
  let regs := firstRegs old.arch.sreg old.arch.stag gs[0] l l.bound args
  let vcfg := l.need.share ++ BitVec.ofNat 2 (bitsOf (l.record.get 2).toNat 33 32)
  { Thread.reset with
    bound := true, uid := s.nextId, launch := l.id, index := l.bound, queue := l.queue, bindNo := n, prio := b.prio, ecl := b.ecl,
    asid := b.asid, root := b.root, genS := gs[0], genV := gs[1], genM := gs[2], genA := gs[3], genP := gs[4],
    vbase := vbase, acc := b.acc, scrBase := scr, scrSize := l.need.scratch,
    arch := { old.arch with
      sreg := regs.1, stag := regs.2, sbad := old.arch.sbad.filter fun r => !decide (3 ≤ r ∧ r ≤ 11), qrows := 0#64, qlen := 0#64, trip := Triple.start l.codeBase,
      ucr := UserCR.atBinding vcfg (BitVec.ofNat 2 (bitsOf (l.record.get 4).toNat 30 29)) }
    sys := SysCR.atBinding (b.get 5) (b.get 6), codeMem := s.codeMem, kernel := l.record.get 0, kver := l.version }

/-- A one-shot record cleared by the binding that it permits (R329). -/
def State.useRecord (s : State) (n : Nat) (b : BindRec) : State :=
  if b.stand then s else { s with binds := Sparse.put BindRec.empty s.binds n (b.set 0 0#64) }

/-- A launch with one more strand bound on a core; the scope of that strand's groups widens to contain it (R22). -/
def State.boundOne (s : State) (l : Launch) (core : Nat) : State :=
  (s.widenOrderFor l.id l.bound core).mapLaunch l.id fun l =>
    { l with
      bound := l.bound + 1
      scopes := (l.scopes.zip l.groups).map fun p => if p.2.contains l.bound then s.widen p.1 core else p.1 }

/-- A queue whose strand has bound moves behind its equals; a launch whose strands have all been bound leaves the queue (R320, R328,
R331). -/
def State.afterBinding (s : State) (queue : Word) : State :=
  let qs := s.queues.filter (fun q => q.name ≠ queue) ++ s.queues.filter fun q => q.name == queue
  { s with queues := qs.map fun q =>
      { q with waiting := q.waiting.filter fun id => !(s.launchOf id).any fun l => l.accepted && decide (l.count ≤ l.bound) } }

/-- The next strand of a launch bound at a place (R328, R342), or ended before its first instruction (R324). The binding waits while
one of its allocations stalls (R345); a strand of a context that is not live is refused (R361). -/
def State.bindFresh (s : State) (l : Launch) (p : Place) : State :=
  let b := s.bindRec p.num
  let core := coreOf p.key
  if s.ctxState l.owner ≠ 1 then
    ((s.mapLaunch l.id fun l => { l with bound := l.bound + 1 }).launchStrandDone l.id l.bound (some (5#8, 0#8)) true).afterBinding l.queue
  else
    match s.allocGens core [0, 1, 2, 3, 4] with
    | (none, s) => s
    | (some gs, s) =>
      let rs := s.residents core nobody
      let slots := bitsOf (l.record.get 4).toNat 15 0 / 8
      match s.readArgs b.asid b.root (l.record.get 3) slots (max 6 slots) with
      | (args, err, s) =>
        let t := firstThread s (s.getThr p.key) l p.num b (Vector.ofFn fun i => gs.getD i.val 0#16)
          ((shareBase rs l.need.share).getD 0) ((scratchBase rs l.need.scratch).getD 0) args
        let s := (({ s with nextId := s.nextId + 1 }.setThr p.key t).useRecord p.num b).boundOne l core
        let s := s.afterBinding l.queue
        if err.isSome then s.endStrand p.key err else s

/-! ## Preemption for a waiting strand (R330) -/

/-- Whether a family is being preempted. -/
def State.leaving (s : State) (k : Nat) : Bool := (s.familyOf k).any fun j => (s.getThr j).preempt || (s.getThr j).stopping

/-- The bound slots that would qualify for a need once their family had gone, with the records that permit it. -/
def State.victims (s : State) (n : Need) : List Place :=
  (s.keys.filter fun k => (s.getThr k).bound).flatMap fun k =>
    let fam := s.familyOf k
    (s.binds.filter fun p => s.qualifies n p.2 k fun j => fam.contains j).map fun p => { num := p.1, prio := p.2.prio, key := k }

/-- Whether a waiting strand may have a preemption requested: it finds no fallow slot, and none that it could have is being vacated. -/
def State.mayRequest (s : State) (n : Need) : Bool :=
  (s.places n nobody).isEmpty && !(s.victims n).any fun p => s.leaving p.key

/-- The strand that a waiting strand of higher PRIO displaces (R330, second case): the lowest PRIO, then the lowest slot. -/
def State.displaced (s : State) (n : Need) : Option Nat :=
  if s.mayRequest n then
    let vs := (s.victims n).filter fun p => decide ((s.getThr p.key).prio.toNat < p.prio.toNat)
    (firstPlace (vs.map fun p => { p with prio := 7#3 - (s.getThr p.key).prio, num := 0 })).map (·.key)
  else none

/-- STRAND_BIND: the next strand of a queue binds at the first place that qualifies (R328), or has a preemption requested for it. A
preempted strand binds by its restore. -/
def execStrandBind (queue : BitVec 64) (s : State) : Out :=
  .next (match s.queue? queue with
    | none => s
    | some q =>
      match s.want q with
      | none => s
      | some w =>
        match w, firstPlace (s.places w.need nobody) with
        | .fresh l, some p => s.bindFresh l p
        | .saved _, some _ => s
        | _, none => match s.displaced w.need with
          | some k => s.requestPreempt k
          | none => s)

/-- Whether a strand has been bound for its record's QUANTUM, and by how many cycles more. -/
def State.overQuantum (s : State) (k : Nat) : Option Nat :=
  let t := s.getThr k
  let q := (s.bindRec t.bindNo).quantum
  if t.bound ∧ q ≠ 0 ∧ q ≤ t.bindCycles then some (t.bindCycles - q) else none

/-- Whether a strand of equal PRIO waits for the slot of a strand whose quantum has run out (R330, third case). -/
def State.turnDue (s : State) (k : Nat) : Bool :=
  (s.overQuantum k).isSome &&
    s.queues.any fun q =>
      match s.want q with
      | some w => s.mayRequest w.need && (s.victims w.need).any fun p => p.key == k && p.prio == (s.getThr k).prio
      | none => false

/-- QUANTUM_EXPIRE (R330, third case). -/
def execQuantumExpire (key : Nat) (s : State) : Out := .next (if s.turnDue key then s.requestPreempt key else s)

/-! ## The management core writes a record (R327, R330, first case) -/

/-- Whether a bound strand still qualifies under the record it is bound under: a fork child needs its slot permitted. -/
def State.stillQualifies (s : State) (k : Nat) : Bool :=
  let t := s.getThr k
  let b := s.bindRec t.bindNo
  if t.parent.isSome then b.queue == t.queue && b.asid == t.asid && s.permits b k
  else
    let fam := s.familyOf k
    s.qualifies t.need b k fun j => fam.contains j

/-- BIND_RECORD_WRITE. -/
def execBindRecordWrite (n : Nat) (words : Vector (BitVec 64) 8) (s : State) : Out :=
  let b : BindRec := words
  let s := { s with binds := Sparse.put BindRec.empty s.binds n b.stored }
  .next ((s.keys.filter fun k => (s.getThr k).bound && (s.getThr k).bindNo == n && !s.stillQualifies k).foldl
    (fun s k => s.requestPreempt k) s)

/-! ## Restore (R303, R304, R339) -/

/-- The user control registers from the words of section 2. -/
def UserCR.ofWords (w : Nat → Word) : UserCR :=
  { vlen := (w 0x00).setWidth 9, vrows := (w 0x01).setWidth 9, vsew := (w 0x02).setWidth 2, vcfg := (w 0x03).setWidth 4,
    vstart := (w 0x04).setWidth 16, frm := (w 0x05).setWidth 3, fflags := (w 0x06).setWidth 5, pstep := (w 0x07).setWidth 32,
    mrow := (w 0x08).setWidth 16, mfmt := (w 0x09).setWidth 10, mxerr := (w 0x0A).setWidth 19, vfmt := (w 0x0B).setWidth 1,
    xstrip := (w 0x0C).setWidth 32, xidx := (w 0x0D).setWidth 16, nstat := (w 0x0E).setWidth 2, rmode := (w 0x0F).setWidth 2,
    genmode := (w 0x10).setWidth 1, retcnt := w 0x11, utvec := (w 0x12).setWidth 56, ucause := (w 0x13).setWidth 8,
    uepc := (w 0x14).extractLsb' 2 54, uenpc := (w 0x15).extractLsb' 2 54, uennpc := (w 0x16).extractLsb' 2 54,
    uannul := (w 0x17).setWidth 2, uval := w 0x18, mascale := (w 0x19).setWidth 32, vrstr := w 0x1A, smc := (w 0x1B).setWidth 32,
    cpyshape := w 0x1C, xgrp := (w 0x1D).setWidth 8 }

/-- The system control registers 0x100 to 0x10C from the words of section 2; the others are as a binding leaves them (Table 18.1). -/
def SysCR.ofWords (w : Nat → Word) : SysCR :=
  { SysCR.atBinding (w 0x101) (w 0x10B) with
    hw := (w 0x100).getLsbD 2, ppl := (w 0x100).getLsbD 1, sta := (w 0x100).getLsbD 0, scause := (w 0x102).setWidth 16, sepc := w 0x103,
    senpc := w 0x104, sennpc := w 0x105, sannul := (w 0x106).setWidth 2, sval := w 0x107, sxpc := w 0x108, srpt := (w 0x109).setWidth 11,
    swdcnt := w 0x10A, sscratch := w 0x10C }

/-- A doubleword of physical memory as an image holds it. -/
def State.imageWord (s : State) (pa : Nat) : Word := BitVec.ofNat 64 (numOf (s.bytes pa 8))

/-- A part of an image read back from memory: its bitmap of `n` granules, then the present ones. -/
def State.loadPart (s : State) (pa n : Nat) : Image :=
  let present := (List.range n).filter fun g => (s.byte (pa + g / 8)).getLsbD (g % 8)
  { granules := present
    cells := present.zipIdx.flatMap fun p => (List.range 64).map fun i => (64 * p.1 + i, s.byte (pa + (n + 7) / 8 + 64 * p.2 + i))
    bad := (present.zipIdx.filter fun p => s.poisoned (pa + (n + 7) / 8 + 64 * p.2) 64).map fun p => 64 * p.1 }

/-- Section 7 read back: the granted accumulators from one on. -/
def State.loadAcc (s : State) : Nat → Nat → Nat → Image
  | 0, _, _ => ⟨[], [], []⟩
  | n + 1, pa, first =>
    let a := s.loadPart pa 4096
    let rest := s.loadAcc n (pa + 512 + 64 * a.granules.length) (first + 4096)
    { granules := a.granules.map (· + first) ++ rest.granules, cells := a.cells.map (fun c => (c.1 + 64 * first, c.2)) ++ rest.cells,
      bad := a.bad.map (· + 64 * first) ++ rest.bad }

/-- The granules of section 7's accumulators that are presence bitmaps, as ranges of its bytes. -/
def State.accBitmaps (s : State) : Nat → Nat → List (Nat × Nat)
  | 0, _ => []
  | n + 1, pa => (pa, 512) :: s.accBitmaps n (pa + 512 + 64 * (s.loadPart pa 4096).granules.length)

/-- A word of an image's header as memory holds it. -/
def State.headWord (s : State) (v : Saved) (n : Nat) : Word := s.imageWord (v.header + 8 * n)

/-- Where a section of an image begins, and its length, as the header says. -/
def State.sectionAt (s : State) (v : Saved) (n : Nat) : Nat := v.header + (s.headWord v (8 + 2 * n)).toNat
def State.sectionLength (s : State) (v : Saved) (n : Nat) : Nat := (s.headWord v (9 + 2 * n)).toNat

/-- The barrier registers from section 1. Which of them stand there is as it was saved (log entry 14). -/
def State.loadBarriers (s : State) (pa : Nat) (t : Thread) : Vector BarrierReg 8 :=
  let here := fun (b : BarrierReg) => b.bound && b.tag == t.genS
  Vector.ofFn fun i =>
    let b := t.arch.breg.get i
    let at_ := pa + 24 * ((t.arch.breg.toList.take i.val).filter here).length
    if here b then
      { b with group := (s.imageWord at_).setWidth 8, target := (s.imageWord (at_ + 8)).toNat, bad := s.poisoned at_ 24 }
    else b

/-- The granules of a mask register that section 6's bitmap at an address lists; `i` is 0 for k1. -/
def State.maskPresent (s : State) (pa i : Nat) : List Nat :=
  (List.range 128).filter fun g => (s.byte (pa + (128 * i + g) / 8)).getLsbD ((128 * i + g) % 8)

/-- An explicit mask register from its present granules, which stand at an address one after another. -/
def State.loadExplicit (s : State) (at_ : Nat) (gs : List Nat) (gen : Gen) : MaskReg :=
  { form := .explicit (gs.zipIdx.flatMap fun p =>
      ((List.range 512).filter fun e => (s.byte (at_ + 64 * p.2 + e / 8)).getLsbD (e % 8)).map fun e => 512 * p.1 + e)
    tags := Vector.ofFn fun g => if gs.contains g.val then gen else 0#16
    bad := (gs.zipIdx.filter fun p => s.poisoned (at_ + 64 * p.2) 64).map (·.1) }

/-- The mask registers from section 6. Which of them are in the bound form is as it was saved (log entry 14). -/
def State.loadMasks (s : State) (pa : Nat) (t : Thread) : Vector MaskReg 16 :=
  let present := s.maskPresent pa
  let isBound := fun (i : Nat) => match (t.arch.mask.toList.getD (i + 1) MaskReg.reset).form with
    | .bound _ _ => (present i).contains 0
    | .explicit _ => false
  let forms := pa + 240
  let granules := forms + 16 * ((List.range 15).filter isBound).length
  let before := fun (i : Nat) => (((List.range i).filter fun j => !isBound j).map fun j => (present j).length).sum
  Vector.ofFn fun k =>
    if k.val = 0 then t.arch.mask.get k
    else
      let i := k.val - 1
      let tags : Vector Gen 128 := Vector.ofFn fun g => if (present i).contains g.val then t.genM else 0#16
      if isBound i then
        let at_ := forms + 16 * ((List.range i).filter isBound).length
        { form := .bound (s.imageWord at_) ((s.imageWord (at_ + 8)).setWidth 2), tags := tags
          bad := if s.poisoned at_ 16 then [0] else [] }
      else s.loadExplicit (granules + 64 * before i) (present i) t.genM

/-- An entry of section 4 read back (R290): what Table 17.9 gives no bytes for is as it was saved (log entry 14). -/
def State.loadEntry (s : State) (pa : Nat) (e : Replay) : Replay :=
  let i := match decode (BitVec.ofNat 32 (numOf (s.bytes pa 4))) with
    | .ok i => i
    | .error _ => e.instr
  let ops := (operandRegs i).zip [s.imageWord (pa + 12), s.imageWord (pa + 20)]
  { e with
    instr := i, addr := s.imageWord (pa + 4), stop := BitVec.ofNat 16 (numOf (s.bytes (pa + 28) 4))
    sreg := ops.foldl (fun m p => m.set p.1.toNat p.2 p.1.isLt) e.sreg }

/-- The pending replay from section 4. -/
def State.loadReplay (s : State) (pa : Nat) (es : List Replay) : List Replay :=
  (es.take (s.imageWord pa).toNat).zipIdx.map fun p => s.loadEntry (pa + 8 + 32 * p.2) p.1

/-- A saved strand as its image in memory has it (R303). What Table 17.9 gives no bytes for stays as it was saved (log entry 14). -/
def State.loaded (s : State) (v : Saved) : Saved :=
  let t := v.thread
  let head := s.headWord v
  let sec := s.sectionAt v
  let cr := fun n => s.imageWord (sec 2 + 8 * (if n < 0x100 then n else 30 + (n - 0x100)))
  let present := fun (r : Nat) => r ≠ 0 && (s.byte (sec 0 + r / 8)).getLsbD (r % 8)
  let at_ := fun (r : Nat) => sec 0 + 4 + 8 * ((List.range r).filter present).length
  let replay := s.loadReplay (sec 4) t.replay
  let sys := SysCR.ofWords cr
  let position := ((sys.srpt.extractLsb' 4 6).toNat, (sys.srpt.extractLsb' 0 4).toNat)
  let scratch := if t.parentSlot.isNone then s.loadPart (sec 8 + 8) (t.scrSize / 64) else ⟨[], [], []⟩
  { v with
    thread := { t with
      level := (head 3).getLsbD 5, handler := (head 3).getLsbD 4
      loop := if (head 3).getLsbD 2 then some { horizon := (head 3).extractLsb' 0 2, next := (head 4).extractLsb' 32 32 } else none
      replay := replay, replaying := t.replaying && !replay.isEmpty, eclass := (s.imageWord (sec 3 + 16)).setWidth 3
      arch := { t.arch with
        sreg := Vector.ofFn fun r => if present r.val then s.imageWord (at_ r.val) else t.arch.sreg.get r
        stag := Vector.ofFn fun r => if present r.val then t.genS else 0#16
        sbad := (List.range 32).filter fun r => present r && s.poisoned (at_ r) 8
        breg := s.loadBarriers (sec 1) t, mask := s.loadMasks (sec 6) t
        qrows := s.imageWord (sec 3), qlen := s.imageWord (sec 3 + 8), ucr := UserCR.ofWords cr }
      rptResume := if t.rptResume.isSome && sys.srpt.getLsbD 10 then some position else t.rptResume
      sys := if t.rptResume.isSome then { sys with srpt := t.sys.srpt } else sys }
    vector := s.loadPart (sec 5) (t.shareBytes / 64)
    acc := s.loadAcc (accSize t.acc / 0x40000) (sec 7) 0
    scratch := scratch }

/-- The first poisoned place of an image that a restore cannot do without (R375; log entry 58): the header, the presence bitmaps, sections 2
to 4. A poisoned register or granule comes back poisoned. -/
def State.brokenAt (s : State) (v : Saved) : Option Nat :=
  let sec := s.sectionAt v
  let bits := fun (granules : Nat) => (granules + 7) / 8
  let scr := if v.thread.parentSlot.isNone then v.thread.scrSize else 0
  let parts := [(v.header, 256), (sec 0, 4), (sec 2, s.sectionLength v 2), (sec 3, s.sectionLength v 3), (sec 4, s.sectionLength v 4),
    (sec 5, bits (v.thread.shareBytes / 64)), (sec 6, 240)] ++ s.accBitmaps (accSize v.thread.acc / 0x40000) (sec 7) ++
    [(sec 8, 8 + bits (scr / 64))]
  (parts.find? fun p => s.poisoned p.1 p.2).map (·.1)

/-- The header of an image as it stands in memory. -/
def State.header (s : State) (v : Saved) : List Byte := s.bytes v.header 256

/-- Whether a restore fails on an image (R304): poison, CHK, VERSION, a live feature that the device lacks, the share or the accumulators of
the new record. A fork child is granted no accumulator. -/
def State.imageFails (s : State) (v : Saved) (b : BindRec) : Bool :=
  let h := s.header v
  let w := fun n => BitVec.ofNat 64 (numOf ((h.drop (8 * n)).take 8))
  (s.brokenAt v).isSome || (w 31).extractLsb' 0 32 != crc32c (h.take 248) || (w 0).extractLsb' 0 16 != 1#16 ||
    (w 2 &&& ~~~Config.ctxFeat) != 0#64 || (w 3).extractLsb' 10 2 != b.share ||
    (v.thread.parent.isNone && (w 3).extractLsb' 6 2 != b.acc)

/-- The members of a saved family: the parent, then its children. -/
def State.savedFamily (s : State) (v : Saved) : List Saved :=
  (s.saved.filter fun x => x.family == v.family && x.thread.parentSlot.isNone) ++
    s.saved.filter fun x => x.family == v.family && x.thread.parentSlot.isSome

/-- A saved family removed, with its parked entries (R340). -/
def State.forget (s : State) (family : Nat) : State :=
  let uids := (s.saved.filter fun v => v.family == family).map (·.uid)
  { s with saved := s.saved.filter (fun v => v.family ≠ family), parked := s.parked.filter fun p => !uids.contains p.uid }

/-- A saved family ended by the device (R330): its parent counts as halted. -/
def State.endSaved (s : State) (v : Saved) (cause : BitVec 8) : State :=
  (s.forget v.family).launchStrandDone v.thread.launch v.thread.index (some (cause, 0#8)) v.thread.parent.isNone

/-- The slots for a family at a place: the place's own, then the lowest permitted fallow slots of its core (R299). -/
def State.familySlots (s : State) (p : Place) : List Nat :=
  let b := s.bindRec p.num
  p.key :: (coreKeys (coreOf p.key)).filter fun k => k ≠ p.key && s.permits b k && !(s.getThr k).bound

/-- Registers as a restore leaves them in a slot that held `old`: saved units under the new generation, the rest as it was. -/
def mergeRegs (old saved : Arch) (was new : Gen) : Vector Word 32 × Vector Gen 32 :=
  (Vector.ofFn fun i => if saved.stag.get i = was then saved.sreg.get i else old.sreg.get i,
   Vector.ofFn fun i => if saved.stag.get i = was then new else old.stag.get i)

/-- A mask register as a restore leaves it: saved granules under the new generation, the rest as the slot held it. -/
def mergeMask (old saved : MaskReg) (was new : Gen) : MaskReg :=
  let live := fun g => saved.tags.toList.getD g 0#16 == was
  let tags : Vector Gen 128 := Vector.ofFn fun g => if live g.val then new else old.tags.get g
  let bad := saved.bad.filter live ++ old.bad.filter fun g => !live g
  match saved.form with
  | .bound n w => { form := if live 0 then .bound n w else old.form, tags := tags, bad := bad }
  | .explicit set =>
    let kept := match old.form with
      | .explicit o => o
      | .bound _ _ => []
    { form := .explicit ((List.range 65536).filter fun e =>
        if live (e / 512) then set.contains e else kept.contains e), tags := tags, bad := bad }

/-- A barrier register as a restore leaves it. -/
def mergeBarrier (old saved : BarrierReg) (was new : Gen) : BarrierReg := if saved.tag = was then { saved with tag := new } else old

/-- A preempted strand as it stands in a slot that held `old` (R303). -/
def restoredThread (s : State) (old : Thread) (v : Saved) (n : Nat) (b : BindRec) (gs : Vector Gen 5) (vbase scr : Nat)
    (slotMap : Nat → Nat) : Thread :=
  let t := v.thread
  let regs := mergeRegs old.arch t.arch t.genS gs[0]
  { t with
    bound := true, stopping := false, dbgHalt := false, bindNo := n, prio := b.prio, ecl := b.ecl, asid := b.asid, root := b.root,
    genS := gs[0], genV := gs[1], genM := gs[2], genA := gs[3], genP := gs[4], vbase := vbase, scrBase := scr,
    arch := { t.arch with
      sreg := regs.1, stag := regs.2,
      sbad := t.arch.sbad.filter (fun r => t.arch.stag.toList.getD r 0#16 == t.genS) ++
        old.arch.sbad.filter fun r => t.arch.stag.toList.getD r 0#16 != t.genS,
      breg := Vector.ofFn fun i => mergeBarrier (old.arch.breg.get i) (t.arch.breg.get i) t.genS gs[0],
      mask := Vector.ofFn fun i => mergeMask (old.arch.mask.get i) (t.arch.mask.get i) t.genM gs[2] }
    sys := { t.sys with tfltReason := 0#8, tfltLevel := 0#3, tinva := 0#64, tcmda := 0#64, tcmds := 0#2 }
    preempt := false, errunc := none, bindCycles := 0, codeMem := s.codeMem,
    parent := t.parent.map slotMap, forks := t.forks.map fun f => { f with child := slotMap f.child } }

/-- Something done by the strand of a slot, the slot that stepped staying the one that steps. -/
def State.asSlot {α : Type} (s : State) (k : Nat) (f : State → α × State) : α × State :=
  let r := f (s.switchTo k)
  (r.1, r.2.switchTo s.cur)

/-- One claim renewed by the strand that steps (R339): whether its row still held the parked token. -/
def State.renewRow (s : State) (old : BitVec 32) (c : Word × Nat) : Bool × State :=
  let r := s.resolveTable s.thr.asid c.1
  if nameClass c.1 ≠ 5 ∨ r.st ≠ Nstat.live then (false, s)
  else
    let va := r.loc + BitVec.ofNat 64 (64 * c.2)
    match (locateAtomic va false s).andThen fun p s => (atomicCheck p va 12 s).andThen fun _ s => .done p s with
    | .trap _ t => (false, s.noting t)
    | .done p s =>
      let x := s.atomicRead p.pa 12
      if 128 ≤ rowByte x ∧ rowToken x = old then (true, s.atomicWrite Path.scalar.plain p.pa 12 (rowWith x (rowByte x) s.token)) else (false, s)
    | _ => (false, s)

/-- The claims of the strand that steps renewed one after another; the others are dropped. -/
def State.renewRows (s : State) (old : BitVec 32) : List (Word × Nat) → List (Word × Nat) × State
  | [] => ([], s)
  | c :: cs =>
    match s.renewRow old c with
    | (ok, s) =>
      match s.renewRows old cs with
      | (rest, s) => (if ok then c :: rest else rest, s)

/-- The claims of a restored strand renewed, before its parked entry goes (R339). -/
def State.renewClaims (s : State) (k uid : Nat) : State :=
  match s.parked.find? fun p => p.uid == uid with
  | none => s
  | some p =>
    let r := s.asSlot k fun s => s.renewRows p.token p.claims
    let s := r.2.setThr k { r.2.getThr k with claims := r.1 }
    { s with parked := s.parked.filter fun x => x.uid ≠ uid }

/-- One member of a family restored into a slot. -/
def State.restoreOne (s : State) (v : Saved) (n : Nat) (b : BindRec) (key vbase scr : Nat) (genP : Gen) (gs : List Gen)
    (slotMap : Nat → Nat) : State :=
  let core := coreOf key
  let g : Vector Gen 5 := Vector.ofFn fun i => if i.val = 4 then genP else gs.getD i.val 0#16
  let t := restoredThread s (s.getThr key) v n b g vbase scr slotMap
  let s := s.restoreImage core vbase t.genV v.vector
  let s := s.restoreImage core (accBase t.acc) t.genA v.acc
  let s := s.clearSumsOf core t.acc
  let s := s.restoreImage core (0x100000 + scr) t.genP v.scratch
  (s.setThr key t).renewClaims key v.uid

/-- The generations of the pools 0 to 3 that a strand about to be bound has been given, in the skip sets of the sweeps that run (R344, R346). -/
def State.keepGens (s : State) (core : Nat) (gs : List Gen) : State :=
  s.mapCore core fun c =>
    { c with sweeps := Vector.ofFn fun i => match gs[i.val]? with
        | some g => (c.sweeps.get i).map fun w => { w with skip := g.toNat :: w.skip }
        | none => c.sweeps.get i }

/-- Generations for a family: four pools for each member and one scratchpad generation; none while an allocation stalls. A sweep that one of
the allocations starts skips those before it too. -/
def State.familyGens (s : State) (core : Nat) : Nat → Option (List (List Gen)) × State
  | 0 => (some [], s)
  | n + 1 =>
    match s.allocGens core [0, 1, 2, 3] with
    | (none, s) => (none, s)
    | (some g, s) =>
      match s.familyGens core n with
      | (some gs, s) => (some (g :: gs), s.keepGens core g)
      | (none, s) => (none, s)

/-- A family restored at a place. -/
def State.restoreAt (s : State) (vs : List Saved) (v : Saved) (p : Place) : State :=
  let b := s.bindRec p.num
  let core := coreOf p.key
  let slots := s.familySlots p
  let rs := s.residents core nobody
  let vbase := (shareBase rs b.share).getD 0
  let scr := (scratchBase rs v.thread.scrSize).getD 0
  let old := vs.map fun x => 4 * x.core + x.slot
  let slotMap := fun k => slots.getD (old.idxOf k) k
  if s.genStalls core 4 then s.markStalls core [4] else
  match s.familyGens core vs.length with
  | (none, t) => { s with cores := (t.markStalls core [0, 1, 2, 3]).cores }
  | (some gs, s) =>
    match s.allocGens core [4] with
    | (none, s) => s
    | (some gp, s) =>
      let s := (vs.zipIdx).foldl (fun s q =>
        s.restoreOne q.1 p.num b (slots.getD q.2 p.key) vbase scr (gp.headD 0#16) (gs.getD q.2 []) slotMap) s
      let s := { s with saved := s.saved.filter fun x => x.family ≠ v.family }
      (((s.useRecord p.num b).widenOrderFor v.thread.launch v.thread.index core).mapLaunch v.thread.launch fun l =>
        { l with scopes := (l.scopes.zip l.groups).map fun q =>
            if q.2.contains v.thread.index then s.widen q.1 core else q.1 }).afterBinding v.thread.queue

/-- The poison that stops a restore logged as consumed (R383). -/
def State.logBroken (s : State) (vs : List Saved) : State :=
  match vs.findSome? s.brokenAt with
  | some pa => s.logConsumed pa
  | none => s

/-- RESTORE: a preempted strand, or family, is bound again at the first place that qualifies (R303, R328); a restore that fails ends it
(R304); one of a context that is not live is refused (R361). -/
def execRestore (uid : Nat) (s : State) : Out :=
  .next (match s.saved.find? fun v => v.uid == uid && v.thread.parentSlot.isNone with
    | none => s
    | some v =>
      let ps := s.places v.thread.need nobody
      let vs := (s.savedFamily v).map s.loaded
      if s.ctxState v.thread.asid ≠ 1 then s.endSaved v 5#8
      else
        match firstPlace (ps.filter fun p => decide (vs.length ≤ (s.familySlots p).length)) with
        | none => if ps = [] then s else s.endSaved v Cause.restorefail
        | some p =>
          if vs.any fun x => s.imageFails x (s.bindRec p.num) then (s.logBroken vs).endSaved v Cause.restorefail else s.restoreAt vs v p)

/-- DISCARD_SAVED_CONTEXT (R340): the strand's family never runs again, and its claims go stale; nothing counts it as halted (R331). -/
def execDiscardSavedContext (uid : Nat) (s : State) : Out :=
  .next (match s.saved.find? fun v => v.uid == uid with
    | some v => s.forget v.family
    | none => s)

/-! ## Sweeps, the watchdog, waits, the debug path -/

/-- HARROW_SWEEP_END (R344, R345): every tag of the pool that is not in the skip set becomes 0, in the strands' checkpoints too; allocation
starts from 1 again. -/
def State.endSweep (s : State) (core pool : Nat) (skip : List Nat) : State :=
  let stale := fun (g : Gen) => !skip.contains g.toNat
  let clean := fun (g : Gen) => if stale g then 0#16 else g
  let strands := fun (f : Thread → Thread) (s : State) => (coreKeys core).foldl (fun s k => s.setThr k (f (s.getThr k))) s
  let granules := fun (lo hi : Nat) =>
    let keep := fun (p : Nat × Gen) => !(decide (windowAddr core lo / 64 ≤ p.1 ∧ p.1 < windowAddr core hi / 64) && stale p.2)
    strands (fun t => { t with unres := t.unres.map fun u => { u with tags := u.tags.filter keep } }) { s with tags := s.tags.filter keep }
  let regs := fun (f : Arch → Arch) =>
    strands (fun t => { t with arch := f t.arch, unres := t.unres.map fun u => { u with arch := f u.arch } }) s
  match pool with
  | 0 => regs fun a => { a with stag := a.stag.map clean, breg := a.breg.map fun b => { b with tag := clean b.tag } }
  | 1 => granules 0 0x80000
  | 2 => regs fun a => { a with mask := a.mask.map fun m => { m with tags := m.tags.map clean } }
  | 3 => granules 0x80000 0x100000
  | _ => granules 0x100000 0x300000

/-- HARROW_SWEEP_END: the next pool whose sweep waits has its turn. -/
def execHarrowSweepEnd (core pool : Nat) (s : State) : Out :=
  .next (match (s.getCore core).sweeps.toList.getD pool none with
    | none => s
    | some w =>
      let s := (s.endSweep core pool w.skip).mapCore core fun c =>
        { c with sweeps := c.sweeps.setIfInBounds pool none, skips := c.skips.setIfInBounds pool w.skip,
                 fresh := c.fresh.setIfInBounds pool true, stalls := c.stalls.setIfInBounds pool false }
      match (s.getCore core).turns with
      | [] => s
      | p :: rest => (s.mapCore core fun c => { c with turns := rest }).startSweep core p [])

/-- WATCHDOG_EXPIRE (R305): WATCHDOG pends for a bound strand. -/
def execWatchdogExpire (key : Nat) (s : State) : Out :=
  .next (if (s.getThr key).bound then s.setThr key { s.getThr key with wdPend := true } else s)

/-- CSLEEP_EXPIRE (R254): the counter has reached the value, and the `csleep` runs on. -/
def execCsleepExpire (key : Nat) (s : State) : Out :=
  let t := s.getThr key
  .next (match t.sleep with
    | some x => if x.toNat ≤ (s.counter (s.clusterOf (coreOf key))).toNat then s.setThr key { t with waiting := false, sleep := none } else s
    | none => s)

/-- DEBUG_HALT (R305): the strand issues nothing and its watchdog does not count. -/
def execDebugHalt (key : Nat) (s : State) : Out :=
  .next (if (s.getThr key).bound then s.setThr key { s.getThr key with dbgHalt := true } else s)

/-- DEBUG_RESUME (R305). -/
def execDebugResume (key : Nat) (s : State) : Out := .next (s.setThr key { s.getThr key with dbgHalt := false })

end Sys2Proof.Machine
end

