-- ==== Sys2Proof/Machine/Host.lean ====
section
/-!
DEFINITION. What reaches the module from outside its cores: the management core's edits of tables (R352, R353, R355, R356), the host
link and peers (R385 to R387), power and energy (R390, R391), scrubbing (R379 to R381), boot and service levels (R392, R393),
attestation (R394), the debug path (R350), background loops (R395).
-/

namespace Sys2Proof.Machine

/-! ## Names and grants, as the management core edits them -/

/-- TOMBSTONE (R353, R355): a dead entry becomes a tombstone. -/
def execTombstone (name : BitVec 64) (s : State) : Out :=
  .next (match s.lookup name with
    | some i => if s.ntState i = 2 then s.setWord (s.ntAddr i + 24) (ntLast (s.ntVersion i) 3#2 (s.ntOwner i)) else s
    | none => s)

/-- The blocks of an entry's grant list. -/
def State.grantList (s : State) (i : Nat) : List Nat := s.grantBlocks 0x1000000 (s.ntGrant i)

/-- A valid grant for a context. -/
def grantBytes (asid : BitVec 12) : List Byte := bytesOf 2 (0x8000 + asid.toNat)

/-- The first place of a list that holds no valid grant. -/
def State.openGrant (s : State) (blocks : List Nat) : Option Nat :=
  (blocks.flatMap fun b => (List.range 30).map fun j => (b, j)).find? (fun p => !(s.grant p.1 p.2).getLsbD 15)
    |>.map fun p => s.grantAddr p.1 + 2 * p.2

/-- The lowest block index that no list of the table holds (log entry 31: the management core's choice). -/
def State.freeBlock (s : State) : Nat :=
  let used := (s.nameEntries.filter fun i => s.ntState i ≠ 0).flatMap s.grantList
  (((List.range (used.length + 1)).map (· + 1)).find? fun b => !used.contains b).getD 1

/-- GRANT_ADD (R356): a grant added to an existing entry's list. -/
def execGrantAdd (name : BitVec 64) (asid : BitVec 12) (s : State) : Out :=
  .next (match s.lookup name with
    | none => s
    | some i =>
      let blocks := s.grantList i
      if blocks.any fun b => (List.range 30).any fun j => grantsTo (s.grant b j) asid then s
      else
        match s.openGrant blocks with
        | some pa => s.writeBytes pa (grantBytes asid)
        | none =>
          let n := s.freeBlock
          let s := s.writeBytes (s.grantAddr n) (grantBytes asid ++ List.replicate 62 0#8)
          match blocks.getLast? with
          | some b => s.writeBytes (s.grantAddr b + 60) (bytesOf 3 n)
          | none =>
            let w := s.word (s.ntAddr i + 16)
            s.setWord (s.ntAddr i + 16) ((w &&& ~~~0xFFFFFF#64) ||| BitVec.ofNat 64 n))

/-- GRANT_REMOVE (R353, R356): a context's grants removed from an entry's list. -/
def execGrantRemove (name : BitVec 64) (asid : BitVec 12) (s : State) : Out :=
  .next (match s.lookup name with
    | none => s
    | some i => (s.grantList i).foldl (fun s b => s.clearGrants asid b) s)

/-- The block that flash names reserved (R352); none is left after 2^24 - 1. -/
def Module.reserveBlock (m : Module) : Module :=
  let b := m.flashBlock.setWidth 60 <<< 36
  if m.flashBlock = 0xFFFFFF#24 then { m with nserial := b, nblkEnd := b }
  else { m with flashBlock := m.flashBlock + 1#24, nserial := b, nblkEnd := (m.flashBlock + 1#24).setWidth 60 <<< 36 }

/-- SERIAL_BLOCK_RESERVE (R352). -/
def execSerialBlockReserve (s : State) : Out :=
  .next (if s.mod.nserial = s.mod.nblkEnd ∧ s.mod.flashBlock ≠ 0xFFFFFF#24 then s.mapMod Module.reserveBlock else s)

/-! ## The host link and peers (R385 to R387) -/

/-- The queue that a page of a function serves (R385). -/
def State.pageQueue (s : State) (func : BitVec 8) (page : BitVec 6) : Option Queue :=
  s.queues.find? fun q => q.page == page && s.ctxFunc q.owner == func

/-- What a doorbell comes to (Table 23.1): RESULT, REASON with RESULT 5, and the state with an accepted record enqueued. -/
def State.ring (s : State) (q : Queue) (r : LaunchRec) : BitVec 8 × Option (BitVec 8) × State :=
  let live := match s.lookup q.name with
    | some i => s.mod.ntEn && s.ntState i == 1
    | none => false
  if s.mod.svclvl.toNat < 2 then (6#8, none, s)
  else if !live then (7#8, none, s)
  else if s.ctxState q.owner ≠ 1 then (5#8, some 5#8, s)
  else
    match r.refusal with
    | some reason => (5#8, some reason, s)
    | none => if q.depth ≤ q.waiting.length then (4#8, none, s) else (0#8, none, s.enqueue q r)

/-- An answer to an outside request. -/
def State.answer (s : State) (o : Output) : State := { s with out := s.out ++ [o] }

/-- The state with a queue replaced. -/
def State.setQueue (s : State) (q : Queue) : State := { s with queues := s.queues.map fun x => if x.name = q.name then q else x }

/-- A doubleword of a queue page as it reads (Table 23.1): WO and unassigned bytes read zero. -/
def Queue.pageWord (q : Queue) (off : Nat) : Word :=
  if off = 0x088 then q.seq ++ 0#16 ++ q.reason ++ q.result
  else if off = 0x090 then BitVec.ofNat 64 (q.waiting.length % 2 ^ 13)
  else 0#64

/-- Bytes of a doubleword replaced from one on. -/
def wordWith (w : Word) (o n : Nat) (x : Word) : Word :=
  BitVec.ofNat 64 (numOf ((bytesOf 8 w.toNat).take o ++ bytesOf n x.toNat ++ (bytesOf 8 w.toNat).drop (o + n)))

/-- A queue whose record staging bytes are written. -/
def Queue.stage (q : Queue) (off n : Nat) (x : Word) : Queue :=
  { q with record := q.record.setIfInBounds (off / 8) (wordWith (q.record.toList.getD (off / 8) 0#64) (off % 8) n x) }

/-- A write to DOORBELL (R386): the staged record is checked and enqueued, SEQ and RESULT are written together. -/
def State.doorbell (s : State) (q : Queue) : State :=
  let (result, reason, s) := s.ring q q.record
  { s with queues := s.queues.map fun x =>
      if x.name = q.name then { x with seq := x.seq + 1#32, result := result, reason := reason.getD x.reason } else x }

/-- Whether the link fails that carries the access from outside (Table 22.1): the access completes with a completion error. -/
def State.linkFails (s : State) : Bool := s.upsets.any fun u => u.1 == .pcie

/-- DOORBELL (R385, R386): the host accesses a queue page. At level 0 every BAR is disabled; a page without a queue reads zero and ignores
writes. -/
def execDoorbell (func : BitVec 8) (page : BitVec 6) (access : PageAccess) (s : State) : Out :=
  let o := access.off.toNat
  .next (if s.mod.svclvl = 0#2 then s.answer .unsupported
    else if s.linkFails then s.answer .completionError
    else
      match s.pageQueue func page, access.op with
      | q, .read w =>
        let x := ((q.map fun q => q.pageWord (o / 8 * 8)).getD 0#64)
        s.answer (.answer (((bytesOf 8 x.toNat).drop (o % 8)).take (2 ^ w.toNat)) false)
      | none, .write _ _ _ => s
      | some q, .write w data poisoned =>
        if o < 0x080 then
          (if poisoned then s.tick else s).setQueue (q.stage o (2 ^ w.toNat) (if poisoned then Config.poisonedStaging s.free else data))
        else if o / 8 = 0x080 / 8 then s.doorbell q
        else s)

/-- A write from outside made in the checkpoints of a core's strands too: it is no effect of the strands' annulled words (R38). -/
def State.patchCheckpoints (s : State) (core : Nat) (f : State → State) : State :=
  (coreKeys core).foldl (fun s k =>
    let t := s.getThr k
    if t.unres = [] then s
    else s.setThr k { t with unres := t.unres.map fun u =>
      let x := f { s with mem := u.cells, tags := u.tags, poison := u.bad }
      { u with cells := x.mem, tags := x.tags, bad := x.poison } }) s

/-- The state of a core's storage changed from outside, in its strands' checkpoints too. -/
def State.mapStorage (s : State) (core : Nat) (f : State → State) : State := f (s.patchCheckpoints core f)

/-- Untagged bytes written from outside: poisoned data poisons its units (Table 22.2). -/
def State.writeOutside (s : State) (pa : Nat) (bs : List Byte) (poisoned : Bool) : State :=
  if poisoned then (s.writeBytes pa bs).poisonRange pa bs.length else s.writeBytes pa bs

/-- The parts of a host access: whole where it is naturally aligned (R274), else byte by byte. -/
def hostPieces (va : Word) (n : Nat) : List (Word × Nat) := if va.toNat % n = 0 then [(va, n)] else enginePieces false va n

/-- Where parts of a host write go, translated at user level, up to the first that fails. -/
def State.hostPlaces (s : State) (asid : BitVec 12) (root : BitVec 40) : List (Word × Nat) → (List (Nat × Nat) × Option Stop) × State
  | [] => (([], none), s)
  | (va, n) :: ps =>
    match s.translate asid root false va .store with
    | (.fault r _, s) => (([], some (if r = 3#8 then .denied else .translation r)), s)
    | (.ok pa _, s) =>
      if s.regionRefuses pa .store then (([], some .refused), s)
      else
        let r := s.hostPlaces asid root ps
        (((pa, n) :: r.1.1, r.1.2), r.2)

/-- One part of a host write: a window under the holder's generation (R65, R349). -/
def State.hostPart (s : State) (asid : BitVec 12) (pa : Nat) (bs : List Byte) (poisoned : Bool) : State :=
  match s.region pa with
  | .window core off =>
    match s.windowWrite asid false core off bs with
    | (s, done) => if done && poisoned then s.mapStorage core fun s => s.poisonRange pa bs.length else s
  | _ => s.writeOutside pa bs poisoned

/-- The parts of a host write one after another. -/
def State.hostWrite (s : State) (asid : BitVec 12) (poisoned : Bool) : List (Nat × Nat) → List Byte → State
  | [], _ => s
  | (pa, n) :: ps, bs => (s.hostPart asid pa (bs.take n) poisoned).hostWrite asid poisoned ps (bs.drop n)

/-- A host request that fails (R385, R400): an Unsupported Request where the address is not memory, else either, as the device chooses. -/
def State.decline (s : State) (e : Option Stop) : State :=
  if e = some (.translation 4#8) then s.answer .unsupported
  else s.tick.answer (if Config.barAborts s.free then .abort else .unsupported)

/-- The ASID and root that a function's entry of HFTAB gives (R385); none where V = 0, or where no record gives the context a root. -/
def State.hostContext (s : State) (func : BitVec 8) : Option (BitVec 12 × BitVec 40) :=
  let e := s.word (frameAddr s.mod.hftab + 8 * func.toNat)
  if e.getLsbD 63 then (s.contextRecord (e.extractLsb' 0 12)).map fun b => (e.extractLsb' 0 12, b.root) else none

/-- HOST_BAR2_ACCESS (R385): a user-level access in the function's context; any failure ends the request, and no strand traps. At level 0
every BAR is disabled; at level 1 no memory runs (Table 23.4). -/
def execHostBar2Access (func : BitVec 8) (va : BitVec 64) (op : OutsideOp) (s : State) : Out :=
  .next (if s.mod.svclvl = 0#2 then s.answer .unsupported
    else if s.linkFails then s.answer .completionError
    else if s.mod.svclvl = 1#2 then s.decline none
    else
      match s.hostContext func with
      | none => s.decline none
      | some (asid, root) =>
        match op with
        | .read w =>
          match s.readAll (some .outside) asid root false (hostPieces va (2 ^ w.toNat)) with
          | ((bs, none), s) => s.answer (.answer bs false)
          | ((_, some (.error _)), s) => s.answer (.answer [] true)
          | ((_, e), s) => s.decline e
        | .write w data poisoned =>
          match s.hostPlaces asid root (hostPieces va (2 ^ w.toNat)) with
          | ((ps, none), s) => s.hostWrite asid poisoned ps (bytesOf (2 ^ w.toNat) data.toNat)
          | ((_, e), s) => s.decline e)

/-- The code of Table 5.5 of a carried atomic, and the value it compares with. -/
def carriedCode : CarriedOp → Nat × Nat
  | .add => (0, 0)
  | .swap => (1, 0)
  | .cas expected => (10, expected.toNat)

/-- A carried atomic performed at its home for every observer (R230, R266): the old value, and the state after. -/
def State.peerAtomic (s : State) (op : CarriedOp) (a n : Nat) (data : Word) : Nat × State :=
  let m := 2 ^ (8 * n)
  let old := numOf (s.bytes a n)
  let s := s.readNewest .outside 0#16 a n
  (old, match atomicOp (carriedCode op).1 (8 * n) old (data.toNat % m) ((carriedCode op).2 % m) with
    | some x => s.writeBytes a (bytesOf n x)
    | none => s)

/-- PEER_ACCESS (R387): windows, the device range and what is not memory are refused; other memory is read or written, or an atomic performed
there. Below level 2 no memory runs (Table 23.4). -/
def execPeerAccess (_link : BitVec 4) (pa : BitVec 44) (op : PeerOp) (s : State) : Out :=
  let a := pa.toNat
  let ok := decide (2 ≤ s.mod.svclvl.toNat) && (List.range op.bytes).all fun i => match s.region (a + i) with
    | .lpddr | .slice _ => true
    | _ => false
  .next (if s.linkFails then s.answer .completionError
    else if !ok then s.answer .abort
    else match op with
    | .plain (.read w) =>
      let n := 2 ^ w.toNat
      if s.poisoned a n then s.answer (.answer [] true)
      else
        let r := s.viewed .outside 0#16 a (s.bytes a n)
        r.2.answer (.answer r.1 false)
    | .plain (.write w data poisoned) => s.writeOutside a (bytesOf (2 ^ w.toNat) data.toNat) poisoned
    | .atomic f double data =>
      let n := if double then 8 else 4
      if s.poisoned a n then s.answer (.answer [] true)
      else
        let r := s.peerAtomic f a n data
        r.2.answer (.answer (bytesOf n r.1) false))

/-! ## Power and energy (R390, R391) -/

/-- PLEN one step down, and up. -/
def plenDown (p : BitVec 9) : BitVec 9 := if 32 < p.toNat then p >>> 1 else p
def plenUp (p : BitVec 9) : BitVec 9 := if p.toNat < 256 then p <<< 1 else p

/-- The cores of a die. -/
def State.dieCores (s : State) (die : Nat) : List Nat := (List.range s.ncore).filter fun c => s.dieOf c == die

/-- PLEN changed on every core of a die. -/
def State.mapPlen (s : State) (die : Nat) (f : BitVec 9 → BitVec 9) : State :=
  (s.dieCores die).foldl (fun s c => s.mapCore c fun k => { k with plen := f k.plen }) s

/-- The clock of a service level in MHz (Table 23.4). -/
def clockOf (svclvl : BitVec 2) : Nat := if svclvl = 3#2 then 3600 else 1800

/-- POWER_LOOP_WINDOW (R390): a window of the power loop of a die. -/
def execPowerLoopWindow (die : Bool) (watts : BitVec 16) (s : State) : Out :=
  if s.mod.svclvl.toNat < 2 then .next s
  else
    let d : Fin 2 := if die then 1 else 0
    let x := s.dies.get d
    let plim := s.mod.plim.toNat
    let low := decide (20 * watts.toNat < 9 * plim)
    let calm := if low then x.calm + 1 else 0
    let set := fun (y : Die) (s : State) => { s with dies := s.dies.set d.val y d.isLt }
    let y := { x with power := watts, calm := calm }
    .next (
      if plim < 2 * watts.toNat then
        if (s.dieCores d.val).any fun c => decide (32 < (s.getCore c).plen.toNat) then set y (s.mapPlen d.val plenDown)
        else set { y with clock := max 1800 (x.clock - 100) } s
      else if low && decide (10 ≤ calm) then
        if x.clock < clockOf s.mod.svclvl then set { y with clock := min (clockOf s.mod.svclvl) (x.clock + 100) } s
        else set y (s.mapPlen d.val plenUp)
      else set y s)

/-- The largest EREFILL among the records of a context (R391): a record in use, or one that a bound strand was bound under. -/
def State.refillOf (s : State) (asid : BitVec 12) : Nat :=
  (s.binds.filter fun p => p.2.asid == asid &&
    (p.2.queue != 0#64 || s.keys.any fun k => (s.getThr k).bound && (s.getThr k).bindNo == p.1)).foldl (fun m p => max m p.2.erefill) 0

/-- A budget refilled: EBUD := min(EBUD + EREFILL, EBCAP). -/
def Energy.refill (e : Energy) (n : Nat) : Energy :=
  { e with ebud := BitVec.ofInt 32 (min (e.ebud.toInt + n) e.ebcap.toNat) }

/-- ENERGY_REFILL (R391). -/
def execEnergyRefill (s : State) : Out :=
  .next { s with energies := s.energies.foldl (fun m p =>
    Sparse.put Energy.reset m p.1 (p.2.refill (s.refillOf (BitVec.ofNat 12 p.1)))) s.energies }

/-! ## Scrubbing (R379 to R381) -/

/-- The units of a scrubbed region (R262, R379): the 48 channels of LPDDR6, then the slices of the logical cores. A channel's pages of 4 KiB
lie 24 pages apart. -/
def State.scrubUnits (s : State) (region : Nat) : Nat :=
  if region < 48 then 0x006000000000 / 24 / 32 else if region - 48 < s.ncore then 0xC00000 / 32 else 0

/-- The address of a region's unit, in ascending order. -/
def scrubUnit (region i : Nat) : Nat :=
  if region < 48 then
    let first := if region < 24 then 0 else 0x006000000000
    let page := (region - (first / 4096) % 24) % 24
    first + ((page + 24 * (i / 128)) * 4096 + i % 128 * 32)
  else 0x00C000000000 + (region - 48) * 0xC00000 + 32 * i

/-- SCRUB_READ (R379): the region's pass reads its next unit, and starts again after the last. A corrected error is counted and its unit
written back unchanged (R381); an uncorrectable one poisons the unit in place and is logged (R374, R383). The loop runs from level 2
upwards (R395). -/
def execScrubRead (region : Nat) (found : ScrubFind) (s : State) : Out :=
  let n := s.scrubUnits region
  let i := Sparse.get 0 s.scrubs region
  let base := scrubUnit region i
  let scrubbed := match s.region base with
    | .lpddr | .slice _ => true
    | _ => false
  .next (if s.mod.svclvl.toNat < 2 || n == 0 || !scrubbed then s
    else
      let s := { s with scrubs := Sparse.put 0 s.scrubs region ((i + 1) % n) }
      match found with
      | .clean => s
      | .corrected => s.mapMod fun m => { m with eccnt := m.eccnt + 1#64 }
      | .uncorrectable =>
        let (src, core) := s.errorSource base
        (s.poisonRange base 32).logError src core 1#2 (BitVec.ofNat 64 base) 2#4)

/-- 2^k (1 + E / 16) of a region in units of 1/16 (R379): its temperature in whole degrees and its corrected errors. -/
def scrubRate (r : Nat × Nat) : Nat := 2 ^ ((r.1 - 70) / 10) * (16 + r.2)

/-- SCRUB_RATE_UPDATE (R379): SCRMUL is the largest rate of all regions; from level 2 upwards (R395). -/
def execScrubRateUpdate (regions : List (Nat × Nat)) (s : State) : Out :=
  let m := (regions.map scrubRate).foldl max 0
  .next (if regions = [] ∨ s.mod.svclvl.toNat < 2 then s
    else s.mapMod fun x => { x with scrmul := if m < 65536 then BitVec.ofNat 16 m else Config.scrmulOver m })

/-! ## Errors in stores (R373, R374, R378) -/

/-- An error that an access has found beyond correction is logged (R374); `store` is the row of Table 22.1. -/
def State.logFound (s : State) (found : Bool) (store core : BitVec 8) (b : Word) : State :=
  if found then s.logError store core 1#2 b 2#4 else s

/-- The unit that holds an address poisoned in place, where it is memory, window storage or an aperture. -/
def State.spoil (s : State) (pa : Nat) : State :=
  match s.region pa with
  | .lpddr | .slice _ | .host | .peer => s.poisonRange pa 1
  | .window core off => if off < 0x300000 then s.mapStorage core fun s => s.poisonRange pa 1 else s
  | _ => s

/-- A slot's registers changed from outside its strand, in its checkpoints too. -/
def State.mapSlot (s : State) (key : Nat) (f : Arch → Arch) : State :=
  let t := s.getThr key
  s.setThr key { t with arch := f t.arch, unres := t.unres.map fun u => { u with arch := f u.arch } }

/-- A link error logged (R373, Table 22.5). -/
def State.logLink (s : State) (b : Word) : State := s.logError 7#8 0xFF#8 1#2 b 4#4

/-- An error strikes a store (Table 22.1). A poisoned tag counts as stale (R375); an error that the access at hand also consumes is logged
there alone (R383), so `found` says that a read which uses nothing of it has found it. -/
def State.strike (s : State) (u : Upset) (found : Bool) : State :=
  match u with
  | .corrected n => s.mapMod fun m => { m with eccnt := m.eccnt + BitVec.ofNat 64 n }
  | .unit pa =>
    if s.isAperture pa then (s.spoil pa).logLink (BitVec.ofNat 64 pa)
    else (s.spoil pa).logFound found (s.errorSource pa).1 (s.errorSource pa).2 (BitVec.ofNat 64 pa)
  | .tag pa =>
    let s := s.spoil pa
    (s.mapStorage ((pa - windowBase) / 0x800000) fun s => { s with tags := Sparse.del s.tags (pa / 64) }).logFound found (s.errorSource pa).1 (s.errorSource pa).2 (BitVec.ofNat 64 pa)
  | .scalar key r tag =>
    (s.mapSlot key fun a =>
      { a with sbad := if a.sbad.contains r.val then a.sbad else r.val :: a.sbad, stag := if tag then a.stag.set r.val 0#16 r.isLt else a.stag }
    ).logFound found 4#8 (BitVec.ofNat 8 (coreOf key)) (Config.registerLog s.free r.val)
  | .barrier key b tag =>
    (s.mapSlot key fun a =>
      let x := a.breg.get b
      { a with breg := a.breg.set b.val { x with bad := true, tag := if tag then 0#16 else x.tag } b.isLt }
    ).logFound found 4#8 (BitVec.ofNat 8 (coreOf key)) (Config.registerLog s.free (32 + b.val))
  | .mask key k g tag =>
    (s.mapSlot key fun a =>
      let m := a.mask.get k
      let m := { m with bad := if m.bad.contains g.val then m.bad else g.val :: m.bad,
                        tags := if tag then m.tags.set g.val 0#16 g.isLt else m.tags }
      { a with mask := a.mask.set k.val m k.isLt }
    ).logFound found 3#8 (BitVec.ofNat 8 (coreOf key)) (Config.registerLog s.free (40 + 128 * k.val + g.val))
  | .row core second row off =>
    let key := sumKey core second row.val
    { s with sums := Sparse.put 0#32 s.sums key (BitVec.ofNat 32 (((Sparse.get 0#32 s.sums key).toNat + off.toNat) % (2 ^ 32 - 1))) }
  | .line pa => (s.spoil pa).logFound found 5#8 0xFF#8 (BitVec.ofNat 64 pa)
  | .link coll =>
    let s := { s with colls := s.colls.map fun (c : Collective) =>
      if c.id = coll ∧ c.status.isNone then { c with status := some 1#2 } else c }
    s.logLink 0#64
  | .pcie => s.logLink 0#64

/-- The errors that strike as a step ends. An aperture's unit has no store in the module: what made its transfers fail lasts one step (log
entry 59). -/
def State.struck (s : State) : State :=
  s.upsets.foldl (fun s u => s.strike u.1 u.2) { s with upsets := [], poison := s.poison.filter fun u => !s.isAperture u }

/-! ## Boot, service levels, attestation (R392 to R394) -/

/-- Lanes retired on a physical core, as flash records them (R376). -/
def State.retiredOn (s : State) (phys : Nat × Nat) : List Nat :=
  match s.present.idxOf? phys with
  | some n => (s.getCore n).retired
  | none => []

/-- The cores after reset: only the retired lanes stand. -/
def State.bootCores (old new : State) : Sparse Core :=
  (List.range new.ncore).foldl (fun m n =>
    Sparse.put Core.reset m n { Core.reset with retired := old.retiredOn (new.physOf n) }) []

/-- The module right after reset, with fuses and flash (R9, R352, R376); `free`, `out` are the model's own records and go on. -/
def State.rebooted (s : State) (harv0 harv1 : BitVec 36) (stepping : BitVec 16) : State :=
  let m := { Module.reset with harv0 := harv0, harv1 := harv1, stepping := stepping, flashBlock := s.mod.flashBlock }
  let r := { State.reset with free := s.free, out := s.out, due := s.due, mod := m }
  { r with cores := s.bootCores r }

/-- MODULE_RESET (R392): without verified firmware the module stays at level 0; else the management core reserves a serial block and the
level rises as far as `level` says, which is at least 1. -/
def execModuleReset (verified : Bool) (level : BitVec 2) (harv0 harv1 : BitVec 36) (stepping : BitVec 16) (s : State) : Out :=
  let r := s.rebooted harv0 harv1 stepping
  let level : BitVec 2 := if level = 0#2 then 1#2 else level
  .next (if !verified then r
    else { r with mod := { r.mod.reserveBlock with svclvl := level }, dies := Vector.replicate 2 { Die.reset with clock := clockOf level } })

/-- SERVICE_LEVEL_RAISE (R392, R393): from level 1 to 2 and from level 2 to 3, without a reset. -/
def execServiceLevelRaise (s : State) : Out :=
  .next (if s.mod.svclvl = 1#2 ∨ s.mod.svclvl = 2#2 then
    { s with mod := { s.mod with svclvl := s.mod.svclvl + 1#2 },
             dies := s.dies.map fun d => { d with clock := clockOf (s.mod.svclvl + 1#2) } }
  else s)

/-- The retired-lane record (Table 23.6). -/
def State.laneRecord (s : State) : List Byte :=
  (List.range 72).flatMap fun e =>
    let lanes := s.retiredOn (e / 36, e % 36)
    (List.range 4).map fun b => match lanes[b]? with
      | some l => BitVec.ofNat 8 l
      | none => 0xFF#8

/-- The message that a quote signs (R394). -/
def State.quoteMessage (s : State) (nonce : List (BitVec 8)) : List Byte :=
  Sha384.digest Config.romImage ++ Sha384.digest Config.firmwareImage ++ Sha384.digest s.hashMessage ++ Sha384.digest s.laneRecord ++ nonce

/-- ATTESTATION_QUOTE (R394): at level 1 and above; the certificate chain is read with it. -/
def execAttestationQuote (nonce : List (BitVec 8)) (s : State) : Out :=
  .next (if s.mod.svclvl = 0#2 then s
    else s.answer (.quote (s.quoteMessage nonce) (Config.sign (Sha384.digest (s.quoteMessage nonce)))
      Config.certificateChain))

/-! ## The debug path (R350) -/

/-- The bytes of a mask granule: its 512 bits, bit 0 first; those of a bound form are the device's own (log entry 32). -/
def MaskReg.granule (m : MaskReg) (g : Nat) : List Byte :=
  match m.form with
  | .explicit set => bitmap 512 fun e => set.contains (512 * g + e)
  | .bound n w => (List.range 64).map fun i => Config.boundMaskByte n w (64 * g + i)

/-- A mask register with a granule's bits and tag replaced, no other granule changed. -/
def MaskReg.putGranule (m : MaskReg) (g : Nat) (data : List Byte) (tag : Gen) : MaskReg :=
  let bits := fun e => ((data.getD ((e - 512 * g) / 8) 0#8).getLsbD ((e - 512 * g) % 8))
  let old := match m.form with
    | .explicit set => set
    | .bound _ _ => []
  { bad := m.bad.filter fun x => x ≠ g, form := .explicit ((List.range 65536).filter fun e => if e / 512 = g then bits e else old.contains e),
    tags := m.tags.setIfInBounds g tag }

/-- The data, tag and poison of a tagged unit, whatever its tag. -/
def State.debugUnit (s : State) : TagUnit → List Byte × Gen × Bool
  | .scalar key r => (bytesOf 8 ((s.getThr key).arch.sreg.get r.toFin).toNat, (s.getThr key).arch.stag.get r.toFin,
    (s.getThr key).arch.sbad.contains r.toNat)
  | .barrier key b =>
    let x := (s.getThr key).arch.breg.get b.toFin
    (bytesOf 8 x.group.toNat ++ bytesOf 8 x.target, x.tag, x.bad)
  | .mask key k g =>
    let m := (s.getThr key).arch.mask.get k.toFin
    (m.granule g.toNat, m.tags.get g.toFin, m.bad.contains g.toNat)
  | .granule core off =>
    let pa := windowAddr core off
    (s.bytes pa 64, s.tag pa, s.poisoned pa 64)

/-- DEBUG_READ (R350): of a poisoned tag the raw bits (R375). -/
def execDebugRead (u : TagUnit) (s : State) : Out :=
  let (data, tag, bad) := s.debugUnit u
  .next (if bad && tag == 0#16 then s.tick.answer (.debug data (Config.rawTag s.free) bad) else s.answer (.debug data tag bad))

/-- A granule of a window with data and tag as stated (R350). -/
def State.debugGranule (s : State) (pa : Nat) (data : List (BitVec 8)) (tag : Gen) : State :=
  { s.writeBytes pa data with tags := Sparse.put 0#16 s.tags (pa / 64) tag }

/-- DEBUG_WRITE (R350): data and tag as stated, no zero-fill. -/
def execDebugWrite (u : TagUnit) (data : List (BitVec 8)) (tag : BitVec 16) (s : State) : Out :=
  .next (match u with
    | .scalar key r =>
      s.mapSlot key fun a =>
        { a with sreg := a.sreg.set r.toNat (BitVec.ofNat 64 (numOf data)) r.isLt, stag := a.stag.set r.toNat tag r.isLt,
                 sbad := a.sbad.filter fun x => x ≠ r.toNat }
    | .barrier key b =>
      let x : BarrierReg :=
        { bound := true, group := BitVec.ofNat 8 (numOf (data.take 8)), target := numOf (data.drop 8), tag := tag, bad := false }
      s.mapSlot key fun a => { a with breg := a.breg.set b.toNat x b.isLt }
    | .mask key k g =>
      s.mapSlot key fun a => { a with mask := a.mask.set k.toNat ((a.mask.get k.toFin).putGranule g.toNat data tag) k.isLt }
    | .granule core off => s.mapStorage core fun s => s.debugGranule (windowAddr core off) data tag)

/-! ## Background loops (R395) -/

/-- LPDDR6_RETRAINING: it changes no value and no order that an observer sees. -/
def execLpddr6Retraining (_channel : Nat) (s : State) : Out := .next s
/-- LINK_EQUALISATION: it changes no value and no order that an observer sees. -/
def execLinkEqualisation (_link : BitVec 4) (s : State) : Out := .next s

end Sys2Proof.Machine
end

