-- ==== Sys2Proof/Machine/Dispatch.lean ====
section
/-!
DEFINITION. One arm per constructor of `Instr`: the meaning of each instruction and of each event.
-/

namespace Sys2Proof.Machine

def exec (i : Instr) (s : State) : Host.Outcome State Fault Refusal :=
  match i with
  | .trap code => Sys2Proof.Machine.execTrap code s
  | .eret => Sys2Proof.Machine.execEret s
  | .brk code => Sys2Proof.Machine.execBrk code s
  | .halt => Sys2Proof.Machine.execHalt s
  | .crd rd cr => Sys2Proof.Machine.execCrd rd cr s
  | .cwr ra cr => Sys2Proof.Machine.execCwr ra cr s
  | .crs rd ra cr => Sys2Proof.Machine.execCrs rd ra cr s
  | .crc rd ra cr => Sys2Proof.Machine.execCrc rd ra cr s
  | .uloop h => Sys2Proof.Machine.execUloop h s
  | .ecls n => Sys2Proof.Machine.execEcls n s
  | .nop => Sys2Proof.Machine.execNop s
  | .add rd ra rb => Sys2Proof.Machine.execAdd rd ra rb s
  | .sub rd ra rb => Sys2Proof.Machine.execSub rd ra rb s
  | .and rd ra rb => Sys2Proof.Machine.execAnd rd ra rb s
  | .or rd ra rb => Sys2Proof.Machine.execOr rd ra rb s
  | .xor rd ra rb => Sys2Proof.Machine.execXor rd ra rb s
  | .andn rd ra rb => Sys2Proof.Machine.execAndn rd ra rb s
  | .sll rd ra rb => Sys2Proof.Machine.execSll rd ra rb s
  | .srl rd ra rb => Sys2Proof.Machine.execSrl rd ra rb s
  | .sra rd ra rb => Sys2Proof.Machine.execSra rd ra rb s
  | .slt rd ra rb => Sys2Proof.Machine.execSlt rd ra rb s
  | .sltu rd ra rb => Sys2Proof.Machine.execSltu rd ra rb s
  | .min rd ra rb => Sys2Proof.Machine.execMin rd ra rb s
  | .max rd ra rb => Sys2Proof.Machine.execMax rd ra rb s
  | .minu rd ra rb => Sys2Proof.Machine.execMinu rd ra rb s
  | .maxu rd ra rb => Sys2Proof.Machine.execMaxu rd ra rb s
  | .mul rd ra rb => Sys2Proof.Machine.execMul rd ra rb s
  | .mulh rd ra rb => Sys2Proof.Machine.execMulh rd ra rb s
  | .mulhu rd ra rb => Sys2Proof.Machine.execMulhu rd ra rb s
  | .div rd ra rb => Sys2Proof.Machine.execDiv rd ra rb s
  | .divu rd ra rb => Sys2Proof.Machine.execDivu rd ra rb s
  | .rem rd ra rb => Sys2Proof.Machine.execRem rd ra rb s
  | .remu rd ra rb => Sys2Proof.Machine.execRemu rd ra rb s
  | .clz rd ra => Sys2Proof.Machine.execClz rd ra s
  | .ctz rd ra => Sys2Proof.Machine.execCtz rd ra s
  | .popc rd ra => Sys2Proof.Machine.execPopc rd ra s
  | .addi rd ra imm => Sys2Proof.Machine.execAddi rd ra imm s
  | .andi rd ra imm => Sys2Proof.Machine.execAndi rd ra imm s
  | .ori rd ra imm => Sys2Proof.Machine.execOri rd ra imm s
  | .xori rd ra imm => Sys2Proof.Machine.execXori rd ra imm s
  | .slti rd ra imm => Sys2Proof.Machine.execSlti rd ra imm s
  | .sltiu rd ra imm => Sys2Proof.Machine.execSltiu rd ra imm s
  | .slli rd ra n => Sys2Proof.Machine.execSlli rd ra n s
  | .srli rd ra n => Sys2Proof.Machine.execSrli rd ra n s
  | .srai rd ra n => Sys2Proof.Machine.execSrai rd ra n s
  | .lins rd slot imm => Sys2Proof.Machine.execLins rd slot imm s
  | .addpc rd imm => Sys2Proof.Machine.execAddpc rd imm s
  | .ld rd ra w off => Sys2Proof.Machine.execLd rd ra w off s
  | .st rd ra w off => Sys2Proof.Machine.execSt rd ra w off s
  | .ldx rd ra rb w => Sys2Proof.Machine.execLdx rd ra rb w s
  | .stx rd ra rb w => Sys2Proof.Machine.execStx rd ra rb w s
  | .amo f op => Sys2Proof.Machine.execAmo f op s
  | .cas f => Sys2Proof.Machine.execCas f s
  | .waddr rd ra rb => Sys2Proof.Machine.execWaddr rd ra rb s
  | .wake rd ra rb => Sys2Proof.Machine.execWake rd ra rb s
  | .beq ra rb n off => Sys2Proof.Machine.execBeq ra rb n off s
  | .bne ra rb n off => Sys2Proof.Machine.execBne ra rb n off s
  | .blt ra rb n off => Sys2Proof.Machine.execBlt ra rb n off s
  | .bge ra rb n off => Sys2Proof.Machine.execBge ra rb n off s
  | .bltu ra rb n off => Sys2Proof.Machine.execBltu ra rb n off s
  | .bgeu ra rb n off => Sys2Proof.Machine.execBgeu ra rb n off s
  | .j off => Sys2Proof.Machine.execJ off s
  | .jal off => Sys2Proof.Machine.execJal off s
  | .jr ra => Sys2Proof.Machine.execJr ra s
  | .jalr rd ra => Sys2Proof.Machine.execJalr rd ra s
  | .smine rc pm row n off => Sys2Proof.Machine.execSmine rc pm row n off s
  | .ubrk k off => Sys2Proof.Machine.execUbrk k off s
  | .vbx k c n off => Sys2Proof.Machine.execVbx k c n off s
  | .rpt cnt reps sd sa sb => Sys2Proof.Machine.execRpt cnt reps sd sa sb s
  | .vshape rd ra rb ew => Sys2Proof.Machine.execVshape rd ra rb ew s
  | .vcfg ra => Sys2Proof.Machine.execVcfg ra s
  | .klen kd ra ew => Sys2Proof.Machine.execKlen kd ra ew s
  | .vadd f => Sys2Proof.Machine.execVadd f s
  | .vsub f => Sys2Proof.Machine.execVsub f s
  | .vrsub f => Sys2Proof.Machine.execVrsub f s
  | .vmul f => Sys2Proof.Machine.execVmul f s
  | .vmulh f => Sys2Proof.Machine.execVmulh f s
  | .vmulhu f => Sys2Proof.Machine.execVmulhu f s
  | .vdiv f => Sys2Proof.Machine.execVdiv f s
  | .vdivu f => Sys2Proof.Machine.execVdivu f s
  | .vrem f => Sys2Proof.Machine.execVrem f s
  | .vremu f => Sys2Proof.Machine.execVremu f s
  | .vmin f => Sys2Proof.Machine.execVmin f s
  | .vmax f => Sys2Proof.Machine.execVmax f s
  | .vminu f => Sys2Proof.Machine.execVminu f s
  | .vmaxu f => Sys2Proof.Machine.execVmaxu f s
  | .vand f => Sys2Proof.Machine.execVand f s
  | .vor f => Sys2Proof.Machine.execVor f s
  | .vxor f => Sys2Proof.Machine.execVxor f s
  | .vandn f => Sys2Proof.Machine.execVandn f s
  | .vsll f => Sys2Proof.Machine.execVsll f s
  | .vsrl f => Sys2Proof.Machine.execVsrl f s
  | .vsra f => Sys2Proof.Machine.execVsra f s
  | .vsadd f => Sys2Proof.Machine.execVsadd f s
  | .vssub f => Sys2Proof.Machine.execVssub f s
  | .vsaddu f => Sys2Proof.Machine.execVsaddu f s
  | .vssubu f => Sys2Proof.Machine.execVssubu f s
  | .vmerge f => Sys2Proof.Machine.execVmerge f s
  | .vclz f => Sys2Proof.Machine.execVclz f s
  | .vpopc f => Sys2Proof.Machine.execVpopc f s
  | .vmacc f => Sys2Proof.Machine.execVmacc f s
  | .vnmsac f => Sys2Proof.Machine.execVnmsac f s
  | .vabsd f => Sys2Proof.Machine.execVabsd f s
  | .vmulq f => Sys2Proof.Machine.execVmulq f s
  | .vcmp kd cc va vb sc km ty => Sys2Proof.Machine.execVcmp kd cc va vb sc km ty s
  | .vfadd f => Sys2Proof.Machine.execVfadd f s
  | .vfsub f => Sys2Proof.Machine.execVfsub f s
  | .vfmul f => Sys2Proof.Machine.execVfmul f s
  | .vfdiv f => Sys2Proof.Machine.execVfdiv f s
  | .vfma f => Sys2Proof.Machine.execVfma f s
  | .vfms f => Sys2Proof.Machine.execVfms f s
  | .vfnma f => Sys2Proof.Machine.execVfnma f s
  | .vfmin f => Sys2Proof.Machine.execVfmin f s
  | .vfmax f => Sys2Proof.Machine.execVfmax f s
  | .vfsgnj f => Sys2Proof.Machine.execVfsgnj f s
  | .vfsgnjn f => Sys2Proof.Machine.execVfsgnjn f s
  | .vfsgnjx f => Sys2Proof.Machine.execVfsgnjx f s
  | .vfsqrt f => Sys2Proof.Machine.execVfsqrt f s
  | .vfrcp f => Sys2Proof.Machine.execVfrcp f s
  | .vfrsq f => Sys2Proof.Machine.execVfrsq f s
  | .vfexp2 f => Sys2Proof.Machine.execVfexp2 f s
  | .vflog2 f => Sys2Proof.Machine.execVflog2 f s
  | .vfsigm f => Sys2Proof.Machine.execVfsigm f s
  | .vftanh f => Sys2Proof.Machine.execVftanh f s
  | .vfcls f => Sys2Proof.Machine.execVfcls f s
  | .vcvt vd va rm sat km dst src => Sys2Proof.Machine.execVcvt vd va rm sat km dst src s
  | .vredsum f => Sys2Proof.Machine.execVredsum f s
  | .vredmax f => Sys2Proof.Machine.execVredmax f s
  | .vredmin f => Sys2Proof.Machine.execVredmin f s
  | .vredor f => Sys2Proof.Machine.execVredor f s
  | .vfredsum f => Sys2Proof.Machine.execVfredsum f s
  | .vfredmax f => Sys2Proof.Machine.execVfredmax f s
  | .vfredmin f => Sys2Proof.Machine.execVfredmin f s
  | .vredand f => Sys2Proof.Machine.execVredand f s
  | .vmv vd va k => Sys2Proof.Machine.execVmv vd va k s
  | .vmvs vd ra k => Sys2Proof.Machine.execVmvs vd ra k s
  | .vmvx rd va rb => Sys2Proof.Machine.execVmvx rd va rb s
  | .vslideup vd va rb k => Sys2Proof.Machine.execVslideup vd va rb k s
  | .vslidedn vd va rb k => Sys2Proof.Machine.execVslidedn vd va rb k s
  | .vslide1up vd va rb k => Sys2Proof.Machine.execVslide1up vd va rb k s
  | .vslide1dn vd va rb k => Sys2Proof.Machine.execVslide1dn vd va rb k s
  | .vgather vd va vb k => Sys2Proof.Machine.execVgather vd va vb k s
  | .vcompress vd va k => Sys2Proof.Machine.execVcompress vd va k s
  | .vexpand vd va k => Sys2Proof.Machine.execVexpand vd va k s
  | .viota vd ka k => Sys2Proof.Machine.execViota vd ka k s
  | .vid vd k => Sys2Proof.Machine.execVid vd k s
  | .vtrans vd va k => Sys2Proof.Machine.execVtrans vd va k s
  | .vrowbc vd va rb k => Sys2Proof.Machine.execVrowbc vd va rb k s
  | .kand kd ka kb => Sys2Proof.Machine.execKand kd ka kb s
  | .kor kd ka kb => Sys2Proof.Machine.execKor kd ka kb s
  | .kxor kd ka kb => Sys2Proof.Machine.execKxor kd ka kb s
  | .kandn kd ka kb => Sys2Proof.Machine.execKandn kd ka kb s
  | .knot kd ka => Sys2Proof.Machine.execKnot kd ka s
  | .kmv kd ka => Sys2Proof.Machine.execKmv kd ka s
  | .kpopc rd ka => Sys2Proof.Machine.execKpopc rd ka s
  | .kfirst rd ka => Sys2Proof.Machine.execKfirst rd ka s
  | .kbrkb kd ka => Sys2Proof.Machine.execKbrkb kd ka s
  | .kbrka kd ka => Sys2Proof.Machine.execKbrka kd ka s
  | .kbrko kd ka => Sys2Proof.Machine.execKbrko kd ka s
  | .kfromv kd va => Sys2Proof.Machine.execKfromv kd va s
  | .ktov vd ka => Sys2Proof.Machine.execKtov vd ka s
  | .kset kd ra rb => Sys2Proof.Machine.execKset kd ra rb s
  | .vld f => Sys2Proof.Machine.execVld f s
  | .vldstr f st => Sys2Proof.Machine.execVldstr f st s
  | .vldx f vi => Sys2Proof.Machine.execVldx f vi s
  | .vldff f => Sys2Proof.Machine.execVldff f s
  | .vldSignExtending f => Sys2Proof.Machine.execVldSignExtending f s
  | .vldstrSignExtending f st => Sys2Proof.Machine.execVldstrSignExtending f st s
  | .vldxSignExtending f vi => Sys2Proof.Machine.execVldxSignExtending f vi s
  | .vldffSignExtending f => Sys2Proof.Machine.execVldffSignExtending f s
  | .vst f => Sys2Proof.Machine.execVst f s
  | .vststr f st => Sys2Proof.Machine.execVststr f st s
  | .vstx f vi => Sys2Proof.Machine.execVstx f vi s
  | .vamoAdd f => Sys2Proof.Machine.execVamoAdd f s
  | .vamoSwap f => Sys2Proof.Machine.execVamoSwap f s
  | .vamoAnd f => Sys2Proof.Machine.execVamoAnd f s
  | .vamoOr f => Sys2Proof.Machine.execVamoOr f s
  | .vamoXor f => Sys2Proof.Machine.execVamoXor f s
  | .vamoMin f => Sys2Proof.Machine.execVamoMin f s
  | .vamoMax f => Sys2Proof.Machine.execVamoMax f s
  | .vamoCas f => Sys2Proof.Machine.execVamoCas f s
  | .vamoMinu f => Sys2Proof.Machine.execVamoMinu f s
  | .vamoMaxu f => Sys2Proof.Machine.execVamoMaxu f s
  | .vamoFadd f => Sys2Proof.Machine.execVamoFadd f s
  | .vamoDip f => Sys2Proof.Machine.execVamoDip f s
  | .vhist f => Sys2Proof.Machine.execVhist f s
  | .mzero ac => Sys2Proof.Machine.execMzero ac s
  | .mop ac va vb km => Sys2Proof.Machine.execMop ac va vb km s
  | .mopt ac va tid km => Sys2Proof.Machine.execMopt ac va tid km s
  | .mopk ac va tid km => Sys2Proof.Machine.execMopk ac va tid km s
  | .mopi ac va vb km => Sys2Proof.Machine.execMopi ac va vb km s
  | .mld ac sb km => Sys2Proof.Machine.execMld ac sb km s
  | .mst ac sb km => Sys2Proof.Machine.execMst ac sb km s
  | .mva ac vd km => Sys2Proof.Machine.execMva ac vd km s
  | .mav ac va km => Sys2Proof.Machine.execMav ac va km s
  | .fence ll ls sl ss sc => Sys2Proof.Machine.execFence ll ls sl ss sc s
  | .pfence p q sc => Sys2Proof.Machine.execPfence p q sc s
  | .arrive rd b => Sys2Proof.Machine.execArrive rd b s
  | .bwait b rb => Sys2Proof.Machine.execBwait b rb s
  | .bset b ra => Sys2Proof.Machine.execBset b ra s
  | .gmember rd ra rb => Sys2Proof.Machine.execGmember rd ra rb s
  | .gsize rd ra => Sys2Proof.Machine.execGsize rd ra s
  | .grank rd ra => Sys2Proof.Machine.execGrank rd ra s
  | .lfork rd ra => Sys2Proof.Machine.execLfork rd ra s
  | .ljoin => Sys2Proof.Machine.execLjoin s
  | .cpy rd ra rb twoD => Sys2Proof.Machine.execCpy rd ra rb twoD s
  | .cpyw rd ra rb => Sys2Proof.Machine.execCpyw rd ra rb s
  | .cbatch => Sys2Proof.Machine.execCbatch s
  | .cwait ra => Sys2Proof.Machine.execCwait ra s
  | .csleep ra => Sys2Proof.Machine.execCsleep ra s
  | .rdcnt rd => Sys2Proof.Machine.execRdcnt rd s
  | .xred rd ra rb fmt => Sys2Proof.Machine.execXred rd ra rb fmt s
  | .xbc rd ra rb fmt => Sys2Proof.Machine.execXbc rd ra rb fmt s
  | .xag rd ra rb fmt => Sys2Proof.Machine.execXag rd ra rb fmt s
  | .xwait rd => Sys2Proof.Machine.execXwait rd s
  | .nnew rd ra => Sys2Proof.Machine.execNnew rd ra s
  | .nres rd ra => Sys2Proof.Machine.execNres rd ra s
  | .nkill ra => Sys2Proof.Machine.execNkill ra s
  | .ncas rd ra rb => Sys2Proof.Machine.execNcas rd ra rb s
  | .tbind rd ra rb => Sys2Proof.Machine.execTbind rd ra rb s
  | .tunbind ra => Sys2Proof.Machine.execTunbind ra s
  | .tq rd ra => Sys2Proof.Machine.execTq rd ra s
  | .orset ra rb => Sys2Proof.Machine.execOrset ra rb s
  | .orclr ra => Sys2Proof.Machine.execOrclr ra s
  | .smerge f => Sys2Proof.Machine.execSmerge f s
  | .vrng f => Sys2Proof.Machine.execVrng f s
  | .vexpd f => Sys2Proof.Machine.execVexpd f s
  | .glean rd ra rb => Sys2Proof.Machine.execGlean rd ra rb s
  | .gadv rd ra rb => Sys2Proof.Machine.execGadv rd ra rb s
  | .lenq rd ra rb => Sys2Proof.Machine.execLenq rd ra rb s
  | .vfredo vd va vb km => Sys2Proof.Machine.execVfredo vd va vb km s
  | .mop8 rd ra rb fn => Sys2Proof.Machine.execMop8 rd ra rb fn s
  | .annulledStep => Sys2Proof.Machine.execAnnulledStep s
  | .ubrkResolve => Sys2Proof.Machine.execUbrkResolve s
  | .postedTrapDelivery => Sys2Proof.Machine.execPostedTrapDelivery s
  | .asyncEventTake => Sys2Proof.Machine.execAsyncEventTake s
  | .shiftedLaneMismatch key lane => Sys2Proof.Machine.execShiftedLaneMismatch key lane s
  | .preempt => Sys2Proof.Machine.execPreempt s
  | .imageWriteComplete key => Sys2Proof.Machine.execImageWriteComplete key s
  | .strandBind queue => Sys2Proof.Machine.execStrandBind queue s
  | .harrowSweepEnd core pool => Sys2Proof.Machine.execHarrowSweepEnd core pool s
  | .restore uid => Sys2Proof.Machine.execRestore uid s
  | .launchAccept queue => Sys2Proof.Machine.execLaunchAccept queue s
  | .launchComplete launch => Sys2Proof.Machine.execLaunchComplete launch s
  | .watchdogExpire key => Sys2Proof.Machine.execWatchdogExpire key s
  | .quantumExpire key => Sys2Proof.Machine.execQuantumExpire key s
  | .bindRecordWrite n words => Sys2Proof.Machine.execBindRecordWrite n words s
  | .queueCreate name depth prio owner page => Sys2Proof.Machine.execQueueCreate name depth prio owner page s
  | .grantAdd name asid => Sys2Proof.Machine.execGrantAdd name asid s
  | .tombstone name => Sys2Proof.Machine.execTombstone name s
  | .copyComplete id => Sys2Proof.Machine.execCopyComplete id s
  | .copyStop id => Sys2Proof.Machine.execCopyStop id s
  | .csleepExpire key => Sys2Proof.Machine.execCsleepExpire key s
  | .collectiveComplete id => Sys2Proof.Machine.execCollectiveComplete id s
  | .headlandLinkFail link => Sys2Proof.Machine.execHeadlandLinkFail link s
  | .monitorEvict key => Sys2Proof.Machine.execMonitorEvict key s
  | .serialBlockReserve => Sys2Proof.Machine.execSerialBlockReserve s
  | .powerLoopWindow die watts => Sys2Proof.Machine.execPowerLoopWindow die watts s
  | .energyRefill => Sys2Proof.Machine.execEnergyRefill s
  | .scrubRead region found => Sys2Proof.Machine.execScrubRead region found s
  | .scrubRateUpdate regions => Sys2Proof.Machine.execScrubRateUpdate regions s
  | .moduleReset verified level harv0 harv1 stepping => Sys2Proof.Machine.execModuleReset verified level harv0 harv1 stepping s
  | .serviceLevelRaise => Sys2Proof.Machine.execServiceLevelRaise s
  | .doorbell func page access => Sys2Proof.Machine.execDoorbell func page access s
  | .hostBar2Access func va op => Sys2Proof.Machine.execHostBar2Access func va op s
  | .peerAccess link pa op => Sys2Proof.Machine.execPeerAccess link pa op s
  | .attestationQuote nonce => Sys2Proof.Machine.execAttestationQuote nonce s
  | .debugRead u => Sys2Proof.Machine.execDebugRead u s
  | .debugWrite u data tag => Sys2Proof.Machine.execDebugWrite u data tag s
  | .rangeInAsid asid vpn count => Sys2Proof.Machine.execRangeInAsid asid vpn count s
  | .wholeAsid asid => Sys2Proof.Machine.execWholeAsid asid s
  | .everyAsid => Sys2Proof.Machine.execEveryAsid s
  | .unpoisonFrame frame => Sys2Proof.Machine.execUnpoisonFrame frame s
  | .create asid => Sys2Proof.Machine.execCreate asid s
  | .destroy asid => Sys2Proof.Machine.execDestroy asid s
  | .revoke name asid => Sys2Proof.Machine.execRevoke name asid s
  | .tcmdbReserved => Sys2Proof.Machine.execTcmdbReserved s
  | .elogpop => Sys2Proof.Machine.execElogpop s
  | .registerWrite target value => Sys2Proof.Machine.execRegisterWrite target value s
  | .discardSavedContext uid => Sys2Proof.Machine.execDiscardSavedContext uid s
  | .debugHalt key => Sys2Proof.Machine.execDebugHalt key s
  | .debugResume key => Sys2Proof.Machine.execDebugResume key s
  | .headlandLinkTrained link => Sys2Proof.Machine.execHeadlandLinkTrained link s
  | .lpddr6Retraining channel => Sys2Proof.Machine.execLpddr6Retraining channel s
  | .linkEqualisation link => Sys2Proof.Machine.execLinkEqualisation link s
  | .copyTranslationFault id => Sys2Proof.Machine.execCopyTranslationFault id s
  | .grantRemove name asid => Sys2Proof.Machine.execGrantRemove name asid s

end Sys2Proof.Machine
end

