-- ==== Sys2Proof/Machine/Sched.lean ====
section
/-!
DEFINITION. What happens next (R30, R31, R328): the strands that may issue, the device's own events, the passing of time; and how a
word is placed where the next step fetches.
-/

namespace Sys2Proof.Machine

/-! ## Strands -/

/-- Whether a slot's strand runs: bound, not stopped for preemption, not halted by the debug path. -/
def Thread.runs (t : Thread) : Bool := t.bound && !t.stopping && !t.dbgHalt

/-- Whether the strand of a slot may have its turn (R31): no strand of its core with a higher PRIO is ready. `waits` says of a waiting strand
whether it has to wait on. A requested preemption is served all the same (R296). -/
def State.mayIssue (s : State) (waits : Nat → Bool) (k : Nat) : Bool :=
  let t := s.getThr k
  t.runs &&
    ((t.preempt && (s.switchTo k).parkedRoom) ||
      (coreKeys (coreOf k)).all fun j =>
        let u := s.getThr j
        !(u.runs && decide (t.prio.toNat < u.prio.toNat) && !(u.waiting && waits j)))

/-- The first slot from `k` on, in the cycle of all slots, whose strand may issue (R30). -/
def State.nextFrom (s : State) (waits : Nat → Bool) : Nat → Nat → Option Nat
  | 0, _ => none
  | n + 1, k => if s.mayIssue waits k then some k else s.nextFrom waits n ((k + 1) % 288)

/-- The slot whose strand issues next: the first after the one that stepped. -/
def State.nextStrand (s : State) (waits : Nat → Bool) : Option Nat := s.nextFrom waits 288 ((s.cur + 1) % 288)

/-! ## Posted instructions that retire late (R11, R12, R292) -/

/-- Whether an instruction is posted to the vector unit or the matrix array and gives the control thread no scalar: majors 0x1E to 0x36 and
0x3B (Table 5.2). -/
def isPosted (i : Instr) : Bool :=
  match i with
  | .kpopc _ _ | .kfirst _ _ | .vmvx _ _ _ => false
  | i =>
    match encode i with
    | some w => let m := (w.extractLsb' 26 6).toNat; decide ((0x1E ≤ m ∧ m ≤ 0x36) ∨ m = 0x3B)
    | none => false

/-- Whether a posted instruction resumes at VSTART, so that it may stop at an element (R167, R181, R188, R211): the element-wise families, the
vector loads and stores, the tile transfers. A trimming load is left to stop between instructions only. -/
def isResumable (i : Instr) : Bool :=
  match i with
  | .vldff _ | .vldffSignExtending _ => false
  | .vmv _ _ _ | .vmvs _ _ _ | .vid _ _ | .mld _ _ _ | .mst _ _ _ | .mva _ _ _ | .mav _ _ _ => true
  | i =>
    match encode i with
    | some w => let m := (w.extractLsb' 26 6).toNat; decide ((0x1E ≤ m ∧ m ≤ 0x25) ∨ (0x27 ≤ m ∧ m ≤ 0x2C) ∨ (0x31 ≤ m ∧ m ≤ 0x33))
    | none => false

/-- How many elements or k-steps a posted instruction goes through from VSTART on; none for one that is replayed from its start (R292). -/
def State.stopBound (s : State) (i : Instr) : Option Nat :=
  match i with
  | .mopk _ _ _ _ => some s.ucr.vrows.toNat
  | i => if isResumable i then some s.ucr.elems else none

/-- The element or k-step at which the oldest unretired posted instruction stops, if it does (R292, R300; log entry 1). -/
def State.stopElement (s : State) (i : Instr) : Option Nat :=
  let n := Config.stopsAt s.free
  (s.stopBound i).bind fun m => if s.ucr.vstart.toNat < n ∧ n < m then some n else none

/-- Whether something could stop the strand between a posting and its retirement: a watchdog, or the bind record of a launch's strand. Without
either, R11 makes a late retirement invisible, and the model has none. -/
def State.interruptible (s : State) : Bool := s.thr.sys.swdlim != 0#64 || s.thr.launch != 0

/-- Whether a posted instruction reads operands under a lease (R207): it is issued and retired in one step, so that no write to them comes
between (R283). -/
def isLeased (i : Instr) : Bool :=
  match i with
  | .mopt _ _ _ _ | .mopk _ _ _ _ | .mopi _ _ _ _ => true
  | _ => false

/-- The strand posts the instruction at the program counter behind those that have not retired, and goes on (R11, R292): the instruction and
its captured operands stand in the pending replay. 64 stand there at most (R12). One under a lease waits for its issue, unless the strand
stops at this boundary. -/
def State.postNext (s : State) (stops : Bool) : Option State :=
  if s.interruptible && s.thr.rpt.isNone && !s.trip.a0 && (s.thr.replay.isEmpty || s.thr.replaying) && decide (s.thr.replay.length < 64) then
    match fetchInstr s.trip.pc s with
    | .done i t =>
      if isPosted i && (stops || !isLeased i) then
        match payEnergy t with
        | .done _ u =>
          some (u.mapThr fun th =>
            { th with
              replay := th.replay ++ [s.captured i s.trip.pc], replaying := true, rptResume := none, waiting := false, debited := false
              arch := { th.arch with trip := th.arch.trip.fall } })
        | _ => none
      else none
    | _ => none
  else none

/-- Whether an instruction of the control thread may run before the posted ones have retired (R11, R12): it reads nothing that they produce,
writes no control register, and a load or store passes no access of the vector unit or the matrix array. -/
def passesPosts (i : Instr) (posts : List Replay) : Bool :=
  match i with
  | .nop | .uloop _ => true
  | i =>
    match encode i with
    | none => false
    | some w =>
      let m := (w.extractLsb' 26 6).toNat
      decide ((0x01 ≤ m ∧ m ≤ 0x0A) ∨ (0x10 ≤ m ∧ m ≤ 0x18) ∨ m = 0x1A) ||
        (decide (0x0B ≤ m ∧ m ≤ 0x0D) && posts.all fun e => match encode e.instr with
          | some v => let n := (v.extractLsb' 26 6).toNat; !decide (0x31 ≤ n ∧ n ≤ 0x36)
          | none => true)

/-- Whether a strand that stood as `h` has run an instruction to its end: no wait, no trap. -/
def Thread.ranFrom (t h : Thread) : Bool :=
  decide ({ t with arch := h.arch, loop := h.loop, unres := h.unres, held := h.held, rptResume := h.rptResume, debited := h.debited,
                   deferLog := h.deferLog } = h)

/-- A strand whose instruction has run past the posts that `s` holds: a `ubrk` that it issued stands behind them. -/
def State.behindPosts (t s : State) : State :=
  let old := s.thr.unres.length
  t.mapThr fun th =>
    { th with
      replay := s.thr.replay, replaying := true
      unres := th.unres.take old ++ (th.unres.drop old).map fun u => { u with older := s.thr.replay.length } }

/-- The oldest posted instruction as it stood before it ran up to element `n`: it stays first in the replay with VSTART there, and what it has
stored is performed (R280, R292). -/
def State.stoppedAt (t s : State) (n : Nat) : State :=
  if t.thr.ptrap.isNone && !t.thr.waiting then
    ((t.mapThr fun th =>
      { th with
        stopAt := none, goneStep := false, replaying := true
        replay := match s.thr.replay with
          | e :: es => { e with stop := BitVec.ofNat 16 n, gone := th.goneStep } :: es
          | [] => [] }).setVstart n).performSince s.free
  else t.mapThr fun th => { th with stopAt := none }

/-- The `ubrk`s behind the oldest of `n` posts back in their place after it has run: where it has retired, one post fewer stands before each, and
for one that none stands before the vector side's part of the checkpoint is taken (R33, R38). -/
def State.rejoined (s : State) (us : List Unresolved) (n : Nat) : State :=
  let gone := n - s.thr.replay.length
  let us := us.map fun u => if u.older ≤ gone then u.taken s else { u with older := u.older - gone }
  s.mapThr fun t => { t with unres := t.unres ++ us }

/-! ## The device's own events -/

/-- A family whose members have all stopped writes its images. -/
def State.imageEvents (s : State) : List Instr :=
  (s.keys.filter fun k => (s.getThr k).stopping && s.rootOf k == k && (s.familyOf k).all fun j => (s.getThr j).stopping).map
    .imageWriteComplete

/-- A sweep ends. -/
def State.sweepEvents (s : State) : List Instr :=
  s.cores.flatMap fun p =>
    ((List.range 5).filter fun pool => (p.2.sweeps.toList.getD pool none).isSome).map fun pool => .harrowSweepEnd p.1 pool

/-- A launch whose strands are done completes; one at the head of its queue is accepted. -/
def State.launchEvents (s : State) : List Instr :=
  ((s.launches.filter Launch.done).map fun l => .launchComplete l.id) ++
    (s.queues.filter fun q => (s.headToAccept q).isSome && (s.contextRecord q.owner).isSome).map fun q => .launchAccept q.name

/-- Of two bindings the one that comes first (R328): the higher PRIO of the record, then of the queue. -/
def laterBinding (best : Option (Queue × Want × Place)) (x : Queue × Want × Place) : Option (Queue × Want × Place) :=
  match best with
  | none => some x
  | some b =>
    if b.2.2.prio.toNat < x.2.2.prio.toNat ∨ (b.2.2.prio = x.2.2.prio ∧ b.1.prio < x.1.prio) then some x else some b

/-- The binding, or restore, that comes first; and the preemptions that a waiting strand asks for. -/
def State.bindEvents (s : State) : List Instr :=
  let wants := s.queues.filterMap fun q => (s.want q).map fun w => (q, w)
  let ready := wants.filterMap fun p => (firstPlace (s.places p.2.need nobody)).map fun x => (p.1, p.2, x)
  (match ready.foldl laterBinding none with
   | some (_, .saved v, _) => [.restore v.uid]
   | some (q, .fresh _, _) => [.strandBind q.name]
   | none => []) ++
  (wants.filter fun p => (s.displaced p.2.need).isSome).map fun p => .strandBind p.1.name

/-- Whether `a` ran its quantum out before `b` (R330). -/
def State.outBefore (s : State) (a b : Nat) : Bool :=
  let x := (s.overQuantum a).getD 0
  let y := (s.overQuantum b).getD 0
  decide (y < x) || (x == y && decide (a < b))

/-- The strand whose quantum ran out first, of those for whose slot one of equal PRIO waits (R330). -/
def State.quantumEvents (s : State) : List Instr :=
  match (s.keys.filter s.turnDue).foldl (fun best k => match best with
    | none => some k
    | some b => if s.outBefore k b then some k else some b) none with
  | some k => [.quantumExpire k]
  | none => []

/-- A `csleep` whose value the counter has reached. -/
def State.sleepEvents (s : State) : List Instr :=
  (s.keys.filter fun k => match (s.getThr k).sleep with
    | some x => decide (x.toNat ≤ (s.counter (s.clusterOf (coreOf k))).toNat)
    | none => false).map .csleepExpire

/-- A running copy that completes, or meets what stops it. -/
def State.copyEvents (s : State) : List Instr :=
  (s.copies.filter fun c => c.state == .running).filterMap fun c =>
    match s.attempt c with
    | .complete _ _ => some (.copyComplete c.id)
    | .stop _ _ _ _ _ => some (.copyStop c.id)
    | .waits t => if t = s then none else some (.copyTranslationFault c.id)

/-- A collective that ends. -/
def State.collectiveEvents (s : State) : List Instr :=
  (s.colls.filter fun c => c.status.isNone && match execCollectiveComplete c.id s with
    | .next t => decide (t ≠ s)
    | _ => false).map fun c => .collectiveComplete c.id

/-- Whether a due event waits: a shootdown completes only after the stores that strands hold (R315). -/
def State.blocked (s : State) : Instr → Bool
  | .rangeInAsid asid _ count => count != 0#32 && s.holdsStores (some asid)
  | .wholeAsid asid => s.holdsStores (some asid)
  | .everyAsid => s.holdsStores none
  | _ => false

/-- The events that the device may perform now. -/
def State.deviceEvents (s : State) : List Instr :=
  s.imageEvents ++ s.sweepEvents ++ s.launchEvents ++ s.bindEvents ++ s.quantumEvents ++ s.sleepEvents ++ s.copyEvents ++
    s.collectiveEvents

/-! ## Time (R250, R305) -/

/-- Whether a watchdog count that advances by `n` reaches its limit (R305). -/
def SysCR.reaches (c : SysCR) (n : Nat) : Bool :=
  if c.swdlim = 0#64 then false else decide ((c.swdlim - c.swdcnt - 1#64).toNat < n)

/-- Whether a strand's watchdog counts: it is bound, not stopped for preemption, not halted by the debug path, and HW = 0. -/
def Thread.counts (t : Thread) : Bool := t.bound && !t.stopping && !t.dbgHalt && !t.sys.hw

/-- A strand after `n` cycles, with the memory that its later fetches may still see (R404). -/
def Thread.aged (t : Thread) (n : Nat) (mem : List Host.Cell) : Thread :=
  if t.bound then
    { t with
      bindCycles := t.bindCycles + n
      codeMem := if t.codeMem.head? = some mem then t.codeMem else mem :: t.codeMem
      sys := if t.counts then { t.sys with swdcnt := t.sys.swdcnt + BitVec.ofNat 64 n } else t.sys }
  else t

/-- The strands whose watchdog expires within the cycles of a step. -/
def State.expiring (s : State) : List Instr :=
  (s.keys.filter fun k => (s.getThr k).counts && (s.getThr k).sys.reaches (Config.coreCycles s.free (coreOf k)).toNat).map .watchdogExpire

/-- The cached translations whose walks passed a poisoned frame dropped, as a shootdown does (R315, R317): once the stores that strands hold
have been performed or dropped. -/
def State.dropFrames (s : State) : State :=
  if s.dropping = [] ∨ s.holdsStores none then s
  else { s.dropWalks (fun e => e.frames.any fun f => s.dropping.contains f) with dropping := [] }

/-- Time passes: the errors that strike do so, every cluster's counter and every bound strand's counts advance by amounts that the manual
leaves open, late stores may be performed. A watchdog that expires comes before what is due already: WATCHDOG pends from the same cycle on
(R305). -/
def State.advance (s : State) : State :=
  let s := s.struck.dropFrames
  { s with
    due := s.expiring ++ s.due
    thr := s.thr.aged (Config.coreCycles s.free (coreOf s.cur)).toNat s.mem
    others := s.others.map fun p => (p.1, p.2.aged (Config.coreCycles s.free (coreOf p.1)).toNat s.mem)
    wrote := []
    late := stillLate s.free s.late
    counters := Vector.ofFn fun c => s.counters.get c + (Config.clusterCycles s.free c.val).setWidth 64
    free := s.free + 1 }

/-! ## A word placed where the next step fetches -/

/-- A strand at user level in slot 0 of core 0, as one stands right after binding, at an address. -/
def loadedThread (pc : Word) (root : BitVec 40) (mem : List Host.Cell) : Thread :=
  { Thread.reset with
    bound := true, uid := 1, genS := 1#16, genV := 1#16, genM := 1#16, genA := 1#16, genP := 1#16, root := root,
    arch := { Arch.reset with trip := Triple.start pc }, codeMem := [mem] }

/-- Where the word is placed: its virtual and physical address. -/
def loadAddr : Nat := 0x10000

/-- The tables of the placed strand's context: they map the lowest gigabyte onto itself, readable, writable and executable at user
level. -/
def State.loadTables (s : State) : State := ((s.setWord 0x1000 0x2001#64).setWord 0x2000 0x3001#64).setWord 0x3000 0x7B#64

end Sys2Proof.Machine
end

