-- ==== Sys2Proof/Machine/Issue.lean ====
section
/-!
DEFINITION. The next thing that one strand does: a word fetched and run, a posted instruction left unretired or retired (R11, R292), an
event taken at a boundary (R295), a `ubrk` resolved (R33).
-/

namespace Sys2Proof.Machine

/-- The strand's next instruction has been read: it pays its energy and runs, or waits for its budget (R391). -/
def State.runWord (s : State) (i : Instr) : Out :=
  match payEnergy s with
  | .done _ s => exec i s
  | .trap t s' => .next (takeTrap s t s')
  | .wait s => .next (s.mapThr fun t => { t with waiting := true })

/-- The word at the program counter is fetched and run (R112, R123, R371). -/
def State.fetchStep (s : State) : Out :=
  match fetchInstr s.trip.pc s with
  | .done i s => s.runWord i
  | .trap t s' => .next (takeTrap s t s')
  | .wait s => .next (s.mapThr fun t => { t with waiting := true })

/-- The oldest entry of the replay is issued (R290, R291), to its end or to an element where it stops (R292): of the unresolved `ubrk`s it sees
those that stand before it. It uses the control registers as they stand now, a float operation VFMT as it stood at its posting (DESIGN CHOICE,
log entry 12: R290 speaks of the scalar operands alone). -/
def State.reissue (s : State) (i : Instr) (stop : Option Nat) : Out :=
  match exec i (s.mapThr fun t => { t with unres := t.unres.filter (fun u => u.older = 0), stopAt := stop }) with
  | .next t =>
    let t := match stop with
      | some n => t.stoppedAt s n
      | none => t
    .next (t.rejoined (s.thr.unres.filter fun u => u.older ≠ 0) s.thr.replay.length)
  | o => o

/-- The instruction at the program counter run before the posted ones have retired, where it may and runs to its end (R11). -/
def State.passing (s : State) : Option State :=
  if s.thr.replaying && s.interruptible && s.thr.rpt.isNone && Config.postsLate s.free then
    let h := s.mapThr fun t => { t with replay := [], replaying := false, waiting := false }
    match fetchInstr s.trip.pc h with
    | .done i u =>
      if passesPosts i s.thr.replay then
        match u.runWord i with
        | .next t => if t.thr.ranFrom h.thr then some (t.behindPosts s) else none
        | _ => none
      else none
    | _ => none
  else none

/-- The strand issues: an instruction that is posted to retire later or that passes those, else the oldest entry of the replay (R290, R291), then
the running group's next word (R150), then the word at PC. -/
def State.issue (s : State) : Out :=
  match (s.postNext false).filter fun _ => Config.postsLate s.free, s.passing, s.thr.replaying, s.thr.replay, s.thr.rpt with
  | some t, _, _, _, _ => .next t
  | none, some t, _, _, _ => .next t
  | none, none, true, e :: _, _ => s.reissue e.instr none
  | none, none, _, _, some g =>
    match g.current s.ucr.regCount with
    | some i => s.runWord i
    | none => .next (s.mapThr fun t => { t with rpt := g.after })
  | none, none, _, _, none => s.fetchStep

/-- The strand with what it may still have posted at the boundary where it stops. -/
def State.postedMore (s : State) : State :=
  if s.thr.mustResolve then s else ((s.postNext true).filter fun _ => Config.postsLate s.free).getD s

/-- An event taken at a boundary (R292, R295): the oldest unretired posted instruction may first have run up to an element. Where it traps, its
trap comes before the event. -/
def State.takeEvent (s : State) (event : Instr) : Out :=
  let s := s.postedMore
  match s.thr.replaying, s.thr.replay with
  | true, e :: _ =>
    match s.stopElement e.instr with
    | some n =>
      match s.reissue e.instr (some n) with
      | .next t => if t.thr.ptrap.isSome then .next t else exec event t
      | o => o
    | none => exec event s
  | _, _ => exec event s

/-- Whether every posted instruction before the oldest unresolved `ubrk` has retired. -/
def Thread.ubrkReady (t : Thread) : Bool := t.unres.head?.all fun u => u.older == 0

/-- What the stepping strand does at its boundary, in the order of R295: an annulled word is stepped over (R125), the pending events are
taken, an uncounted loop's oldest `ubrk` resolves where it must or may (R33), else the strand issues. Before the `ubrk`'s older posts have
retired it cannot resolve, and they go on. -/
def State.strandStep (s : State) : Out :=
  let t := s.thr
  if t.arch.trip.a0 && t.rpt.isNone then exec .annulledStep s
  else if t.ptrap.isSome then exec .postedTrapDelivery s
  else if t.errunc.isSome || t.wdPend then s.takeEvent .asyncEventTake
  else if t.preempt && s.parkedRoom then s.takeEvent .preempt
  else if !t.ubrkReady then
    match t.replaying && t.mustResolve, t.replay with
    | true, e :: _ => s.reissue e.instr none
    | _, _ => s.issue
  else if t.mustResolve then exec .ubrkResolve s
  else if t.unres = [] then s.issue
  else if Config.resolves s.free then exec .ubrkResolve s.tick
  else s.tick.issue

end Sys2Proof.Machine
end

