-- ==== Sys2Proof/Machine/Step.lean ====
section
/-!
DEFINITION. One step of the device: a due event, an event of the device's own, or the next word of one strand.
-/

namespace Sys2Proof.Machine

/-- What a step adds around an instruction or event: an instruction that does not wait owes its energy anew, and time passes. -/
def State.after (s : State) : State :=
  (s.mapThr fun t => { t with debited := t.debited && t.waiting }).advance

/-- An outcome with what a step adds. -/
def afterStep : Out → Out
  | .next s => .next s.after
  | .fault f => .fault f
  | .refused r => .refused r

/-- A due event runs. -/
def State.runDue (s : State) (e : Instr) : Out := if e.wf then exec e s else .fault .noSuchEvent

/-- Whether the waiting strand of a slot has to wait on: its turn would find nothing else to do. -/
def State.waitsOn (s : State) (k : Nat) : Bool :=
  match (s.switchTo k).strandStep with
  | .next t => t.thr.waiting
  | _ => false

/-- A step without an event due. Between an event of the device's own and a strand there is no order (log entry 5): `deviceActs` leaves it
open. -/
def State.turn (s : State) : Out :=
  match s.deviceEvents, s.nextStrand s.waitsOn with
  | [], none => .next s.advance
  | [], some k => afterStep (s.switchTo k).strandStep
  | e :: _, none => afterStep (exec e s)
  | e :: _, some k =>
    if Config.deviceActs s.free then afterStep (exec e s.tick) else afterStep (s.tick.switchTo k).strandStep

/-- One step. A due event comes first, unless it has to wait. -/
def step (s : State) : Host.Outcome State Fault Refusal :=
  match s.due with
  | e :: es => if s.blocked e then s.turn else afterStep ({ s with due := es }.runDue e)
  | [] => s.turn

/-- The state with a word placed where the next step fetches: a strand bound in slot 0 of core 0 whose page tables map the word (log
entry 33: how a program comes to run). An instruction is one word, the least significant byte at the lowest address. -/
def State.withFetchWord (s : State) (_nbits w : Nat) : State :=
  let s := { s.switchTo 287 with
    due := [], upsets := [], walks := [], badFrames := [], dropping := [], poison := [], queues := [], copies := [], colls := [], launches := [],
    images := [] }
  let s := s.loadTables.writeBytes loadAddr (bytesOf 4 w)
  s.setThr 0 (loadedThread (BitVec.ofNat 64 loadAddr) 1#40 s.mem)

end Sys2Proof.Machine
end

