-- ==== Sys2Proof/Safety.lean ====
section
/-!
DEFINITION. What counts as a safe run, and the terms in which the statements speak: when a strand's next word is an ordinary one, what a
register and a byte of tagged storage read as, and what an instruction leaves unchanged.
-/

namespace Sys2Proof.Safety

open Sys2Proof.Machine

/-- An outcome that goes on. -/
def goesOn : Machine.Out → Bool
  | .next _ => true
  | .fault _ => false
  | .refused _ => false

/-- A state from which any number of steps goes on. -/
def Safe (s : Machine.State) : Prop := ∀ k, goesOn (core.run k s) = true

/-! ## The stepping strand -/

/-- The strand's next word is an ordinary one: it belongs to no replay and to no `rpt` group, no `ubrk` is unresolved, and no event stops it
at an element (R292). -/
structure Plain (s : State) : Prop where
  noReplay : s.thr.replaying = false
  noGroup  : s.thr.rpt = none
  resolved : s.thr.unres = []
  whole    : s.thr.stopAt = none

/-- A scalar register that the strand can read: under GENMODE = 1 a stale one would trap (R63, R133), a poisoned one is consumed (R375). -/
def Readable (s : State) (r : SReg) : Prop := (s.ucr.genmode = 0#1 ∨ s.regLive r = true) ∧ s.regBad r = false

/-- No mask register holds poison that a read would consume (R375). -/
def MasksSound (s : State) : Prop := ∀ k, s.maskBad k = false

/-- The state with the strand's program-visible registers replaced, and the strand waiting for nothing. -/
def Moved (s : State) (a : Arch) : State :=
  { s with thr := { s.thr with arch := a, rptResume := none, waiting := false, deferLog := false } }

/-- The triple after a step that falls through (R125). -/
def Fallen (t : Triple) : Triple := { pc := t.npc, npc := t.nnpc, nnpc := t.nnpc + 4#64, a0 := t.a1, a1 := t.a2, a2 := false }

/-- The triple after a taken transfer: the target stands behind the two delay slots (R125). -/
def Taken (t : Triple) (target : Word) : Triple :=
  { pc := t.npc, npc := t.nnpc, nnpc := target, a0 := t.a1, a1 := t.a2, a2 := false }

/-- The triple after a transfer that is not taken: with `n` the next two words are annulled (R125, R143). -/
def NotTaken (t : Triple) (n : Bool) : Triple :=
  { pc := t.npc, npc := t.nnpc, nnpc := t.nnpc + 4#64, a0 := t.a1 || n, a1 := t.a2 || n, a2 := false }

/-- What every register but one keeps: `t` is `s` with scalar register `rd` written with `x`, the user control registers `u` and the
triple `next`. s0 discards the write. No other register, no byte, tag or flag, no system register differs. -/
structure WroteReg (s t : State) (rd : SReg) (x : Word) (u : UserCR) (next : Triple) : Prop where
  value  : t.reg rd = if rd = 0#5 then 0#64 else x
  live   : t.regLive rd = true ∧ t.regBad rd = false
  others : ∀ r, r ≠ rd → t.reg r = s.reg r ∧ t.regLive r = s.regLive r ∧ t.regBad r = s.regBad r
  memory : ∀ a, t.byte a = s.byte a ∧ t.tag a = s.tag a
  frame  : t = Moved s { s.thr.arch with
    sreg := t.thr.arch.sreg, stag := t.thr.arch.stag, sbad := t.thr.arch.sbad, ucr := u, trip := next }

/-- The instruction runs, writes one scalar register, falls through, and changes nothing else. -/
def Gives (i : Instr) (s : State) (rd : SReg) (x : Word) : Prop :=
  ∃ t, exec i s = .next t ∧ WroteReg s t rd x s.ucr (Fallen s.trip)

/-- The instruction runs, and nothing but the triple changes. -/
def OnlyMoves (i : Instr) (s : State) (next : Triple) : Prop :=
  exec i s = .next (Moved s { s.thr.arch with trip := next })

/-! ## Vector registers, masks, the matrix tiles -/

/-- What a vector instruction that names the registers `vs` asks of the state beside its operands' tags: an ordinary word, register
numbers below the count (R47), the granted rows within a register and on whole granules (R43, R24), no poison in storage or masks. -/
structure VectorReady (s : State) (vs : List VReg) : Prop where
  plain   : Plain s
  count   : ∀ v ∈ vs, v.toNat < s.ucr.regCount
  fits    : s.thr.roff + s.ucr.elems * s.ucr.sewBytes ≤ s.ucr.capacity
  granule : s.thr.vbase % 64 = 0 ∧ s.thr.roff % 64 = 0
  sound   : s.poison = []
  masks   : MasksSound s

/-- The physical address of an element. -/
def elemAt (s : State) (v : VReg) (e : Nat) : Nat := windowAddr (coreOf s.cur) (s.vregOff v (e * s.ucr.sewBytes))

/-- Elements that a read does not trap on: GENMODE = 0, or all of them live (R63). -/
def Live (s : State) (v : VReg) (es : List Nat) : Prop := s.ucr.genmode = 0#1 ∨ ∀ e ∈ es, s.tag (elemAt s v e) = s.thr.genV

/-- The second source of format V can be read: a scalar register, or elements of a vector register (R165). -/
def SecondLive (s : State) (g : VArgs) (es : List Nat) : Prop :=
  if g.s = true then Readable s (g.vb.extractLsb' 0 5) else Live s g.vb es

/-- The second source at an element: the scalar cut to SEW, or the element of vb. -/
def second (s : State) (g : VArgs) (e : Nat) : Nat :=
  if g.s = true then (s.reg (g.vb.extractLsb' 0 5)).toNat % 2 ^ s.ucr.sew else s.elemOrZero g.vb e

/-- The strand's registers after an element-wise instruction: VSTART is 0, the flags are ORed in, the triple has fallen through. -/
def vectorEnd (s : State) (fl : Flags) : Arch :=
  { s.thr.arch with ucr := { s.ucr with vstart := 0#16, fflags := s.ucr.fflags ||| fl }, trip := Fallen s.trip }

/-- Elements `es` of register `vd` are written with `x`, cut to SEW, and stamped; every other element of vd reads as before, and no byte or
tag outside vd differs. -/
structure ElementsWritten (s t : State) (vd : VReg) (es : List Nat) (x : Nat → Nat) : Prop where
  written : ∀ e ∈ es, t.elemOrZero vd e = x e % 2 ^ s.ucr.sew ∧ t.tag (elemAt s vd e) = s.thr.genV
  kept    : ∀ e, e ∉ es → s.thr.roff + (e + 1) * s.ucr.sewBytes ≤ s.ucr.capacity → t.elemOrZero vd e = s.elemOrZero vd e
  memory  : ∀ p, (p < elemAt s vd 0 ∨ elemAt s vd 0 + s.ucr.capacity ≤ p + s.thr.roff) → t.byte p = s.byte p ∧ t.tag p = s.tag p

/-- `t` is `s` with elements of `vd` written and the strand's registers `a`, and nothing else in the state differs. -/
structure VectorResult (s t : State) (vd : VReg) (es : List Nat) (x : Nat → Nat) (a : Arch) : Prop where
  elems : ElementsWritten s t vd es x
  frame : t = Moved { s with mem := t.mem, tags := t.tags } a

/-- `t` is `s` with mask register `kd` explicit, its bits below VLEN × VROWS those of `p` and every other clear, every granule stamped
(R51), and the strand's other registers `a`. No other mask register differs. -/
structure MaskResult (s t : State) (kd : KReg) (p : Nat → Bool) (a : Arch) : Prop where
  written : t.maskReg kd = { form := .explicit ((List.range s.ucr.elems).filter p), tags := Vector.replicate 128 s.thr.genM, bad := [] }
  others  : ∀ k, k ≠ kd → t.maskReg k = s.maskReg k
  frame   : t = Moved s { a with mask := t.thr.arch.mask }

/-- A tile element as it reads, zero where its granule is stale (R200). -/
def tileSeen (s : State) (ac : Bool) (i j : Nat) : Nat :=
  let p := windowAddr (coreOf s.cur) (tileOff ac i j)
  if s.tag p = s.thr.genA then numOf (s.bytes p 4) else 0

/-- `t` is `s` with the tile elements that `w` lists written with their values at 32 bits, and the strand's registers `a`; every other
element of the accumulator reads as before, and nothing outside it differs. -/
structure TileResult (s t : State) (ac : Bool) (w : Nat → Nat → Option Nat) (a : Arch) : Prop where
  elems  : ∀ i j, i < 256 → j < 256 → tileSeen t ac i j = match w i j with
    | some x => x % 2 ^ 32
    | none => tileSeen s ac i j
  memory : ∀ p, (p < windowAddr (coreOf s.cur) (tileOff ac 0 0) ∨ windowAddr (coreOf s.cur) (tileOff ac 0 0) + 0x40000 ≤ p) →
    t.byte p = s.byte p ∧ t.tag p = s.tag p
  frame  : t = Moved { s with mem := t.mem, tags := t.tags } a

/-! ## Outcomes -/

/-- The instruction runs: what it does leaves `u`, and the triple falls through. -/
def FallsThrough (i : Instr) (s u : State) : Prop := exec i s = .next (Moved u { u.thr.arch with trip := Fallen u.trip })

/-- The instruction makes the strand wait, the state otherwise being `u`; it runs again when the strand next issues. -/
def Waits (i : Instr) (s u : State) : Prop := exec i s = .next { u with thr := { u.thr with waiting := true } }

/-- A control-thread instruction traps at itself (R135), the state otherwise being `u`. -/
def TrapsHere (i : Instr) (s u : State) (t : Trap) : Prop := exec i s = .next (u.deliverHere t 0#64)

/-- A posted instruction traps: the trap pends, the instruction heads the replay with its operands as they stood and the element where it
stopped, the control thread goes on past it (R289, R290); the state otherwise being `u`. -/
def PostsTrap (i : Instr) (s u : State) (t : Trap) : Prop :=
  let e := { s.captured i s.trip.pc with stop := u.ucr.vstart, gone := u.thr.goneStep }
  exec i s = .next { u with thr := { u.thr with
    ptrap := some ⟨t.cause, t.detail, t.value, e⟩
    replay := e :: u.thr.replay
    goneStep := false
    arch := { u.thr.arch with trip := Fallen s.trip } } }

/-! ## Memory -/

/-- Memory and the tags of on-core storage in canonical form. -/
def Canonical (s : State) : Prop := Memory.wf s.mem = true ∧ Sparse.wf 0#16 s.tags = true

/-- What a byte of tagged storage reads as under a generation: zero where its granule is stale (R63). -/
def Seen (s : State) (gen : Gen) (a : Nat) : Byte := if s.tag a = gen then s.byte a else 0#8

/-- The state as an access leaves it that only translates. -/
def translated (s : State) (va : Word) (k : Access) : State := (s.translate s.thr.asid s.thr.root s.thr.level va k).2

/-- A strand's access at an address is permitted and goes to `p`: what its translation answers (R308 to R316) the region does not refuse
(R264, R336). The translation may note a walk and take a free value; it changes nothing else. -/
def Reaches (s : State) (va : Word) (k : Access) (p : Phys) : Prop :=
  (s.translate s.thr.asid s.thr.root s.thr.level va k).1 = .ok p.pa p.attr ∧ (translated s va k).regionRefuses p.pa k = false

/-- An access meets no poison, and no stale granule of the strand's own under GENMODE = 1 (R63, R375). -/
def Loose (s : State) (pa : Nat) : Prop :=
  s.poison = [] ∧ (s.ucr.genmode = 0#1 ∨ ∀ core off, s.region pa = .window core off → s.owns core off = true → s.tag pa = s.thr.genAt off)

/-- Nothing at a place is hidden from the strand's accesses on a path: it misses no store there that is not yet performed for it (R270,
R279). -/
def Sees (s : State) (q : Path) (pa n : Nat) : Prop := ∀ e ∈ s.late, e.touches e.gen pa n = true → s.hides (s.reader q) e = false

/-- The late stores of `t` are those of `s`, each seen by whoever saw it, and perhaps by more (R273). -/
def SameLate (s t : State) : Prop :=
  t.late.length = s.late.length ∧
  ∀ (i : Nat) (e : Late), s.late[i]? = some e → ∃ seen, (∀ k ∈ e.seen, k ∈ seen) ∧ t.late[i]? = some { e with seen := seen }

/-- A state that an instruction under way may have reached from `s`: outside a part of storage that it writes every byte and tag are as they
were, and beside that only the late stores, what walks and resolutions have noted and the counter of free values differ. -/
structure Varied (s u : State) (out : Nat → Prop) : Prop where
  memory : ∀ p, out p → u.byte p = s.byte p ∧ u.tag p = s.tag p
  frame  : u = { s with mem := u.mem, tags := u.tags, late := u.late, walks := u.walks, nameCache := u.nameCache, free := u.free }

/-- The same, where what is noted on the way are the walks of the instruction's own addresses and what the name table gives, and the late
stores have only been read. -/
structure Midway (s u : State) (out : Nat → Prop) (as : List Word) : Prop where
  varied : Varied s u out
  late   : SameLate s u
  walks  : ∀ w ∈ u.walks, w ∈ s.walks ∨ ∃ x a, Varied s x out ∧ a ∈ as ∧ x.walk s.thr.asid s.thr.root a.toNat = .leaf w
  names  : ∀ e ∈ u.nameCache, e ∈ s.nameCache ∨ ∃ x, Varied s x out ∧ e.result = x.resolveTable e.asid e.name

/-- Every place outside a vector register of the strand. -/
def outsideReg (s : State) (v : VReg) (p : Nat) : Prop := p < elemAt s v 0 ∨ elemAt s v 0 + s.ucr.capacity ≤ p + s.thr.roff

/-- The strands of other slots are as they were, but that a write of another strand's storage stands in that strand's checkpoints too (R38,
R190). -/
def OthersKept (s t : State) (pa : Nat) : Prop :=
  ∀ k, k ≠ s.cur → t.getThr k = s.getThr k ∨
    (∃ core off, s.region pa = .window core off ∧ s.owns core off = false) ∧ ∃ us, t.getThr k = { s.getThr k with unres := us }

/-- The late stores after a store of `n` bytes that goes out in a way: outside the windows it stands on top, performed at once on an SO page
(R269); of the strand's own storage only a store to scratchpad can be late. -/
def LateAfter (s t : State) (w : Way) (p : Phys) (n : Nat) : Prop :=
  match s.region p.pa with
  | .window core off => s.owns core off = true → off < 0x100000 → t.late = s.late
  | _ => t.late =
      { uid := s.thr.uid, core := coreOf s.cur, launch := s.thr.launch, way := { w with so := p.attr == 1#2 }, pa := p.pa,
        old := s.bytes p.pa n, gen := 0#16, perf := if p.attr = 1#2 then [(coreOf s.cur, 5)] else [], seen := [] } :: s.late

/-- What a strand's load of `n` bytes at a place returns (R142, R190, R191): memory, its own tagged storage with stale granules as zero,
another window as a window read, a CR page, the information page. -/
def readBytes (s : State) (pa n : Nat) : List Byte :=
  match s.region pa with
  | .window core off =>
    if 0x300000 ≤ off then s.crPageRead s.thr.asid core off n
    else if s.owns core off = true then
      s.forward pa (if s.tag pa = s.thr.genAt off then s.bytes pa n else List.replicate n 0#8)
    else s.windowRead s.thr.asid core off n
  | .info => (List.range n).map fun i => s.infoByte (pa % 4096 + i)
  | _ => s.forward pa (s.bytes pa n)

/-- The generation under which a strand's write of a window lands (R64, R65, R190, R349, R377): its own, or the holder's; none where it is
dropped. -/
def storeGen (s : State) (core off : Nat) : Option Gen :=
  if s.owns core off = true then some (s.thr.genAt off)
  else if s.offline core = true then none
  else match s.holder core off with
    | some k => if s.thr.level = true ∨ (s.getThr k).asid = s.thr.asid then some ((s.getThr k).genAt off) else none
    | none => none

/-- What the strand's store of bytes at a place leaves in memory: the stored bytes and no other; in a window the granule is stamped, and
every other byte of it reads under the new tag as it read before. The bytes stand in one granule. -/
def StoredTo (s t : State) (pa : Nat) (bs : List Byte) : Prop :=
  match s.region pa with
  | .window core off =>
    match storeGen s core off with
    | some g =>
      t.tag pa = g ∧
      (∀ a, a / 64 = pa / 64 → Seen t g a = if pa ≤ a ∧ a < pa + bs.length then bs.getD (a - pa) 0#8 else Seen s g a) ∧
      ∀ a, a / 64 ≠ pa / 64 → t.byte a = s.byte a ∧ t.tag a = s.tag a
    | none => ∀ a, t.byte a = s.byte a ∧ t.tag a = s.tag a
  | _ =>
    (∀ a, t.tag a = s.tag a) ∧ ∀ a, t.byte a = if pa ≤ a ∧ a < pa + bs.length then bs.getD (a - pa) 0#8 else s.byte a

end Sys2Proof.Safety
end

