-- ==== Sys2Proof/Certificates/Slice0/Obligations.lean ====
section
/-!
DEFINITION. The statements about the model, for the provers: each is a proposition that its docstring says in words.
-/

open Sys2Proof Sys2Proof.Machine Sys2Proof.Safety

/-! ## Scalar registers, arithmetic, immediates (06 sections 6.1 to 6.3) -/

/-- What `AluInstructionsWriteTheirResult` says of one instruction. -/
def Sys2Proof.Safety.AluGives (mk : SReg → SReg → SReg → Instr) (f : Word → Word → Word) : Prop :=
  ∀ (s : State) (rd ra rb : SReg), Plain s → Readable s ra → Readable s rb → Gives (mk rd ra rb) s rd (f (s.reg ra) (s.reg rb))

/-- R137 with Table 6.2, and R78 at 64 bits: every three-register ALU instruction completes with its result in rd and falls through;
nothing else changes (`WroteReg` is the frame). -/
def Obligations.AluInstructionsWriteTheirResult : Prop :=
  AluGives .add (fun a b => BitVec.ofNat 64 (a.toNat + b.toNat)) ∧
  AluGives .sub (fun a b => BitVec.ofInt 64 ((a.toNat : Int) - b.toNat)) ∧
  AluGives .and (fun a b => a &&& b) ∧
  AluGives .or (fun a b => a ||| b) ∧
  AluGives .xor (fun a b => a ^^^ b) ∧
  AluGives .andn (fun a b => a &&& ~~~b) ∧
  AluGives .sll (fun a b => BitVec.ofNat 64 (a.toNat * 2 ^ (b.toNat % 64))) ∧
  AluGives .srl (fun a b => BitVec.ofNat 64 (a.toNat / 2 ^ (b.toNat % 64))) ∧
  AluGives .sra (fun a b => BitVec.ofInt 64 (a.toInt / 2 ^ (b.toNat % 64))) ∧
  AluGives .slt (fun a b => if a.toInt < b.toInt then 1#64 else 0#64) ∧
  AluGives .sltu (fun a b => if a.toNat < b.toNat then 1#64 else 0#64) ∧
  AluGives .min (fun a b => BitVec.ofInt 64 (min a.toInt b.toInt)) ∧
  AluGives .max (fun a b => BitVec.ofInt 64 (max a.toInt b.toInt)) ∧
  AluGives .minu (fun a b => BitVec.ofNat 64 (min a.toNat b.toNat)) ∧
  AluGives .maxu (fun a b => BitVec.ofNat 64 (max a.toNat b.toNat)) ∧
  AluGives .mul (fun a b => BitVec.ofNat 64 (a.toNat * b.toNat)) ∧
  AluGives .mulh (fun a b => BitVec.ofInt 64 (a.toInt * b.toInt / 2 ^ 64)) ∧
  AluGives .mulhu (fun a b => BitVec.ofNat 64 (a.toNat * b.toNat / 2 ^ 64)) ∧
  AluGives .div (fun a b => if b.toInt = 0 then -1#64 else BitVec.ofInt 64 (a.toInt.tdiv b.toInt)) ∧
  AluGives .divu (fun a b => if b.toNat = 0 then BitVec.ofNat 64 (2 ^ 64 - 1) else BitVec.ofNat 64 (a.toNat / b.toNat)) ∧
  AluGives .rem (fun a b => if b.toInt = 0 then a else BitVec.ofInt 64 (a.toInt - b.toInt * a.toInt.tdiv b.toInt)) ∧
  AluGives .remu (fun a b => if b.toNat = 0 then a else BitVec.ofNat 64 (a.toNat % b.toNat))

/-- R137, Table 6.2, the one-source instructions: each completes with its count in rd, and nothing else changes. -/
def Obligations.CountInstructionsCountBits : Prop :=
  ∀ (s : State) (rd ra : SReg), Plain s → Readable s ra →
    (∃ n, Gives (.clz rd ra) s rd (BitVec.ofNat 64 n) ∧
      (if s.reg ra = 0#64 then n = 64 else n < 64 ∧ 2 ^ (63 - n) ≤ (s.reg ra).toNat ∧ (s.reg ra).toNat < 2 ^ (64 - n))) ∧
    (∃ n, Gives (.ctz rd ra) s rd (BitVec.ofNat 64 n) ∧
      (if s.reg ra = 0#64 then n = 64 else n < 64 ∧ 2 ^ n ∣ (s.reg ra).toNat ∧ ¬2 ^ (n + 1) ∣ (s.reg ra).toNat)) ∧
    Gives (.popc rd ra) s rd (BitVec.ofNat 64 ((List.range 64).filter fun i => (s.reg ra).getLsbD i).length)

/-- What `ImmediateInstructionsWriteTheirResult` says of one instruction. -/
def Sys2Proof.Safety.ImmGives (mk : SReg → SReg → BitVec 16 → Instr) (f : Word → BitVec 16 → Word) : Prop :=
  ∀ (s : State) (rd ra : SReg) (x : BitVec 16), Plain s → Readable s ra → Gives (mk rd ra x) s rd (f (s.reg ra) x)

/-- R138 with Table 6.4: every immediate instruction but `lins` completes with its result in rd; they set no flag. -/
def Obligations.ImmediateInstructionsWriteTheirResult : Prop :=
  ImmGives .addi (fun a x => BitVec.ofInt 64 (a.toNat + x.toInt)) ∧
  ImmGives .andi (fun a x => a &&& BitVec.ofNat 64 x.toNat) ∧
  ImmGives .ori (fun a x => a ||| BitVec.ofNat 64 x.toNat) ∧
  ImmGives .xori (fun a x => a ^^^ BitVec.ofNat 64 x.toNat) ∧
  ImmGives .slti (fun a x => if a.toInt < x.toInt then 1#64 else 0#64) ∧
  ImmGives .sltiu (fun a x => if a.toNat < (BitVec.ofInt 64 x.toInt).toNat then 1#64 else 0#64) ∧
  (∀ (s : State) (rd ra : SReg) (n : BitVec 6), Plain s → Readable s ra →
    Gives (.slli rd ra n) s rd (BitVec.ofNat 64 ((s.reg ra).toNat * 2 ^ n.toNat)) ∧
    Gives (.srli rd ra n) s rd (BitVec.ofNat 64 ((s.reg ra).toNat / 2 ^ n.toNat)) ∧
    Gives (.srai rd ra n) s rd (BitVec.ofInt 64 ((s.reg ra).toInt / 2 ^ n.toNat))) ∧
  (∀ (s : State) (rd : SReg) (x : BitVec 16), Plain s →
    Gives (.addpc rd x) s rd (BitVec.ofInt 64 (s.trip.pc.toNat + x.toInt * 4)))

/-- R139: `lins` writes one slot of rd, merges the rest (zero where rd was stale), traps at no stale one, and stamps rd. -/
def Obligations.LinsMergesOneSlot : Prop :=
  ∀ (s : State) (rd : SReg) (slot : BitVec 2) (x : BitVec 16), Plain s → s.regBad rd = false →
    ∃ y : Word, Gives (.lins rd slot x) s rd y ∧
      ∀ b, b < 64 → y.getLsbD b =
        if 16 * slot.toNat ≤ b ∧ b ≤ 16 * slot.toNat + 15 then x.getLsbD (b - 16 * slot.toNat) else (s.reg rd).getLsbD b

/-- R133, R63, R135: a stale source under GENMODE = 1 traps GENTRAP at the instruction; the value names the register with bit 63 set. -/
def Obligations.StaleScalarReadTraps : Prop :=
  ∀ (s : State) (r rd rb : SReg), Plain s → s.ucr.genmode = 1#1 → s.regLive r = false →
    let t := State.deliverHere s ⟨Cause.gentrap, 0#8, BitVec.ofNat 64 (2 ^ 63 + r.toNat)⟩ 0#64
    r ≠ 0#5 ∧
    (∀ i ∈ [Instr.add rd r rb, .sub rd r rb, .and rd r rb, .or rd r rb, .xor rd r rb, .andn rd r rb, .sll rd r rb, .srl rd r rb,
      .sra rd r rb, .slt rd r rb, .sltu rd r rb, .min rd r rb, .max rd r rb, .minu rd r rb, .maxu rd r rb, .mul rd r rb, .mulh rd r rb,
      .mulhu rd r rb, .div rd r rb, .divu rd r rb, .rem rd r rb, .remu rd r rb, .clz rd r, .ctz rd r, .popc rd r, .addi rd r 0#16,
      .ld rd r 3#4 0#12, .st rd r 3#4 0#12, .beq r rb false 0#15, .jr r], exec i s = .next t) ∧
    (Readable s rb → exec (.add rd rb r) s = .next t)

/-! ## Control transfers, strip-mining (06 sections 6.5, 6.6) -/

/-- What `BranchesTransferOnTheirCondition` says of one branch. -/
def Sys2Proof.Safety.BranchMoves (mk : SReg → SReg → Bool → BitVec 15 → Instr) (c : Word → Word → Prop) : Prop :=
  ∀ (s : State) (ra rb : SReg) (n : Bool) (off : BitVec 15), Plain s → Readable s ra → Readable s rb →
    (c (s.reg ra) (s.reg rb) →
      OnlyMoves (mk ra rb n off) s (Safety.Taken s.trip (BitVec.ofInt 64 (s.trip.pc.toNat + off.toInt * 4)))) ∧
    (¬c (s.reg ra) (s.reg rb) → OnlyMoves (mk ra rb n off) s (Safety.NotTaken s.trip n))

/-- R143 with Table 6.8 and the step of R125: the six branches. -/
def Obligations.BranchesTransferOnTheirCondition : Prop :=
  BranchMoves .beq (fun a b => a = b) ∧
  BranchMoves .bne (fun a b => a ≠ b) ∧
  BranchMoves .blt (fun a b => a.toInt < b.toInt) ∧
  BranchMoves .bge (fun a b => b.toInt ≤ a.toInt) ∧
  BranchMoves .bltu (fun a b => a.toNat < b.toNat) ∧
  BranchMoves .bgeu (fun a b => b.toNat ≤ a.toNat)

/-- R144, R126, R112: the jumps. -/
def Obligations.JumpsTransferAndLink : Prop :=
  (∀ (s : State) (off : BitVec 26), Plain s →
    let goal := BitVec.ofInt 64 (s.trip.pc.toNat + off.toInt * 4)
    OnlyMoves (.j off) s (Safety.Taken s.trip goal) ∧
    ∃ t, exec (.jal off) s = .next t ∧ WroteReg s t 1#5 (s.trip.pc + 12#64) s.ucr (Safety.Taken s.trip goal)) ∧
  (∀ (s : State) (rd ra : SReg), Plain s → Readable s ra → (s.reg ra).toNat % 4 = 0 →
    OnlyMoves (.jr ra) s (Safety.Taken s.trip (s.reg ra)) ∧
    ∃ t, exec (.jalr rd ra) s = .next t ∧ WroteReg s t rd (s.trip.pc + 12#64) s.ucr (Safety.Taken s.trip (s.reg ra))) ∧
  (∀ (s : State) (rd ra : SReg), Plain s → Readable s ra → (s.reg ra).toNat % 4 ≠ 0 →
    let t := State.deliverHere s ⟨Cause.align, 2#8, s.reg ra⟩ 0#64
    exec (.jr ra) s = .next t ∧ exec (.jalr rd ra) s = .next t)

/-- R147 with R44, R146, R160: one `smine`. -/
def Obligations.SmineConsumesAGrant : Prop :=
  ∀ (s : State) (rc : SReg) (pm : BitVec 4) (row n : Bool) (off : BitVec 15), Plain s → Readable s rc →
    (∀ i < 4, pm.getLsbD i → Readable s (BitVec.ofNat 5 (24 + i))) →
    let g := if row then s.ucr.vrows.toNat else s.ucr.vlen.toNat
    let rem := (s.reg rc).toNat - g
    let qr := s.thr.arch.qrows.toNat
    let ql := s.thr.arch.qlen.toNat
    let grant := if row then s.grantFor (min rem qr) ql s.ucr.sewBytes else s.grantFor qr (min rem ql) s.ucr.sewBytes
    ∃ t, exec (.smine rc pm row n off) s = .next t ∧
      (rc ≠ 0#5 → (∀ i < 4, pm.getLsbD i → rc ≠ BitVec.ofNat 5 (24 + i)) → t.reg rc = BitVec.ofNat 64 rem) ∧
      (∀ i < 4, pm.getLsbD i →
        let p := BitVec.ofNat 5 (24 + i)
        t.reg p = (if p = rc then BitVec.ofNat 64 rem else s.reg p) +
          BitVec.ofNat 64 g * (s.ucr.pstep.extractLsb' (8 * i) 8).signExtend 64) ∧
      (∀ r, r ≠ rc → (∀ i < 4, pm.getLsbD i → r ≠ BitVec.ofNat 5 (24 + i)) → t.reg r = s.reg r ∧ t.regLive r = s.regLive r ∧ t.regBad r = s.regBad r) ∧
      (∀ a, t.byte a = s.byte a ∧ t.tag a = s.tag a) ∧
      t = Moved s { s.thr.arch with
        sreg := t.thr.arch.sreg, stag := t.thr.arch.stag, sbad := t.thr.arch.sbad
        ucr := { s.ucr with vlen := BitVec.ofNat 9 grant.1, vrows := BitVec.ofNat 9 grant.2, vstart := 0#16 }
        trip := if rem ≠ 0 then Safety.Taken s.trip (BitVec.ofInt 64 (s.trip.pc.toNat + off.toInt * 4)) else Safety.NotTaken s.trip n }

/-! ## Vector integer and float instructions (07 sections 7.3, 7.4) -/

/-- What `VectorIntegersComputeEachElement` says of an instruction of two sources: `f` on the active elements of va, the second source and,
where it is read, vd, at the width SEW. -/
def Sys2Proof.Safety.IntElements (mk : VArgs → Instr) (readsD : Bool) (f : (w : Nat) → BitVec w → BitVec w → BitVec w → BitVec w) : Prop :=
  ∀ (s : State) (g : VArgs), VectorReady s (vargsRegs g) →
    let es := s.active (kmReg g.km)
    let w := s.ucr.sew
    SecondLive s g es → Live s g.va es → (readsD = true → Live s g.vd es) →
    ∃ t, exec (mk g) s = .next t ∧
      VectorResult s t g.vd es
        (fun e => (f w (BitVec.ofNat w (s.elemOrZero g.va e)) (BitVec.ofNat w (second s g e)) (BitVec.ofNat w (s.elemOrZero g.vd e))).toNat)
        (vectorEnd s 0#5)

/-- The same of an instruction of one source. -/
def Sys2Proof.Safety.IntElements1 (mk : V1Args → Instr) (f : (w : Nat) → BitVec w → BitVec w) : Prop :=
  ∀ (s : State) (g : V1Args), VectorReady s [g.vd, g.va] →
    let es := s.active (kmReg g.km)
    let w := s.ucr.sew
    Live s g.va es →
    ∃ t, exec (mk g) s = .next t ∧
      VectorResult s t g.vd es (fun e => (f w (BitVec.ofNat w (s.elemOrZero g.va e))).toNat) (vectorEnd s 0#5)

/-- A sum or difference clamped to the signed range of a width. -/
def Sys2Proof.Safety.saturated (w : Nat) (x : Int) : BitVec w := BitVec.ofInt w (max (-(2 ^ (w - 1))) (min (2 ^ (w - 1) - 1) x))

/-- R165, R167, R169 with Table 7.5, R78: the integer families. -/
def Obligations.VectorIntegersComputeEachElement : Prop :=
  IntElements .vadd false (fun _ a b _ => a + b) ∧
  IntElements .vsub false (fun _ a b _ => a - b) ∧
  IntElements .vrsub false (fun _ a b _ => b - a) ∧
  IntElements .vmul false (fun _ a b _ => a * b) ∧
  IntElements .vmulh false (fun w a b _ => BitVec.ofInt w (a.toInt * b.toInt / 2 ^ w)) ∧
  IntElements .vmulhu false (fun w a b _ => BitVec.ofNat w (a.toNat * b.toNat / 2 ^ w)) ∧
  IntElements .vdiv false (fun w a b _ => if b.toNat = 0 then BitVec.ofInt w (-1) else BitVec.ofInt w (a.toInt.tdiv b.toInt)) ∧
  IntElements .vdivu false (fun w a b _ => if b.toNat = 0 then BitVec.ofNat w (2 ^ w - 1) else BitVec.ofNat w (a.toNat / b.toNat)) ∧
  IntElements .vrem false (fun w a b _ => if b.toNat = 0 then a else BitVec.ofInt w (a.toInt - b.toInt * a.toInt.tdiv b.toInt)) ∧
  IntElements .vremu false (fun w a b _ => if b.toNat = 0 then a else BitVec.ofNat w (a.toNat % b.toNat)) ∧
  IntElements .vmin false (fun w a b _ => BitVec.ofInt w (min a.toInt b.toInt)) ∧
  IntElements .vmax false (fun w a b _ => BitVec.ofInt w (max a.toInt b.toInt)) ∧
  IntElements .vminu false (fun w a b _ => BitVec.ofNat w (min a.toNat b.toNat)) ∧
  IntElements .vmaxu false (fun w a b _ => BitVec.ofNat w (max a.toNat b.toNat)) ∧
  IntElements .vand false (fun _ a b _ => a &&& b) ∧
  IntElements .vor false (fun _ a b _ => a ||| b) ∧
  IntElements .vxor false (fun _ a b _ => a ^^^ b) ∧
  IntElements .vandn false (fun _ a b _ => a &&& ~~~b) ∧
  IntElements .vsll false (fun w a b _ => BitVec.ofNat w (a.toNat * 2 ^ (b.toNat % w))) ∧
  IntElements .vsrl false (fun w a b _ => BitVec.ofNat w (a.toNat / 2 ^ (b.toNat % w))) ∧
  IntElements .vsra false (fun w a b _ => BitVec.ofInt w (a.toInt / 2 ^ (b.toNat % w))) ∧
  IntElements .vsadd false (fun w a b _ => saturated w (a.toInt + b.toInt)) ∧
  IntElements .vssub false (fun w a b _ => saturated w (a.toInt - b.toInt)) ∧
  IntElements .vsaddu false (fun w a b _ => BitVec.ofNat w (min (2 ^ w - 1) (a.toNat + b.toNat))) ∧
  IntElements .vssubu false (fun w a b _ => BitVec.ofNat w (a.toNat - b.toNat)) ∧
  IntElements .vmacc true (fun _ a b d => d + a * b) ∧
  IntElements .vnmsac true (fun _ a b d => d - a * b) ∧
  IntElements .vabsd false (fun w a b _ => BitVec.ofNat w (a.toInt - b.toInt).natAbs) ∧
  IntElements .vmulq false (fun w a b _ => saturated w ((a.toInt * b.toInt + 2 ^ (w - 2)) / 2 ^ (w - 1))) ∧
  IntElements1 .vclz (fun w a => BitVec.ofNat w ((List.range w).takeWhile fun i => !a.getLsbD (w - 1 - i)).length) ∧
  IntElements1 .vpopc (fun w a => BitVec.ofNat w ((List.range w).filter fun i => a.getLsbD i).length) ∧
  (∀ (s : State) (g : VArgs), VectorReady s (vargsRegs g) →
    let es := (List.range s.ucr.elems).filter fun e => decide (s.ucr.vstart.toNat ≤ e)
    SecondLive s g es → Live s g.va es →
    ∃ t, exec (.vmerge g) s = .next t ∧
      VectorResult s t g.vd es (fun e => if s.maskBit (kmReg g.km) e = true then second s g e else s.elemOrZero g.va e) (vectorEnd s 0#5))

/-- The float format in force (R71): F32 at e32, F16 or W16 at e16. -/
def Sys2Proof.Safety.FloatShape (s : State) (fmt : FFmt) : Prop :=
  (s.ucr.vsew = 2#2 ∧ fmt = .f32) ∨ (s.ucr.vsew = 1#2 ∧ s.ucr.vfmt = 0#1 ∧ fmt = .f16) ∨ (s.ucr.vsew = 1#2 ∧ s.ucr.vfmt = 1#1 ∧ fmt = .w16)

/-- Flags ORed over elements (R74). -/
def Sys2Proof.Safety.orAll (es : List Nat) (f : Nat → Flags) : Flags := es.foldl (fun acc e => acc ||| f e) 0#5

/-- What `VectorFloatsComputeEachElement` says of an instruction of two sources: `f` on the active elements under the rounding mode. -/
def Sys2Proof.Safety.FloatElements (mk : VArgs → Instr) (rounds readsD : Bool) (f : FFmt → RM → Nat → Nat → Nat → FRes) : Prop :=
  ∀ (s : State) (g : VArgs) (fmt : FFmt) (rm : RM), VectorReady s (vargsRegs g) → FloatShape s fmt →
    (rounds = true → RM.ofCode s.ucr.frm = some rm) →
    let es := s.active (kmReg g.km)
    let r := fun e => f fmt rm (s.elemOrZero g.va e) (second s g e) (s.elemOrZero g.vd e)
    SecondLive s g es → Live s g.va es → (readsD = true → Live s g.vd es) →
    ∃ t, exec (mk g) s = .next t ∧ VectorResult s t g.vd es (fun e => (r e).bits) (vectorEnd s (orAll es fun e => (r e).flags))

/-- The same of an instruction of one source. -/
def Sys2Proof.Safety.FloatElements1 (mk : V1Args → Instr) (rounds : Bool) (f : FFmt → RM → Nat → FRes) : Prop :=
  ∀ (s : State) (g : V1Args) (fmt : FFmt) (rm : RM), VectorReady s [g.vd, g.va] → FloatShape s fmt →
    (rounds = true → RM.ofCode s.ucr.frm = some rm) →
    let es := s.active (kmReg g.km)
    let r := fun e => f fmt rm (s.elemOrZero g.va e)
    Live s g.va es →
    ∃ t, exec (mk g) s = .next t ∧ VectorResult s t g.vd es (fun e => (r e).bits) (vectorEnd s (orAll es fun e => (r e).flags))

/-- R165, R170, R71, R79, R171, R226 with Table 7.7: the float families, the special functions, `vfcls`, `vexpd`. -/
def Obligations.VectorFloatsComputeEachElement : Prop :=
  FloatElements .vfadd true false (fun f rm a b _ => f.addVal rm (f.decode a) (f.decode b)) ∧
  FloatElements .vfsub true false (fun f rm a b _ => f.addVal rm (f.decode a) (f.decode b).negate) ∧
  FloatElements .vfmul true false (fun f rm a b _ => f.mul rm a b) ∧
  FloatElements .vfdiv true false (fun f rm a b _ => f.divVal rm (f.decode a) (f.decode b)) ∧
  FloatElements .vfma true true (fun f rm a b d => f.fmaVal rm (f.decode a) (f.decode b) (f.decode d)) ∧
  FloatElements .vfms true true (fun f rm a b d => f.fmaVal rm (f.decode a) (f.decode b) (f.decode d).negate) ∧
  FloatElements .vfnma true true (fun f rm a b d => f.addVal rm (f.decode d) (mulVal (f.decode a) (f.decode b)).negate) ∧
  FloatElements .vfmin false false (fun f _ a b _ => f.minMax false a b) ∧
  FloatElements .vfmax false false (fun f _ a b _ => f.minMax true a b) ∧
  FloatElements .vfsgnj false false (fun f _ a b _ => ⟨a % 2 ^ (f.width - 1) + (if b.testBit (f.width - 1) then 2 ^ (f.width - 1) else 0), 0#5⟩) ∧
  FloatElements .vfsgnjn false false (fun f _ a b _ => ⟨a % 2 ^ (f.width - 1) + (if b.testBit (f.width - 1) then 0 else 2 ^ (f.width - 1)), 0#5⟩) ∧
  FloatElements .vfsgnjx false false (fun f _ a b _ =>
    ⟨a % 2 ^ (f.width - 1) + (if a.testBit (f.width - 1) = b.testBit (f.width - 1) then 0 else 2 ^ (f.width - 1)), 0#5⟩) ∧
  FloatElements .vexpd true false (fun f rm a b _ => f.exp2Val rm (subVal (f.decode a) (f.decode b))) ∧
  FloatElements1 .vfsqrt true FFmt.sqrt ∧
  FloatElements1 .vfrcp true (fun f rm a => f.divVal rm (.fin false 1 0) (f.decode a)) ∧
  FloatElements1 .vfrsq true FFmt.rsqrt ∧
  FloatElements1 .vfexp2 true (fun f rm a => f.exp2Val rm (f.decode a)) ∧
  FloatElements1 .vflog2 true FFmt.log2 ∧
  FloatElements1 .vfsigm true FFmt.sigm ∧
  FloatElements1 .vftanh true FFmt.tanh ∧
  FloatElements1 .vfcls false (fun f _ a => ⟨f.classify a, 0#5⟩)

/-- `n` is what Table 3.4 makes of a magnitude y, where y^k = p / d: the multiples of a half are compared with y. -/
def Sys2Proof.Safety.Nearest (rm : RM) (neg : Bool) (k p d n : Nat) : Prop :=
  let below := fun c => c ^ k * d < 2 ^ k * p
  let at_ := fun c => c ^ k * d = 2 ^ k * p
  let down := (below (2 * n) ∨ at_ (2 * n)) ∧ ¬below (2 * n + 2) ∧ ¬at_ (2 * n + 2)
  let up := n = 0 ∧ p = 0 ∨ 0 < n ∧ below (2 * n - 2) ∧ ¬below (2 * n)
  match rm with
  | .rne => (n = 0 ∨ below (2 * n - 1) ∨ at_ (2 * n - 1)) ∧ ¬below (2 * n + 1) ∧ (0 < n ∧ at_ (2 * n - 1) ∨ at_ (2 * n + 1) → n % 2 = 0)
  | .rmm => (n = 0 ∨ below (2 * n - 1) ∨ at_ (2 * n - 1)) ∧ ¬below (2 * n + 1) ∧ ¬at_ (2 * n + 1)
  | .rtz => down
  | .rup => if neg = true then down else up
  | .rdn => if neg = true then up else down

/-- The largest finite value of a format, as m * 2^e (Table 3.3). -/
def Sys2Proof.Safety.largest : FFmt → Nat × Int
  | .f32 => (2 ^ 24 - 1, 104)
  | .f16 => (2 ^ 11 - 1, 5)
  | .w16 => (2 ^ 8 - 1, 120)
  | .f8a => (14, 5)
  | .f8b => (7, 13)

/-- Whether a * 2^ea < b * 2^eb. -/
def Sys2Proof.Safety.Less (a : Nat) (ea : Int) (b : Nat) (eb : Int) : Prop := a * 2 ^ (ea - eb).toNat < b * 2 ^ (eb - ea).toNat

/-- `r` is the result and the flags of one rounding (R72 to R74) of a value of the sign `neg` whose magnitude x is positive, with
x^k = a * 2^e / b; an overflow gives `past`. `E` is the exponent of x; at precision `nu` stands for x with unbounded exponent, and `n` as it is
delivered. -/
def Sys2Proof.Safety.RoundedOr (past : Nat) (f : FFmt) (rm : RM) (neg : Bool) (k a : Nat) (e : Int) (b : Nat) (r : FRes) : Prop :=
  ∃ (E : Int) (nu n : Nat),
    let p := fun (q : Int) => a * 2 ^ (e - k * q).toNat
    let d := fun (q : Int) => b * 2 ^ (k * q - e).toNat
    let emin : Int := 1 - f.bias
    let q0 := E - f.fb
    let q := max q0 (emin - f.fb)
    let above := Less (largest f).1 (largest f).2 nu q0
    let tiny := Less nu q0 1 emin
    let exact := n ^ k * d q = p q
    d E ≤ p E ∧ p (E + 1) < d (E + 1) ∧ Nearest rm neg k (p q0) (d q0) nu ∧ Nearest rm neg k (p q) (d q) n ∧
    (above → r = ⟨past, Flags.of ||| Flags.nx⟩) ∧
    (¬above → f.decode r.bits = (if n = 2 ^ (f.fb + 1) then .fin neg (2 ^ f.fb) (q + 1) else .fin neg n q) ∧
      (exact → r.flags = 0#5) ∧ (¬exact → tiny → r.flags = Flags.uf ||| Flags.nx) ∧ (¬exact → ¬tiny → r.flags = Flags.nx))

/-- The same, an overflow giving what R73 says. -/
def Sys2Proof.Safety.Rounded (f : FFmt) (rm : RM) (neg : Bool) (k a : Nat) (e : Int) (b : Nat) (r : FRes) : Prop :=
  RoundedOr (f.overflow rm neg) f rm neg k a e b r

/-- A signed magnitude as an integer. -/
def Sys2Proof.Safety.signed (neg : Bool) (m : Nat) : Int := if neg then -(m : Int) else m

/-- R59, R68, R69, R70, R71, R72, R73, R74, R79, R166, R170, R171 with Tables 3.3, 3.4, 3.7, 7.7 and 7.8: the values of the encodings, one
rounding, the float operations on values, the fused multiply-add, the classes, the edge results, and the format and rounding checks of the float
families. The special functions on other values are `SpecialFunctionsRoundTheExactValue`'s. -/
def Obligations.FloatOperationsRoundOnceOrTrap : Prop :=
  (∀ (f : FFmt) (x : Nat),
    let frac := x % 2 ^ f.fb
    let ex := x / 2 ^ f.fb % 2 ^ f.eb
    let neg := decide (x / 2 ^ (f.eb + f.fb) % 2 = 1)
    let top := 2 ^ f.eb - 1
    (ex = 0 → f.decode x = .fin neg frac (1 - (f.bias : Int) - f.fb)) ∧
    (0 < ex → ex < top ∨ f = .f8a ∧ frac ≠ 7 → f.decode x = .fin neg (2 ^ f.fb + frac) ((ex : Int) - f.bias - f.fb)) ∧
    (f ≠ .f8a → ex = top → f.decode x = if frac = 0 then .inf neg else .nan (decide (frac < 2 ^ (f.fb - 1)))) ∧
    (f = .f8a → ex = top → frac = 7 → f.decode x = .nan false)) ∧
  (∀ (f : FFmt) (rm : RM) (neg : Bool) (m : Nat) (e : Int), 0 < m → Rounded f rm neg 1 m e 1 (f.round rm neg m e false false)) ∧
  (∀ (f : FFmt) (rm : RM) (neg : Bool),
    let away := rm = .rne ∨ rm = .rmm ∨ rm = .rup ∧ neg = false ∨ rm = .rdn ∧ neg = true
    (away → f ≠ .f8a → f.decode (f.overflow rm neg) = .inf neg) ∧ (away → f = .f8a → f.overflow rm neg = 0x7F) ∧
    (¬away → f.decode (f.overflow rm neg) = .fin neg (largest f).1 (largest f).2)) ∧
  (∀ (f : FFmt) (rm : RM) (na nb : Bool) (ma mb : Nat) (ea eb : Int),
    let e := min ea eb
    let x : Int := (if na then -1 else 1) * (ma * 2 ^ (ea - e).toNat : Nat) + (if nb then -1 else 1) * (mb * 2 ^ (eb - e).toNat : Nat)
    let r := f.addVal rm (.fin na ma ea) (.fin nb mb eb)
    (x ≠ 0 → Rounded f rm (decide (x < 0)) 1 x.natAbs e 1 r) ∧
    (x = 0 → r = ⟨if (if na = nb then na else decide (rm = .rdn)) = true then f.signBit else 0, 0#5⟩) ∧
    mulVal (.fin na ma ea) (.fin nb mb eb) = .fin (na != nb) (ma * mb) (ea + eb)) ∧
  (∀ (f : FFmt) (rm : RM) (a b d : FVal) (na nb nd : Bool) (ma mb md : Nat) (ea eb ed : Int),
    a = .fin na ma ea → b = .fin nb mb eb → d = .fin nd md ed →
    let e := min (ea + eb) ed
    let neg := na != nb
    let x := Safety.signed neg (ma * mb * 2 ^ (ea + eb - e).toNat) + Safety.signed nd (md * 2 ^ (ed - e).toNat)
    let r := f.fmaVal rm a b d
    (x ≠ 0 → Rounded f rm (decide (x < 0)) 1 x.natAbs e 1 r) ∧
    (x = 0 → r = ⟨if (if neg = nd then nd else decide (rm = .rdn)) = true then f.signBit else 0, 0#5⟩)) ∧
  (∀ (f : FFmt) (rm : RM) (a b d : FVal),
    f.fmaVal rm a b d = f.addVal rm (mulVal a b) d ∧
    ((a = .nan true ∨ b = .nan true ∨ d = .nan true) → f.fmaVal rm a b d = ⟨f.nanBits, Flags.nv⟩) ∧
    (∀ n n' e, a = .inf n ∧ b = .fin n' 0 e ∨ b = .inf n ∧ a = .fin n' 0 e → f.fmaVal rm a b d = ⟨f.nanBits, Flags.nv⟩) ∧
    ∀ n m e s, (FVal.fin n m e).negate = .fin (!n) m e ∧ (FVal.inf n).negate = .inf (!n) ∧ (FVal.nan s).negate = .nan s) ∧
  (∀ (f : FFmt) (a : Nat),
    let sign := if a / 2 ^ (f.eb + f.fb) % 2 = 1 then 8 else 0
    (∀ sig, f.decode a = .nan sig → f.classify a = (if sig = true then 5 else 4) + sign) ∧
    (∀ n, f.decode a = .inf n → f.classify a = 3 + sign) ∧
    ∀ n m e, f.decode a = .fin n m e →
      f.classify a = (if m = 0 then 0 else if a / 2 ^ f.fb % 2 ^ f.eb = 0 then 1 else 2) + sign +
        if 0 ≤ e ∨ m % 2 ^ (-e).toNat = 0 then 16 else 0) ∧
  (∀ (f : FFmt) (rm : RM) (a b : Nat) (na nb : Bool) (ma mb : Nat) (ea eb : Int), f.decode a = .fin na ma ea → f.decode b = .fin nb mb eb →
    let neg := na != nb
    let nought := f.signed neg 0
    (ma * mb ≠ 0 → Rounded f rm neg 1 (ma * mb) (ea + eb) 1 (f.mul rm a b)) ∧ (ma * mb = 0 → f.mul rm a b = ⟨nought, 0#5⟩) ∧
    (ma ≠ 0 → mb ≠ 0 → Rounded f rm neg 1 ma (ea - eb) mb (f.divVal rm (f.decode a) (f.decode b))) ∧
    (ma = 0 → mb ≠ 0 → f.divVal rm (f.decode a) (f.decode b) = ⟨nought, 0#5⟩) ∧
    (ma ≠ 0 → mb = 0 → f.divVal rm (f.decode a) (f.decode b) = ⟨f.signed neg f.infBits, Flags.dz⟩) ∧
    (ma = 0 → mb = 0 → f.divVal rm (f.decode a) (f.decode b) = ⟨f.nanBits, Flags.nv⟩) ∧
    (mb ≠ 0 → Rounded f rm nb 1 1 (-eb) mb (f.rcp rm b)) ∧
    (ma ≠ 0 → na = false → Rounded f rm false 2 ma ea 1 (f.sqrt rm a) ∧ Rounded f rm false 2 1 (-ea) ma (f.rsqrt rm a))) ∧
  (∀ (f : FFmt) (rm : RM) (n n' : Bool) (m : Nat) (e : Int) (sig : Bool) (v : FVal),
    let invalid : FRes := ⟨f.nanBits, Flags.nv⟩
    let inf := fun n => f.signed n f.infBits
    f.addVal rm (.inf n) (.inf n') = (if n = n' then ⟨inf n, 0#5⟩ else invalid) ∧ f.addVal rm (.inf n) (.fin n' m e) = ⟨inf n, 0#5⟩ ∧
    f.addVal rm (.fin n' m e) (.inf n) = ⟨inf n, 0#5⟩ ∧
    mulVal (.inf n) (.inf n') = .inf (n != n') ∧ mulVal (.inf n) (.fin n' m e) = (if m = 0 then .nan true else .inf (n != n')) ∧
    mulVal (.fin n' m e) (.inf n) = (if m = 0 then .nan true else .inf (n' != n)) ∧
    f.divVal rm (.inf n) (.inf n') = invalid ∧ f.divVal rm (.inf n) (.fin n' m e) = ⟨inf (n != n'), 0#5⟩ ∧
    f.divVal rm (.fin n' m e) (.inf n) = ⟨f.signed (n' != n) 0, 0#5⟩ ∧
    let nan := fun (x : FVal) (r : FRes) => r = ⟨f.nanBits, if sig = true ∨ x.sig = true then Flags.nv else 0#5⟩
    nan v (f.addVal rm (.nan sig) v) ∧ nan v (f.addVal rm v (.nan sig)) ∧ nan v (f.divVal rm (.nan sig) v) ∧ nan v (f.divVal rm v (.nan sig)) ∧
    mulVal (.nan sig) v = .nan (sig || v.sig) ∧ mulVal v (.nan sig) = .nan (v.sig || sig)) ∧
  (∀ (f : FFmt) (rm : RM) (a : Nat), f ≠ .f8a →
    let one := f.bias * 2 ^ f.fb
    let half := (f.bias - 1) * 2 ^ f.fb
    let invalid : FRes := ⟨f.nanBits, Flags.nv⟩
    (∀ n e, f.decode a = .fin n 0 e →
      f.rcp rm a = ⟨f.signed n f.infBits, Flags.dz⟩ ∧ f.rsqrt rm a = ⟨f.signed n f.infBits, Flags.dz⟩ ∧ f.sqrt rm a = ⟨f.signed n 0, 0#5⟩ ∧
      f.exp2 rm a = ⟨one, 0#5⟩ ∧ f.log2 rm a = ⟨f.signed true f.infBits, Flags.dz⟩ ∧ f.sigm rm a = ⟨half, 0#5⟩ ∧
      f.tanh rm a = ⟨f.signed n 0, 0#5⟩) ∧
    (∀ m e, f.decode a = .fin true m e → m ≠ 0 → f.rsqrt rm a = invalid ∧ f.sqrt rm a = invalid ∧ f.log2 rm a = invalid) ∧
    (∀ n, f.decode a = .inf n →
      f.rcp rm a = ⟨f.signed n 0, 0#5⟩ ∧ f.exp2 rm a = ⟨if n then 0 else f.infBits, 0#5⟩ ∧ f.sigm rm a = ⟨if n then 0 else one, 0#5⟩ ∧
      f.tanh rm a = ⟨f.signed n one, 0#5⟩ ∧
      (n = false → f.rsqrt rm a = ⟨0, 0#5⟩ ∧ f.sqrt rm a = ⟨f.infBits, 0#5⟩ ∧ f.log2 rm a = ⟨f.infBits, 0#5⟩)) ∧
    f.log2 rm one = ⟨0, 0#5⟩ ∧
    (∀ sig, f.decode a = .nan sig → ∀ op ∈ [FFmt.rcp, FFmt.rsqrt, FFmt.sqrt, FFmt.exp2, FFmt.log2, FFmt.sigm, FFmt.tanh],
      op f rm a = ⟨f.nanBits, if sig = true then Flags.nv else 0#5⟩)) ∧
  (∀ (f : FFmt) (a b : Nat),
    let x := f.decode a
    let y := f.decode b
    let nv : Flags := if x.sig = true ∨ y.sig = true then Flags.nv else 0#5
    (∀ isMax, x.isNan = true → y.isNan = true → f.minMax isMax a b = ⟨f.nanBits, nv⟩) ∧
    (∀ isMax, x.isNan = true → y.isNan = false → f.minMax isMax a b = ⟨b, nv⟩ ∧ f.minMax isMax b a = ⟨b, nv⟩) ∧
    ∀ na nb ma mb ea eb, x = .fin na ma ea → y = .fin nb mb eb →
      let e := min ea eb
      let p : Int := (if na then -1 else 1) * (ma * 2 ^ (ea - e).toNat : Nat)
      let q : Int := (if nb then -1 else 1) * (mb * 2 ^ (eb - e).toNat : Nat)
      (p < q ∨ p = q ∧ na = true ∧ nb = false → f.minMax false a b = ⟨a, 0#5⟩ ∧ f.minMax true a b = ⟨b, 0#5⟩) ∧
      (q < p ∨ p = q ∧ na = false ∧ nb = true → f.minMax false a b = ⟨b, 0#5⟩ ∧ f.minMax true a b = ⟨a, 0#5⟩)) ∧
  ∀ (s : State) (g : VArgs) (h : V1Args), Plain s → (∀ v ∈ vargsRegs g, v.toNat < s.ucr.regCount) →
    (∀ v ∈ [h.vd, h.va], v.toNat < s.ucr.regCount) →
    let rounding := [Instr.vfadd g, .vfsub g, .vfmul g, .vfdiv g, .vfma g, .vfms g, .vfnma g, .vexpd g, .vfsqrt h, .vfrcp h, .vfrsq h,
      .vfexp2 h, .vflog2 h, .vfsigm h, .vftanh h]
    (s.ucr.vsew = 0#2 ∨ s.ucr.vsew = 3#2 →
      ∀ i ∈ rounding ++ [.vfmin g, .vfmax g, .vfsgnj g, .vfsgnjn g, .vfsgnjx g, .vfcls h],
        PostsTrap i s s ⟨Cause.illegal, 0#8, wordValue i⟩) ∧
    (s.ucr.vsew = 1#2 ∨ s.ucr.vsew = 2#2 → 5 ≤ s.ucr.frm.toNat →
      ∀ i ∈ rounding, PostsTrap i s s ⟨Cause.illegal, 0#8, wordValue i⟩)

/-- `n` over `d` is the sum of the terms of e^(a / b) up to the `k`-th power. -/
def Sys2Proof.Safety.expSum (a b : Nat) : Nat → Nat × Nat
  | 0 => (1, 1)
  | k + 1 =>
    let s := expSum a b k
    (s.1 * ((k + 1) * b) + a ^ (k + 1), s.2 * ((k + 1) * b))

/-- e^(a / b) is at most p / q; and it is at least p / q. -/
def Sys2Proof.Safety.ExpAtMost (a b p q : Nat) : Prop := ∀ k, (expSum a b k).1 * q ≤ p * (expSum a b k).2
def Sys2Proof.Safety.ExpAtLeast (a b p q : Nat) : Prop := ∃ k, p * (expSum a b k).2 ≤ (expSum a b k).1 * q

/-- `r` is what every value from lo / 2^w to (hi + 1) / 2^w rounds to; or the enclosure is narrow and has not decided it (log entry 44). `r`
rounds the lower bound, with a rest behind it. -/
def Sys2Proof.Safety.RoundsFrom (f : FFmt) (rm : RM) (neg : Bool) (lo hi : Nat) (w : Int) (r : FRes) : Prop :=
  r = f.round rm neg lo (-w) true false ∧ lo ≤ hi ∧
  (f.round rm neg hi (-w) true false = r ∨ 2 ^ 512 ≤ lo ∧ hi ≤ lo + 2 ^ 20)

/-- A result far below the smallest subnormal (R74). -/
def Sys2Proof.Safety.vanished (rm : RM) : FRes := ⟨if rm = .rup then 1 else 0, Flags.uf ||| Flags.nx⟩

/-- R79, R226 with Table 3.7: the special functions where they have no edge result: the exact value, enclosed by rational bounds, rounded once.
A value that an enclosure of 1024 bits does not decide is rounded from its lower bound (log entry 44). -/
def Obligations.SpecialFunctionsRoundTheExactValue : Prop :=
  (∀ (f : FFmt) (rm : RM) (n : Bool) (m : Nat) (e : Int), f ≠ .f8a → m ≠ 0 →
    let r := f.exp2Val rm (.fin n m e)
    let k : Nat := 2 ^ (-e).toNat
    let large := Less 512 0 m e
    (large → r = if n = true then Safety.vanished rm else ⟨f.overflow rm false, Flags.of ||| Flags.nx⟩) ∧
    (¬large → ∀ i : Int, Safety.signed n (m * 2 ^ e.toNat) = i * k → Rounded f rm false 1 1 i 1 r) ∧
    (¬large → (∀ i : Int, Safety.signed n (m * 2 ^ e.toNat) ≠ i * k) → ∃ (lo hi : Nat) (w : Int), RoundsFrom f rm false lo hi w r ∧
      Less (lo ^ k) (-w * k) 1 (Safety.signed n m) ∧ Less 1 (Safety.signed n m) ((hi + 1) ^ k) (-w * k))) ∧
  (∀ (f : FFmt) (rm : RM) (a m l : Nat) (e : Int), f ≠ .f8a → f.decode a = .fin false m e → 2 ^ l ≤ m → m < 2 ^ (l + 1) →
    let r := f.log2 rm a
    let i := e + l
    let neg := decide (i < 0)
    (m = 2 ^ l → i = 0 → r = ⟨0, 0#5⟩) ∧
    (m = 2 ^ l → i ≠ 0 → Rounded f rm neg 1 i.natAbs 0 1 r) ∧
    (m ≠ 2 ^ l → ∃ lo hi w : Nat, RoundsFrom f rm neg lo hi w r ∧
      let x := m ^ 2 ^ w
      let ex := e * 2 ^ w
      if neg = true then Less x ex 1 (-(lo : Int)) ∧ Less 1 (-((hi + 1 : Nat) : Int)) x ex else Less 1 lo x ex ∧ Less x ex 1 ((hi + 1 : Nat) : Int))) ∧
  ∀ (f : FFmt) (rm : RM) (a : Nat) (n : Bool) (m : Nat) (e : Int), f ≠ .f8a → f.decode a = .fin n m e → m ≠ 0 →
    let t := m * 2 ^ e.toNat
    let d := 2 ^ (-e).toNat
    (n = true → Less 256 0 m e → f.sigm rm a = Safety.vanished rm) ∧
    (n = true → ¬Less 256 0 m e → ∃ lo hi w : Nat, RoundsFrom f rm false lo hi w (f.sigm rm a) ∧
      ExpAtMost t d (2 ^ w - lo) lo ∧ ExpAtLeast t d (2 ^ w - (hi + 1)) (hi + 1)) ∧
    (n = false → ∃ lo hi w : Nat, RoundsFrom f rm false lo hi w (f.sigm rm a) ∧ hi < 2 ^ w ∧
      ExpAtLeast t d lo (2 ^ w - lo) ∧ ExpAtMost t d (hi + 1) (2 ^ w - (hi + 1))) ∧
    ∃ lo hi w : Nat, RoundsFrom f rm n lo hi w (f.tanh rm a) ∧ hi < 2 ^ w ∧
      ExpAtLeast (2 * t) d (2 ^ w + lo) (2 ^ w - lo) ∧ ExpAtMost (2 * t) d (2 ^ w + (hi + 1)) (2 ^ w - (hi + 1))

/-- A comparison code of Table 7.9 on integers: no integer is unordered. -/
def Sys2Proof.Safety.compares (cc : Nat) (a b : Int) : Bool :=
  match cc with
  | 0 => decide (a = b)
  | 1 => decide (a ≠ b)
  | 2 => decide (a < b)
  | 3 => decide (a ≤ b)
  | 4 => decide (b < a)
  | 5 => decide (b ≤ a)
  | 6 => false
  | _ => true

/-- R74, R172, R173, R51 with Table 7.9. -/
def Obligations.VectorCompareWritesItsMask : Prop :=
  (∀ (f : FFmt) (cc a b : Nat), cc < 8 →
    let x := f.decode a
    let y := f.decode b
    let c := f.compare cc a b
    let unordered := x.isNan = true ∨ y.isNan = true
    let sign := fun (n : Bool) => if n = true then (-1 : Int) else 1
    (unordered → c.1 = decide (cc = 1 ∨ cc = 6)) ∧
    (c.2 = if x.sig = true ∨ y.sig = true ∨ unordered ∧ 2 ≤ cc ∧ cc ≤ 5 then Flags.nv else 0#5) ∧
    (∀ na ma ea nb mb eb, x = .fin na ma ea → y = .fin nb mb eb →
      let e := min ea eb
      c.1 = compares cc (Safety.signed na (ma * 2 ^ (ea - e).toNat)) (Safety.signed nb (mb * 2 ^ (eb - e).toNat))) ∧
    (∀ na nb, x = .inf na → y = .inf nb → c.1 = compares cc (sign na) (sign nb)) ∧
    (∀ na nb mb eb, x = .inf na → y = .fin nb mb eb → c.1 = compares cc (sign na) 0) ∧
    (∀ na ma ea nb, x = .fin na ma ea → y = .inf nb → c.1 = compares cc 0 (sign nb))) ∧
  ∀ (s : State) (kd : KReg) (cc : BitVec 4) (va vb : VReg) (sc : Bool) (km : BitVec 3),
    let g : VArgs := { vd := va, va := va, vb := vb, s := sc, ca := false, cb := false, km := km }
    let es := s.active (kmReg km)
    let w := s.ucr.sew
    let bits := fun (r : Nat → Bool) (e : Nat) =>
      if e < s.ucr.vstart.toNat ∨ s.ucr.elems ≤ s.ucr.vstart.toNat then s.maskBitAt kd 0 e else es.contains e && r e
    kd ≠ 0#4 → cc.toNat < 8 → VectorReady s (vargsRegs g) → SecondLive s g es → Live s va es →
    (∃ t, exec (.vcmp kd cc va vb sc km 0#2) s = .next t ∧
      MaskResult s t kd (bits fun e => compares cc.toNat (BitVec.ofNat w (s.elemOrZero va e)).toInt (BitVec.ofNat w (second s g e)).toInt)
        (vectorEnd s 0#5)) ∧
    (∃ t, exec (.vcmp kd cc va vb sc km 1#2) s = .next t ∧
      MaskResult s t kd (bits fun e => compares cc.toNat (s.elemOrZero va e) (second s g e)) (vectorEnd s 0#5)) ∧
    (∀ fmt, FloatShape s fmt →
      let r := fun e => fmt.compare cc.toNat (s.elemOrZero va e) (second s g e)
      ∃ t, exec (.vcmp kd cc va vb sc km 2#2) s = .next t ∧
        MaskResult s t kd (bits fun e => (r e).1) (vectorEnd s (orAll es fun e => (r e).2))) ∧
    (s.ucr.vsew = 0#2 ∨ s.ucr.vsew = 3#2 →
      PostsTrap (.vcmp kd cc va vb sc km 2#2) s s ⟨Cause.illegal, 0#8, wordValue (.vcmp kd cc va vb sc km 2#2)⟩)

/-- R174, R46, R72, R73, R74, R75, R76, R77 with Tables 3.1, 3.2, 3.4 and 3.5. -/
def Obligations.ConversionsWriteEachElement : Prop :=
  (∀ (s : State) (vd va : VReg) (rm : BitVec 3) (sat : Bool) (km : BitVec 2) (dst src : BitVec 4) (fs fd : Fmt) (mode : RM),
    let i := Instr.vcvt vd va rm sat km dst src
    let es := s.active (kmReg km)
    let r := fun e => convertElem fs fd mode sat s.ucr.sew (s.elemOrZero va e)
    Fmt.ofCode src = some fs → Fmt.ofCode dst = some fd → RM.ofCode (if rm = 7#3 then s.ucr.frm else rm) = some mode →
    VectorReady s [vd, va] →
    (fs.width ≤ s.ucr.sew → fd.width ≤ s.ucr.sew → Live s va es →
      ∃ t, exec i s = .next t ∧ VectorResult s t vd es (fun e => (r e).1) (vectorEnd s (orAll es fun e => (r e).2))) ∧
    (s.ucr.sew < fs.width ∨ s.ucr.sew < fd.width → PostsTrap i s s ⟨Cause.shape, 0#8, wordValue i⟩)) ∧
  (∀ (s : State) (vd va : VReg) (rm : BitVec 3) (sat : Bool) (km : BitVec 2) (dst src : BitVec 4), Plain s →
    src = 11#4 ∨ src = 15#4 ∨ dst = 11#4 ∨ dst = 15#4 →
    PostsTrap (.vcvt vd va rm sat km dst src) s s ⟨Cause.illegal, 0#8, wordValue (.vcvt vd va rm sat km dst src)⟩) ∧
  (∀ (sg sg' : Bool) (w w' sew x : Nat) (rm : RM) (sat : Bool), w ∈ [8, 16, 32, 64] → w' ∈ [8, 16, 32, 64] → w' ≤ sew →
    let v : Int := if sg then (BitVec.ofNat w x).toInt else (BitVec.ofNat w x).toNat
    let lo : Int := if sg' then -(2 ^ (w' - 1)) else 0
    let hi : Int := if sg' then 2 ^ (w' - 1) - 1 else 2 ^ w' - 1
    let y : BitVec w' := BitVec.ofInt w' (if sat then max lo (min hi v) else v)
    convertElem (.int sg w) (.int sg' w') rm sat sew x = (if sg' then (y.signExtend sew).toNat else y.toNat, 0#5)) ∧
  (∀ (f : FFmt) (d : Fmt) (rm : RM) (sat sg : Bool) (w sew x : Nat), (d = .int sg w ∧ w ∈ [8, 16, 32, 64]) ∨ (d = .planar ∧ sg = true ∧ w = 8) →
    w ≤ sew →
    let lo : Int := if sg then -(2 ^ (w - 1)) else 0
    let hi : Int := if sg then 2 ^ (w - 1) - 1 else 2 ^ w - 1
    let bad : Int := if sg then lo else hi
    let r := convertElem (.float f) d rm sat sew x
    let is := fun (v : Int) => r.1 = if d = .int true w then ((BitVec.ofInt w v).signExtend sew).toNat else (BitVec.ofInt w v).toNat
    let v := f.decode (x % 2 ^ f.width)
    (∀ sig, v = .nan sig → is (if sat then 0 else bad) ∧ r.2 = Flags.nv) ∧
    (∀ n, v = .inf n → is (if sat then (if n then lo else hi) else bad) ∧ r.2 = Flags.nv) ∧
    ∀ n m e, v = .fin n m e → ∃ i, Nearest rm n 1 (m * 2 ^ e.toNat) (2 ^ (-e).toNat) i ∧
      let y := Safety.signed n i
      (lo ≤ y → y ≤ hi → is y ∧ r.2 = if i * 2 ^ (-e).toNat = m * 2 ^ e.toNat then 0#5 else Flags.nx) ∧
      (y < lo → is (if sat then lo else bad) ∧ r.2 = Flags.nv) ∧ (hi < y → is (if sat then hi else bad) ∧ r.2 = Flags.nv)) ∧
  (∀ (f : FFmt) (d : Fmt) (rm : RM) (sat sg : Bool) (w sew x : Nat), (d = .int sg w ∧ w ∈ [8, 16, 32, 64]) ∨ (d = .planar ∧ sg = true ∧ w = 8) →
    let v : Int := if sg then (BitVec.ofNat w x).toInt else (BitVec.ofNat w x).toNat
    let neg := decide (v < 0)
    let past := if sat = true then (if neg = true then f.signBit + f.maxBits else f.maxBits) else f.overflow rm neg
    ∃ r : FRes, convertElem d (.float f) rm sat sew x = (r.bits, r.flags) ∧ (v = 0 → r = ⟨0, 0#5⟩) ∧
      (v ≠ 0 → RoundedOr past f rm neg 1 v.natAbs 0 1 r)) ∧
  ∀ (f g : FFmt) (rm : RM) (sat : Bool) (sew x : Nat),
    let a := x % 2 ^ f.width
    let r := convertElem (.float f) (.float g) rm sat sew x
    let sign := fun (n : Bool) (b : Nat) => if n = true then g.signBit + b else b
    (∀ sig, f.decode a = .nan sig → f ≠ g ∨ sig = true → r = (g.nanBits, if sig = true then Flags.nv else 0#5)) ∧
    (f = g → f.decode a ≠ .nan true → r = (a, 0#5)) ∧
    (f ≠ g → ∀ n, f.decode a = .inf n →
      r = if g ≠ .f8a then (sign n g.infBits, 0#5) else if sat = true then (sign n g.maxBits, Flags.of ||| Flags.nx) else (g.nanBits, Flags.nv)) ∧
    (f ≠ g → ∀ n e, f.decode a = .fin n 0 e → r = (sign n 0, 0#5)) ∧
    (f ≠ g → ∀ n m e, f.decode a = .fin n m e → m ≠ 0 →
      RoundedOr (if sat = true then sign n g.maxBits else g.overflow rm n) g rm n 1 m e 1 ⟨r.1, r.2⟩)

/-! ## Reductions, permutations, masks (07 section 7.7, 08 sections 8.1, 8.2) -/

/-- The elements that a reduction takes, in order: those that the mask sets, whatever VSTART (R176), of all rows or of one. -/
def Sys2Proof.Safety.reduced (s : State) (g : VArgs) (row : Nat) : List Nat :=
  (List.range s.ucr.elems).filter fun e => s.maskBit (kmReg g.km) e && (!g.s || e / s.ucr.vlen.toNat == row)

/-- What `ReductionsWriteTheirResult` says of a reduction, `t` standing for the state in which all but registers is as after it: `red` takes
the initial value and the sequence of positions and elements, and gives the result and its flags. In the whole form element 0 is written,
in the per-row form element 0 of each row. -/
def Sys2Proof.Safety.Reduces (i : Instr) (g : VArgs) (s t : State) (red : Nat → List (Nat × Nat) → Nat × Flags) : Prop :=
  let rows := if s.ucr.elems = 0 then [] else if g.s = true then List.range s.ucr.vrows.toNat else [0]
  let r := fun row => red (s.elemOrZero g.vb 0) ((reduced s g row).map fun e => (e - row * s.ucr.vlen.toNat, s.elemOrZero g.va e))
  VectorReady s [g.vd, g.va, g.vb] → Live s g.vb [0] → (∀ row ∈ rows, Live s g.va (reduced s g row)) →
  ∃ u, exec i s = .next u ∧
    VectorResult t u g.vd (rows.map fun row => row * s.ucr.vlen.toNat) (fun e => (r (e / s.ucr.vlen.toNat)).1)
      (vectorEnd t (orAll rows fun row => (r row).2))

/-- An integer reduction by an operation at SEW; it sets no flag. -/
def Sys2Proof.Safety.IntReduces (mk : VArgs → Instr) (f : (w : Nat) → BitVec w → BitVec w → BitVec w) : Prop :=
  ∀ (s : State) (g : VArgs),
    let w := s.ucr.sew
    Reduces (mk g) g s s fun init xs => ((xs.foldl (fun acc x => f w acc (BitVec.ofNat w x.2)) (BitVec.ofNat w init)).toNat, 0#5)

/-- The node of a pairwise tree: `n` levels above the leaves, the `i`-th of its level (Table 3.11). -/
def Sys2Proof.Safety.treeNode (join : Node → Node → Node) (leaf : Nat → Node) : Nat → Nat → Node
  | 0, i => leaf i
  | n + 1, i => join (treeNode join leaf n (2 * i)) (treeNode join leaf n (2 * i + 1))

/-- R175, R176, R177, R89, R90, R92, R132, R369 with Tables 3.11 and 7.11. That `vfredo` with a signalling NaN as its initial value and no active
element sets no flag is the model's choice (log entry 57). -/
def Obligations.ReductionsWriteTheirResult : Prop :=
  IntReduces .vredsum (fun _ a b => a + b) ∧
  IntReduces .vredmax (fun w a b => BitVec.ofInt w (max a.toInt b.toInt)) ∧
  IntReduces .vredmin (fun w a b => BitVec.ofInt w (min a.toInt b.toInt)) ∧
  IntReduces .vredor (fun _ a b => a ||| b) ∧
  IntReduces .vredand (fun _ a b => a &&& b) ∧
  (∀ (s : State) (g : VArgs) (fmt : FFmt), FloatShape s fmt →
    Reduces (.vfredmax g) g s s (floatExtreme fmt true) ∧
    Reduces (.vfredmin g) g s s (floatExtreme fmt false) ∧
    (s.ucr.rmode.getLsbD 0 = true → Reduces (.vfredsum g) g s s (floatSum fmt .rne true)) ∧
    (∀ rm, s.ucr.rmode.getLsbD 0 = false → RM.ofCode s.ucr.frm = some rm → Reduces (.vfredsum g) g s s (floatSum fmt rm false))) ∧
  (∀ (s : State) (vd va vb : SReg) (km : BitVec 3) (fmt : FFmt), FloatShape s fmt →
    let g : VArgs := { vd := vd.setWidth 6, va := va.setWidth 6, vb := vb.setWidth 6, s := false, ca := false, cb := false, km := km }
    Reduces (.vfredo vd va vb km) g s
      { s with
        thr := { s.thr with arch := { s.thr.arch with ucr := { s.ucr with retcnt := s.ucr.retcnt + 1#64 } } }
        mod := { s.mod with rcVfredo := s.mod.rcVfredo + 1#64 } }
      fun init xs => addBlocks fmt init (xs.map fun x => some (x.2, 0#5))) ∧
  (∀ (fmt : FFmt) (rm : RM) (x y : Nat) (f g : Flags),
    joinNodes fmt rm (some (x, f)) (some (y, g)) = some ((fmt.add rm x y).bits, f ||| g ||| (fmt.add rm x y).flags) ∧
    joinNodes fmt rm (some (x, f)) none = some (x, f) ∧ joinNodes fmt rm none (some (y, g)) = some (y, g) ∧ joinNodes fmt rm none none = none) ∧
  (∀ (fmt : FFmt) (rm : RM) (init : Nat) (xs : List (Nat × Nat)),
    let lane := fun l => (xs.filter fun p => p.1 % 128 == l).foldl (fun acc p => joinNodes fmt rm acc (some (p.2, 0#5))) none
    let nv : Flags := if (fmt.decode init).sig = true then Flags.nv else 0#5
    let r := joinNodes fmt rm (some (init, 0#5)) (treeNode (joinNodes fmt rm) lane 7 0)
    some (floatSum fmt rm false init xs) = r.map fun x => (x.1, x.2 ||| nv)) ∧
  (∀ (fmt : FFmt) (init : Nat) (xs : List (Nat × Nat)) (rm : RM) (blocks : Nat), (∀ p ∈ xs, p.1 < 32 * blocks) →
    (xs.Pairwise fun p q => p.1 < q.1) →
    let leaf := fun e => (xs.find? fun p => p.1 == e).map fun p => (p.2, 0#5)
    let block := fun b => treeNode (joinNodes fmt .rne) (fun i => leaf (32 * b + i)) 5 0
    let nv : Flags := if (fmt.decode init).sig = true then Flags.nv else 0#5
    let r := (List.range blocks).foldl (fun acc b => joinNodes fmt .rne acc (block b)) (some (init, 0#5))
    some (floatSum fmt rm true init xs) = r.map fun x => (x.1, x.2 ||| nv)) ∧
  (∀ (fmt : FFmt) (isMax : Bool) (init : Nat) (xs : List (Nat × Nat)) (x : Nat × Nat),
    let r := floatExtreme fmt isMax init xs
    let m := fmt.minMax isMax r.1 x.2
    floatExtreme fmt isMax init [] = (init, if (fmt.decode init).sig = true then Flags.nv else 0#5) ∧
    floatExtreme fmt isMax init (xs ++ [x]) = (m.bits, r.2 ||| m.flags)) ∧
  (∀ (fmt : FFmt) (init : Nat) (bs : List Node) (x : Nat) (f : Flags),
    let r := addBlocks fmt init bs
    addBlocks fmt init [] = (init, 0#5) ∧ addBlocks fmt init (bs ++ [none]) = r ∧
    addBlocks fmt init (bs ++ [some (x, f)]) = ((fmt.add .rne r.1 x).bits, r.2 ||| f ||| (fmt.add .rne r.1 x).flags))

/-- Where a permutation takes an element of vd from: an element of va, a constant, or nowhere, the element keeping its value. -/
inductive Sys2Proof.Safety.Source where
  | elem (j : Nat)
  | const (x : Nat)
  | keep
  deriving DecidableEq, Repr

/-- What `PermutationsMoveElements` says of one instruction: `es` are its elements, `pick` where each comes from. -/
def Sys2Proof.Safety.Permutes (i : Instr) (s : State) (vd : VReg) (vs : List VReg) (va : VReg) (es : List Nat) (pick : Nat → Source) : Prop :=
  VectorReady s (vd :: vs) → (∀ e ∈ es, ∀ j, pick e = .elem j → Live s va [j]) →
  ∃ t, exec i s = .next t ∧
    VectorResult s t vd (es.filter fun e => pick e != .keep)
      (fun e => match pick e with
        | .elem j => s.elemOrZero va j
        | .const x => x
        | .keep => 0)
      (vectorEnd s 0#5)

/-- R180, R181, R182 with Table 8.2. -/
def Obligations.PermutationsMoveElements : Prop :=
  ∀ (s : State) (vd va vb : VReg) (r : SReg) (ka k : KReg),
    let es := s.activeFrom k 0
    let x := (s.reg r).toNat
    let len := s.ucr.vlen.toNat
    Permutes (.vmv vd va k) s vd [va] va (s.active k) .elem ∧
    Permutes (.vid vd k) s vd [] va (s.active k) .const ∧
    (Readable s r →
      Permutes (.vmvs vd r k) s vd [] va (s.active k) (fun _ => .const x) ∧
      Permutes (.vslideup vd va r k) s vd [va] va es (fun e => if e % len < x then .keep else .elem (e - x)) ∧
      Permutes (.vslidedn vd va r k) s vd [va] va es (fun e => if e % len + x < len then .elem (e + x) else .const 0) ∧
      Permutes (.vslide1up vd va r k) s vd [va] va es (fun e => if e % len = 0 then .const x else .elem (e - 1)) ∧
      Permutes (.vslide1dn vd va r k) s vd [va] va es (fun e => if e % len + 1 = len then .const x else .elem (e + 1)) ∧
      Permutes (.vrowbc vd va r k) s vd [va] va es
        (fun e => if x < s.ucr.vrows.toNat then .elem (x * len + e % len) else .const 0)) ∧
    (Live s vb es →
      Permutes (.vgather vd va vb k) s vd [va, vb] va es
        (fun e => if s.elemOrZero vb e < s.ucr.elems then .elem (s.elemOrZero vb e) else .const 0)) ∧
    (Live s va es → VectorReady s [vd, va] → ∃ t, exec (.vcompress vd va k) s = .next t ∧
      VectorResult s t vd (List.range es.length) (fun j => s.elemOrZero va (es.getD j 0)) (vectorEnd s 0#5)) ∧
    Permutes (.vexpand vd va k) s vd [va] va es (fun e => .elem (es.idxOf e)) ∧
    Permutes (.viota vd ka k) s vd [] va es (fun e => .const ((List.range e).filter fun j => s.maskBit ka j && s.maskBit k j).length) ∧
    (s.ucr.vlen = s.ucr.vrows →
      Permutes (.vtrans vd va k) s vd [va] va es (fun e => .elem (e % len * len + e / len))) ∧
    (s.ucr.vlen ≠ s.ucr.vrows → VectorReady s [vd, va] →
      PostsTrap (.vtrans vd va k) s s ⟨Cause.shape, 0#8, wordValue (.vtrans vd va k)⟩)

/-- R180, R183, R12, R63, R289. -/
def Obligations.VmvxReadsOneElement : Prop :=
  ∀ (s : State) (rd : SReg) (va : VReg) (rb : SReg), VectorReady s [va] → Readable s rb →
    let x := (s.reg rb).toNat
    (x < s.ucr.elems → Live s va [x] → Gives (.vmvx rd va rb) s rd (BitVec.ofInt 64 (BitVec.ofNat s.ucr.sew (s.elemOrZero va x)).toInt)) ∧
    (s.ucr.elems ≤ x → Gives (.vmvx rd va rb) s rd 0#64) ∧
    (x < s.ucr.elems → ¬Live s va [x] →
      PostsTrap (.vmvx rd va rb) s s ⟨Cause.gentrap, 0#8, BitVec.ofNat 64 (s.vregOff va (x * s.ucr.sewBytes))⟩)

/-- R184, R51, R50 with Table 8.4. -/
def Obligations.MaskInstructionsWriteTheirRow : Prop :=
  ∀ (s : State) (kd ka kb : KReg), Plain s → MasksSound s →
    let a := s.maskBitAt ka 0
    let b := s.maskBitAt kb 0
    let set := (List.range s.ucr.elems).filter a
    let first := set.head?.getD s.ucr.elems
    let writes := fun (i : Instr) (p : Nat → Bool) => ∃ t, exec i s = .next t ∧ MaskResult s t kd p (vectorEnd s 0#5)
    (kd ≠ 0#4 →
      writes (.kand kd ka kb) (fun e => a e && b e) ∧
      writes (.kor kd ka kb) (fun e => a e || b e) ∧
      writes (.kxor kd ka kb) (fun e => a e != b e) ∧
      writes (.kandn kd ka kb) (fun e => a e && !b e) ∧
      writes (.knot kd ka) (fun e => !a e) ∧
      writes (.kmv kd ka) a ∧
      writes (.kbrkb kd ka) (fun e => decide (e < first)) ∧
      writes (.kbrka kd ka) (fun e => decide (e ≤ first)) ∧
      writes (.kbrko kd ka) (fun e => decide (e = first)) ∧
      (∀ ra rb, Readable s ra → Readable s rb →
        writes (.kset kd ra rb) (fun e => decide ((s.reg ra).toNat ≤ e ∧ e < (s.reg rb).toNat))) ∧
      (∀ va, VectorReady s [va] → Live s va (List.range s.ucr.elems) → writes (.kfromv kd va) (fun e => s.elemOrZero va e != 0))) ∧
    (∀ vd, VectorReady s [vd] → ∃ t, exec (.ktov vd ka) s = .next t ∧
      VectorResult s t vd (List.range s.ucr.elems) (fun e => if a e = true then 1 else 0) (vectorEnd s 0#5)) ∧
    (∀ rd, ∃ t, exec (.kpopc rd ka) s = .next t ∧
      WroteReg s t rd (BitVec.ofNat 64 set.length) { s.ucr with vstart := 0#16 } (Fallen s.trip)) ∧
    (∀ rd, ∃ t, exec (.kfirst rd ka) s = .next t ∧
      WroteReg s t rd (match set.head? with
        | some e => BitVec.ofNat 64 e
        | none => BitVec.ofInt 64 (-1)) { s.ucr with vstart := 0#16 } (Fallen s.trip))

/-- The four rounds of the `vrng` mix (R225). -/
def Sys2Proof.Safety.mixed : Nat → Word × Word → Word × Word
  | 0, p => p
  | n + 1, (x, y) =>
    let y := y + 0x5A17C3E9B24D0F6B#64
    let z := (x ^^^ y) * 0x8F3B64D12E97A5C3#64
    mixed n (z ^^^ (z >>> 31), y)

/-- R225. -/
def Obligations.VrngMixesCounterAndKey : Prop :=
  ∀ (s : State) (g : VArgs), VectorReady s (vargsRegs g) →
    let es := s.active (kmReg g.km)
    let key := fun e => if g.s = true then s.reg (g.vb.extractLsb' 0 5) else BitVec.ofNat 64 (s.elemOrZero g.vb e)
    let x := fun e => (mixed 4 (BitVec.ofNat 64 (s.elemOrZero g.va e), key e)).1
    (s.ucr.vsew = 2#2 ∨ s.ucr.vsew = 3#2 → SecondLive s g es → Live s g.va es →
      ∃ t, exec (.vrng g) s = .next t ∧
        VectorResult s t g.vd es (fun e => if s.ucr.vsew = 2#2 then (x e).toNat / 2 ^ 32 else (x e).toNat) (vectorEnd s 0#5)) ∧
    (s.ucr.vsew = 0#2 ∨ s.ucr.vsew = 1#2 → PostsTrap (.vrng g) s s ⟨Cause.shape, 0#8, wordValue (.vrng g)⟩)

/-- R47, R63, R166, R289, R402. -/
def Obligations.VectorOperandsTrap : Prop :=
  (∀ (s : State) (g : VArgs) (h : V1Args) (r rd : SReg) (ka k : KReg), Plain s →
      let posts := fun (i : Instr) => PostsTrap i s s ⟨Cause.vstate, 0#8, wordValue i⟩
      let bad := fun (v : VReg) => s.ucr.regCount ≤ v.toNat
      ((∃ v ∈ vargsRegs g, bad v) →
        ∀ i ∈ [Instr.vadd g, .vsub g, .vrsub g, .vmul g, .vmulh g, .vmulhu g, .vdiv g, .vdivu g, .vrem g, .vremu g, .vmin g, .vmax g,
          .vminu g, .vmaxu g, .vand g, .vor g, .vxor g, .vandn g, .vsll g, .vsrl g, .vsra g, .vsadd g, .vssub g, .vsaddu g, .vssubu g,
          .vmerge g, .vmacc g, .vnmsac g, .vabsd g, .vmulq g, .vfadd g, .vfsub g, .vfmul g, .vfdiv g, .vfma g, .vfms g, .vfnma g,
          .vfmin g, .vfmax g, .vfsgnj g, .vfsgnjn g, .vfsgnjx g, .vexpd g, .vrng g], posts i) ∧
      ((∃ v ∈ [g.vd, g.va, g.vb], bad v) →
        ∀ i ∈ [Instr.vredsum g, .vredmax g, .vredmin g, .vredor g, .vredand g, .vfredsum g, .vfredmax g, .vfredmin g], posts i) ∧
      (bad h.vd ∨ bad h.va →
        ∀ i ∈ [Instr.vclz h, .vpopc h, .vfsqrt h, .vfrcp h, .vfrsq h, .vfexp2 h, .vflog2 h, .vfsigm h, .vftanh h, .vfcls h, .vmv h.vd h.va k,
          .vslideup h.vd h.va r k, .vslidedn h.vd h.va r k, .vslide1up h.vd h.va r k, .vslide1dn h.vd h.va r k, .vcompress h.vd h.va k,
          .vexpand h.vd h.va k, .vtrans h.vd h.va k, .vrowbc h.vd h.va r k], posts i) ∧
      (bad h.vd → ∀ i ∈ [Instr.vmvs h.vd r k, .viota h.vd ka k, .vid h.vd k, .ktov h.vd ka], posts i) ∧
      (bad h.va → ∀ i ∈ [Instr.kfromv ka h.va, .vmvx rd h.va r], posts i)) ∧
  (∀ (s : State) (g : VArgs) (e : Nat) (es : List Nat), VectorReady s (vargsRegs g) → s.ucr.genmode = 1#1 →
      (g.s = true → Readable s (g.vb.extractLsb' 0 5)) → s.active (kmReg g.km) = e :: es → s.tag (elemAt s g.va e) ≠ s.thr.genV →
      let u := { s with thr := { s.thr with arch := { s.thr.arch with ucr := { s.ucr with vstart := BitVec.ofNat 16 e } } } }
      let posts := fun (i : Instr) => PostsTrap i s u ⟨Cause.gentrap, 0#8, BitVec.ofNat 64 (s.vregOff g.va (e * s.ucr.sewBytes))⟩
      (∀ i ∈ [Instr.vadd g, .vsub g, .vrsub g, .vmul g, .vmulh g, .vmulhu g, .vdiv g, .vdivu g, .vrem g, .vremu g, .vmin g, .vmax g,
        .vminu g, .vmaxu g, .vand g, .vor g, .vxor g, .vandn g, .vsll g, .vsrl g, .vsra g, .vsadd g, .vssub g, .vsaddu g, .vssubu g,
        .vmacc g, .vnmsac g, .vabsd g, .vmulq g], posts i) ∧
      (∀ fmt rm, FloatShape s fmt → RM.ofCode s.ucr.frm = some rm → posts (.vfadd g)))

/-- R160, R161, R162, R163, R44, R45, R342. That `vcfg` in a handler entered with a pending replay does not wait for that replay is the model's
choice (log entry 10). -/
def Obligations.ShapeInstructionsSetTheShape : Prop :=
  (∀ (s : State) (rd ra rb : SReg) (ew : BitVec 2), Plain s → Readable s ra → Readable s rb →
    let m := (s.reg ra).toNat
    let n := (s.reg rb).toNat
    let rowBytes := min n 256 * 2 ^ ew.toNat
    let len := if m = 0 ∨ n = 0 then 0 else min (min n 256) (s.getCore (coreOf s.cur)).plen.toNat
    let rows := if m = 0 ∨ n = 0 then 0 else min m (min 256 (s.ucr.capacity / rowBytes))
    ∃ t, exec (.vshape rd ra rb ew) s = .next t ∧
      WroteReg { s with thr := { s.thr with arch := { s.thr.arch with qrows := s.reg ra, qlen := s.reg rb } } } t rd
        (BitVec.ofNat 64 len) { s.ucr with vlen := BitVec.ofNat 9 len, vrows := BitVec.ofNat 9 rows, vsew := ew, vstart := 0#16 }
        (Fallen s.trip)) ∧
  (∀ (s : State) (kd : KReg) (ra : SReg) (ew : BitVec 2), Plain s → Readable s ra →
    ∃ t, exec (.klen kd ra ew) s = .next t ∧
      t.maskReg kd = { form := .bound (s.reg ra) ew, tags := Vector.replicate 128 s.thr.genM, bad := [] } ∧
      (∀ k, k ≠ kd → t.maskReg k = s.maskReg k) ∧
      t = Moved s { s.thr.arch with mask := t.thr.arch.mask, trip := Fallen s.trip }) ∧
  (∀ (s : State) (ra : SReg), Plain s → Readable s ra →
    let single := s.thr.parent = none ∧ ∀ f ∈ s.thr.forks, f.ended = true
    (∀ c : BitVec 2, s.reg ra = BitVec.ofNat 64 (8 * 2 ^ c.toNat) → single →
      ∀ gen, (s.allocGen (coreOf s.cur) 1).1 = some gen →
        let u := (s.allocGen (coreOf s.cur) 1).2
        FallsThrough (.vcfg ra) s { u with thr := { u.thr with
          genV := gen
          arch := { u.thr.arch with
            qrows := 0#64, qlen := 0#64
            ucr := { u.ucr with vcfg := u.ucr.vcfg.extractLsb' 2 2 ++ c, vlen := 0#9, vrows := 1#9, vstart := 0#16 } } } }) ∧
    ((∀ c : BitVec 2, s.reg ra ≠ BitVec.ofNat 64 (8 * 2 ^ c.toNat)) →
      TrapsHere (.vcfg ra) s s ⟨Cause.shape, 0#8, wordValue (.vcfg ra)⟩) ∧
    ((∃ c : BitVec 2, s.reg ra = BitVec.ofNat 64 (8 * 2 ^ c.toNat)) → ¬single →
      TrapsHere (.vcfg ra) s s ⟨Cause.vstate, 4#8, wordValue (.vcfg ra)⟩))

/-! ## Memory (06 section 6.4, 08 section 8.3, 10 sections 10.1 to 10.4, 18 section 18.3) -/

/-- A loaded value by its width code (Table 6.6): codes 0 to 3 sign-extend, the others zero-extend. -/
def Sys2Proof.Safety.extended (w : BitVec 4) (bs : List Byte) : Word :=
  if w.toNat < 4 then BitVec.ofInt 64 (BitVec.ofNat (8 * 2 ^ (w.toNat % 4)) (numOf bs)).toInt else BitVec.ofNat 64 (numOf bs)

/-- R140, R142, R63, R66, R191 with Table 6.6. -/
def Obligations.ScalarLoadsReadTheirBytes : Prop :=
  ∀ (s : State) (rd ra rb : SReg) (w : BitVec 4) (off : BitVec 12) (p : Phys), Plain s → Readable s ra →
    let n := 2 ^ (w.toNat % 4)
    let loads := fun (i : Instr) (ea : Word) => ea.toNat % n = 0 → Reaches s ea .load p → Loose s p.pa →
      Sees s .scalar p.pa n → ∃ t, exec i s = .next t ∧
        WroteReg { s with late := t.late, walks := t.walks, free := t.free } t rd (extended w (readBytes s p.pa n)) s.ucr (Fallen s.trip) ∧
        SameLate s t
    loads (.ld rd ra w off) (s.reg ra + off.signExtend 64) ∧ (Readable s rb → loads (.ldx rd ra rb w) (s.reg ra + s.reg rb))

/-- R140, R142, R64, R65, R190, R349. That a store stands on top of the late ones, which observers may miss, is the model's form of the order
(log entry 5). -/
def Obligations.ScalarStoresWriteTheirBytes : Prop :=
  ∀ (s : State) (rd ra rb : SReg) (w : BitVec 4) (off : BitVec 12) (p : Phys), Plain s → Readable s ra → Readable s rd →
    let n := 2 ^ (w.toNat % 4)
    let stores := fun (i : Instr) (ea : Word) => ea.toNat % n = 0 → Reaches s ea .store p →
      ∃ t, exec i s = .next t ∧ StoredTo s t p.pa (bytesOf n (s.reg rd).toNat) ∧ (∀ u ∈ t.poison, u ∈ s.poison) ∧
        t = Moved { s with mem := t.mem, tags := t.tags, poison := t.poison, wrote := t.wrote, late := t.late, walks := t.walks,
                           free := t.free, others := t.others }
          { s.thr.arch with trip := Fallen s.trip } ∧
        OthersKept s t p.pa ∧ LateAfter s t { path := .scalar, inst := 0, ord := false, so := false } p n
    stores (.st rd ra w off) (s.reg ra + off.signExtend 64) ∧ (Readable s rb → stores (.stx rd ra rb w) (s.reg ra + s.reg rb))

/-- R140, R135, R231 with Table 18.6. -/
def Obligations.MisalignedAccessesTrapAlign : Prop :=
  ∀ (s : State) (rd ra rb : SReg) (w : BitVec 4) (off : BitVec 12) (f : AmoArgs) (op : BitVec 4), Plain s → Readable s ra →
    let n := 2 ^ (w.toNat % 4)
    let traps := fun (i : Instr) (detail : BitVec 8) (ea : Word) (width : Nat) => ea.toNat % width ≠ 0 →
      TrapsHere i s s ⟨Cause.align, detail, ea⟩
    traps (.ld rd ra w off) 0#8 (s.reg ra + off.signExtend 64) n ∧
    (Readable s rd → traps (.st rd ra w off) 1#8 (s.reg ra + off.signExtend 64) n) ∧
    (Readable s rb → traps (.ldx rd ra rb w) 0#8 (s.reg ra + s.reg rb) n ∧
      (Readable s rd → traps (.stx rd ra rb w) 1#8 (s.reg ra + s.reg rb) n)) ∧
    (Readable s f.ra → Readable s f.rb →
      traps (.amo f op) 3#8 (s.reg f.ra) (if f.d then 8 else 4) ∧
      (Readable s f.rd → traps (.cas f) 3#8 (s.reg f.ra) (if f.d then 8 else 4)))

/-- R140, R231, R227, R230, R308, R310, R312, R317, R264, R336, R387 with Table 18.6. That a PROT for the place, and not for the page, leaves
TFLT as it was is the model's reading (log entry 16). -/
def Obligations.FailedTranslationsTrap : Prop :=
  ∀ (s : State) (rd ra rb : SReg) (w : BitVec 4) (off : BitVec 12) (f : AmoArgs) (op : BitVec 4), Plain s →
    (∀ r ∈ [rd, ra, rb, f.rd, f.ra, f.rb], Readable s r) →
    ∀ (i : Instr) (k : Access) (detail : BitVec 8) (ea : Word) (width : Nat),
      (i, k, detail, ea, width) ∈ [(Instr.ld rd ra w off, Access.load, 0#8, s.reg ra + off.signExtend 64, 2 ^ (w.toNat % 4)),
        (.ldx rd ra rb w, .load, 0#8, s.reg ra + s.reg rb, 2 ^ (w.toNat % 4)),
        (.st rd ra w off, .store, 1#8, s.reg ra + off.signExtend 64, 2 ^ (w.toNat % 4)),
        (.stx rd ra rb w, .store, 1#8, s.reg ra + s.reg rb, 2 ^ (w.toNat % 4)),
        (.amo f op, .atomic, 3#8, s.reg f.ra, if f.d then 8 else 4), (.cas f, .atomic, 3#8, s.reg f.ra, if f.d then 8 else 4)] →
      ea.toNat % width = 0 →
      let u := translated s ea k
      let place := s.translate s.thr.asid s.thr.root s.thr.level ea k
      (∀ reason level, place.1 = .fault reason level →
        TrapsHere i s
          { u with thr := { u.thr with sys := { u.thr.sys with tfltReason := reason, tfltLevel := BitVec.ofNat 3 level } } }
          (if reason = 3#8 then ⟨Cause.prot, detail, ea⟩ else if reason = 5#8 then ⟨Cause.walkpoison, 0#8, ea⟩
            else ⟨Cause.page, detail, ea⟩)) ∧
      (∀ pa attr, place.1 = .ok pa attr →
        u.regionRefuses pa k = true ∨ i = .cas f ∧ u.atomicRefuses pa true = true ∨
          i = .amo f op ∧ u.atomicRefuses pa (op.toNat == 0 || op.toNat == 1 || op.toNat == 10) = true →
        TrapsHere i s u ⟨Cause.prot, detail, ea⟩) ∧
      (ea.extractLsb' 56 8 ≠ 0#8 → place = (.fault 2#8 0, s))

/-- A valid pointer entry of a level that the walk passes (R309, R310). -/
def Sys2Proof.Safety.Points (s : State) (e : Word) (level : Nat) : Prop :=
  e.getLsbD 0 = true ∧ e.getLsbD 1 = false ∧ pteMalformed e level = false ∧ s.tableOk ((e.extractLsb' 12 40).toNat * 4096) = true

/-- R308, R309, R310, R312 with Tables 18.2 and 18.6. -/
def Obligations.TranslationWalksTheTables : Prop :=
  ∀ (s : State) (asid : BitVec 12) (root : BitVec 40) (system : Bool) (va : Word) (k : Access) (e4 e3 e2 e1 e0 : Word),
    s.walks = [] → s.badFrames = [] → s.poison = [] → va.toNat < 2 ^ 56 → s.tableOk (root.toNat * 4096) = true →
    let frame := fun (e : Word) => (e.extractLsb' 12 40).toNat * 4096
    let v := va.toNat
    let pa := frame e0 + v % 4096
    (s.readPte (root.toNat * 4096 + 8 * (v / 2 ^ 48 % 256))).1 = e4 → Points s e4 4 →
    (s.readPte (frame e4 + 8 * (v / 2 ^ 39 % 512))).1 = e3 → Points s e3 3 →
    (s.readPte (frame e3 + 8 * (v / 2 ^ 30 % 512))).1 = e2 → Points s e2 2 →
    (s.readPte (frame e2 + 8 * (v / 2 ^ 21 % 512))).1 = e1 → Points s e1 1 →
    (s.readPte (frame e1 + 8 * (v / 2 ^ 12 % 512))).1 = e0 → e0.getLsbD 0 = true → pteMalformed e0 0 = false →
    (∀ i < 16, (s.readPte (frame e1 + 8 * (v / 2 ^ 16 % 32 * 16 + i))).1.getLsbD 61 = false) →
    let allowed := (system = true ∨ e0.getLsbD 6 = true) ∧
      match k with
      | .load => e0.getLsbD 3 = true
      | .store => e0.getLsbD 4 = true
      | .fetch => e0.getLsbD 5 = true
      | .atomic => e0.getLsbD 3 = true ∧ e0.getLsbD 4 = true
    let answer := (s.translate asid root system va k).1
    (s.region pa = .notMemory → answer = .fault 4#8 0) ∧
    (s.region pa ≠ .notMemory → allowed → answer = .ok pa (e0.extractLsb' 62 2)) ∧
    (s.region pa ≠ .notMemory → ¬allowed → answer = .fault 3#8 0)

/-- What a vector access asks of its scalar operands: the base, and the stride register of the strided mode. -/
def Sys2Proof.Safety.BaseReadable (s : State) (f : MArgs) (m : VMode) : Prop :=
  Readable s f.sb ∧ ∀ st, m = .strided st → Readable s st

/-- The stride register's value; 0 for the other modes. -/
def Sys2Proof.Safety.strideOf (s : State) : VMode → Word
  | .strided st => s.reg st
  | _ => 0#64

/-- The state with VSTART 0. -/
def Sys2Proof.Safety.cleared (u : State) : State :=
  { u with thr := { u.thr with arch := { u.thr.arch with ucr := { u.ucr with vstart := 0#16 } } } }

/-- R185, R186, R187, R188, R190. That the elements are loaded in ascending order with o = 0 too is the model's choice (log entry 5). -/
def Obligations.VectorLoadsFillTheirElements : Prop :=
  (∀ (s : State) (f : MArgs) (m : VMode) (sign : Bool) (i : Instr),
    (i, m, sign) ∈ [(Instr.vld f, VMode.unit, false), (.vldSignExtending f, .unit, true)] ∨
      (∃ st, (i, m, sign) ∈ [(Instr.vldstr f st, VMode.strided st, false), (.vldstrSignExtending f st, .strided st, true)]) ∨
      (∃ vi, (i, m, sign) ∈ [(Instr.vldx f vi, VMode.indexed vi, false), (.vldxSignExtending f vi, .indexed vi, true)]) →
    Plain s → MasksSound s → (∀ v ∈ f.v :: m.regs, v.toNat < s.ucr.regCount) → BaseReadable s f m →
    let run := forElems (loadElem f m sign (s.reg f.sb) (strideOf s m)) (s.active (kmReg f.km)) s
    (8 * 2 ^ f.w.toNat ≤ s.ucr.sew →
      (∀ u, run = .done () u → FallsThrough i s (cleared u)) ∧ (∀ t u, run = .trap t u → PostsTrap i s u t)) ∧
    (s.ucr.sew < 8 * 2 ^ f.w.toNat → PostsTrap i s s ⟨Cause.shape, 0#8, wordValue i⟩)) ∧
  (∀ (s : State) (f : MArgs) (m : VMode) (sign : Bool) (base stride : Word) (e : Nat) (p : Phys),
    let n := 2 ^ f.w.toNat
    let row := if s.ucr.vrstr = 0#64 then BitVec.ofNat 64 (s.ucr.vlen.toNat * n) else s.ucr.vrstr
    let a : Word := match m with
      | .unit => base + BitVec.ofNat 64 (e / s.ucr.vlen.toNat) * row + BitVec.ofNat 64 (e % s.ucr.vlen.toNat * n)
      | .strided _ => base + BitVec.ofNat 64 e * stride
      | .indexed vi => base + BitVec.ofInt 64 (BitVec.ofNat s.ucr.sew (s.elemOrZero vi e)).toInt
    VectorReady s (f.v :: m.regs) → e < s.ucr.elems → (∀ v ∈ m.regs, Live s v [e]) → 8 * n ≤ s.ucr.sew →
    a.toNat % n = 0 → Reaches s a .load p → Loose s p.pa →
    Sees s (memPath f) p.pa n → ∃ t, loadElem f m sign base stride e s = .done () t ∧
      ElementsWritten s t f.v [e] (fun _ => if sign then (BitVec.ofInt s.ucr.sew (BitVec.ofNat (8 * n) (numOf (readBytes s p.pa n))).toInt).toNat
        else numOf (readBytes s p.pa n)) ∧
      t = { s with mem := t.mem, tags := t.tags, late := t.late, walks := t.walks, free := t.free } ∧ SameLate s t)

/-- R192, R187, R313, R49. That a fault which only trims leaves TFLT as it was is the model's reading (log entry 16). -/
def Obligations.FirstFaultLoadsTrim : Prop :=
  (∀ (s : State) (f : MArgs) (sign : Bool) (i : Instr), (i, sign) ∈ [(Instr.vldff f, false), (.vldffSignExtending f, true)] →
    Plain s → MasksSound s → f.v.toNat < s.ucr.regCount → Readable s f.sb → 8 * 2 ^ f.w.toNat ≤ s.ucr.sew →
    let one := loadElem f .unit sign (s.reg f.sb) 0#64
    let done := fun (u : State) (len : BitVec 9) =>
      { u with thr := { u.thr with arch := { u.thr.arch with
        mask := u.thr.arch.mask.set 15 { form := .explicit (List.range len.toNat), tags := Vector.replicate 128 u.thr.genM, bad := [] }
        ucr := { u.ucr with vlen := len, vstart := 0#16 } } } }
    (s.ucr.vrows ≠ 1#9 → PostsTrap i s s ⟨Cause.shape, 0#8, wordValue i⟩) ∧
    (s.ucr.vrows = 1#9 →
      (s.active (kmReg f.km) = [] → FallsThrough i s (done s s.ucr.vlen)) ∧
      ∀ e es, s.active (kmReg f.km) = e :: es →
        (∀ t u, one e s = .trap t u →
          PostsTrap i s { u with thr := { u.thr with arch := { u.thr.arch with ucr := { u.ucr with vstart := BitVec.ofNat 16 e } } } } t) ∧
        ∀ u, one e s = .done () u →
          (∀ v, trimElems one es u = .done none v → FallsThrough i s (done v s.ucr.vlen)) ∧
          (∀ k v, trimElems one es u = .done (some k) v → FallsThrough i s (done v (BitVec.ofNat 9 k))) ∧
          (∀ x v, trimElems one es u = .trap x v → PostsTrap i s v x))) ∧
  (∀ (s : State) (f : MArgs) (sign : Bool) (i : Instr) (bs : Nat → List Byte),
    (i, sign) ∈ [(Instr.vldff f, false), (.vldffSignExtending f, true)] →
    VectorReady s [f.v] → Readable s f.sb → s.ucr.vrows = 1#9 →
    let n := 2 ^ f.w.toNat
    let es := s.active (kmReg f.km)
    let addr := fun (e : Nat) => s.reg f.sb + BitVec.ofNat 64 (e * n)
    8 * n ≤ s.ucr.sew →
    (∀ e ∈ es, (addr e).toNat % n = 0 ∧ ∀ u, Midway s u (outsideReg s f.v) (es.map addr) →
      ∃ p, Reaches u (addr e) .load p ∧ Loose u p.pa ∧ Sees u (memPath f) p.pa n ∧ readBytes u p.pa n = bs e) →
    ∃ t, exec i s = .next t ∧
      ElementsWritten s t f.v es (fun e => if sign then (BitVec.ofInt s.ucr.sew (BitVec.ofNat (8 * n) (numOf (bs e))).toInt).toNat
        else numOf (bs e)) ∧
      t = Moved { s with mem := t.mem, tags := t.tags, late := t.late, walks := t.walks, free := t.free } { s.thr.arch with
        mask := s.thr.arch.mask.set 15 { form := .explicit (List.range s.ucr.vlen.toNat), tags := Vector.replicate 128 s.thr.genM, bad := [] }
        ucr := { s.ucr with vstart := 0#16 }
        trip := Fallen s.trip }) ∧
  (∀ (one : Nat → State → Res Unit) (e : Nat) (es : List Nat) (s : State),
    let trimmed := fun (u : State) => { s with walks := u.walks, free := u.free }
    let marked := fun (u : State) => { u with thr := { u.thr with arch := { u.thr.arch with ucr := { u.ucr with vstart := BitVec.ofNat 16 e } } } }
    trimElems one [] s = .done none s ∧
    (∀ u, one e s = .done () u → trimElems one (e :: es) s = trimElems one es u) ∧
    (∀ x u, one e s = .trap x u → (x.cause = 5#8 ∨ x.cause = 6#8 → trimElems one (e :: es) s = .done (some e) (trimmed u)) ∧
      (x.cause ≠ 5#8 → x.cause ≠ 6#8 → trimElems one (e :: es) s = .trap x (marked u)))) ∧
  (∀ (s : State) (f : MArgs) (m : VMode) (sign : Bool) (base stride : Word) (e : Nat), (∀ vi, m ≠ .indexed vi) →
    let n := 2 ^ f.w.toNat
    let a := s.peekAddr m base stride n e
    let u := translated s a .load
    (a.toNat % n ≠ 0 → loadElem f m sign base stride e s = .trap ⟨Cause.align, 0#8, a⟩ s) ∧
    (a.toNat % n = 0 →
      (∀ reason level, (s.translate s.thr.asid s.thr.root s.thr.level a .load).1 = .fault reason level →
        loadElem f m sign base stride e s = .trap
          (if reason = 3#8 then ⟨Cause.prot, 0#8, a⟩ else if reason = 5#8 then ⟨Cause.walkpoison, 0#8, a⟩ else ⟨Cause.page, 0#8, a⟩)
          { u with thr := { u.thr with sys := { u.thr.sys with tfltReason := reason, tfltLevel := BitVec.ofNat 3 level } } }) ∧
      (∀ pa attr, (s.translate s.thr.asid s.thr.root s.thr.level a .load).1 = .ok pa attr → u.regionRefuses pa .load = true →
        loadElem f m sign base stride e s = .trap ⟨Cause.prot, 0#8, a⟩ u)))

/-- The elements that the device performs above a trap of a store with o = 0 (R188), one after another; one that traps itself is left. -/
def Sys2Proof.Safety.PerformsAbove (one : Nat → State → Res Unit) (free : Nat) : Prop :=
  ∀ (e : Nat) (es : List Nat) (s : State), performAbove one free [] s = s ∧
    (∀ u, Config.performedAbove free e = true → one e s = .done () u → performAbove one free (e :: es) s = performAbove one free es u) ∧
    ((Config.performedAbove free e = true → ∃ x u, one e s = .trap x u) → performAbove one free (e :: es) s = performAbove one free es s)

/-- R185, R186, R187, R188, R190, R269, R270, R271, R272, R278, R280, R313. With o = 0 and no SO page the elements on UO pages come last, by
free ranks, and which elements above a trap have been performed is free: the model's choice of the orders allowed (log entry 6). -/
def Obligations.VectorStoresWriteTheirElements : Prop :=
  (∀ (s : State) (f : MArgs) (m : VMode) (i : Instr),
    (i, m) = (Instr.vst f, VMode.unit) ∨ (∃ st, (i, m) = (Instr.vststr f st, VMode.strided st)) ∨
      (∃ vi, (i, m) = (Instr.vstx f vi, VMode.indexed vi)) →
    Plain s → MasksSound s → (∀ v ∈ f.v :: m.regs, v.toNat < s.ucr.regCount) → BaseReadable s f m →
    let es := s.active (kmReg f.km)
    let addr := s.peekAddr m (s.reg f.sb) (strideOf s m) (2 ^ f.w.toNat)
    let touches := fun (attr : BitVec 2) => ∃ e ∈ es, ∃ p, s.peek (addr e) .store = some p ∧ p.attr = attr
    let place := storePlace f m (s.reg f.sb) (strideOf s m)
    let trapped := fun (one : Nat → State → Res Unit) (u : State) =>
      let k := u.ucr.vstart
      let v := performAbove one u.free (es.filter fun e => decide (k.toNat < e)) (u.performInst s.free)
      { v with free := v.free + 1, thr := { v.thr with arch := { v.thr.arch with ucr := { v.ucr with vstart := k } } } }
    (8 * 2 ^ f.w.toNat ≤ s.ucr.sew → ∀ w : Way, w.path = memPath f → w.inst = s.free → w.so = false →
      (w.ord = true ↔ f.o = true ∨ touches 1#2) →
      let one := storeElem w f m (s.reg f.sb) (strideOf s m)
      (w.ord = true ∨ ¬touches 2#2 →
        (∀ u, forElems one es s = .done () u → FallsThrough i s (cleared u)) ∧
        (∀ t u, forElems one es s = .trap t u →
          (w.ord = true → PostsTrap i s (u.performInst s.free) t) ∧ (w.ord = false → PostsTrap i s (trapped one u) t))) ∧
      (w.ord = false → touches 2#2 → ∀ xs r, checkedPlaces place es s = (xs, r) →
        (∀ u, r = .done () u → FallsThrough i s (cleared (storeAll w (uoOrder u.free xs) u).tick)) ∧
        (∀ t u, r = .trap t u → PostsTrap i s (trapped one (storeAll w (uoOrder u.free xs) u)) t)) ∧
      ∀ free, PerformsAbove one free) ∧
    (s.ucr.sew < 8 * 2 ^ f.w.toNat → PostsTrap i s s ⟨Cause.shape, 0#8, wordValue i⟩)) ∧
  (∀ (s : State) (f : MArgs) (m : VMode) (base stride : Word) (e : Nat) (p : Phys),
    let n := 2 ^ f.w.toNat
    let a := s.peekAddr m base stride n e
    VectorReady s (f.v :: m.regs) → e < s.ucr.elems → (∀ v ∈ f.v :: m.regs, Live s v [e]) → 8 * n ≤ s.ucr.sew →
    a.toNat % n = 0 → Reaches s a .store p →
    ∀ w : Way, w.path = memPath f → ∃ t, storeElem w f m base stride e s = .done () t ∧ StoredTo s t p.pa (bytesOf n (s.elemOrZero f.v e)) ∧
      t = { s with mem := t.mem, tags := t.tags, late := t.late, walks := t.walks, free := t.free, others := t.others } ∧
      OthersKept s t p.pa ∧ LateAfter s t w p n) ∧
  (∀ (place : Nat → State → Res (Phys × List Byte)) (e : Nat) (es : List Nat) (s : State), checkedPlaces place [] s = ([], .done () s) ∧
    (∀ x u, place e s = .done x u →
      checkedPlaces place (e :: es) s = (x :: (checkedPlaces place es u).1, (checkedPlaces place es u).2)) ∧
    ∀ t u, place e s = .trap t u → checkedPlaces place (e :: es) s =
      ([], .trap t { u with thr := { u.thr with arch := { u.thr.arch with ucr := { u.ucr with vstart := BitVec.ofNat 16 e } } } })) ∧
  (∀ (free : Nat) (xs : List (Phys × List Byte)), (uoOrder free xs).Perm xs ∧
    (uoOrder free xs).filter (fun x => x.1.attr != 2#2) = xs.filter fun x => x.1.attr != 2#2) ∧
  (∀ (w : Way) (x : Phys × List Byte) (xs : List (Phys × List Byte)) (s u : State), storeAll w [] s = s ∧
    (storeTo w x s = .done () u → storeAll w (x :: xs) s = storeAll w xs u))

/-- What an atomic operation writes, on bit vectors of its width (Table 10.3); none where it writes nothing. -/
def Sys2Proof.Safety.atomicResult (op : Nat) {w : Nat} (old x exp : BitVec w) : Option (BitVec w) :=
  match op with
  | 0 => some (old + x)
  | 1 => some x
  | 2 => some (old &&& x)
  | 3 => some (old ||| x)
  | 4 => some (old ^^^ x)
  | 5 => some (BitVec.ofInt w (min old.toInt x.toInt))
  | 6 => some (BitVec.ofInt w (max old.toInt x.toInt))
  | 7 => some (BitVec.ofNat w (min old.toNat x.toNat))
  | 8 => some (BitVec.ofNat w (max old.toNat x.toNat))
  | 9 => if 0 < old.toInt then some (old - 1#w) else none
  | _ => if old = exp then some x else none

/-- A store that a release on a path carries (R277): the strand's own that is ordered before its accesses there, or one that it has read
there. -/
def Sys2Proof.Safety.Carried (s : State) (q : Path) (e : Late) : Prop :=
  e.uid = s.thr.uid ∧ e.way.path ≠ .outside ∧ e.way.path.keeps q = true ∨ ∃ n, (s.thr.uid, q, some n) ∈ e.seen

/-- R227, R228, R229, R231, R232, R233, R277 with Tables 10.2 and 10.3. Through atomicRead and StoredTo it rests on the model's reading of an
atomic at another context's window, which reads zero and writes nothing, and acts as the holder at system level (DEDUCED, log entry 19). -/
def Obligations.ScalarAtomicsUpdateTheirHome : Prop :=
  ∀ (s : State) (f : AmoArgs) (p : Phys), Plain s → Readable s f.ra →
    let n := if f.d then 8 else 4
    let ea := s.reg f.ra
    let old := s.atomicRead p.pa n
    let updates := fun (i : Instr) (op : Nat) => ea.toNat % n = 0 → Reaches s ea .atomic p →
      s.atomicRefuses p.pa (op == 0 || op == 1 || op == 10) = false → Loose s p.pa →
      ∃ t, exec i s = .next t ∧
        (match atomicResult op (BitVec.ofNat (8 * n) old) (BitVec.ofNat (8 * n) (s.reg f.rb).toNat) (BitVec.ofNat (8 * n) (s.reg f.rd).toNat) with
          | some y => StoredTo s t p.pa (bytesOf n y.toNat)
          | none => ∀ a, t.byte a = s.byte a ∧ t.tag a = s.tag a) ∧
        WroteReg { s with mem := t.mem, tags := t.tags, late := t.late, walks := t.walks, free := t.free } t f.rd
          (BitVec.ofInt 64 (BitVec.ofNat (8 * n) old).toInt) s.ucr (Fallen s.trip) ∧
        (f.rl = true → ∀ e ∈ s.late, Carried s .scalar e → ∃ d ∈ t.late, d = { e with perf := d.perf, seen := d.seen } ∧
          (coreOf s.cur, f.sc.toNat + 1) ∈ d.perf)
    (∀ op : BitVec 4, op.toNat < 10 → (op ≠ 9#4 → Readable s f.rb) → updates (.amo f op) op.toNat) ∧
    (Readable s f.rb → Readable s f.rd → updates (.cas f) 10)

/-- The vector atomics with the codes of their operations (Table 10.3); 11 is the float addition. -/
def Sys2Proof.Safety.vectorAtomics (f : AVArgs) : List (Instr × Nat) :=
  [(.vamoAdd f, 0), (.vamoSwap f, 1), (.vamoAnd f, 2), (.vamoOr f, 3), (.vamoXor f, 4), (.vamoMin f, 5), (.vamoMax f, 6), (.vamoMinu f, 7),
    (.vamoMaxu f, 8), (.vamoDip f, 9), (.vamoCas f, 10), (.vamoFadd f, 11)]

/-- What a vector atomic writes for one element: the operation of its code, or RNE_F32 of the sum (R235). -/
def Sys2Proof.Safety.vectorAtomicOp (code w old x exp : Nat) : Option Nat :=
  if code = 11 then some (FFmt.f32.add .rne old x).bits else atomicOp code w old x exp

/-- The places of a vector atomic's elements: `addr` gives each address, `p` where it goes; all are aligned and permitted, and those within the
scope sound, whichever walks are noted on the way. -/
def Sys2Proof.Safety.AtomPlaces (s : State) (es : List Nat) (addr : Nat → Word) (p : Nat → Phys) (n sc : Nat) (onAperture : Bool) : Prop :=
  ∀ e ∈ es, (addr e).toNat % n = 0 ∧ s.atomicRefuses (p e).pa onAperture = false ∧ (s.homeScope (p e).pa ≤ sc → Loose s (p e).pa) ∧
    ∀ u, Midway s u (fun _ => True) (es.map addr) → Reaches u (addr e) .atomic (p e)

/-- One atomic of a vector instruction performed: the store at its home leaves `h`, elements `es` of `v` then receive their values, which
leaves `t`. -/
def Sys2Proof.Safety.AtomPerformed (s t : State) (v : VReg) (es : List Nat) (x : Nat → Nat) (pa n : Nat) (new : Option Nat) : Prop :=
  ∃ h : State,
    (match new with
      | some y => StoredTo s h pa (bytesOf n y)
      | none => ∀ a, h.byte a = s.byte a ∧ h.tag a = s.tag a) ∧
    h = { s with mem := h.mem, tags := h.tags, late := h.late } ∧
    ElementsWritten h t v es x ∧ t = { h with mem := t.mem, tags := t.tags }

/-- How the stores of a vector atomic go out: as those of a vector memory instruction with x = 0, ordered under o = 1 (R189, R236, R278). -/
def Sys2Proof.Safety.vectorAtomicWay (f : AVArgs) (inst : Nat) : Way := { path := .vector, inst := inst, ord := f.o, so := false }

/-- R227, R229, R234, R235, R236, R237, R238 with Tables 10.1 and 10.3. The order of elements with o = 0 that share a place is free: the model's
choice of the orders allowed (log entry 6). Through StoredTo it rests on the model's reading of an atomic at another context's window, which
reads zero and writes nothing (log entry 19); that vamo.dip reads its element of v is log entry 52. -/
def Obligations.VectorAtomicsCheckAllThenPerform : Prop :=
  (∀ (s : State) (f : AVArgs) (i : Instr) (code : Nat), (i, code) ∈ vectorAtomics f →
    Plain s → MasksSound s → f.v.toNat + (if code = 10 then 1 else 0) < s.ucr.regCount → f.vx.toNat < s.ucr.regCount →
    let sewOk := s.ucr.sew = 32 ∨ (s.ucr.sew = 64 ∧ code ≠ 11)
    let run := checkAtoms (checkAtom f (code == 10) (code == 0 || code == 1 || code == 10) (s.reg f.sb)) (s.active (kmReg f.km)) s
    let op := vectorAtomicOp code
    (¬sewOk → PostsTrap i s s ⟨Cause.shape, 0#8, wordValue i⟩) ∧
    (sewOk → s.ucr.elems ≤ s.ucr.vstart.toNat → FallsThrough i s (cleared s)) ∧
    (sewOk → s.ucr.vstart.toNat < s.ucr.elems → Readable s f.sb →
      (∀ t u, run = .trap t u → PostsTrap i s u t) ∧
      ∀ as u, run = .done as u →
        let ms := u.misses f.sc.toNat as
        let hits := as.filter fun a => !ms.contains a
        (f.o = true ∨ sharesPlace hits = false → FallsThrough i s (cleared ((performAtoms (vectorAtomicWay f u.free) f.v op hits u).noteMisses ms).tick)) ∧
        (sharesPlace hits = true → FallsThrough i s
          (cleared ((performAtoms (vectorAtomicWay f u.free) f.v op (atomOrder f.o u.free hits) u).noteMisses ms).tick)))) ∧
  (∀ (s : State) (f : AVArgs), Plain s → MasksSound s → f.v.toNat < s.ucr.regCount → f.vx.toNat < s.ucr.regCount →
    let run := checkAtoms (checkBin f (s.reg f.sb)) (s.active (kmReg f.km)) s
    (s.ucr.sew = 8 → PostsTrap (.vhist f) s s ⟨Cause.shape, 0#8, wordValue (.vhist f)⟩) ∧
    (s.ucr.sew ≠ 8 → s.ucr.elems ≤ s.ucr.vstart.toNat → FallsThrough (.vhist f) s (cleared s)) ∧
    (s.ucr.sew ≠ 8 → s.ucr.vstart.toNat < s.ucr.elems → Readable s f.sb →
      (∀ t u, run = .trap t u → PostsTrap (.vhist f) s u t) ∧
      ∀ as u, run = .done as u →
        let ms := u.misses f.sc.toNat as
        let hits := as.filter fun a => !ms.contains a
        FallsThrough (.vhist f) s
          (cleared ((countBins (vectorAtomicWay f u.free) f.v hits (hits.map fun a => a.p.pa).eraseDups u).noteMisses ms).tick))) ∧
  (∀ (s : State) (f : AVArgs) (i : Instr) (code : Nat) (p : Nat → Phys), (i, code) ∈ vectorAtomics f →
    VectorReady s (if code = 10 then [f.v, f.v + 1#6, f.vx] else [f.v, f.vx]) → (code = 10 → f.v.toNat < 63) → Readable s f.sb →
    s.ucr.vstart.toNat < s.ucr.elems → s.ucr.sew = 32 ∨ (s.ucr.sew = 64 ∧ code ≠ 11) →
    let es := s.active (kmReg f.km)
    let addr := fun e => s.reg f.sb + BitVec.ofInt 64 (BitVec.ofNat s.ucr.sew (s.elemOrZero f.vx e)).toInt
    let as := es.map fun e => ({ e := e, p := p e, va := addr e, x := s.elemOrZero (if code = 10 then f.v + 1#6 else f.v) e,
                                 exp := s.elemOrZero f.v e } : AtomElem)
    let hits := as.filter fun a => decide (s.homeScope a.p.pa ≤ f.sc.toNat)
    let ms := as.filter fun a => decide (f.sc.toNat < s.homeScope a.p.pa)
    Live s f.vx es → Live s f.v es → (code = 10 → Live s (f.v + 1#6) es) →
    AtomPlaces s es addr p s.ucr.sewBytes f.sc.toNat (code == 0 || code == 1 || code == 10) →
    ∃ walks free order,
      let u := { s with walks := walks, free := free }
      order.Perm hits ∧ (f.o = true ∨ sharesPlace hits = false → order = hits) ∧
      FallsThrough i s (cleared ((performAtoms (vectorAtomicWay f free) f.v (vectorAtomicOp code) order u).noteMisses ms).tick)) ∧
  (∀ (s : State) (f : AVArgs) (p : Nat → Phys), VectorReady s [f.v, f.vx] → Readable s f.sb → s.ucr.vstart.toNat < s.ucr.elems → s.ucr.sew ≠ 8 →
    let es := s.active (kmReg f.km)
    let addr := fun e => s.reg f.sb + BitVec.ofNat 64 (4 * s.elemOrZero f.vx e)
    let as := es.map fun e => ({ e := e, p := p e, va := addr e, x := 0, exp := 0 } : AtomElem)
    let hits := as.filter fun a => decide (s.homeScope a.p.pa ≤ f.sc.toNat)
    let ms := as.filter fun a => decide (f.sc.toNat < s.homeScope a.p.pa)
    Live s f.vx es → AtomPlaces s es addr p 4 f.sc.toNat true →
    ∃ walks free, FallsThrough (.vhist f) s
      (cleared ((countBins (vectorAtomicWay f free) f.v hits (hits.map fun a => a.p.pa).eraseDups
        { s with walks := walks, free := free }).noteMisses ms).tick)) ∧
  (∀ (s : State) (f : AVArgs) (cas onAperture : Bool) (base : Word) (e : Nat), VectorReady s [f.v, f.vx] →
    f.v.toNat + 1 < s.ucr.regCount → e < s.ucr.elems → (∀ v ∈ [f.v, f.v + 1#6, f.vx], Live s v [e]) →
    let x := s.elemOrZero f.vx e
    let a := base + BitVec.ofInt 64 (BitVec.ofNat s.ucr.sew x).toInt
    let b := base + BitVec.ofNat 64 (4 * x)
    (a.toNat % s.ucr.sewBytes ≠ 0 → checkAtom f cas onAperture base e s = .trap ⟨Cause.align, 3#8, a⟩ s) ∧
    (b.toNat % 4 ≠ 0 → checkBin f base e s = .trap ⟨Cause.align, 3#8, b⟩ s)) ∧
  (∀ (check : Nat → State → Res AtomElem) (e : Nat) (es : List Nat) (s u : State) (x : Trap), check e s = .trap x u →
    checkAtoms check (e :: es) s = .trap x { u with thr := { u.thr with arch := { u.thr.arch with ucr := { u.ucr with vstart := BitVec.ofNat 16 e } } } }) ∧
  (∀ (s : State) (w : Way) (v : VReg) (op : Nat → Nat → Nat → Nat → Option Nat), VectorReady s [v] →
      s.thr.vbase + s.ucr.regCount * s.ucr.capacity ≤ 0x80000 →
    performAtoms w v op [] s = s ∧
    (∀ (a : AtomElem) (as : List AtomElem), a.e < s.ucr.elems → s.atomicRefuses a.p.pa true = false →
      let n := s.ucr.sewBytes
      let old := s.atomicRead a.p.pa n
      a.p.pa % n = 0 → ∃ t, performAtoms w v op (a :: as) s = performAtoms w v op as t ∧
        AtomPerformed s t v [a.e] (fun _ => old) a.p.pa n (op s.ucr.sew old a.x a.exp)) ∧
    ∀ hits : List AtomElem, countBins w v hits [] s = s ∧
      ∀ (pa : Nat) (bins : List Nat), s.atomicRefuses pa true = false → pa % 4 = 0 → (∀ a ∈ hits, a.e < s.ucr.elems) →
        let mine := (hits.filter fun a => a.p.pa == pa).map fun a => a.e
        let old := s.atomicRead pa 4
        mine.Nodup → ∃ t, countBins w v hits (pa :: bins) s = countBins w v hits bins t ∧
          AtomPerformed s t v mine (fun e => old + mine.idxOf e) pa 4 (some (old + mine.length))) ∧
  (∀ code w old x exp : Nat, code ≤ 10 → w = 32 ∨ w = 64 → old < 2 ^ w → x < 2 ^ w → exp < 2 ^ w →
    vectorAtomicOp code w old x exp = (atomicResult code (BitVec.ofNat w old) (BitVec.ofNat w x) (BitVec.ofNat w exp)).map BitVec.toNat) ∧
  (∀ (s : State) (pa n : Nat),
    let own := coreOf s.cur
    (s.region pa = .slice n ∨ (∃ off, s.region pa = .window n off) → s.homeScope pa =
      if n = own then 0 else if s.clusterOf n = s.clusterOf own then 1 else if s.dieOf n = s.dieOf own then 2 else 3) ∧
    (s.region pa = .lpddr → s.homeScope pa = if (if pa < 0x006000000000 then 0 else 1) = s.dieOf own then 2 else 3) ∧
    (s.region pa = .host ∨ s.region pa = .peer → s.homeScope pa = 4)) ∧
  (∀ (s : State) (ms : List AtomElem),
    (ms = [] → s.noteMisses ms = s) ∧
    (ms ≠ [] → (s.noteMisses ms).ucr.smc.toNat = min (2 ^ 32 - 1) (s.ucr.smc.toNat + ms.length) ∧
      ∀ e < s.ucr.elems, e < 65536 → (s.noteMisses ms).maskBitAt 13#4 0 e = ms.any fun a => a.e == e))

/-- R239, R240, R241, R227. That `waddr` answers a full table before it reads the doubleword, and so before poison or a stale granule there is
met, is the model's reading (log entry 53). -/
def Obligations.WaitAndWakePairUp : Prop :=
  (∀ (s : State) (rd ra rb : SReg) (p : Phys), Plain s → Readable s ra → Readable s rb →
    let a := s.reg ra
    let u := translated s a .atomic
    let v := u.atomicSees .scalar p.pa 8
    let armedHere := (s.monitors.filter fun m => m.cluster == s.cluster).length
    a.toNat % 8 = 0 → Reaches s a .atomic p → s.atomicRefuses p.pa false = false →
    (s.thr.wa = .none → 64 ≤ armedHere → FallsThrough (.waddr rd ra rb) s (u.setReg rd 2#64)) ∧
    (s.thr.wa = .none → armedHere < 64 → Loose s p.pa → s.atomicRead p.pa 8 ≠ (s.reg rb).toNat →
      FallsThrough (.waddr rd ra rb) s (v.acquireBoth.setReg rd 1#64)) ∧
    (s.thr.wa = .none → armedHere < 64 → Loose s p.pa → s.atomicRead p.pa 8 = (s.reg rb).toNat →
      Waits (.waddr rd ra rb) s
        { v with monitors := s.monitors ++ [⟨s.cluster, s.cur, p.pa⟩], thr := { u.thr with wa := .armed rd } }) ∧
    (SameLate u v ∧ v = { u with late := v.late }) ∧
    (let all := s.monitors.filter fun m => m.pa == p.pa
     let sel := if (s.reg rb).toNat = 0 then all else all.take (s.reg rb).toNat
     FallsThrough (.wake rd ra rb) s ((sel.foldl (fun v m => v.endWait m.key 0#3) u.releaseDevice).setReg rd (BitVec.ofNat 64 sel.length)))) ∧
  (∀ (s : State) (rd ra rb r : SReg) (st : BitVec 3), Plain s →
    (s.thr.wa = .done r st → FallsThrough (.waddr rd ra rb) s
      ({ (if st.toNat ≤ 1 then s.acquireBoth else s) with thr := { s.thr with wa := .none } }.setReg r (st.setWidth 64))) ∧
    (s.thr.wa = .armed r → Waits (.waddr rd ra rb) s s)) ∧
  (∀ (s : State) (key : Nat),
    exec (.monitorEvict key) s = .next (s.endWait key 3#3) ∧
    ∀ st : BitVec 3,
      (s.endWait key st).monitors = s.monitors.filter (fun m => m.key ≠ key) ∧
      (∀ k, k ≠ key → (s.endWait key st).getThr k = s.getThr k) ∧
      (∀ r, (s.getThr key).wa = .armed r → (s.endWait key st).getThr key = { s.getThr key with wa := .done r st, waiting := false }) ∧
      ((∀ r, (s.getThr key).wa ≠ .armed r) → (s.endWait key st).getThr key = s.getThr key))

/-! ## Fences, groups, barriers, forks, loops (01 sections 1.5 and 1.7, 08 sections 8.4 and 8.5, 10 sections 10.5 to 10.8) -/

/-- The state with its late stores replaced. -/
def Sys2Proof.Safety.withLate (s : State) (f : Late → Late) : State := { s with late := s.late.map f }

/-- R242, R243, R276, R277, R278, R279, R273, R275, R158, R159 with Table 11.16. That a fence performs the stores it orders, and that loads
are performed as they run, is the model's choice among the orders allowed (log entry 5). -/
def Obligations.FencesOrderStoresAndHintsMove : Prop :=
  (∀ s : State, Plain s →
    let core := coreOf s.cur
    (∀ ll ls sl ss sc, FallsThrough (.fence ll ls sl ss sc) s (withLate s fun e =>
      if (sl = true ∨ ss = true) ∧ e.uid = s.thr.uid ∧ e.way.path ∈ [Path.scalar, .vector, .vectorLoose] then e.performed core sc.toNat
      else e)) ∧
    (∀ p q sc, FallsThrough (.pfence p q sc) s (withLate s fun e =>
      let P := Path.ofCode p.toNat
      let Q := Path.ofCode q.toNat
      let own := e.uid = s.thr.uid ∧ e.way.path.base = P
      let x := if own then e.performed core sc.toNat else e
      let read := e.seen.any fun k => k.1 == s.thr.uid && k.2.1 == P && k.2.2.isSome
      if Q.place ≤ sc.toNat ∧ (own ∨ read = true) ∧ (s.thr.uid, Q, none) ∉ x.seen then { x with seen := (s.thr.uid, Q, none) :: x.seen }
      else x)) ∧
    OnlyMoves .nop s (Fallen s.trip) ∧
    ∀ n : BitVec 3, FallsThrough (.ecls n) s { s with thr := { s.thr with eclass := n } }) ∧
  (∀ (s : State) (r : Reader) (e : Late) (core sc : Nat),
    let own := r.path ≠ .outside ∧ e.way.path ≠ .outside ∧ r.uid = e.uid
    (¬own → s.reach core r ≤ sc → s.hides r (e.performed core sc) = false) ∧
    s.hides r (e.noted r) = false ∧
    ((r.uid, r.path.base, none) ∈ e.seen → s.hides r e = false) ∧
    (own →
      ((e.way.path, r.path) ∈ [(Path.scalar, Path.scalar), (.vector, .vector), (.vectorLoose, .vector), (.matrix, .matrix), (.vector, .scalar)] →
        s.hides r e = false) ∧
      (r.inst ≠ 0 → e.way.inst = r.inst → e.way.path = r.path → s.hides r e = false) ∧
      ((e.way.path, r.path) ∈ [(Path.scalar, Path.vector), (.scalar, .matrix), (.scalar, .copy), (.vector, .matrix), (.vector, .copy),
          (.vectorLoose, .scalar), (.matrix, .scalar), (.matrix, .vector), (.copy, .scalar), (.copy, .vector), (.copy, .copy)] →
        r.inst = 0 → e.seen = [] → s.hides r e = true))) ∧
  (∀ s : State,
    (∀ qs sc, ∀ e ∈ s.late, (∃ q ∈ qs, Carried s q e) →
      ∃ d ∈ (s.release qs sc).late, d = { e with perf := d.perf } ∧ (coreOf s.cur, sc + 1) ∈ d.perf) ∧
    ∀ r : Reader, r.uid = s.thr.uid → r.path ∈ [Path.scalar, .vector] →
      ∀ e ∈ s.acquireBoth.late, e.uid = s.thr.uid → e.way.path ≠ .outside → s.performedFor e (s.reader .scalar) = true →
        s.hides r e = false) ∧
  (∀ (s : State) (r : Reader) (gen : Gen) (pa : Nat) (bs : List Byte),
    let after := s.viewed r gen pa bs
    ((∀ e ∈ s.late, e.touches gen pa bs.length = false) → after = (bs, s)) ∧
    ((∀ e ∈ s.late, e.touches gen pa bs.length = true → s.hides r e = false) →
      after.1 = bs ∧ SameLate s after.2 ∧ after.2 = { s with late := after.2.late, free := after.2.free }) ∧
    (∀ e, s.late = [e] → e.touches gen pa bs.length = true → s.hides r e = true →
      after = if Config.unseen s.free 0 = true then
          (bs.zipIdx.map fun (b, i) => if e.pa ≤ pa + i ∧ pa + i < e.pa + e.old.length then e.old.getD (pa + i - e.pa) b else b,
           { s with free := s.free + 1 })
        else (bs, { s with late := [e.noted r], free := s.free + 1 })) ∧
    ∀ u e, s.late = [u, e] → u.touches gen pa bs.length = true → s.hides r u = false → u.settledFor r = false → s.follows r u e = true →
      ∀ d, after.2.late[1]? = some d → s.hides r d = false) ∧
  ∀ (s : State) (r : Reader) (u e : Late), u.uid = e.uid → u.way.path ≠ .outside → e.way.path ≠ .outside →
    u.way.path = .matrix ∧ e.way.path = .matrix ∨ u.way.ord = true ∧ u.way.inst = e.way.inst ∧ u.way.path = e.way.path ∨
      u.way.path = .scalar ∧ u.way.so = false ∧ e.way.path ∈ [Path.scalar, .vector] ∧ r.uid ≠ u.uid ∧ s.reach u.core r = 0 →
    s.follows r u e = true

/-- R247, R20, R21. -/
def Obligations.GroupQueriesReadTheTable : Prop :=
  ∀ (s : State) (rd ra rb : SReg), Plain s → Readable s ra → Readable s rb →
    let g := (s.reg ra).toNat
    (g < 256 →
      Gives (.gsize rd ra) s rd (BitVec.ofNat 64 (s.members g).length) ∧
      (s.isMember g = true →
        Gives (.grank rd ra) s rd (BitVec.ofNat 64 ((s.members g).takeWhile fun x => decide (x < s.thr.index)).length)) ∧
      (s.isMember g = false → Gives (.grank rd ra) s rd (BitVec.ofInt 64 (-1))) ∧
      (∀ index, (s.members g)[(s.reg rb).toNat]? = some index →
        Gives (.gmember rd ra rb) s rd ((s.memberToken index).setWidth 64)) ∧
      ((s.members g).length ≤ (s.reg rb).toNat → Gives (.gmember rd ra rb) s rd 0#64)) ∧
    (256 ≤ g → ∀ i ∈ [Instr.gsize rd ra, .grank rd ra, .gmember rd ra rb], TrapsHere i s s ⟨Cause.shape, 0#8, wordValue i⟩)

/-- R54, R244, R245, R246. -/
def Obligations.BarriersCountArrivals : Prop :=
  (∀ (s : State) (b : BReg) (ra : SReg), Plain s → Readable s ra →
    let g := (s.reg ra).toNat
    (g < 256 → s.isMember g = true →
      FallsThrough (.bset b ra) s { s with thr := { s.thr with arch := { s.thr.arch with
        breg := s.thr.arch.breg.set b.toNat
          { bound := true, group := BitVec.ofNat 8 g, target := (s.barrier g b.toNat).phi, tag := s.thr.genS, bad := false } b.isLt } } }) ∧
    (256 ≤ g ∨ s.isMember g = false → TrapsHere (.bset b ra) s s ⟨Cause.shape, 0#8, wordValue (.bset b ra)⟩)) ∧
  (∀ (s : State) (rd rb : SReg) (b : BReg), Plain s → Readable s rb →
    let r := s.thr.arch.breg.get b.toFin
    let x := s.barrier r.group.toNat b.toNat
    let n := (s.members r.group.toNat).length
    let cur := if r.target = x.phi then x.cur + 1 else x.cur
    let nxt := if r.target = x.phi then x.nxt else x.nxt + 1
    let y : Barrier := if cur = n then { x with phi := x.phi + 1, cur := nxt, nxt := 0 } else { x with cur := cur, nxt := nxt }
    let bound := r.bound = true ∧ r.tag = s.thr.genS
    (bound → r.bad = false → r.target ≠ x.phi + 2 →
      FallsThrough (.arrive rd b) s
        ({ s with
          late := (s.release [.scalar, .vector] (s.groupScope r.group.toNat)).late
          barriers := y :: s.barriers.filter fun z => !(z.launch == y.launch && z.group == y.group && z.num == y.num)
          thr := { s.thr with arch := { s.thr.arch with
            breg := s.thr.arch.breg.set b.toNat { r with target := r.target + 1 } b.isLt } } }.setReg rd
          (BitVec.ofNat 64 (r.target % 2)))) ∧
    (bound → r.bad = false → r.target = x.phi + 2 → Waits (.arrive rd b) s s) ∧
    (bound → r.bad = false → (x.phi % 2 ≠ (s.reg rb).toNat % 2 → FallsThrough (.bwait b rb) s s.acquireBoth) ∧
      (x.phi % 2 = (s.reg rb).toNat % 2 → Waits (.bwait b rb) s s)) ∧
    (¬bound → ∀ i ∈ [Instr.arrive rd b, .bwait b rb], TrapsHere i s s ⟨Cause.vstate, 2#8, wordValue i⟩))

/-- R24, R25, R26, R146, R248 with Table 1.5. What the child has of its parent that Table 1.5 does not name, its launch, its context and its
place in storage, is the model's choice (log entry 11). -/
def Obligations.ForksSplitTheRows : Prop :=
  ∀ (s : State) (rd ra : SReg), Plain s → s.thr.bound = true → Readable s ra →
    let m := s.ucr.vrows.toNat
    let upper := m / 2 * s.ucr.vlen.toNat
    let granule := upper * s.ucr.sewBytes % 64 = 0
    let gens := [0, 1, 2, 3].map fun q => (s.allocGen (coreOf s.cur) q).1
    ((s.reg ra).toNat % 4 = 0 → ∀ key, s.forkSlot = some key → 2 ≤ m → granule → none ∉ gens →
      ∃ t, exec (.lfork rd ra) s = .next t ∧
        t.reg rd = 0#64 ∧ (∀ r, r ≠ rd → t.reg r = s.reg r) ∧ (∀ k, t.maskReg k = s.maskReg k) ∧
        t.ucr = { s.ucr with vrows := BitVec.ofNat 9 (m / 2) } ∧ t.trip = Fallen s.trip ∧
        (∀ a, t.byte a = s.byte a) ∧
        let c := t.getThr key
        c.bound = true ∧ c.parent = some s.cur ∧ c.launch = s.thr.launch ∧ c.asid = s.thr.asid ∧
        c.arch.trip = Triple.start (s.reg ra) ∧ c.arch.ucr = { s.ucr with vrows := BitVec.ofNat 9 (m - m / 2) } ∧
        c.arch.qrows = 0#64 ∧ c.arch.qlen = 0#64 ∧
        (∀ r : Fin 32, c.arch.sreg.get r = (if BitVec.ofFin r = rd then 1#64 else s.reg (BitVec.ofFin r)) ∧ c.arch.stag.get r = c.genS) ∧
        (∀ b : Fin 8, (c.arch.breg.get b).bound = false) ∧ c.loop = none ∧
        [c.genS, c.genV, c.genM, c.genA].map some = gens ∧ c.genP = s.thr.genP ∧
        t.thr.forks = s.thr.forks ++ [⟨key, s.ucr.vlen, s.ucr.vrows, s.ucr.vsew, s.thr.arch.qrows, s.thr.arch.qlen, false, false⟩] ∧
        (s.ucr.elems ≤ 65536 → ∀ k : KReg, ∀ e, e < (m - m / 2) * s.ucr.vlen.toNat →
          (t.switchTo key).maskBitAt k 0 e = s.maskBitAt k 0 (upper + e)) ∧
        (Canonical s → s.thr.vbase % 64 = 0 → s.thr.roff % 64 = 0 → s.thr.roff + s.ucr.elems * s.ucr.sewBytes ≤ s.ucr.capacity →
          ∀ v : VReg, v.toNat < s.ucr.regCount →
            (∀ e, e < (m - m / 2) * s.ucr.vlen.toNat → s.tag (elemAt s v (upper + e)) = s.thr.genV →
              (t.switchTo key).elemOrZero v e = s.elemOrZero v (upper + e) ∧ t.tag (elemAt s v (upper + e)) = c.genV) ∧
            ∀ e, e < upper → t.elemOrZero v e = s.elemOrZero v e ∧ t.tag (elemAt s v e) = s.tag (elemAt s v e))) ∧
    ((s.reg ra).toNat % 4 = 0 → s.forkSlot = none ∨ m < 2 ∨ ¬granule → Gives (.lfork rd ra) s rd (BitVec.ofInt 64 (-1))) ∧
    ((s.reg ra).toNat % 4 ≠ 0 → TrapsHere (.lfork rd ra) s s ⟨Cause.align, 2#8, s.reg ra⟩)

/-- Whether bit `e` of a strand's mask register is set, whatever its shape, at an element width in bytes. -/
def Sys2Proof.Safety.maskHas (t : Thread) (k : KReg) (w e : Nat) : Prop := e ∈ t.maskBits k 65536 w

/-- R25, R27, R28, R157, R249. That a join gives back the shape before the oldest fork that the strand has not joined, and that no launch
counts a fork child, is the model's choice (log entry 11). -/
def Obligations.JoinsReturnTheRows : Prop :=
  (∀ s : State, Plain s →
    ((∃ f ∈ s.thr.forks, f.ended = false) → Waits .ljoin s s) ∧
    ((∀ f ∈ s.thr.forks, f.ended = true) →
      (s.thr.parent = none → s.thr.forks = [] → OnlyMoves .ljoin s (Fallen s.trip)) ∧
      (∀ f fs, s.thr.parent = none → s.thr.forks = f :: fs →
        FallsThrough .ljoin s { s with thr := { s.thr with
          forks := []
          arch := { s.thr.arch with
            mask := s.thr.loseRows.arch.mask
            qrows := f.qrows, qlen := f.qlen
            ucr := { s.ucr with vlen := f.vlen, vrows := f.vrows, vsew := f.vsew } } } }) ∧
      ∀ pk, s.thr.parent = some pk → pk ≠ s.cur → pk < 288 →
        ∃ t, exec .ljoin s = .next t ∧ t.thr.bound = false ∧ t.launches = s.launches ∧ (∀ a, t.byte a = s.byte a) ∧
          (∀ e ∈ t.late, e.uid = s.thr.uid → e.way.path ∉ [Path.copy, .collective, .outside] → (e.core, 5) ∈ e.perf) ∧
          ((∀ f ∈ (s.getThr pk).forks, f.child ≠ s.cur) → t.tags = s.tags) ∧
          ∀ f, (s.getThr pk).forks = [f] → f.child = s.cur → f.ended = false → s.thr.forks = [] →
            let p := s.getThr pk
            let q := t.getThr pk
            q.forks = [{ f with ended := true, returned := true }] ∧
            (∀ (k : KReg) (e : Nat), k ≠ 0#4 → e < 65536 → f.first + f.count ≤ 65536 →
              (f.first ≤ e → e < f.first + f.count → (maskHas q k (2 ^ f.vsew.toNat) e ↔ maskHas s.thr k s.ucr.sewBytes (e - f.first))) ∧
              (e < f.first ∨ f.first + f.count ≤ e →
                (maskHas q k (2 ^ f.vsew.toNat) e ↔ maskHas p k (2 ^ f.vsew.toNat) e))) ∧
            (Canonical s → s.thr.vbase % 64 = 0 → s.thr.roff % 64 = 0 → s.thr.roff + s.ucr.elems * s.ucr.sewBytes ≤ s.ucr.capacity →
              (∀ v : VReg, v.toNat < s.ucr.regCount → ∀ e, e < s.ucr.elems → s.tag (elemAt s v e) = s.thr.genV →
                t.tag (elemAt s v e) = p.genV) ∧
              ∀ a, a < windowAddr (coreOf s.cur) s.thr.vbase ∨ windowAddr (coreOf s.cur) (s.thr.vbase + s.ucr.regCount * s.ucr.capacity) ≤ a →
                t.tag a = s.tag a))) ∧
  ∀ (t : Thread),
    ((∀ f ∈ t.forks, f.returned = true) → t.loseRows = t) ∧
    ∀ f, t.forks = [f] → f.returned = false → f.first + f.count ≤ 65536 → ∀ (k : KReg) (e : Nat), k ≠ 0#4 → e < 65536 →
      (maskHas t.loseRows k (2 ^ f.vsew.toNat) e ↔ maskHas t k (2 ^ f.vsew.toNat) e ∧ ¬(f.first ≤ e ∧ e < f.first + f.count))

/-- R32, R33, R34, R37, R38, R193, R194, R195, R197 with Table 8.7. That a `ubrk` does not resolve before the posted instructions ahead of it
have retired follows R292, as log entry 1 reads it. -/
def Obligations.LoopInstructionsOpenAndCloseStrips : Prop :=
  (∀ (s : State) (h c : BitVec 2) (k : KReg) (n : Bool) (off : BitVec 15), Plain s →
    let set := ((List.range s.ucr.elems).filter (s.maskBitAt k 0)).length
    let taken := match c.toNat with
      | 0 => 0 < set
      | 1 => set = 0
      | 2 => set = s.ucr.elems
      | _ => set < s.ucr.elems
    FallsThrough (.uloop h) s { s with thr := { s.thr with loop := some { horizon := h, next := 0#32 } } } ∧
    (taken → OnlyMoves (.vbx k c n off) s (Safety.Taken s.trip (BitVec.ofInt 64 (s.trip.pc.toNat + off.toInt * 4)))) ∧
    (¬taken → OnlyMoves (.vbx k c n off) s (Safety.NotTaken s.trip n)) ∧
    (s.thr.loop = none → TrapsHere (.ubrk k off) s s ⟨Cause.vstate, 3#8, wordValue (.ubrk k off)⟩)) ∧
  (∀ (s : State) (k : KReg) (off : BitVec 15) (l : ULoop), s.thr.replaying = false → s.thr.rpt = none → s.thr.loop = some l →
    ∃ u : Unresolved, u.strip = l.next ∧ u.mask = k ∧ u.older = 0 ∧ u.hit = ((List.range s.ucr.elems).filter (s.maskBitAt k 0)).head? ∧
      u.exit = BitVec.ofInt 64 (s.trip.pc.toNat + off.toInt * 4) ∧ u.arch = s.thr.arch ∧
      FallsThrough (.ubrk k off) s
        { s with thr := { s.thr with loop := some { l with next := l.next + 1#32 }, unres := s.thr.unres ++ [u] } }) ∧
  (∀ (s : State) (u : Unresolved) (us : List Unresolved), s.thr.unres = u :: us →
    (u.older ≠ 0 → exec .ubrkResolve s = .next s) ∧
    (u.older = 0 → u.hit = none → exec .ubrkResolve s = .next (performHeld 0 (s.thr.held.filter fun h => h.strip == u.strip)
      { s with thr := { s.thr with
          unres := us, held := s.thr.held.filter (fun h => h.strip != u.strip)
          defer := if us = [] then false else s.thr.defer, waiting := if us = [] then false else s.thr.waiting } })) ∧
    ∀ e, u.older = 0 → u.hit = some e → ∃ t, exec .ubrkResolve s = .next t ∧
      t.thr.replay = (if s.thr.replaying = true then [] else s.thr.replay) ∧ t.thr.replaying = false ∧
      t.thr.arch.sreg = u.arch.sreg ∧ t.thr.arch.stag = u.arch.stag ∧ t.thr.arch.sbad = u.arch.sbad ∧ t.thr.arch.breg = u.arch.breg ∧
      t.ucr = { u.arch.ucr with xidx := BitVec.ofNat 16 e, xstrip := u.strip } ∧
      t.trip = { pc := u.exit, npc := u.exit + 4#64, nnpc := u.exit + 8#64, a0 := false, a1 := false, a2 := false } ∧
      t.maskReg 14#4 = { form := .explicit ((List.range t.ucr.elems).filter fun i => decide (i < e)),
                         tags := Vector.replicate 128 s.thr.genM, bad := [] } ∧
      (∀ k, k ≠ 14#4 → t.maskReg k = u.arch.mask.get k.toFin) ∧
      t.thr.loop = none ∧ t.thr.unres = [] ∧ t.thr.held = [] ∧
      (Canonical s → Memory.wf u.cells = true → ∀ a, t.byte a = if s.ownVector a = true then Sparse.get memDefault u.cells a else s.byte a)) ∧
  (∀ (s : State) (h : HeldStore) (hs : List HeldStore) (last : Nat),
    performHeld last [] s = s ∧
    performHeld last (h :: hs) s =
      performHeld h.way.inst hs (State.performPast (if last = h.way.inst ∧ h.way.inst ≠ 0 then s else { s with wrote := [] }) h)) ∧
  ∀ (s : State) (h : HeldStore), (∀ core off, s.region h.pa = .window core off → s.owns core off = true) →
    h.data ≠ [] → h.pa % 64 + h.data.length ≤ 64 → Canonical s →
    let t := s.performPast h
    StoredTo s t h.pa h.data ∧ t.thr = { s.thr with unres := t.thr.unres } ∧ t.thr.unres.length = s.thr.unres.length ∧
    ∀ (i : Nat) (u : Unresolved), s.thr.unres[i]? = some u → ∃ v, t.thr.unres[i]? = some v ∧
      v = { u with cells := v.cells, tags := v.tags, bad := v.bad } ∧
      (s.vectorSide h.pa = false → v = u) ∧
      ∀ off, s.vectorSide h.pa = true → s.region h.pa = .window (coreOf s.cur) off → Memory.wf u.cells = true →
        ∀ a, h.pa ≤ a → a < h.pa + h.data.length → Sparse.get memDefault v.cells a = t.byte a

/-- The forms of format V that a group captures (Table 6.11). -/
def Sys2Proof.Safety.capturedV : List (VArgs → Instr) :=
  [.vadd, .vsub, .vrsub, .vmul, .vmulh, .vmulhu, .vdiv, .vdivu, .vrem, .vremu, .vmin, .vmax, .vminu, .vmaxu] ++
  [.vand, .vor, .vxor, .vandn, .vsll, .vsrl, .vsra, .vsadd, .vssub, .vsaddu, .vssubu, .vmerge, .vmacc, .vnmsac, .vabsd, .vmulq] ++
  [.vfadd, .vfsub, .vfmul, .vfdiv, .vfma, .vfms, .vfnma, .vfmin, .vfmax, .vfsgnj, .vfsgnjn, .vfsgnjx] ++
  [.vredsum, .vredmax, .vredmin, .vredor, .vredand, .vfredsum, .vfredmax, .vfredmin]

/-- The captured forms of one source. -/
def Sys2Proof.Safety.captured1 : List (V1Args → Instr) :=
  [.vclz, .vpopc, .vfsqrt, .vfrcp, .vfrsq, .vfexp2, .vflog2, .vfsigm, .vftanh, .vfcls]

/-- R149, R150 with Table 6.11. That the capture ends at a word which cannot be fetched, that pass 0 runs with unmodified fields even for a
register at or above the count, and that the scalar vb of a form with s = 1 is not stepped, is the model's reading (DEDUCED, log entry 34). -/
def Obligations.RptStagesItsGroup : Prop :=
  (∀ (s : State) (cnt : BitVec 4) (reps : BitVec 6) (sd sa sb : BitVec 4), Plain s → s.thr.rptResume = none →
    let ws := (captureWords (cnt.toNat + 1) (Fallen s.trip) s).1
    let u := (captureWords (cnt.toNat + 1) (Fallen s.trip) s).2
    exec (.rpt cnt reps sd sa sb) s = .next { u with thr := { u.thr with
      arch := { u.thr.arch with trip := (List.range (ws.length + 1)).foldl (fun t _ => Fallen t) s.trip }
      rpt := if ws = [] then none
        else some { start := s.trip, words := ws, reps := reps.toNat + 1, sd := sd.toNat, sa := sa.toNat, sb := sb.toNat, pass := 0, word := 0 }
      rptResume := none, waiting := false, deferLog := false } }) ∧
  (∀ g : RptGroup,
    (g.word + 1 < g.words.length → g.after = some { g with word := g.word + 1 }) ∧
    (g.words.length ≤ g.word + 1 → g.pass + 1 < g.reps → g.after = some { g with word := 0, pass := g.pass + 1 }) ∧
    (g.words.length ≤ g.word + 1 → g.reps ≤ g.pass + 1 → g.after = none)) ∧
  (∀ (n : Nat) (t : Triple) (s : State), captureWords 0 t s = ([], s) ∧
    (t.a0 = true → captureWords n t s = ([], s)) ∧
    ((∀ w u, fetchWord t.pc s ≠ .done w u) → captureWords n t s = ([], s)) ∧
    ∀ w u, t.a0 = false → fetchWord t.pc s = .done w u →
      let major := w.toNat / 2 ^ 26
      let taken := 0x1E ≤ major ∧ major ≤ 0x2E ∧ major ≠ 0x26
      (¬taken → captureWords n t s = ([], s)) ∧
      (∀ e, decode w = .error e → captureWords n t s = ([], s)) ∧
      ∀ i, taken → decode w = .ok i → captureWords (n + 1) t s =
        ((i, t.pc) :: (captureWords n (Fallen t) u).1, (captureWords n (Fallen t) u).2)) ∧
  (∀ (g : RptGroup) (rc : Nat) (f : V1Args) (a : Word), 0 < rc → rc ≤ 64 → ∀ mk ∈ captured1, g.words[g.word]? = some (mk f, a) →
    (g.pass = 0 → g.current rc = some (mk f)) ∧
    (0 < g.pass → ∃ h : V1Args, g.current rc = some (mk h) ∧
      h.vd.toNat = (f.vd.toNat + g.pass * g.sd) % rc ∧ h.va.toNat = (f.va.toNat + g.pass * g.sa) % rc ∧ h.ca = f.ca ∧ h.km = f.km)) ∧
  (∀ (g : RptGroup) (rc : Nat) (vd va : VReg) (rm : BitVec 3) (sat : Bool) (km : BitVec 2) (dst src : BitVec 4) (a : Word), 0 < rc → rc ≤ 64 →
    g.words[g.word]? = some (.vcvt vd va rm sat km dst src, a) →
    (g.pass = 0 → g.current rc = some (.vcvt vd va rm sat km dst src)) ∧
    (0 < g.pass → ∃ d b : VReg, g.current rc = some (.vcvt d b rm sat km dst src) ∧
      d.toNat = (vd.toNat + g.pass * g.sd) % rc ∧ b.toNat = (va.toNat + g.pass * g.sa) % rc)) ∧
  (∀ (g : RptGroup) (rc : Nat) (f : VArgs) (a : Word), 0 < rc → rc ≤ 64 → ∀ mk ∈ capturedV, g.words[g.word]? = some (mk f, a) →
    (g.pass = 0 → g.current rc = some (mk f)) ∧
    (0 < g.pass → ∃ h : VArgs, g.current rc = some (mk h) ∧
      h.vd.toNat = (f.vd.toNat + g.pass * g.sd) % rc ∧ h.va.toNat = (f.va.toNat + g.pass * g.sa) % rc ∧
      (f.s = false → h.vb.toNat = (f.vb.toNat + g.pass * g.sb) % rc) ∧ (f.s = true → h.vb = f.vb) ∧
      h.s = f.s ∧ h.ca = f.ca ∧ h.cb = f.cb ∧ h.km = f.km))

/-! ## The matrix array, copies, collectives (09 sections 9.1 and 9.4, 10 sections 10.9 and 10.10) -/

/-- The bits of MXERR that the written elements of a step set. -/
def Sys2Proof.Safety.orMx (is js : List Nat) (f : Nat → Nat → BitVec 19) : BitVec 19 :=
  is.foldl (fun acc i => js.foldl (fun acc j => acc ||| f i j) acc) 0#19

/-- The strand's registers after a product: VSTART is 0, MXERR has the bits, MROW has moved, NSTAT is written where the instruction
writes it, the triple has fallen through. -/
def Sys2Proof.Safety.productEnd (s : State) (mx : BitVec 19) (rows : Nat) (st : Option (BitVec 2)) : Arch :=
  { s.thr.arch with
    ucr := { s.ucr with vstart := 0#16, mxerr := s.ucr.mxerr ||| mx, mrow := s.ucr.mrow + BitVec.ofNat 16 rows, nstat := st.getD s.ucr.nstat }
    trip := Fallen s.trip }

/-- Element `j` of a row of a register in a format (R199). -/
def Sys2Proof.Safety.rowElem (s : State) (v : VReg) (c : BitVec 4) (row j : Nat) : MElem :=
  MElem.ofBits c (s.elemOrZero v (row * s.ucr.vlen.toNat + j))

/-- What every product asks beside its registers: the accumulator is granted, the tile holds the rows and columns, a row lies within a register,
no mask register holds poison. -/
def Sys2Proof.Safety.TileReady (s : State) (ac : Bool) : Prop :=
  s.thr.acc.getLsbD ac.toNat = true ∧ s.ucr.vlen.toNat ≤ 256 ∧ s.thr.roff + s.ucr.vlen.toNat * s.ucr.sewBytes ≤ s.ucr.capacity ∧ MasksSound s

/-- R86, R87, R88, R198, R199, R200, R201. That a zero integer product under C = F32 has the sign + is the model's choice (DESIGN CHOICE, log entry
46). -/
def Obligations.MatrixProductsAccumulate : Prop :=
  (∀ (s : State) (ac : Bool) (va vb : VReg) (km : BitVec 3),
    let i := Instr.mop ac va vb km
    let u := s.ucr
    let n := u.vlen.toNat
    let js := (List.range n).filter (s.maskBit (kmReg km))
    let new := fun a b => updateElem u (FFmt.f32.mul .rne u.mascale.toNat 0x3F800000).bits (tileSeen s ac a b)
      (rowElem s va u.fmtA 0 a) (rowElem s vb u.fmtB 0 b)
    Plain s → (∀ v ∈ [va, vb], v.toNat < u.regCount) →
    (TileReady s ac → combination u.fmtA u.fmtB u.fmtC = true → fmtWidth u.fmtA ≤ u.sew → fmtWidth u.fmtB ≤ u.sew →
      s.poison = [] → (∀ v ∈ [va, vb], Live s v (List.range n)) →
      ∃ t, exec i s = .next t ∧
        TileResult s t ac (fun a b => if a < n ∧ b ∈ js then some (new a b).1 else none)
          (productEnd s (orMx (List.range n) js fun a b => (new a b).2) 0 none)) ∧
    (s.thr.acc.getLsbD ac.toNat = false → PostsTrap i s s ⟨Cause.vstate, 1#8, wordValue i⟩) ∧
    (s.thr.acc.getLsbD ac.toNat = true → combination u.fmtA u.fmtB u.fmtC = false → PostsTrap i s s ⟨Cause.illegal, 0#8, wordValue i⟩) ∧
    (s.thr.acc.getLsbD ac.toNat = true → combination u.fmtA u.fmtB u.fmtC = true → u.sew < fmtWidth u.fmtA ∨ u.sew < fmtWidth u.fmtB →
      PostsTrap i s s ⟨Cause.shape, 0#8, wordValue i⟩)) ∧
  (∀ (u : UserCR) (scale t : Nat) (x y e f : Int), t < 2 ^ 32 →
    let z := (BitVec.ofNat 32 t).toInt + x * y
    let c := max (-(2 ^ 31 : Int)) (min (2 ^ 31 - 1) z)
    (u.fmtC = false → u.fmtSat = false → updateElem u scale t (.int x e) (.int y f) = ((BitVec.ofInt 32 z).toNat, 0#19)) ∧
    (u.fmtC = false → u.fmtSat = true →
      updateElem u scale t (.int x e) (.int y f) = ((BitVec.ofInt 32 c).toNat, if c = z then 0#19 else Mxerr.sat)) ∧
    (u.fmtC = true → updateElem u scale t (.int x e) (.int y f) =
      ((FFmt.f32.add .rne t (roundF32 (mulVal (.fin (x * y < 0) (x * y).natAbs (e + f)) (FFmt.f32.decode scale)))).bits, 0#19))) ∧
  (∀ (u : UserCR) (scale t : Nat) (x y : FVal) (a : MElem),
    updateElem u scale t (.float x) (.float y) = ((FFmt.f32.fmaVal .rne x y (FFmt.f32.decode t)).bits, 0#19) ∧
    updateElem u scale t a .nanBlock = (if u.fmtC then 0x7FC00000 else t, Mxerr.nan))

/-- Every place outside an accumulator of the strand's core. -/
def Sys2Proof.Safety.outsideTile (s : State) (ac : Bool) (p : Nat) : Prop :=
  p < windowAddr (coreOf s.cur) (tileOff ac 0 0) ∨ windowAddr (coreOf s.cur) (tileOff ac 0 0) + 0x40000 ≤ p

/-- The pieces that a product reads: `P` gives the frame of each page, in every leaf that covers it, `bs` the bytes of each piece, whatever the
instruction has done before. -/
def Sys2Proof.Safety.PiecesRead (s : State) (ac : Bool) (ps : List (Word × Nat)) (P : Nat → Phys) (bs : Word → Nat → List Byte) : Prop :=
  ∀ x ∈ ps, ∀ u, Midway s u (outsideTile s ac) (ps.map (·.1)) →
    let p : Phys := { P (x.1.toNat / 4096) with pa := (P (x.1.toNat / 4096)).pa + x.1.toNat % 4096 }
    Reaches u x.1 .load p ∧ Loose u p.pa ∧ Sees u .matrix p.pa x.2 ∧ readBytes u p.pa x.2 = bs x.1 x.2 ∧
      ∀ e ∈ u.walks, e.covers s.thr.asid x.1.toNat = true → e.addr x.1.toNat = p.pa ∧ e.leaf.extractLsb' 62 2 = p.attr

/-- The row of B that those bytes are: columns below VLEN and DIM0 of row `r` of a tensor (R202). -/
def Sys2Proof.Safety.rowRead (s : State) (t : Tensor) (r : Nat) (bs : Word → Nat → List Byte) : List MElem :=
  rowElems t (min s.ucr.vlen.toNat t.dim0) ((rowPieces t r (min s.ucr.vlen.toNat t.dim0)).flatMap fun x => bs x.1 x.2)

/-- A tile after a step on row `k` of A and a row of B, with the bits that the step adds to MXERR (R87, R199, R202). -/
def Sys2Proof.Safety.tileStep (s : State) (va : VReg) (km : BitVec 3) (scale : Nat) (acc : (Nat → Nat → Nat) × BitVec 19) (x : Nat × List MElem) :
    (Nat → Nat → Nat) × BitVec 19 :=
  let js := (List.range s.ucr.vlen.toNat).filter fun j => s.maskBit (kmReg km) j && decide (j < x.2.length)
  let new := fun a j => updateElem s.ucr scale (acc.1 a j) (rowElem s va s.ucr.fmtA x.1 a) (x.2.getD j (.int 0 0))
  (fun a j => if a < s.ucr.vlen.toNat ∧ j ∈ js then (new a j).1 % 2 ^ 32 else acc.1 a j,
   acc.2 ||| orMx (List.range s.ucr.vlen.toNat) js fun a j => (new a j).2)

/-- R80, R81, R82, R84, R85, R87, R198, R201, R202, R203, R205, R206, R316, R362. That the zero which a dead binding contributes is a +0 that
is added, and that it is added in every column of J, is the model's choice (log entry 24). -/
def Obligations.TensorProductsReadTheirRows : Prop :=
  (∀ (s : State) (i : Instr) (ac : Bool) (va : VReg) (tid : BitVec 10) (km : BitVec 3) (ks : List Nat) (rows : Nat) (P : Nat → Phys)
      (bs : Word → Nat → List Byte),
    let u := s.ucr
    let n := u.vlen.toNat
    let t := s.tensor s.thr.asid tid.toNat
    let row := fun k => u.mrow.toNat + k
    let ps := ks.flatMap fun k => rowPieces t (row k) (min n t.dim0)
    i = .mopt ac va tid km ∧ ks = [0] ∧ rows = 1 ∨
      i = .mopk ac va tid km ∧ ks = ((List.range u.vrows.toNat).filter fun k => decide (u.vstart.toNat ≤ k)) ∧ rows = u.vrows.toNat ∧
        s.thr.goneStep = false →
    Plain s → s.thr.held = [] → va.toNat < u.regCount → s.thr.vbase + u.regCount * u.capacity ≤ 0x80000 → TileReady s ac →
    fmtWidth u.fmtA ≤ u.sew → s.poison = [] → t.live = true → combination u.fmtA t.fmt u.fmtC = true →
    (∀ k ∈ ks, row k < t.dim1 ∧ Live s va ((List.range n).map fun j => k * n + j) ∧
      s.thr.roff + (k + 1) * n * u.sewBytes ≤ u.capacity) →
    (∀ v, Midway s v (outsideTile s ac) (ps.map (·.1)) →
      v.tensor s.thr.asid tid.toNat = t ∧ (v.resolve s.cluster s.thr.asid t.name).1.st = 0#2) →
    PiecesRead s ac ps P bs →
    let r := (ks.map fun k => (k, rowRead s t (row k) bs)).foldl (tileStep s va km (tensorScale u t)) (tileSeen s ac, 0#19)
    ∃ w, exec i s = .next w ∧
      TileResult { s with late := w.late, walks := w.walks, nameCache := w.nameCache, free := w.free } w ac
        (fun a j => if a < n ∧ j < n then some (r.1 a j) else none) (productEnd s r.2 rows (some 0#2))) ∧
  (∀ (s : State) (ac : Bool) (va vb : VReg) (km : BitVec 3) (cause : Nat → Option (BitVec 2)) (P : Nat → Phys) (bs : Word → Nat → List Byte),
    let u := s.ucr
    let n := u.vlen.toNat
    let gs := List.range ((n + 15) / 16)
    let rc := fun g => s.record s.thr.asid (s.elemOrZero vb g)
    let t := fun g => s.tensor s.thr.asid (rc g).tid
    let row := fun g => (rc g).rowBase + u.mrow.toNat
    let ps := (gs.filter fun g => (cause g).isNone).flatMap fun g => rowPieces (t g) (row g) (min n (t g).dim0)
    Plain s → s.thr.held = [] → (∀ v ∈ [va, vb], v.toNat < u.regCount) → TileReady s ac → fmtWidth u.fmtA ≤ u.sew →
    someCombination u.fmtA u.fmtC = true → s.poison = [] → Live s va (List.range n) → Live s vb gs →
    (∀ g ∈ gs, (∀ v, Midway s v (outsideTile s ac) (ps.map (·.1)) → ∃ w, recordCheck (s.elemOrZero vb g) v = .done (cause g) w) ∧
      (cause g = none → row g < (t g).dim1)) →
    PiecesRead s ac ps P bs →
    let b := fun g => rowRead s (t g) (row g) bs
    let js := (List.range n).filter (s.maskBit (kmReg km))
    let new := fun a j => match cause (a / 16) with
      | none =>
        if j < (b (a / 16)).length then
          some (updateElem u (tensorScale u (t (a / 16))) (tileSeen s ac a j) (rowElem s va u.fmtA 0 a) ((b (a / 16)).getD j (.int 0 0)))
        else none
      | some _ => some (if u.fmtC then (FFmt.f32.add .rne (tileSeen s ac a j) 0).bits else tileSeen s ac a j, 0#19)
    let bits := gs.foldl (fun x g => if cause g = none then x else x ||| 1#19 <<< g) 0#19
    ∃ w, exec (.mopi ac va vb km) s = .next w ∧
      TileResult { s with late := w.late, walks := w.walks, nameCache := w.nameCache, free := w.free } w ac
        (fun a j => if a < n ∧ j ∈ js then (new a j).map (·.1) else none)
        (productEnd s (bits ||| orMx (List.range n) js fun a j => ((new a j).map (·.2)).getD 0#19) 1
          (some (if ∃ g ∈ gs, cause g = some 1#2 then 1#2 else if ∃ g ∈ gs, cause g = some 2#2 then 2#2 else 0#2)))) ∧
  (∀ (s : State) (ac : Bool) (va : VReg) (tid : BitVec 10) (km : BitVec 3),
    let t := s.tensor s.thr.asid tid.toNat
    let u := s.ucr
    Plain s → s.poison = [] → va.toNat < u.regCount → TileReady s ac → fmtWidth u.fmtA ≤ u.sew → (t.live = true → combination u.fmtA t.fmt u.fmtC = true) →
      (∀ gone w, tensorStep (.mopt ac va tid km) ac va tid km 0 u.mrow.toNat s = .done gone w →
        FallsThrough (.mopt ac va tid km) s (w.endProduct 1 (if gone then 1#2 else 0#2))) ∧
      (∀ x w, tensorStep (.mopt ac va tid km) ac va tid km 0 u.mrow.toNat s = .trap x w → PostsTrap (.mopt ac va tid km) s (cleared w) x) ∧
      let s' := s.mapThr fun h => { h with goneStep := false }
      let run := mopkSteps (.mopk ac va tid km) ac va tid km u.mrow.toNat
        ((List.range u.vrows.toNat).filter fun k => decide (u.vstart.toNat ≤ k)) s'
      (∀ gone w, run = .done gone w → FallsThrough (.mopk ac va tid km) s
        ((w.endProduct w.ucr.vrows.toNat (if gone then 1#2 else 0#2)).mapThr fun h => { h with goneStep := false })) ∧
      (∀ x w, run = .trap x w → PostsTrap (.mopk ac va tid km) s w x)) ∧
  (∀ (s : State) (i : Instr) (ac : Bool) (va : VReg) (tid : BitVec 10) (km : BitVec 3) (k r : Nat),
    let t := s.tensor s.thr.asid tid.toNat
    let n := s.ucr.vlen.toNat
    let live := t.live = true ∧ (s.resolve s.cluster s.thr.asid t.name).1.st = 0#2
    s.poison = [] → n ≤ 256 → MasksSound s → Live s va ((List.range n).map fun j => k * n + j) →
    s.thr.roff + (k + 1) * n * s.ucr.sewBytes ≤ s.ucr.capacity →
    (t.live = true → t.dim1 ≤ r → tensorStep i ac va tid km k r s = .trap ⟨Cause.shape, 0#8, wordValue i⟩ s) ∧
    ((t.live = true → r < t.dim1) → ¬live → ∃ w, tensorStep i ac va tid km k r s = .done true w ∧
      w.ucr = { s.ucr with mxerr := s.ucr.mxerr ||| Mxerr.gone } ∧
      ∀ a j, a < 256 → j < 256 → tileSeen w ac a j =
        if a < n ∧ j ∈ (List.range n).filter (s.maskBit (kmReg km)) ∧ s.ucr.fmtC = true
        then (FFmt.f32.add .rne (tileSeen s ac a j) 0).bits else tileSeen s ac a j)) ∧
  (∀ (t : Tensor) (r n : Nat),
    let va := t.base + BitVec.ofNat 64 (r * t.stride1 * 32)
    let places := (rowPieces t r n).flatMap fun x => (List.range x.2).map fun i => x.1 + BitVec.ofNat 64 i
    let from_ := fun (a : Word) (k : Nat) => (List.range k).map fun i => a + BitVec.ofNat 64 i
    (∀ x ∈ rowPieces t r n, x.1.toNat % 32 + x.2 ≤ 32) ∧
    (t.fmt ≠ 14#4 → places = from_ va (n * (fmtWidth t.fmt / 8))) ∧
    (t.fmt = 14#4 → places = (List.range ((n + 255) / 256)).flatMap fun b =>
      from_ (va + BitVec.ofNat 64 (288 * b)) (32 * t.planes) ++ from_ (va + BitVec.ofNat 64 (288 * b + 256)) 32)) ∧
  (∀ (t : Tensor) (n j : Nat) (bs : List Byte), j < n →
    let w := fmtWidth t.fmt / 8
    let p := t.planes
    let block := bs.drop (j / 256 * (32 * p + 32))
    let e := j % 256
    let q := ((List.range p).map fun i => if ((block.getD (32 * i + e / 8) 0#8).getLsbD (e % 8)) = true then 2 ^ (p - 1 - i) else 0).sum
    let sc := (block.getD (32 * p + e / 8) 0#8).toNat
    (t.fmt ≠ 14#4 → (rowElems t n bs)[j]? = some (MElem.ofBits t.fmt (numOf ((bs.drop (j * w)).take w)))) ∧
    (t.fmt = 14#4 → 0 < p → (rowElems t n bs)[j]? = some (if sc = 255 then .nanBlock
      else .int ((BitVec.ofNat p q).toInt * 2 ^ (8 - p) + if t.mid = true ∧ p < 8 then 2 ^ (7 - p) else 0) ((sc : Int) - 127)))) ∧
  (∀ (s : State) (idx : Nat),
    let r := s.record s.thr.asid idx
    let t := s.tensor s.thr.asid r.tid
    let live := r.state = 1#2 ∧ t.live = true ∧ (s.resolve s.cluster s.thr.asid t.name).1.st = 0#2
    let v := (s.resolve s.cluster s.thr.asid t.name).2
    let granted := (v.resolve s.cluster s.thr.asid r.name).1.st = 0#2
    let finds := fun (c : Option (BitVec 2)) => ∃ w, recordCheck idx s = .done c w
    (1024 ≤ idx → recordCheck idx s = .done (some 0#2) s) ∧
    (idx < 1024 → s.poison = [] →
      (¬live → finds (some 1#2)) ∧
      (live → r.asid ≠ s.thr.asid ∨ ¬granted → finds (some 2#2)) ∧
      (live → r.asid = s.thr.asid → granted →
        finds (if s.ucr.mrow.toNat < r.rowCount ∧ combination s.ucr.fmtA t.fmt s.ucr.fmtC = true then none else some 0#2))))

/-- R200, R209, R210, R211, R378. -/
def Obligations.TileTransfersMoveBits : Prop :=
  ∀ (s : State) (ac : Bool) (v : VReg) (sb : SReg) (km : BitVec 3),
    let u := s.ucr
    let es := s.active (kmReg km)
    let place := fun e => (u.mrow.toNat + e / u.vlen.toNat, e % u.vlen.toNat)
    let tilePa := fun e => windowAddr (coreOf s.cur) (tileOff ac (place e).1 (place e).2)
    let granted := s.thr.acc.getLsbD ac.toNat = true
    let fits := u.mrow.toNat + u.vrows.toNat ≤ 256
    let apart := s.thr.vbase + u.regCount * u.capacity ≤ 0x80000
    let agree := ∀ row, Sparse.get 0#32 s.sums (sumKey (coreOf s.cur) ac row) = 0#32
    (VectorReady s [v] → TileReady s ac → fits → u.sew = 32 → apart → agree →
      ((u.genmode = 0#1 ∨ ∀ e ∈ es, s.tag (tilePa e) = s.thr.genA) →
        ∃ t, exec (.mva ac v km) s = .next t ∧
          VectorResult s t v es (fun e => tileSeen s ac (place e).1 (place e).2) (vectorEnd s 0#5)) ∧
      (Live s v es → ∃ t, exec (.mav ac v km) s = .next t ∧
        TileResult s t ac (fun a b => (es.find? fun e => decide (place e = (a, b))).map (s.elemOrZero v)) (vectorEnd s 0#5))) ∧
    (Plain s → MasksSound s → Readable s sb → granted → fits →
      let rs : Word := if u.vrstr = 0#64 then BitVec.ofNat 64 (4 * u.vlen.toNat) else u.vrstr
      let addr := fun e => s.reg sb + BitVec.ofNat 64 (e / u.vlen.toNat) * rs + BitVec.ofNat 64 (4 * (e % u.vlen.toNat))
      let loads := forElems (fun e t => (aligned (addr e) 4 .load t).andThen fun _ t => (load .matrix (addr e) 4 t).andThen fun bs t =>
        .done () (t.tileWrite ac (place e).1 (place e).2 (numOf bs))) es s
      let stores := forElems (fun e t => (checksumOk ac (place e).1 (place e).2 t).andThen fun _ t =>
        (tileSource ac (place e).1 (place e).2 t).andThen fun x t =>
        (aligned (addr e) 4 .store t).andThen fun _ t => store Path.matrix.plain (addr e) (bytesOf 4 x) t) es s
      (∀ w, loads = .done () w → FallsThrough (.mld ac sb km) s (cleared w)) ∧
      (∀ x w, loads = .trap x w → PostsTrap (.mld ac sb km) s w x) ∧
      (∀ w, stores = .done () w → FallsThrough (.mst ac sb km) s (cleared w)) ∧
      (∀ x w, stores = .trap x w → PostsTrap (.mst ac sb km) s w x) ∧
      ∀ (P : Nat → Phys) (bs : Nat → List Byte), TileReady s ac → s.poison = [] → (∀ e ∈ es, (addr e).toNat % 4 = 0) →
        ((∀ e ∈ es, ∀ w, Midway s w (outsideTile s ac) (es.map addr) →
            Reaches w (addr e) .load (P e) ∧ Loose w (P e).pa ∧ Sees w .matrix (P e).pa 4 ∧ readBytes w (P e).pa 4 = bs e) →
          ∃ t, exec (.mld ac sb km) s = .next t ∧ TileResult { s with late := t.late, walks := t.walks, free := t.free } t ac
            (fun a b => (es.find? fun e => decide (place e = (a, b))).map fun e => numOf (bs e)) (vectorEnd s 0#5)) ∧
        let cells := es.flatMap fun e => (List.range 4).map fun i => (P e).pa + i
        let out := fun (q : Nat) => q ∉ cells
        (agree → (u.genmode = 0#1 ∨ ∀ e ∈ es, s.tag (tilePa e) = s.thr.genA) → (∀ e ∈ es, s.region (P e).pa = .lpddr) → cells.Nodup →
          (∀ e ∈ es, ∀ w, Varied s w out →
            (∀ x ∈ w.walks, x ∈ s.walks ∨ ∃ y a, Varied s y out ∧ a ∈ es.map addr ∧ y.walk s.thr.asid s.thr.root a.toNat = .leaf x) →
            Reaches w (addr e) .store (P e)) →
          ∃ t, exec (.mst ac sb km) s = .next t ∧
            (∀ e ∈ es, t.bytes (P e).pa 4 = bytesOf 4 (tileSeen s ac (place e).1 (place e).2)) ∧ (∀ q, out q → t.byte q = s.byte q) ∧
            t = Moved { s with mem := t.mem, late := t.late, walks := t.walks, free := t.free } (vectorEnd s 0#5))) ∧
    (Plain s → granted → s.poison = [] → ∃ t, exec (.mzero ac) s = .next t ∧
      TileResult { s with sums := t.sums } t ac (fun _ _ => some 0)
        { s.thr.arch with ucr := { u with vstart := 0#16 }, trip := Fallen s.trip } ∧
      ∀ a b, a < 256 → b < 256 → t.tag (windowAddr (coreOf s.cur) (tileOff ac a b)) = s.thr.genA ∧ Sparse.get 0#32 t.sums (sumKey (coreOf s.cur) ac a) = 0#32) ∧
    (∀ row col,
      let off := tileOff ac row col
      (Sparse.get 0#32 s.sums (sumKey (coreOf s.cur) ac row) = 0#32 → checksumOk ac row col s = .done () s) ∧
      (Sparse.get 0#32 s.sums (sumKey (coreOf s.cur) ac row) ≠ 0#32 → s.thr.deferLog = false →
        ∃ q, (∀ p, p ∈ q ↔ p ∈ s.poison ∨ ∃ k, k < 4096 ∧ p = windowAddr (coreOf s.cur) (tileOff ac 0 0) + 64 * k) ∧
          checksumOk ac row col s = .trap ⟨Cause.errunc, 0#8, BitVec.ofNat 64 off⟩
            ({ s with poison := q }.logError 0x11#8 (BitVec.ofNat 8 (coreOf s.cur)) 2#2 (BitVec.ofNat 64 (windowAddr (coreOf s.cur) off)) 2#4))) ∧
    (Plain s → v.toNat < u.regCount →
      (granted → ¬fits → ∀ i ∈ [Instr.mva ac v km, .mav ac v km, .mld ac sb km, .mst ac sb km],
        PostsTrap i s s ⟨Cause.shape, 0#8, wordValue i⟩) ∧
      (granted → u.sew ≠ 32 → ∀ i ∈ [Instr.mva ac v km, .mav ac v km], PostsTrap i s s ⟨Cause.shape, 0#8, wordValue i⟩) ∧
      (¬granted → ∀ i ∈ [Instr.mzero ac, .mva ac v km, .mav ac v km, .mld ac sb km, .mst ac sb km],
        PostsTrap i s s ⟨Cause.vstate, 1#8, wordValue i⟩))

/-- R250, R251, R253, R254, R255, R312. A copy of no bytes joins no batch by the model's choice (log entry 5); that a copy's failed check of
Table 18.6 is noted in TFLT as `cwait` or `csleep` delivers it is log entry 16. -/
def Obligations.CopiesAreIssuedAndAwaited : Prop :=
  ∀ (s : State) (rd ra rb : SReg), Plain s → (∀ r ∈ [rd, ra, rb], Readable s r) →
    let full := 128 ≤ (s.copies.filter fun c => c.cluster == s.cluster && c.inUse).length
    let issued := fun (i : Instr) (u : State) (c : Copy) => ∃ t c', exec i s = .next t ∧
      t.copies = (if c.len = 0 then s.copies else s.copies ++ [c']) ∧
      c' = { c with id := s.nextId, uid := s.thr.uid, launch := s.thr.launch, core := coreOf s.cur, cluster := s.cluster, batch := s.thr.batch, asid := s.thr.asid, root := s.thr.root,
                    level := s.thr.level, promise := c'.promise } ∧
      t.reg rd = (if rd = 0#5 then 0#64 else c'.promise) ∧ (∀ r, r ≠ rd → t.reg r = s.reg r) ∧
      t = Moved { u with copies := t.copies, nextId := s.nextId + 1, free := t.free }
        { s.thr.arch with sreg := t.thr.arch.sreg, stag := t.thr.arch.stag, sbad := t.thr.arch.sbad, trip := Fallen s.trip }
    let n := (s.reg rd).toNat
    let there := s.place s.thr.asid s.thr.root (s.reg ra)
    let window := ∃ pa core off, there.1 = some pa ∧ s.region pa = .window core off
    let u := if n = 0 then s else there.2
    let sh := s.ucr.cpyshape
    let cw := (s.reg rd).toNat
    let okw := cw / 2 ^ 55 = 0 ∧ cw / 2 ^ 32 % 2 ^ 23 + cw % 2 ^ 32 ≤ 0x300000
    let mine := fun (c : Copy) => c.uid = s.thr.uid
    let open? := s.copies.any fun c => c.uid == s.thr.uid && c.batch == s.thr.batch
    let b := if open? then s.thr.batch + 1 else s.thr.batch
    let v : State := { s with thr := { s.thr with batch := b } }
    let stopped := fun (c : Copy) => ∃ x y z d, c.state = .stopped x y z d
    let noted := fun (d : Bool) (w : State) => if d = true then w.mapSys fun c => { c with tfltReason := 3#8, tfltLevel := 0#3 } else w
    (∀ twoD, (n ≤ 2 ^ 32 → (n = 0 ∨ ¬window) →
        (¬full → issued (.cpy rd ra rb twoD) u (Copy.fresh (s.reg ra) (s.reg rb) n (if twoD then (sh.extractLsb' 0 12).toNat + 1 else 1)
          (if twoD then (sh.extractLsb' 38 26).toInt else 0) (if twoD then (sh.extractLsb' 12 26).toInt else 0) none)) ∧
        (full → Waits (.cpy rd ra rb twoD) s u)) ∧
      (2 ^ 32 < n → TrapsHere (.cpy rd ra rb twoD) s s ⟨Cause.shape, 0#8, wordValue (.cpy rd ra rb twoD)⟩) ∧
      (n ≤ 2 ^ 32 → n ≠ 0 → window → TrapsHere (.cpy rd ra rb twoD) s there.2 ⟨Cause.prot, 1#8, s.reg ra⟩)) ∧
    (okw → ¬full → issued (.cpyw rd ra rb) s (Copy.fresh (BitVec.ofNat 64 (cw / 2 ^ 32 % 2 ^ 23)) (s.reg ra) (cw % 2 ^ 32) 1 0 0
      (some ((s.reg rb).setWidth 32)))) ∧
    (okw → full → Waits (.cpyw rd ra rb) s s) ∧
    (¬okw → TrapsHere (.cpyw rd ra rb) s s ⟨Cause.shape, 0#8, wordValue (.cpyw rd ra rb)⟩) ∧
    Gives (.rdcnt rd) s rd (s.counters.toList.getD s.cluster 0#64) ∧
    (¬(open? = true ∧ 16 ≤ s.closedBatches.length) → FallsThrough .cbatch s v) ∧
    (open? = true → 16 ≤ s.closedBatches.length → Waits .cbatch s s) ∧
    ((∀ c ∈ s.copies, mine c → stopped c → c.reported = true) →
      (v.closedBatches.length ≤ (s.reg ra).toNat →
        let past := fun (c : Copy) => c.uid == s.thr.uid && decide (c.batch < b) && !v.closedBatches.contains c.batch
        FallsThrough (.cwait ra) s { v with
          copies := s.copies.filter fun c => !past c
          thr := { v.thr with arch := { s.thr.arch with ucr := { s.ucr with
            nstat := if s.copies.any fun c => past c && c.state == .done true then 1#2 else 0#2 } } } }) ∧
      ((s.reg ra).toNat < v.closedBatches.length → Waits (.cwait ra) s v) ∧
      let late := s.copies.any fun c => c.uid == s.thr.uid && c.inUse && decide (c.promise.toNat ≤ (s.reg ra).toNat)
      let awake : State := { s with thr := { s.thr with sleep := none } }
      ((s.counter s.cluster).toNat < (s.reg ra).toNat → Waits (.csleep ra) s { s with thr := { s.thr with sleep := some (s.reg ra) } }) ∧
      ((s.reg ra).toNat ≤ (s.counter s.cluster).toNat → (late = false → FallsThrough (.csleep ra) s awake) ∧
        (late = true → TrapsHere (.csleep ra) s awake ⟨Cause.promise, 0#8, BitVec.ofNat 64 (s.closedBatches.length +
          if s.copies.any fun c => c.uid == s.thr.uid && c.inUse && c.batch == s.thr.batch then 1 else 0)⟩))) ∧
    (∀ c x y z d l r, s.copies = l ++ c :: r → (∀ k ∈ l, ¬(mine k ∧ k.reported = false ∧ stopped k)) → mine c → c.reported = false →
      c.state = .stopped x y z d → (∀ k ∈ l ++ r, k.id ≠ c.id) →
      let told := l ++ { c with reported := true } :: r
      (c.batch < b → TrapsHere (.cwait ra) s (noted d { v with copies := told }) ⟨x, y, z⟩) ∧
      ((s.reg ra).toNat ≤ (s.counter s.cluster).toNat → c.promise.toNat ≤ (s.reg ra).toNat →
        TrapsHere (.csleep ra) s (noted d { s with copies := told, thr := { s.thr with sleep := none } }) ⟨x, y, z⟩))

/-- R256, R257, R265, R306, R312, R389. From which number a ticket counts is free (log entry 5). That a page which fails a check of Table 18.6
traps PROT at issue, where the strand's range is accessed, and that a page which does not translate holds the collective later, is the model's
reading (DEDUCED, log entry 26). -/
def Obligations.CollectivesJoinByIssueOrder : Prop :=
  (∀ (s : State) (rd ra rb : SReg) (fmt : BitVec 4) (op : BitVec 2) (i : Instr),
    (i, op) ∈ [(Instr.xred rd ra rb fmt, 0#2), (.xbc rd ra rb fmt, 1#2), (.xag rd ra rb fmt, 2#2)] →
    Plain s → (∀ r ∈ [rd, ra, rb], Readable s r) →
    let g := s.ucr.xgrp.toNat
    let n := (s.reg rd).toNat
    let bytes := n * (fmtWidth fmt / 8)
    let source := noWindow .load (s.readsSource op g) (rangePages (s.reg ra) bytes) s
    let target := noWindow .store true (rangePages (s.reg rb) (if op = 2#2 then bytes * s.globalMembers g else bytes))
    let pages := fun (u v : State) => source = .done () u ∧ target u = .done () v
    let k := Sparse.get 0 s.thr.tickets g
    let p : Contribution :=
      { uid := s.thr.uid, core := coreOf s.cur, rank := ((s.members g).takeWhile fun x => decide (x < s.thr.index)).length, op := op, fmt := fmt, n := n,
        src := s.reg ra, dst := s.reg rb, rank1 := s.ucr.rmode.getLsbD 1, asid := s.thr.asid, root := s.thr.root, level := s.thr.level }
    let same := fun (c : Collective) => c.launch = s.thr.launch ∧ c.group = g ∧ c.ticket = k
    (s.isMember g = true → bytes ≤ 2 ^ 32 → ∀ u v, pages u v →
      (s.outstanding < 8 → ∃ cs, FallsThrough i s
          (({ v with colls := cs, nextId := s.nextId + 1, thr := { v.thr with tickets := Sparse.put 0 s.thr.tickets g (k + 1) } }).setReg rd
            (Config.firstTicket + BitVec.ofNat 64 k)) ∧
        ((∃ c ∈ s.colls, same c) → cs = s.colls.map fun c => if same c then { c with parts := c.parts ++ [p] } else c) ∧
        ((∀ c ∈ s.colls, ¬same c) → cs = s.colls ++
          [{ id := s.nextId, launch := s.thr.launch, group := g, ticket := k, parts := [p], status := none }])) ∧
      (8 ≤ s.outstanding → Waits i s v)) ∧
    (s.isMember g = false ∨ 2 ^ 32 < bytes → TrapsHere i s s ⟨Cause.shape, 0#8, wordValue i⟩) ∧
    (s.isMember g = true → bytes ≤ 2 ^ 32 →
      (∀ t u, source = .trap t u → TrapsHere i s u t) ∧ ∀ t u v, source = .done () u → target u = .trap t v → TrapsHere i s v t) ∧
    (s.mod.xdtab = 0#40 → (s.readsSource op g = true ↔ op ≠ 1#2 ∨ p.rank = 0))) ∧
  (∀ (s : State) (k : Access) (va : Word),
    let x := s.place s.thr.asid s.thr.root va
    let window := ∃ pa core off, x.1 = some pa ∧ s.region pa = .window core off
    let y := x.2.translate s.thr.asid s.thr.root s.thr.level va k
    let denied := fun l => y.1 = .fault 3#8 l
    (window → ∀ accessed, noWindow k accessed [va] s = .trap ⟨Cause.prot, k.detail, va⟩ x.2) ∧
    (¬window → noWindow k false [va] s = .done () x.2 ∧
      (∀ l, denied l → noWindow k true [va] s = .trap ⟨Cause.prot, k.detail, va⟩
        (y.2.mapSys fun c => { c with tfltReason := 3#8, tfltLevel := BitVec.ofNat 3 l })) ∧
      ((∀ l, ¬denied l) → noWindow k true [va] s = .done () y.2)) ∧
    ∀ (accessed : Bool) (vas : List Word),
      (∀ t u, noWindow k accessed [va] s = .trap t u → noWindow k accessed (va :: vas) s = .trap t u) ∧
      ∀ u, noWindow k accessed [va] s = .done () u → noWindow k accessed (va :: vas) s = noWindow k accessed vas u) ∧
  (∀ (s : State) (g : Nat), s.mod.xdtab = 0#40 → s.globalMembers g = (s.members g).length) ∧
  (∀ (va : Word) (n j : Nat), j < n → ∃ p ∈ rangePages va n, (va + BitVec.ofNat 64 j).toNat / 4096 = p.toNat / 4096) ∧
  (∀ (s : State) (rd : SReg) (w : Nat), Plain s →
    let mine := fun (c : Collective) => c ∈ s.colls ∧ ∃ p ∈ c.parts, p.uid = s.thr.uid
    ((∃ c, mine c ∧ c.status = none) → Waits (.xwait rd) s s) ∧
    ((∀ c, mine c → ∃ st, c.status = some st ∧ st.toNat ≤ w) → w = 0 ∨ (∃ c, mine c ∧ c.status = some (BitVec.ofNat 2 w)) → w < 4 →
      Gives (.xwait rd) s rd (BitVec.ofNat 64 w)))

/-- R166, R224, R70, R74. That both maxima of -infinity give +0 whatever o and l held is the model's reading (log entry 23). -/
def Obligations.SmergeMergesRows : Prop :=
  (∀ (s : State) (f : V1Args), Plain s → f.vd.toNat < s.ucr.regCount → f.va.toNat < s.ucr.regCount →
    let i := Instr.smerge f
    let fit := f.vd.toNat + 2 < s.ucr.regCount ∧ f.va.toNat + 2 < s.ucr.regCount
    let n := s.ucr.vlen.toNat
    let rows := (List.range s.ucr.vrows.toNat).filter fun r =>
      decide (s.ucr.vstart.toNat ≤ r ∧ r * n < s.ucr.elems) && s.maskBit (kmReg f.km) (r * n)
    (fit → s.ucr.sew = 32 → MasksSound s →
      (∀ u, forElems (mergeOne f.vd f.va) rows s = .done () u → FallsThrough i s (cleared u)) ∧
      (∀ t u, forElems (mergeOne f.vd f.va) rows s = .trap t u → PostsTrap i s u t) ∧
      let vs := [f.vd, f.vd + 1#6, f.vd + 2#6, f.va, f.va + 1#6, f.va + 2#6]
      (VectorReady s vs → (∀ r ∈ rows, (∀ v ∈ vs, Live s v [r * n]) ∧ ∀ v ∈ [f.vd, f.va], Live s v ((List.range n).map fun c => r * n + c)) →
        ∃ u, FallsThrough i s (cleared u) ∧ forElems (mergeOne f.vd f.va) rows s = .done () u ∧
          u = { s with mem := u.mem, tags := u.tags,
                       thr := { s.thr with arch := { s.thr.arch with ucr := { s.ucr with fflags := u.ucr.fflags } } } })) ∧
    (¬fit → PostsTrap i s s ⟨Cause.vstate, 0#8, wordValue i⟩) ∧
    (fit → s.ucr.sew ≠ 32 → PostsTrap i s s ⟨Cause.shape, 0#8, wordValue i⟩)) ∧
  (∀ (s : State) (vd va : VReg) (r : Nat),
    let vs := [vd, vd + 1#6, vd + 2#6, va, va + 1#6, va + 2#6]
    let n := s.ucr.vlen.toNat
    let first := r * n
    let at0 := fun v => s.elemOrZero v first
    let m1 := at0 (vd + 1#6)
    let m2 := at0 (va + 1#6)
    let mm := (FFmt.f32.minMax true m1 m2).bits
    let ninf := fun m => FFmt.f32.decode m = .inf true
    let factor := fun m => if ninf m then 0 else (FFmt.f32.exp2 .rne (FFmt.f32.sub .rne m mm).bits).bits
    let nan := (FFmt.f32.decode m1).isNan || (FFmt.f32.decode m2).isNan
    let sum := fun x y =>
      if nan then 0x7FC00000
      else if ninf m1 ∧ ninf m2 then 0
      else (FFmt.f32.add .rne (FFmt.f32.mul .rne x (factor m1)).bits (FFmt.f32.mul .rne y (factor m2)).bits).bits
    vd.toNat + 2 < 64 → va.toNat + 2 < 64 → VectorReady s vs → s.ucr.sew = 32 → r < s.ucr.vrows.toNat → 0 < n →
    (∀ v ∈ vs, Live s v [first]) → (∀ v ∈ [vd, va], Live s v ((List.range n).map fun c => first + c)) →
    ∃ t, mergeOne vd va r s = .done () t ∧
      t.elemOrZero (vd + 1#6) first = mm ∧
      t.elemOrZero (vd + 2#6) first = sum (at0 (vd + 2#6)) (at0 (va + 2#6)) ∧
      (∀ c, c < n → t.elemOrZero vd (first + c) = sum (s.elemOrZero vd (first + c)) (s.elemOrZero va (first + c))) ∧
      (∀ e, s.thr.roff + (e + 1) * 4 ≤ s.ucr.capacity → (e ≠ first →
          t.elemOrZero (vd + 1#6) e = s.elemOrZero (vd + 1#6) e ∧ t.elemOrZero (vd + 2#6) e = s.elemOrZero (vd + 2#6) e) ∧
        (e < first ∨ first + n ≤ e → t.elemOrZero vd e = s.elemOrZero vd e)) ∧
      (∀ p, (∀ v ∈ [vd, vd + 1#6, vd + 2#6], p < elemAt s v 0 ∨ elemAt s v 0 + s.ucr.capacity ≤ p + s.thr.roff) → t.byte p = s.byte p ∧ t.tag p = s.tag p) ∧
      (nan = true → t.ucr.fflags =
        s.ucr.fflags ||| if (FFmt.f32.decode m1).sig || (FFmt.f32.decode m2).sig then Flags.nv else 0#5) ∧
      t = { s with mem := t.mem, tags := t.tags,
                   thr := { s.thr with arch := { s.thr.arch with ucr := { s.ucr with fflags := t.ucr.fflags } } } })

/-! ## Names, tensors, records, rows, launches from the device (09 sections 9.2 and 9.3, 10 section 10.11) -/

/-- The state with NSTAT written. -/
def Sys2Proof.Safety.withNstat (u : State) (x : BitVec 2) : State :=
  { u with thr := { u.thr with arch := { u.thr.arch with ucr := { u.ucr with nstat := x } } } }

/-- R218, R219, R220, R221, R222, R354, R355, R357. One step kills a name whole, every acknowledgement included (log entry 5). The bits of LOC and
SIZE beyond their fields are dropped, and `nnew` without a name table writes rd as for a full one, by the model's choice (log entry 22). -/
def Obligations.NamesAreIssuedResolvedKilled : Prop :=
  (∀ (s : State) (rd ra rb : SReg), Plain s → s.poison = [] → (∀ r ∈ [rd, ra, rb], Readable s r) →
    let x := s.reg ra
    let r := s.resolve s.cluster s.thr.asid x
    FallsThrough (.nres rd ra) s ((withNstat r.2 r.1.st).setReg rd r.1.loc) ∧
    (∀ i, s.ownedName x = .inl i → FallsThrough (.nkill ra) s
      (withNstat ((s.setWord (s.ntAddr i + 24) (ntLast (s.ntVersion i) 2#2 (s.ntOwner i))).shootdown x) 0#2)) ∧
    (∀ st, s.ownedName x = .inr st → FallsThrough (.nkill ra) s (withNstat s st)) ∧
    (∀ ws u, loadBlock (s.reg rb) 8 2 s = .done ws u → (ws.getD 1 0#64).toNat < 2 ^ 32 →
      (∀ st, u.ownedName x = .inr st → FallsThrough (.ncas rd ra rb) s ((withNstat u st).setReg rd 0#64)) ∧
      ∀ i, u.ownedName x = .inl i →
        (u.ntVersion i ≠ (ws.getD 1 0#64).setWidth 32 →
          FallsThrough (.ncas rd ra rb) s ((withNstat u 0#2).setReg rd ((u.ntVersion i).setWidth 64))) ∧
        (u.ntVersion i = (ws.getD 1 0#64).setWidth 32 →
          let w := u.setWord (u.ntAddr i + 8) (ws.getD 0 0#64 &&& 0x00FFFFFFFFFFFFFF#64)
          FallsThrough (.ncas rd ra rb) s ((withNstat
            ((w.setWord (w.ntAddr i + 24) (ntLast (u.ntVersion i + 1#32) 1#2 (w.ntOwner i))).shootdown x) 0#2).setReg rd
              ((u.ntVersion i + 1#32).setWidth 64)))) ∧
    (∀ ws u, loadBlock (s.reg rb) 8 2 s = .done ws u → 2 ^ 32 ≤ (ws.getD 1 0#64).toNat →
      TrapsHere (.ncas rd ra rb) s u ⟨Cause.shape, 0#8, wordValue (.ncas rd ra rb)⟩) ∧
    (∀ ws u, loadBlock x 8 3 s = .done ws u →
      let c := ws.getD 2 0#64
      let i := Instr.nnew rd ra
      let name : Word := c.setWidth 4 ++ u.mod.nserial
      let ready := u.mod.nserial ≠ u.mod.nblkEnd
      (c.setWidth 4 = 4#4 → s.thr.level = false → TrapsHere i s u ⟨Cause.priv, 0#8, wordValue i⟩) ∧
      (¬(c.setWidth 4 = 4#4 ∧ s.thr.level = false) → c.toNat = 0 ∨ 7 ≤ c.toNat → TrapsHere i s u ⟨Cause.shape, 0#8, wordValue i⟩) ∧
      (0 < c.toNat → c.toNat < 7 → (c.toNat = 4 → s.thr.level = true) →
        (u.mod.ntEn = true → ready → ∀ k, u.insertSlot name = some k →
          let v := u.setWords (u.ntAddr k)
            [name, ws.getD 0 0#64 &&& 0x00FFFFFFFFFFFFFF#64, ws.getD 1 0#64 <<< 24, ntLast 1#32 1#2 s.thr.asid]
          FallsThrough i s (withNstat (({ v with mod := { v.mod with nserial := v.mod.nserial + 1#60 } }).setReg rd name) 0#2)) ∧
        (u.mod.ntEn = false ∨ ready ∧ u.insertSlot name = none ∨ ¬ready ∧ u.mod.flashBlock = 0xFFFFFF#24 →
          FallsThrough i s (withNstat (u.setReg rd 0#64) 2#2)) ∧
        (u.mod.ntEn = true → ¬ready → u.mod.flashBlock ≠ 0xFFFFFF#24 →
          Waits i s (if .serialBlockReserve ∈ u.due then u else { u with due := u.due ++ [.serialBlockReserve] }))))) ∧
  (∀ (s : State) (asid : BitVec 12) (cluster : Nat) (x : Word),
    let r := s.resolveTable asid x
    let cls := x.toNat / 2 ^ 60
    ((∀ e ∈ s.nameCache, e.cluster = cluster → e.asid = asid → e.name = x → e.result = r) → (s.resolve cluster asid x).1 = r) ∧
    (s.mod.ntEn = true → 0 < cls → cls < 7 →
      (∀ i, s.lookup x = some i → s.ntState i = 1 → s.granted i asid = true → r = ⟨0#2, s.ntLoc i, s.ntSize i, s.ntVersion i⟩) ∧
      (∀ i, s.lookup x = some i → s.ntState i = 1 → s.granted i asid = false → r = .none 2#2) ∧
      (∀ i, s.lookup x = some i → s.ntState i ≠ 1 → r = .none 1#2) ∧
      (s.lookup x = none → r = .none (if x.toNat % 2 ^ 60 < s.mod.nserial.toNat then 1#2 else 3#2))) ∧
    (cls = 0 ∨ 7 ≤ cls → r = .none 3#2)) ∧
  (∀ (s : State) (asid : BitVec 12) (x : Word) (t : Nat), t < 1024 →
    s.ctxAddr asid + 8 ≤ s.tensorAddr asid 0 ∨ s.tensorAddr asid 0 + 65536 ≤ s.ctxAddr asid →
    ((s.tensor asid t).live = true → (s.tensor asid t).name = x → ((s.markTensors asid x).tensor asid t).state = 2#2) ∧
    (¬((s.tensor asid t).live = true ∧ (s.tensor asid t).name = x) → (s.markTensors asid x).tensor asid t = s.tensor asid t)) ∧
  (∀ (s : State) (asid : BitVec 12) (x : Word) (n : Nat), n < 1024 →
    s.ctxAddr asid + 16 ≤ s.recordAddr asid 0 ∨ s.recordAddr asid 0 + 32768 ≤ s.ctxAddr asid + 8 →
    let r := s.record asid n
    let z := (s.markRecords asid x).record asid n
    (r.state = 1#2 → r.name = x → z.state = 2#2 ∧ z.name = r.name ∧ z.tid = r.tid ∧ z.asid = r.asid ∧ z.rowBase = r.rowBase ∧
      z.rowCount = r.rowCount) ∧
    (¬(r.state = 1#2 ∧ r.name = x) → z = r)) ∧
  (∀ (s : State) (x : Word),
    s.shootdown x = s.contexts.foldl (fun u a => (u.markTensors a x).markRecords a x)
      { s with nameCache := s.nameCache.filter fun e => e.name ≠ x } ∧
    ∀ (a : BitVec 12) (i : Nat), i < 64 → s.byte (s.ctxAddr a + i) ≠ memDefault → a ∈ s.contexts) ∧
  ∀ (s : State) (x : Word),
    let cls := x.toNat / 2 ^ 60
    let found := s.ownedName x
    (s.mod.ntEn = false ∨ cls = 0 ∨ 7 ≤ cls → found = .inr 3#2) ∧
    (s.mod.ntEn = true → 0 < cls → cls < 7 →
      (∀ i, s.lookup x = some i → (s.ntState i ≠ 1 → found = .inr 1#2) ∧
        (s.ntState i = 1 → found = if s.ntOwner i = s.thr.asid then .inl i else .inr 2#2)) ∧
      (s.lookup x = none → found = .inr (if x.toNat % 2 ^ 60 < s.mod.nserial.toNat then 1#2 else 3#2)))

/-- R5, R213, R214, R215, R216, R217, R401 with Tables 3.8 and 3.9. That in a handler entered with a pending replay these do not wait for that
replay is the model's choice (log entry 10). -/
def Obligations.TensorsAndRecordsAreBound : Prop :=
  ∀ (s : State) (rd ra rb : SReg), Plain s → s.poison = [] → (∀ r ∈ [rd, ra, rb], Readable s r) →
    let a := s.reg ra
    let b := s.reg rb
    let tb := Instr.tbind rd ra rb
    let os := Instr.orset ra rb
    (b.toNat < 1024 → ∀ ws u, loadBlock a 64 8 s = .done ws u →
      let img : Tensor := Vector.ofFn fun i => ws.getD i.val 0#64
      let r := if nameClass img.name = 1 then u.resolve u.cluster s.thr.asid img.name else (.none 3#2, u)
      (r.1.st ≠ 0#2 → FallsThrough tb s ((withNstat r.2 r.1.st).setReg rd (r.1.st.setWidth 64))) ∧
      (r.1.st = 0#2 → img.valid = false → FallsThrough tb s ((withNstat r.2 0#2).setReg rd 4#64)) ∧
      (r.1.st = 0#2 → img.valid = true →
        let first := ((img.get 0 &&& 0xFFFFFFFF000007FF#64) ||| 0x800#64) ||| (s.thr.asid.setWidth 64 <<< 16)
        FallsThrough tb s ((withNstat (r.2.setWords (r.2.tensorAddr s.thr.asid b.toNat)
          [first, img.get 1 &&& 0x00FFFFFFFFFFFFFF#64, img.get 2, (img.get 3 &&& 0xFFFFFFFF00000000#64) ||| r.1.version.setWidth 64,
           img.get 4, img.get 5, img.get 6, 0#64]) 0#2).setReg rd 0#64))) ∧
    (∀ img : Tensor, img.valid = true ↔ img.fmt ≠ 11#4 ∧ img.fmt ≠ 15#4 ∧
      (img.fmt = 14#4 → 2 ≤ img.planes ∧ img.planes ≤ 8 ∧ (img.dim0 + 255) / 256 * 288 ≤ img.stride1 * 32) ∧
      (img.fmt ≠ 14#4 → img.planes = 0) ∧ img.dim0 ≠ 0 ∧ img.dim1 ≠ 0 ∧ img.base.toNat % 32 = 0) ∧
    (a.toNat < 1024 →
      (let pa := s.tensorAddr s.thr.asid a.toNat
       FallsThrough (.tunbind ra) s (s.setWord pa (s.word pa &&& ~~~0x1800#64))) ∧
      (let pa := s.recordAddr s.thr.asid a.toNat + 8
       FallsThrough (.orclr ra) s (s.setWord pa (s.word pa &&& ~~~0x30000000#64))) ∧
      (let t := s.tensor s.thr.asid a.toNat
       Gives (.tq rd ra) s rd (t.version.setWidth 64 <<< 32 ||| (t.get 0 &&& 0x1FFF#64)))) ∧
    (a.toNat < 1024 → ∀ ws u, loadBlock b 32 4 s = .done ws u →
      let img : Record := Vector.ofFn fun i => ws.getD i.val 0#64
      let t := u.tensor s.thr.asid img.tid
      let beyond := 1024 ≤ (img.get 1).toNat % 65536 ∨ t.live = true ∧ t.dim1 < img.rowBase + img.rowCount
      let r := if nameClass img.name = 2 then u.resolve u.cluster s.thr.asid img.name else (.none 3#2, u)
      let live := r.1.st = 0#2 ∧ t.live = true
      let first : Word := ((if live then 1#64 else 2#64) <<< 28) ||| (s.thr.asid.setWidth 64 <<< 16) ||| (img.get 1 &&& 0x3FF#64)
      (¬beyond → FallsThrough os s (withNstat (r.2.setWords (r.2.recordAddr s.thr.asid a.toNat) [img.get 0, first, img.get 2, 0#64])
        (if live then 0#2 else if r.1.st = 0#2 then 1#2 else r.1.st))) ∧
      (beyond → TrapsHere os s u ⟨Cause.shape, 0#8, wordValue os⟩)) ∧
    (1024 ≤ a.toNat → ∀ i ∈ [Instr.tunbind ra, .tq rd ra, os, .orclr ra], TrapsHere i s s ⟨Cause.shape, 0#8, wordValue i⟩) ∧
    (1024 ≤ b.toNat → TrapsHere tb s s ⟨Cause.shape, 0#8, wordValue tb⟩) ∧
    (b.toNat < 1024 → a.toNat % 64 ≠ 0 → TrapsHere tb s s ⟨Cause.align, 0#8, a⟩) ∧
    (a.toNat < 1024 → b.toNat % 32 ≠ 0 → TrapsHere os s s ⟨Cause.align, 0#8, b⟩) ∧
    (∀ (va : Word) (align n : Nat) (p : Phys), va.toNat % align = 0 → 8 * n ≤ align → align ≤ 64 → Reaches s va .load p → Loose s p.pa →
      Sees s .scalar p.pa (8 * n) →
      ∃ u, loadBlock va align n s =
          .done ((List.range n).map fun i => BitVec.ofNat 64 (numOf (((readBytes s p.pa (8 * n)).drop (8 * i)).take 8))) u ∧
        u = { s with late := u.late, walks := u.walks, free := u.free } ∧ SameLate s u) ∧
    (∀ (va : Word) (align n : Nat) (P : Nat → Phys) (bs : Nat → List Byte), va.toNat % align = 0 → align < 8 * n →
      let addr := fun (i : Nat) => va + BitVec.ofNat 64 (8 * i)
      (∀ i, i < n → ∀ u, Midway s u (fun _ => True) ((List.range n).map addr) →
        Reaches u (addr i) .load (P i) ∧ Loose u (P i).pa ∧ Sees u .scalar (P i).pa 8 ∧ readBytes u (P i).pa 8 = bs i) →
      ∃ u, loadBlock va align n s = .done ((List.range n).map fun i => BitVec.ofNat 64 (numOf (bs i))) u ∧
        u = { s with late := u.late, walks := u.walks, free := u.free } ∧ SameLate s u)

/-- R258, R259, R260, R320, R337, R348, R401. A row table's LOC is taken as a virtual address and its
rows as targets of atomics by the model's choice (log entry 28); that a live name of class 3 without a queue answers 3 is the model's reading
(log entry 29). -/
def Obligations.RowsAreClaimedAndAdvanced : Prop :=
  (∀ (s : State) (rd ra rb : SReg), Plain s → s.poison = [] → (∀ r ∈ [rd, ra, rb], Readable s r) →
    let gl := Instr.glean rd ra rb
    let ga := Instr.gadv rd ra rb
    let of := fun (x : Word) => if nameClass x = 5 then s.resolve s.cluster s.thr.asid x else (.none 3#2, s)
    let f := (s.reg rb).toNat
    (128 ≤ f → ∀ i ∈ [gl, ga], TrapsHere i s s ⟨Cause.shape, 0#8, wordValue i⟩) ∧
    (f < 128 →
      let r := of (s.reg ra)
      let u := withNstat r.2 r.1.st
      (8 ≤ s.thr.claims.length → FallsThrough gl s (u.setReg rd (BitVec.ofInt 64 (-2)))) ∧
      (s.thr.claims.length < 8 → r.1.st ≠ 0#2 → FallsThrough gl s (u.setReg rd (BitVec.ofInt 64 (-1)))) ∧
      (s.thr.claims.length < 8 → r.1.st = 0#2 →
        (∀ w, findRow (s.reg ra) r.1.loc f (r.1.size / 64) 0 u = .done none w → FallsThrough gl s (w.setReg rd (BitVec.ofInt 64 (-1)))) ∧
        (∀ row pa x w, findRow (s.reg ra) r.1.loc f (r.1.size / 64) 0 u = .done (some (row, pa, x)) w →
          let v := w.atomicWrite Path.scalar.plain pa 12 (f + 128 + x / 256 % 2 ^ 56 * 256 + (tokenOf w.cur w.thr).toNat * 2 ^ 64)
          FallsThrough gl s
            (({ v.acquireBoth with thr := { v.thr with claims := v.thr.claims ++ [(s.reg ra, row)] } }).setReg rd (BitVec.ofNat 64 row))) ∧
        ∀ t w, findRow (s.reg ra) r.1.loc f (r.1.size / 64) 0 u = .trap t w → TrapsHere gl s w t)) ∧
    (f < 128 →
      let r := if nameClass (s.reg rd) = 5 then s.releaseDevice.resolve s.cluster s.thr.asid (s.reg rd) else (.none 3#2, s.releaseDevice)
      let u := withNstat r.2 r.1.st
      let row := (s.reg ra).toNat
      (r.1.st ≠ 0#2 → FallsThrough ga s (u.setReg rd 2#64)) ∧
      (r.1.st = 0#2 → r.1.size / 64 ≤ row → FallsThrough ga s (u.setReg rd 3#64)) ∧
      (r.1.st = 0#2 → row < r.1.size / 64 → ∀ p v w, locateAtomic (r.1.loc + s.reg ra * 64#64) false u = .done p v →
        atomicCheck p (r.1.loc + s.reg ra * 64#64) 12 v = .done () w →
        let x := w.atomicRead p.pa 12
        let z := w.atomicSees .scalar p.pa 12
        let mine := 128 ≤ x % 256 ∧ BitVec.ofNat 32 (x / 2 ^ 64) = tokenOf w.cur w.thr ∧ (s.reg rd, row) ∈ s.thr.claims
        (¬mine → FallsThrough ga s (z.setReg rd 1#64)) ∧
        (mine →
          let y := z.atomicWrite Path.scalar.plain p.pa 12 (f + x / 256 % 2 ^ 56 * 256)
          FallsThrough ga s
            (({ y with thr := { y.thr with claims := y.thr.claims.filter fun c => c ≠ (s.reg rd, row) } }).setReg rd 0#64)))) ∧
    (∀ ws u, loadBlock (s.reg rb) 128 16 s = .done ws u →
      let name := s.reg ra
      let rec_ : LaunchRec := Vector.ofFn fun i => ws.getD i.val 0#64
      let r := if nameClass name = 3 then u.releaseDevice.resolve u.cluster s.thr.asid name else (.none 3#2, u.releaseDevice)
      let ends := fun (x : Nat) (st : BitVec 2) (v : State) => FallsThrough (.lenq rd ra rb) s ((withNstat v st).setReg rd (BitVec.ofNat 64 x))
      (r.1.st ≠ 0#2 → ends r.1.st.toNat r.1.st r.2) ∧
      (r.1.st = 0#2 → (∀ q ∈ r.2.queues, q.name ≠ name) → ends 3 3#2 r.2) ∧
      ∀ q, r.1.st = 0#2 → r.2.queues.find? (fun q => q.name == name) = some q →
        (q.owner ≠ s.thr.asid → ends 2 2#2 r.2) ∧
        (q.owner = s.thr.asid →
          let refused := rec_.refusal ≠ none ∨ r.2.ctxState q.owner ≠ 1
          (refused → ends 5 0#2 r.2) ∧ (¬refused → q.depth ≤ q.waiting.length → ends 4 0#2 r.2) ∧
          (¬refused → q.waiting.length < q.depth → ends 0 0#2 (r.2.enqueue q rec_))))) ∧
  (∀ (name loc : Word) (f n row : Nat) (s u v : State) (p : Phys),
    let va := loc + BitVec.ofNat 64 (64 * row)
    locateAtomic va false s = .done p u → atomicCheck p va 12 u = .done () v →
    let x := v.atomicRead p.pa 12
    let w := v.atomicSees .scalar p.pa 12
    let candidate := x % 256 = f ∨ x % 256 = f + 128 ∧ w.rowClaimed (BitVec.ofNat 32 (x / 2 ^ 64)) name row = false
    findRow name loc f 0 row s = .done none s ∧
    findRow name loc f (n + 1) row s = if candidate then .done (some (row, p.pa, x)) w else findRow name loc f n (row + 1) w) ∧
  (∀ (s : State) (va : Word) (p : Phys), Reaches s va .atomic p → s.atomicRefuses p.pa false = false → Loose s p.pa →
    locateAtomic va false s = .done p (translated s va .atomic) ∧ atomicCheck p va 12 s = .done () s) ∧
  (∀ (ls : List Launch) (id prio : Nat) (xs : List Nat),
    let ahead := fun x => ∃ l, (ls.find? fun l => l.id == x) = some l ∧ (l.accepted = true ∨ prio ≤ l.prio)
    ∃ k, k ≤ xs.length ∧ enqueueAt ls id prio xs = xs.take k ++ id :: xs.drop k ∧
      (∀ x ∈ xs.take k, ahead x) ∧ ∀ x, (xs.drop k).head? = some x → ¬ahead x)

/-! ## Control registers, traps, returns, ends (02 section 2.7, 06 sections 6.9 and 6.10, 17 sections 17.1 and 17.2) -/

/-- R6, R58, R152, R285 with Tables 2.5, 17.1, 17.2, 18.1, 19.5, 20.3, 21.1, 22.3 and 23.5. -/
def Obligations.ControlRegistersReadAndWrite : Prop :=
  (∀ (s : State) (rd ra : SReg) (cr : BitVec 11), Plain s → Readable s ra →
    let n := cr.toNat
    let all := [Instr.crd rd cr, .cwr ra cr, .crs rd ra cr, .crc rd ra cr]
    let allowed := n < 0x100 ∨ s.thr.level = true
    let value := if n < 0x100 then s.ucr.read n else s.sysRead n
    let written := fun x => if n < 0x100 then
        { s with thr := { s.thr with arch := { s.thr.arch with ucr := s.ucr.write n x } } }
      else s.sysWrite n x
    (n ≤ 0x21F → allowed → ∀ x, value = some x →
      Gives (.crd rd cr) s rd x ∧
      FallsThrough (.cwr ra cr) s (written (s.reg ra)) ∧
      FallsThrough (.crs rd ra cr) s ((written (x ||| s.reg ra)).setReg rd x) ∧
      FallsThrough (.crc rd ra cr) s ((written (x &&& ~~~(s.reg ra))).setReg rd x)) ∧
    (n ≤ 0x21F → ¬allowed → ∀ i ∈ all, TrapsHere i s s ⟨Cause.priv, 0#8, wordValue i⟩) ∧
    (0x21F < n ∨ allowed ∧ value = none → ∀ i ∈ all, TrapsHere i s s ⟨Cause.illegal, 0#8, wordValue i⟩)) ∧
  (∀ (u : UserCR) (x : Word) (n : Nat) (fields : Word),
    (n, fields) ∈ [(0x04, 0xFFFF#64), (0x05, 7#64), (0x06, 31#64), (0x07, 0xFFFFFFFF#64), (0x08, 0xFFFF#64), (0x09, 0x3FF#64), (0x0B, 1#64),
      (0x0F, 3#64), (0x10, 1#64), (0x11, ~~~0#64), (0x12, 0x00FFFFFFFFFFFFFF#64), (0x13, 0xFF#64), (0x14, 0x00FFFFFFFFFFFFFC#64),
      (0x15, 0x00FFFFFFFFFFFFFC#64), (0x16, 0x00FFFFFFFFFFFFFC#64), (0x17, 3#64), (0x18, ~~~0#64), (0x19, 0xFFFFFFFF#64), (0x1A, ~~~0#64),
      (0x1B, 0xFFFFFFFF#64), (0x1C, ~~~0#64), (0x1D, 0xFF#64)] →
    (u.write n x).read n = some (x &&& fields) ∧ ∀ m, m ≠ n → (u.write n x).read m = u.read m) ∧
  (∀ (u : UserCR) (x : Word),
    (u.write 0x0A x).mxerr = u.mxerr &&& ~~~(x.setWidth 19) ∧ (∀ m, m ≠ 0x0A → (u.write 0x0A x).read m = u.read m) ∧
    ∀ n, n ∈ [0x00, 0x01, 0x02, 0x03, 0x0C, 0x0D, 0x0E] → u.write n x = u) ∧
  (∀ (s : State) (x : Word) (n : Nat) (fields : Word),
    (n, fields) ∈ [(0x101, ~~~0#64), (0x102, 0xFFFF#64), (0x103, ~~~0#64), (0x104, ~~~0#64), (0x105, ~~~0#64), (0x106, 3#64), (0x107, ~~~0#64),
      (0x109, 0x7FF#64), (0x10A, ~~~0#64), (0x10B, ~~~0#64), (0x10C, ~~~0#64), (0x142, 0xFF07#64), (0x143, 0x00FFFFFFFFFFFFFF#64),
      (0x1C1, 0x000FFFFFFFFFF000#64), (0x1C4, 0x000FFFFFFFFFF000#64), (0x1C5, ~~~0#64), (0x1E8, ~~~0#64), (0x1E9, ~~~0#64), (0x1F4, ~~~0#64),
      (0x204, ~~~0#64), (0x205, 0xFFFFFFFF#64), (0x206, 0x7FFFFFFF#64), (0x207, 0x000FFFFFFFFFF000#64), (0x209, 0x000FFFFFFFFFF000#64)] →
    (s.sysWrite n x).sysRead n = some (x &&& fields)) ∧
  ∀ (s : State) (x : Word),
    (s.sysWrite 0x100 x).sysRead 0x100 = some ((x &&& 7#64) ||| if s.thr.replay = [] then 0#64 else 8#64) ∧
    (s.sysWrite 0x1F0 x).mod.estat = s.mod.estat &&& ~~~(x.setWidth 4) ∧
    ∀ n ∈ [0x108, 0x10D, 0x140, 0x141, 0x145, 0x160, 0x161, 0x162, 0x163, 0x170, 0x171, 0x172, 0x173, 0x174, 0x175, 0x176, 0x177, 0x178, 0x1C2,
      0x1C3, 0x1C7, 0x1C8, 0x1C9, 0x1CA, 0x1CB, 0x1CC, 0x1E0, 0x1E1, 0x1E2, 0x1E3, 0x1E4, 0x1F1, 0x1F2, 0x1F5, 0x1F8, 0x200, 0x202, 0x203, 0x208],
      s.sysWrite n x = s

/-- The strand after a delivery, before its frame: no wait, no group, no pending posted trap stands. -/
def Sys2Proof.Safety.delivered (t : Thread) : Thread :=
  { t with waiting := false, defer := false, deferLog := false, rpt := none, rptResume := none, ptrap := none, replaying := false, sleep := none }

/-- The state in the user handler (R154): the triple `f` saved in the user frame, the handler active, the triple at UTVEC. -/
def Sys2Proof.Safety.inUserHandler (s : State) (f : Triple) (cause : BitVec 8) (value : Word) : State :=
  { s with thr := { delivered s.thr with
      handler := true
      arch := { s.thr.arch with
        trip := { pc := s.ucr.utvec.setWidth 64, npc := s.ucr.utvec.setWidth 64 + 4#64, nnpc := s.ucr.utvec.setWidth 64 + 8#64,
                  a0 := false, a1 := false, a2 := false }
        ucr := { s.ucr with
          ucause := cause, uepc := f.pc.extractLsb' 2 54, uenpc := f.npc.extractLsb' 2 54, uennpc := f.nnpc.extractLsb' 2 54,
          uannul := BitVec.ofBool f.a2 ++ BitVec.ofBool f.a1, uval := value } } } }

/-- The state in the system handler (R287): the triple `f` saved in the system frame with cause, detail, value, SXPC and SRPT, the
level raised, STA set, the triple at STVEC; UVAL is written for GENTRAP, PROMISE, BRK and TRAP. -/
def Sys2Proof.Safety.inSystemHandler (s : State) (f : Triple) (t : Trap) (sxpc : Word) (srpt : BitVec 11) : State :=
  { s with thr := { delivered s.thr with
      level := true
      arch := { s.thr.arch with
        trip := { pc := s.thr.sys.stvec, npc := s.thr.sys.stvec + 4#64, nnpc := s.thr.sys.stvec + 8#64, a0 := false, a1 := false, a2 := false }
        ucr := if t.cause ∈ [7#8, 8#8, 14#8, 15#8] then { s.ucr with uval := t.value } else s.ucr }
      sys := { s.thr.sys with
        sepc := f.pc, senpc := f.npc, sennpc := f.nnpc, sannul := BitVec.ofBool f.a2 ++ BitVec.ofBool f.a1,
        scause := t.detail ++ t.cause, sval := t.value, sxpc := sxpc, srpt := srpt, ppl := s.thr.level, sta := true } } }

/-- The strand of the stepping slot has ended (R157, R288): the slot is fallow, its monitor entries are freed, and, unless it was a fork
child, its launch counts it as halted and, where the device ended it, with the error (log entry 11 for a child). -/
def Sys2Proof.Safety.Ended (s t : State) (err : Option (BitVec 8 × BitVec 8)) : Prop :=
  t.thr.bound = false ∧ t.cur = s.cur ∧ (∀ a, t.byte a = s.byte a ∧ t.tag a = s.tag a) ∧
  t.monitors = s.monitors.filter (fun m => m.key ≠ s.cur) ∧
  (∀ r, t.thr.arch.sreg.get r = s.thr.arch.sreg.get r) ∧
  t.launches = s.launches.map fun l => if l.id = s.thr.launch then
    { l with
      finished := if s.thr.parent = none then l.finished + 1 else l.finished
      ended := if err = none then l.ended else l.ended + 1
      err := match l.err, err with
        | none, some (c, d) => some (s.thr.index, c, d)
        | e, _ => e }
    else l

/-- R60, R128, R131, R132, R151, R154, R155, R286, R287, R288, R369, R370. -/
def Obligations.TrapsEnterTheirHandler : Prop :=
  (∀ (s : State) (code : BitVec 11) (rd ra rb : SReg) (fn : BitVec 7), Plain s →
    TrapsHere (.trap code) s s ⟨15#8, 0#8, code.setWidth 64⟩ ∧
    TrapsHere (.brk code) s s ⟨14#8, 0#8, code.setWidth 64⟩ ∧
    TrapsHere (.mop8 rd ra rb fn) s
      { s with
        thr := { s.thr with arch := { s.thr.arch with ucr := { s.ucr with retcnt := s.ucr.retcnt + 1#64 } } }
        mod := { s.mod with rcMop8 := s.mod.rcMop8 + 1#64 } }
      ⟨2#8, 0#8, wordValue (.mop8 rd ra rb fn)⟩) ∧
  (∀ (s : State) (t : Trap) (sxpc : Word),
    let user := t.cause ∈ [7#8, 8#8, 14#8, 15#8] ∧ s.thr.level = false ∧ s.thr.handler = false ∧ s.ucr.utvec ≠ 0#56 ∧
      s.ucr.utvec.toNat % 4 = 0
    let system := s.thr.sys.stvec ≠ 0#64 ∧ s.thr.sys.stvec.toNat % 4 = 0
    let outside := s.thr.rpt = none ∧ s.thr.rptResume = none
    (s.thr.sys.sta = true → Ended s (s.deliverHere t sxpc) (some (t.cause, t.detail))) ∧
    (s.thr.sys.sta = false →
      (outside → user → s.deliverHere t sxpc = inUserHandler s s.trip t.cause t.value) ∧
      (outside → ¬user → system → s.deliverHere t sxpc = inSystemHandler s s.trip t sxpc 0#11) ∧
      (∀ g, s.thr.rpt = some g → g.pass < 64 → g.word < 16 → system →
        ∃ srpt : BitVec 11, srpt.toNat = 1024 + 16 * g.pass + g.word ∧ s.deliverHere t sxpc = inSystemHandler s g.start t sxpc srpt) ∧
      (¬(outside ∧ user) → ¬system → Ended s (s.deliverHere t sxpc) (some (t.cause, t.detail)))))

/-- R129, R156, R157, R291, R16. That `eret` also clears SSTATUS.HW is R305's. That it clears SRPT whatever V holds (log entry 50), and that `halt`
in a handler entered with a pending replay ends the strand at once (log entry 10), is the model's choice. -/
def Obligations.ReturnsRestoreAndHaltsEnd : Prop :=
  ∀ s : State, Plain s →
    let u := s.ucr
    let c := s.thr.sys
    let reissue := if s.thr.replay = [] then false else true
    (s.thr.level = false → exec .eret s = .next { s with thr := { s.thr with
      handler := false, replaying := reissue, rptResume := none, waiting := false, deferLog := false
      arch := { s.thr.arch with trip :=
        { pc := u.uepc.setWidth 64 <<< 2, npc := u.uenpc.setWidth 64 <<< 2, nnpc := u.uennpc.setWidth 64 <<< 2,
          a0 := false, a1 := u.uannul.getLsbD 0, a2 := u.uannul.getLsbD 1 } } } }) ∧
    (s.thr.level = true → exec .eret s = .next { s with thr := { s.thr with
      level := c.ppl, replaying := reissue, waiting := false, deferLog := false
      rptResume := if 1024 ≤ c.srpt.toNat then some (c.srpt.toNat / 16 % 64, c.srpt.toNat % 16) else none
      sys := { c with sta := false, hw := false, srpt := 0#11 }
      arch := { s.thr.arch with trip :=
        { pc := c.sepc, npc := c.senpc, nnpc := c.sennpc, a0 := false, a1 := c.sannul.getLsbD 0, a2 := c.sannul.getLsbD 1 } } } }) ∧
    ((∃ f ∈ s.thr.forks, f.ended = false) → Waits .halt s s) ∧
    ((∀ f ∈ s.thr.forks, f.ended = true) → ∃ t, exec .halt s = .next t ∧ Ended s t none ∧
      ∀ e ∈ t.late, e.uid = s.thr.uid → e.way.path ≠ .copy → e.way.path ≠ .collective → (e.core, 5) ∈ e.perf)

/-! ## Events: the strand's boundary, the dispatch hardware, the engines, the module (17, 18, 19, 20, 22, 23) -/

/-- Every slot but those of a list as before. -/
def Sys2Proof.Safety.OtherSlots (s t : State) (ks : List Nat) : Prop := ∀ k, k ∉ ks → t.getThr k = s.getThr k

/-- The event runs and leaves the state given. -/
def Sys2Proof.Safety.Leaves (i : Instr) (s t : State) : Prop := exec i s = .next t

/-- R11, R125, R127, R151, R254, R289, R290, R292, R295, R296, R305, R330. That a wait which has ended keeps its status at a preemption is the
model's choice (log entry 45), and so are at which element a posted instruction stops, which ones may, and which instructions run past posted
ones that have not retired (log entry 1). -/
def Obligations.BoundaryEventsActOnTheStrand : Prop :=
  (∀ s : State,
    let t := s.thr
    let still := t.wa = .none ∧ t.unres = []
    let set := fun (x : Thread) => { s with thr := x }
    Leaves .annulledStep s (set { t with arch := { t.arch with trip := Fallen s.trip }, rptResume := none }) ∧
    (∀ p, t.ptrap = some p →
      Leaves .postedTrapDelivery s (s.contained.deliverHere ⟨p.cause, p.detail, p.value⟩ p.entry.addr) ∧ (t.unres = [] → s.contained = s)) ∧
    (∀ u us, t.unres = u :: us →
      let c := s.contained
      c.thr.arch = (if u.older = 0 then u.arch else { u.arch with mask := t.arch.mask, ucr := t.arch.ucr }) ∧
      c.thr.replay = (if t.replaying = true then t.replay.take u.older else t.replay) ∧
      c.thr.unres = [] ∧ c.thr.held = [] ∧ c.thr.rpt = none ∧ c.thr.loop = t.loop.map (fun l => { l with next := u.strip }) ∧
      (u.older ≠ 0 → ∀ a, c.byte a = s.byte a ∧ c.tag a = s.tag a) ∧
      (u.older = 0 → Canonical s → Memory.wf u.cells = true → Sparse.wf 0#16 u.tags = true → ∀ a,
        c.byte a = if s.ownVector a = true then Sparse.get memDefault u.cells a else s.byte a)) ∧
    (∀ d va, still → t.errunc = some (d, va) →
      Leaves .asyncEventTake s ((set { t with errunc := none }).deliverHere ⟨12#8, d, va⟩ 0#64)) ∧
    (still → t.errunc = none → t.wdPend = true →
      Leaves .asyncEventTake s ((set { t with wdPend := false }).deliverHere ⟨9#8, 0#8, 0#64⟩ 0#64)) ∧
    (still → t.rpt = none →
      Leaves .preempt s (set { t with preempt := false, stopping := true, waiting := false, sleep := none, debited := false })) ∧
    (∀ g, still → t.rpt = some g →
      Leaves .preempt s (set { t with
        preempt := false, stopping := true, waiting := false, sleep := none, debited := false, rpt := none,
        arch := { t.arch with trip := g.start }, rptResume := some (g.pass, g.word) })) ∧
    (∀ u us, t.wa = .none → t.unres = u :: us → ∃ w, Leaves .preempt s w ∧ w.thr.stopping = true ∧ w.thr.preempt = false ∧
      w.thr.arch = s.contained.thr.arch ∧ w.thr.replay = s.contained.thr.replay ∧ w.thr.unres = [] ∧ w.thr.held = [] ∧ w.thr.rpt = none ∧
      w.thr.loop = t.loop.map (fun l => { l with next := u.strip })) ∧
    (∀ rd x, t.wa = .armed rd ∧ x = 4#3 ∨ t.wa = .done rd x → t.replaying = false → t.rpt = none → t.unres = [] →
      ∃ w, Leaves .preempt s w ∧ w.thr.stopping = true ∧ w.reg rd = (if rd = 0#5 then 0#64 else x.setWidth 64) ∧
        (∀ r, r ≠ rd → w.reg r = s.reg r) ∧ w.thr.wa = .none ∧
        (let f := Fallen s.trip
         w.trip = if f.a0 = true then (if f.a1 = true then Fallen (Fallen f) else Fallen f) else f) ∧
        w.monitors = s.monitors.filter fun m => m.key ≠ s.cur)) ∧
  (∀ (s : State) (i : Instr), s.thr.stopAt = none → s.thr.unres = [] →
    (∀ t, exec i s = .next t → s.reissue i none = .next t) ∧
    ∀ n, s.stopElement i = some n →
      let u : State := { s with thr := { s.thr with stopAt := some n } }
      s.ucr.vstart.toNat < n ∧ (∀ ac va tid km, i = .mopk ac va tid km → n < s.ucr.vrows.toNat) ∧
      ((∀ ac va tid km, i ≠ .mopk ac va tid km) → isResumable i = true ∧ n < s.ucr.elems) ∧
      (∀ k e, e ∈ u.active k ↔ e ∈ s.active k ∧ e < n) ∧
      ∀ t, exec i u = .next t →
        (t.thr.ptrap = none → t.thr.waiting = false →
          let w : State := { t with thr := { t.thr with
            stopAt := none, goneStep := false, replaying := true
            replay := s.thr.replay.head?.toList.map (fun e => { e with stop := BitVec.ofNat 16 n, gone := t.thr.goneStep }) ++
              s.thr.replay.tail
            arch := { t.thr.arch with ucr := { t.ucr with vstart := BitVec.ofNat 16 n } } } }
          s.reissue i (some n) = .next (w.performSince s.free)) ∧
        (t.thr.ptrap ≠ none ∨ t.thr.waiting = true → s.reissue i (some n) = .next { t with thr := { t.thr with stopAt := none } })) ∧
  (∀ (s : State) (n : Nat),
    (s.performSince n).late.length = s.late.length ∧
    (∀ l ∈ (s.performSince n).late, l.uid = s.thr.uid → (l.way.path = .vector ∨ l.way.path = .vectorLoose) → n ≤ l.way.inst →
      (l.core, 5) ∈ l.perf) ∧
    ∀ (i : Nat) (l : Late), s.late[i]? = some l → l.uid ≠ s.thr.uid ∨ l.way.inst < n → (s.performSince n).late[i]? = some l) ∧
  (∀ (s t : State) (stops : Bool), s.postNext stops = some t →
    ∃ i u v, fetchInstr s.trip.pc s = .done i u ∧ payEnergy u = .done () v ∧ isPosted i = true ∧
      (isLeased i = true → stops = true) ∧ s.thr.replay.length < 64 ∧
      t.thr.replay = s.thr.replay ++ [s.captured i s.trip.pc] ∧ t.thr.replaying = true ∧ t.trip = Fallen s.trip ∧
      (∀ a, t.byte a = s.byte a ∧ t.tag a = s.tag a) ∧ t.ucr = s.ucr) ∧
  (∀ (s t : State), s.passing = some t → ∃ i u v,
    fetchInstr s.trip.pc { s with thr := { s.thr with replay := [], replaying := false, waiting := false } } = .done i u ∧
      passesPosts i s.thr.replay = true ∧ u.runWord i = .next v ∧
      t = { v with thr := { v.thr with replay := s.thr.replay, replaying := true, unres := t.thr.unres } } ∧
      t.thr.ptrap = s.thr.ptrap ∧ t.thr.waiting = false ∧ t.thr.unres.take s.thr.unres.length = v.thr.unres.take s.thr.unres.length ∧
      ∀ x ∈ t.thr.unres.drop s.thr.unres.length, x.older = s.thr.replay.length) ∧
  (∀ (s : State) (event : Instr), s.postedMore = s →
    ((∀ e, s.thr.replay.head? = some e → s.thr.replaying = true → s.stopElement e.instr = none) → s.takeEvent event = exec event s) ∧
    ∀ e n t, s.thr.replay.head? = some e → s.thr.replaying = true → s.stopElement e.instr = some n → s.reissue e.instr (some n) = .next t →
      (t.thr.ptrap = none → s.takeEvent event = exec event t) ∧ (t.thr.ptrap ≠ none → s.takeEvent event = .next t)) ∧
  (∀ s : State,
    let t := s.thr
    let annulled := s.trip.a0 = true ∧ t.rpt = none
    let pending := t.errunc ≠ none ∨ t.wdPend = true
    let preempted := t.preempt = true ∧ s.parkedRoom = true
    let before := ∀ u, t.unres.head? = some u → u.older = 0
    (annulled → s.strandStep = exec .annulledStep s) ∧
    (¬annulled → t.ptrap ≠ none → s.strandStep = exec .postedTrapDelivery s) ∧
    (¬annulled → t.ptrap = none → pending → s.strandStep = s.takeEvent .asyncEventTake) ∧
    (¬annulled → t.ptrap = none → ¬pending → preempted → s.strandStep = s.takeEvent .preempt) ∧
    (¬annulled → t.ptrap = none → ¬pending → ¬preempted →
      (before → t.mustResolve = true → s.strandStep = exec .ubrkResolve s) ∧ (t.unres = [] → s.strandStep = s.issue) ∧
      ∀ e es, ¬before → t.mustResolve = true → t.replaying = true → t.replay = e :: es → s.strandStep = s.reissue e.instr none)) ∧
  ∀ (s : State) (key : Nat),
    let t := s.getThr key
    (t.bound = true → Leaves (.watchdogExpire key) s (s.setThr key { t with wdPend := true })) ∧
    (∀ x, t.sleep = some x → x.toNat ≤ (s.counters.toList.getD (s.clusterOf (coreOf key)) 0#64).toNat →
      Leaves (.csleepExpire key) s (s.setThr key { t with waiting := false, sleep := none })) ∧
    (t.bound = true → Leaves (.debugHalt key) s (s.setThr key { t with dbgHalt := true })) ∧
    Leaves (.debugResume key) s (s.setThr key { t with dbgHalt := false }) ∧
    (s.turnDue key = false → Leaves (.quantumExpire key) s s) ∧
    (s.turnDue key = true → ∃ w, Leaves (.quantumExpire key) s w ∧ (∀ a, w.byte a = s.byte a ∧ w.tag a = s.tag a) ∧
      OtherSlots s w (s.familyOf key) ∧ ∀ k ∈ s.familyOf key, w.getThr k = { s.getThr k with preempt := true })

/-- R62, R296, R299, R303, R304, R319, R323, R327, R328, R330, R331, R344; the queue page R6, R385, R386. That a strand of a context that is not
live counts as ended with cause 5, that REASON stays unless RESULT is 5 (log entry 36), that a discarded family is counted by no launch (log
entry 37), which reason a record that fails several checks gets (log entry 56), what of an image is read back from memory (log entry 14), and on
which poison in an image a restore fails (log entry 58) is the model's choice. -/
def Obligations.LaunchesBindRunAndComplete : Prop :=
  (∀ (s : State) (name : Word) (depth prio : Nat) (owner : BitVec 12) (page : BitVec 6) (i : Nat),
    s.lookup name = some i → s.mod.ntEn = true → s.ntState i = 1 →
    (∀ q ∈ s.queues, q.name ≠ name ∧ (q.page = page → s.ctxFunc q.owner ≠ s.ctxFunc owner)) →
    (s.queues.filter fun q => q.owner == owner).length < 64 → s.queues.length < 8192 →
    Leaves (.queueCreate name depth prio owner page) s { s with queues := s.queues ++
      [{ name := name, depth := depth, prio := prio, owner := owner, page := page, waiting := [], record := Vector.replicate 16 0#64,
         seq := 0#32, reason := 0#8, result := 0#8 }] }) ∧
  (∀ (s : State) (func : BitVec 8) (page : BitVec 6) (q : Queue) (off : BitVec 12) (w : BitVec 2) (data : Word) (bad : Bool) (i : Nat),
    let r := q.record
    s.linkFails = false → s.pageQueue func page = some q → 0x080 ≤ off.toNat → off.toNat < 0x088 →
    let noted := fun (u : State) (result : BitVec 8) (reason : Option (BitVec 8)) => Leaves (.doorbell func page ⟨off, .write w data bad⟩) s
      { u with queues := u.queues.map fun x =>
          if x.name = q.name then { x with seq := x.seq + 1#32, result := result, reason := reason.getD x.reason } else x }
    (s.mod.svclvl = 1#2 → noted s 6#8 none) ∧
    (2 ≤ s.mod.svclvl.toNat → s.lookup q.name = some i → s.mod.ntEn = true →
      (s.ntState i ≠ 1 → noted s 7#8 none) ∧
      (s.ntState i = 1 → (s.ctxState q.owner ≠ 1 → noted s 5#8 (some 5#8)) ∧
        (s.ctxState q.owner = 1 →
          (∀ reason, r.refusal = some reason → noted s 5#8 (some reason)) ∧
          (r.refusal = none → (q.depth ≤ q.waiting.length → noted s 4#8 none) ∧
            (q.waiting.length < q.depth → noted (s.enqueue q r) 0#8 none)))))) ∧
  (∀ (s : State) (func : BitVec 8) (page : BitVec 6) (off : BitVec 12) (w : BitVec 2) (data : Word) (bad : Bool),
    let o := off.toNat
    let n := 2 ^ w.toNat
    let answer := fun (x : Output) => { s with out := s.out ++ [x] }
    let read := Instr.doorbell func page ⟨off, .read w⟩
    let byteAt := fun (r : LaunchRec) (b : Nat) => (r.toList.getD (b / 8) 0#64).extractLsb' (8 * (b % 8)) 8
    (s.mod.svclvl = 0#2 → ∀ op, Leaves (.doorbell func page ⟨off, op⟩) s (answer .unsupported)) ∧
    (s.mod.svclvl ≠ 0#2 → s.linkFails = true → ∀ op, Leaves (.doorbell func page ⟨off, op⟩) s (answer .completionError)) ∧
    (s.mod.svclvl ≠ 0#2 → s.linkFails = false → o % n = 0 →
      (s.pageQueue func page = none → Leaves read s (answer (.answer (List.replicate n 0#8) false)) ∧
        Leaves (.doorbell func page ⟨off, .write w data bad⟩) s s) ∧
      ∀ q, s.pageQueue func page = some q →
        let x := if o / 8 = 0x11 then q.seq.toNat * 2 ^ 32 + q.reason.toNat * 256 + q.result.toNat
          else if o / 8 = 0x12 then q.waiting.length % 2 ^ 13 else 0
        Leaves read s (answer (.answer ((List.range n).map fun i => BitVec.ofNat 8 (x / 2 ^ (8 * (o % 8 + i)))) false)) ∧
        (0x088 ≤ o → Leaves (.doorbell func page ⟨off, .write w data bad⟩) s s) ∧
        (o < 0x080 → ∃ r, Leaves (.doorbell func page ⟨off, .write w data false⟩) s
            { s with queues := s.queues.map fun x => if x.name = q.name then { q with record := r } else x } ∧
          ∀ b, b < 128 → byteAt r b = if o ≤ b ∧ b < o + n then data.extractLsb' (8 * (b - o)) 8 else byteAt q.record b))) ∧
  (∀ (s : State) (queue : Word) (q : Queue) (l : Launch) (b : BindRec), s.queue? queue = some q → s.headToAccept q = some l →
    s.contextRecord q.owner = some b →
    (s.ctxState l.owner ≠ 1 → Leaves (.launchAccept queue) s (s.refuse l b.root 5#8 0#8)) ∧
    (∀ e u, s.ctxState l.owner = 1 → s.acceptKernel l b.root = (.error e, u) → Leaves (.launchAccept queue) s (u.refuse l b.root e.1 e.2)) ∧
    (∀ base version u of v w, s.ctxState l.owner = 1 → s.acceptKernel l b.root = (.ok (base, version), u) →
      u.strandGroups l b.root = (.ok of, v) → v.preload l b.root (l.record.get 8) 0 ((l.record.get 9).toNat % 2048) = (.ok (), w) →
      ∃ t, Leaves (.launchAccept queue) s t ∧ t.mem = w.mem ∧ t.launches = w.launches.map fun x => if x.id = l.id then
        { x with
          accepted := true, root := b.root, codeBase := base, version := version
          scopes := List.replicate (bitsOf (l.record.get 4).toNat 23 16 + 1)
            (w.scopeOf (w.permitted l.queue l.owner (BitVec.ofNat 2 (bitsOf (l.record.get 2).toNat 35 34))))
          groups := (List.range (bitsOf (l.record.get 4).toNat 23 16 + 1)).map fun g =>
            ((of.zipIdx).filter fun p => p.1.contains g).map (·.2) } else x)) ∧
  (∀ (s : State) (queue : Word) (q : Queue) (l : Launch), s.queue? queue = some q → s.want q = some (.fresh l) →
    (∀ p, firstPlace (s.places l.need nobody) = some p → s.ctxState l.owner ≠ 1 → ∃ t, Leaves (.strandBind queue) s t ∧
      OtherSlots s t [] ∧ t.launches = s.launches.map fun x => if x.id = l.id then
        { x with bound := x.bound + 1, finished := x.finished + 1, ended := x.ended + 1, err := x.err.or (some (l.bound, 5#8, 0#8)) } else x) ∧
    (∀ p g0 g1 g2 g3 g4 u args err v, firstPlace (s.places l.need nobody) = some p → s.ctxState l.owner = 1 →
      s.allocGens (coreOf p.key) [0, 1, 2, 3, 4] = (some [g0, g1, g2, g3, g4], u) →
      u.readArgs (s.bindRec p.num).asid (s.bindRec p.num).root (l.record.get 3) ((l.record.get 4).toNat % 65536 / 8)
        (max 6 ((l.record.get 4).toNat % 65536 / 8)) = (args, err, v) →
      ∃ t, Leaves (.strandBind queue) s t ∧ OtherSlots s t [p.key] ∧
        let x := t.getThr p.key
        let b := s.bindRec p.num
        (err ≠ none → x.bound = false) ∧ (err = none → 6 ≤ args.length ∧ x.bound = true ∧ x.launch = l.id ∧ x.index = l.bound ∧ x.queue = l.queue ∧ x.asid = b.asid ∧ x.root = b.root ∧ x.prio = b.prio ∧
        x.acc = b.acc ∧ x.level = false ∧ x.handler = false ∧ x.eclass = 0#3 ∧ x.loop = none ∧ x.claims = [] ∧ x.arch.qrows = 0#64 ∧
        x.arch.qlen = 0#64 ∧
        [x.genS, x.genV, x.genM, x.genA, x.genP] = [g0, g1, g2, g3, g4] ∧ x.arch.trip = Triple.start l.codeBase ∧
        x.arch.ucr = UserCR.atBinding (l.need.share ++ BitVec.ofNat 2 (bitsOf (l.record.get 2).toNat 33 32))
          (BitVec.ofNat 2 (bitsOf (l.record.get 4).toNat 30 29)) ∧
        x.sys = SysCR.atBinding (b.get 5) (b.get 6) ∧
        ∀ i : Fin 9, ∃ r : Fin 32, r.val = i.val + 3 ∧ x.arch.stag.get r = g0 ∧
          r.val ∉ x.arch.sbad ∧ x.arch.sreg.get r = (l.record.get 3 :: BitVec.ofNat 64 l.bound :: BitVec.ofNat 64 l.count :: args).getD i.val 0#64)) ∧
    (firstPlace (s.places l.need nobody) = none → ∀ k, s.displaced l.need = some k → Leaves (.strandBind queue) s (s.requestPreempt k))) ∧
  (∀ (s : State) (key : Nat), (∀ k ∈ s.familyOf key, (s.getThr k).stopping = true) →
    ∃ t, Leaves (.imageWriteComplete key) s t ∧ OtherSlots s t (s.familyOf key) ∧ (∀ k ∈ s.familyOf key, (t.getThr k).bound = false) ∧
      t.saved.map (·.thread) = s.saved.map (·.thread) ++ (s.familyOf key).map s.getThr) ∧
  (∀ (s : State) (v : Saved), s.saved.find? (fun x => x.uid == v.uid && x.thread.parentSlot.isNone) = some v →
    let without := fun (u : State) => { u with
      saved := u.saved.filter fun x => x.family ≠ v.family
      parked := u.parked.filter fun p => !((u.saved.filter fun x => x.family == v.family).map (·.uid)).contains p.uid }
    let gone := without s
    let images := (s.savedFamily v).map s.loaded
    let logged := s.logBroken images
    let first := v.thread.parent.isNone
    let fits := (s.places v.thread.need nobody).filter fun p => decide ((s.savedFamily v).length ≤ (s.familySlots p).length)
    (s.saved.find? (fun x => x.uid == v.uid) = some v → Leaves (.discardSavedContext v.uid) s gone) ∧
    (s.ctxState v.thread.asid ≠ 1 →
      Leaves (.restore v.uid) s (gone.launchStrandDone v.thread.launch v.thread.index (some (5#8, 0#8)) first)) ∧
    ((∀ x ∈ images, s.brokenAt x = none) → logged = s) ∧
    (∀ x pa, images.find? (fun x => (s.brokenAt x).isSome) = some x → s.brokenAt x = some pa → logged = s.logConsumed pa) ∧
    (s.ctxState v.thread.asid = 1 → ∀ p, firstPlace fits = some p →
      ((∃ x ∈ s.savedFamily v, s.imageFails (s.loaded x) (s.bindRec p.num) = true) →
        Leaves (.restore v.uid) s ((without logged).launchStrandDone v.thread.launch v.thread.index (some (0x10#8, 0#8)) first)) ∧
      ∀ g0 g1 g2 g3 g4 u w, s.savedFamily v = [v] → s.imageFails (s.loaded v) (s.bindRec p.num) = false → s.genStalls (coreOf p.key) 4 = false →
        s.familyGens (coreOf p.key) 1 = (some [[g0, g1, g2, g3]], u) → u.allocGens (coreOf p.key) [4] = (some [g4], w) →
        (∀ x ∈ s.parked, x.uid ≠ v.uid) →
        ∃ t, Leaves (.restore v.uid) s t ∧ OtherSlots s t [p.key] ∧ (∀ x ∈ t.saved, x.family ≠ v.family) ∧
          let x := t.getThr p.key
          let b := s.bindRec p.num
          let z := (s.loaded v).thread
          x.bound = true ∧ x.stopping = false ∧ x.uid = v.thread.uid ∧ x.asid = b.asid ∧ x.root = b.root ∧ x.prio = b.prio ∧
          [x.genS, x.genV, x.genM, x.genA, x.genP] = [g0, g1, g2, g3, g4] ∧ x.arch.trip = v.thread.arch.trip ∧
          x.arch.ucr = z.arch.ucr ∧ x.level = z.level ∧ x.handler = z.handler ∧ x.loop = z.loop ∧
          x.replay = z.replay ∧ x.replaying = z.replaying ∧ x.eclass = z.eclass ∧ x.wdPend = v.thread.wdPend ∧
          ∀ r, z.arch.stag.get r = z.genS → x.arch.sreg.get r = z.arch.sreg.get r ∧ x.arch.stag.get r = g0)) ∧
  (∀ (s : State) (l : Launch), s.launchOf l.id = some l → l.accepted = true → l.finished = l.count →
    ∃ u t : State, Leaves (.launchComplete l.id) s t ∧
      t.mem = (u.report l l.root (BitVec.ofNat 64 (min l.ended 0xFFFFFFFF)) l.errorWord).mem ∧ u.mem = s.mem ∧
      (∀ x ∈ t.launches, x.id ≠ l.id) ∧ (∀ q ∈ t.queues, l.id ∉ q.waiting) ∧ (∀ b ∈ t.barriers, b.launch ≠ l.id)) ∧
  (∀ (s : State) (n : Nat) (ws : Vector Word 8),
    let r : State := { s with binds := Sparse.put BindRec.empty s.binds n (BindRec.stored ws) }
    let hit := fun k => ∃ j ∈ s.keys, (s.getThr j).bound = true ∧ (s.getThr j).bindNo = n ∧ r.stillQualifies j = false ∧ k ∈ s.familyOf j
    ∃ t, Leaves (.bindRecordWrite n ws) s t ∧ t.bindRec n = BindRec.stored ws ∧ (∀ m, m ≠ n → t.bindRec m = s.bindRec m) ∧
      ∀ k, (hit k → t.getThr k = { s.getThr k with preempt := true }) ∧ (¬hit k → t.getThr k = s.getThr k)) ∧
  (∀ (s : State) (core pool : Nat) (w : Sweep), Sparse.wf 0#16 s.tags = true →
    (s.getCore core).sweeps.toList.getD pool none = some w →
    ∃ t, Leaves (.harrowSweepEnd core pool) s t ∧ (∀ a, t.byte a = s.byte a) ∧
      let lo := if pool = 1 then 0 else if pool = 3 then 0x80000 else 0x100000
      let hi := if pool = 1 then 0x80000 else if pool = 3 then 0x100000 else 0x300000
      (pool ∈ [1, 3, 4] → ∀ a, t.tag a = if windowAddr core lo / 64 ≤ a / 64 ∧ a / 64 < windowAddr core hi / 64 ∧ (s.tag a).toNat ∉ w.skip
        then 0#16 else s.tag a) ∧
      (pool = 0 → ∀ k ∈ coreKeys core, ∀ r, (t.getThr k).arch.stag.get r =
        if ((s.getThr k).arch.stag.get r).toNat ∈ w.skip then (s.getThr k).arch.stag.get r else 0#16))

/-- Bytes that an engine has written: those of the places, and no other; and how it changed the state otherwise. -/
def Sys2Proof.Safety.EngineWrote (s v t : State) (ps : List (Nat × Nat)) (bs : List Byte) : Prop :=
  let cells := ps.flatMap fun p => (List.range p.2).map fun i => p.1 + i
  (∀ i, i < cells.length → t.byte (cells.getD i 0) = bs.getD i 0#8) ∧ (∀ a, a ∉ cells → t.byte a = s.byte a) ∧
  t = { v with mem := t.mem, late := t.late, free := t.free, copies := t.copies, colls := t.colls }

/-- The places of bytes do not meet. -/
def Sys2Proof.Safety.Apart (ps : List (Nat × Nat)) : Prop := (ps.flatMap fun p => (List.range p.2).map fun i => p.1 + i).Nodup

/-- R6, R251, R252, R253, R255, R256, R257, R274, R312, R315, R318, R360, R383, R388, R391. That an event performs a copy or collective whole and a
shootdown performs every late store (log entry 5), that a copy waits for every reason of Table 18.2, a poisoned table (5) among them (log entry
17), that what a `cpyw` delivers goes under the target's generation (log entry 25), and that PROT or poison in a collective ends it with status 1
and nothing written and an abandoned one that is mismatched too with status 2 (log entry 26), is the model's choice. -/
def Obligations.EnginesAndCommandsAct : Prop :=
  (∀ (s : State) (c : Copy) (bs : List Byte) (u : State), s.runningCopy c.id = some c → c.toToken = none → c.rows = 1 → s.poison = [] →
    let stands := fun (x : CopyState) => s.copies.map fun d => if d.id = c.id then { d with state := x } else d
    let whole := sameUnits c.dst c.src
    let read := s.engineReads (some c.reader) c.asid c.root c.level whole c.src c.len
    let places := u.enginePlaces c.asid c.root c.level whole c.dst c.len
    (read = ((bs, none), u) →
      (∀ ps v, places = ((ps, none), v) → Apart ps →
        bs.length = c.len ∧ placedBytes ps = c.len ∧ ∃ t, Leaves (.copyComplete c.id) s t ∧ EngineWrote s v t ps bs ∧
          t.copies = stands (.done false) ∧ t.free = v.free) ∧
      (∀ ps e v, places = ((ps, some e), v) → e = .denied ∨ e = .refused → Apart ps →
        ∃ t, Leaves (.copyStop c.id) s t ∧ EngineWrote s v t ps bs ∧ t.free = v.free ∧
          t.copies = stands (.stopped 6#8 1#8 (c.dst + BitVec.ofNat 64 (placedBytes ps)) (decide (e = .denied))))) ∧
    (∀ reason, read = ((bs, some (.translation reason)), u) → ∀ ps v, places = ((ps, none), v) →
      Leaves (.copyTranslationFault c.id) s
        { s with walks := v.walks, badFrames := v.badFrames, dropping := v.dropping, free := v.free, elog := v.elog, mod := v.mod })) ∧
  (∀ (s : State) (c : Copy), s.runningCopy c.id = some c → c.toToken = none →
    (∀ gone t, s.copyRows c (List.range c.rows) s = .complete gone t → Leaves (.copyComplete c.id) s
      { t with copies := t.copies.map fun d => if d.id = c.id then { d with state := .done gone } else d }) ∧
    ∀ (t : State) (i : Nat) (is : List Nat), t.poison = [] →
      let dst := c.dst + BitVec.ofInt 64 (i * c.dstr)
      let src := c.src + BitVec.ofInt 64 (i * c.sstr)
      let whole := sameUnits dst src
      s.copyRows c [] t = .complete false t ∧
      ∀ bs u ps v, t.engineReads (some c.reader) c.asid c.root c.level whole src c.len = ((bs, none), u) →
        u.enginePlaces c.asid c.root c.level whole dst c.len = ((ps, none), v) → Apart ps →
        ∃ w, EngineWrote t v w ps bs ∧ w.copies = t.copies ∧ s.copyRows c (i :: is) t = s.copyRows c is w) ∧
  (∀ (s u : State) (c : Copy) (tok : BitVec 32) (bs : List Byte), s.runningCopy c.id = some c → c.toToken = some tok → s.poison = [] →
    s.engineReads (some c.reader) c.asid c.root c.level (sameUnits c.dst c.src) c.src c.len = ((bs, none), u) →
    let stands := fun (x : CopyState) => s.copies.map fun d => if d.id = c.id then { d with state := x } else d
    let takes := fun (k : Nat) => u.liveToken tok = some k ∧ (c.level = true ∨ (u.getThr k).asid = c.asid) ∧ u.offline (coreOf k) = false
    ((∀ k, ¬takes k) → Leaves (.copyComplete c.id) s { u with copies := stands (.done true) }) ∧
    ∀ k, takes k → c.len ≠ 0 → c.dst.toNat + c.len ≤ 0x300000 →
      let first := windowAddr (coreOf k) c.dst.toNat
      ∃ t, Leaves (.copyComplete c.id) s t ∧ t.copies = stands (.done false) ∧
        (∀ i, i < c.len → t.byte (first + i) = bs.getD i 0#8 ∧ t.tag (first + i) = (u.getThr k).genAt (c.dst.toNat + i)) ∧
        ∀ a, a / 64 < first / 64 ∨ (first + c.len - 1) / 64 < a / 64 → t.byte a = s.byte a ∧ t.tag a = s.tag a) ∧
  (∀ (s : State) (c : Collective), s.colls.find? (fun x => x.id == c.id && x.status.isNone) = some c →
    let ends := fun (st : BitVec 2) => s.colls.map fun x => if x.id = c.id then { x with status := some st } else x
    (s.abandoned c = true → Leaves (.collectiveComplete c.id) s { s with colls := ends (if c.mismatched = true then 2#2 else 1#2) }) ∧
    (s.abandoned c = false → (s.collMembers c).length ≤ c.parts.length → c.mismatched = true →
      Leaves (.collectiveComplete c.id) s { s with colls := ends 2#2 }) ∧
    ∀ p, s.abandoned c = false → c.parts = [p] → (s.collMembers c).length ≤ 1 → (s.modules p.asid).1 = 1 → s.poison = [] →
      let n := p.n * (fmtWidth p.fmt / 8)
      let whole := p.op != 0#2 && sameUnits p.dst p.src
      let read := s.engineReads (some (p.reader c.id)) p.asid p.root p.level whole p.src n
      (∀ bs u, read = ((bs, none), u) → ∀ ps v, u.enginePlaces p.asid p.root p.level whole p.dst n = ((ps, none), v) →
        Apart ps → fmtWidth p.fmt % 8 = 0 → p.op = 1#2 ∨ p.op = 2#2 ∨ p.rank1 = true →
        ∃ t, Leaves (.collectiveComplete c.id) s t ∧ EngineWrote s v t ps bs ∧ t.colls = ends 0#2) ∧
      (∀ bs e u, read = ((bs, some e), u) → e = .denied ∨ e = .refused →
        Leaves (.collectiveComplete c.id) s { u with colls := ends 1#2 })) ∧
  (∀ (s u v : State) (c : Collective) (p : Contribution) (parts : List Contribution) (own : List Leaf)
      (ws : List (Contribution × List (List (Nat × Nat) × List Byte))),
    s.colls.find? (fun x => x.id == c.id && x.status.isNone) = some c → s.abandoned c = false →
    (s.collMembers c).length ≤ c.parts.length → c.mismatched = false → c.parts.head? = some p → (s.modules p.asid).1 = 1 →
    parts.Perm c.parts → parts.Pairwise (fun a b => a.rank < b.rank) →
    let whole := fun (a : Word) => p.op != 0#2 && parts.any fun q => sameUnits q.dst a
    s.readParts c.id (fmtWidth p.fmt / 8) whole (if p.op = 1#2 then parts.take 1 else parts) = ((own, none), u) →
    u.placeParts (parts.map fun q => (q, collectiveResult p.op p.fmt p.n u.free own q)) = ((ws, none), v) →
    let writes := ws.flatMap (·.2)
    Apart (writes.flatMap (·.1)) →
    ∃ t, Leaves (.collectiveComplete c.id) s t ∧ EngineWrote s v t (writes.flatMap (·.1)) (writes.flatMap (·.2)) ∧
      t.colls = s.colls.map fun x => if x.id = c.id then { x with status := some 0#2 } else x) ∧
  (∀ (s u : State) (coll w : Nat) (whole : Word → Bool) (p : Contribution) (ps : List Contribution) (bs : List Byte),
    s.engineReads (some (p.reader coll)) p.asid p.root p.level (whole p.src) p.src (p.n * w) = ((bs, none), u) →
    s.readParts coll w whole [] = (([], none), s) ∧
    let r := u.readParts coll w whole ps
    s.readParts coll w whole (p :: ps) =
      (({ src := some p.src, xs := (List.range p.n).map fun i => numOf ((bs.drop (i * w)).take w) } :: r.1.1, r.1.2), r.2)) ∧
  (∀ (s u : State) (p : Contribution) (b : Block) (bs : List Block) (ps : List (Nat × Nat)),
    s.enginePlaces p.asid p.root p.level b.whole b.va b.bytes.length = ((ps, none), u) →
    s.placeBlocks p [] = (([], none), s) ∧
    let r := u.placeBlocks p bs
    s.placeBlocks p (b :: bs) = (((ps, b.bytes) :: r.1.1, r.1.2), r.2)) ∧
  (∀ (s u : State) (p : Contribution) (bs : List Block) (rest : List (Contribution × List Block)) (ws : List (List (Nat × Nat) × List Byte)),
    s.placeBlocks p bs = ((ws, none), u) →
    s.placeParts [] = (([], none), s) ∧
    let r := u.placeParts rest
    s.placeParts ((p, bs) :: rest) = (((p, ws) :: r.1.1, r.1.2), r.2)) ∧
  (∀ (op : Nat → Nat → Nat) (a b c d : Nat), pairTree op 4 [a, b, c, d] = op (op a b) (op c d) ∧
    pairTree op 3 [a, b, c] = op (op a b) c ∧ pairTree op 2 [a, b] = op a b ∧ pairTree op 1 [a] = a) ∧
  (∀ (p : Contribution) (n free : Nat) (fmt : BitVec 4) (l : Leaf) (leaves : List Leaf),
    let w := fmtWidth fmt / 8
    let out := fun (l : Leaf) => l.xs.flatMap (bytesOf w)
    let gives := fun (op : BitVec 2) (ls : List Leaf) => (collectiveResult op fmt n free ls p).map fun b => (b.va, b.bytes)
    gives 1#2 (l :: leaves) = [(p.dst, out l)] ∧
    gives 2#2 leaves = leaves.zipIdx.map (fun x => (p.dst + BitVec.ofNat 64 (x.2 * n * w), out x.1)) ∧
    (p.rank1 = true → gives 0#2 leaves =
      [(p.dst, (List.range n).flatMap fun e => bytesOf w (pairTree (addElems fmt) leaves.length (leaves.map fun l => l.xs.getD e 0)))])) ∧
  (∀ (s : State) (link : BitVec 4),
    (∃ t, Leaves (.headlandLinkFail link) s t ∧ t.mod.hlstat = s.mod.hlstat &&& ~~~(1#16 <<< link.toNat) ∧ t.mem = s.mem ∧
      t.mod.estat.getLsbD 2 = true ∧ (s.elog.length < 256 → t.elog.length = s.elog.length + 1) ∧
      t.colls.length = s.colls.length ∧ ∀ i, i < s.colls.length → ∃ c d, s.colls[i]? = some c ∧ t.colls[i]? = some d ∧
        (d = c ∨ c.status = none ∧ d = { c with status := some 1#2 }) ∧
        (c.status = none → (∃ p ∈ c.parts, (s.modules p.asid).1 ≠ 1 ∧ (s.domain p.asid).getLsbD link.toNat = true) → d.status = some 1#2)) ∧
    Leaves (.headlandLinkTrained link) s { s with mod := { s.mod with hlstat := s.mod.hlstat ||| 1#16 <<< link.toNat } }) ∧
  (∀ (s : State) (asid : BitVec 12) (vpn frame : BitVec 44) (count : BitVec 32) (name value : Word) (cr : BitVec 11) (ctx : Option (BitVec 12)),
    let done := withLate s fun e => e.performed e.core 4
    let keeping := fun (p : WalkEntry → Bool) => { done with walks := s.walks.filter p }
    let tcmds := fun (t : State) (x : BitVec 2) => { t with thr := { t.thr with sys := { t.thr.sys with tcmds := x } } }
    Leaves (.rangeInAsid asid vpn 0#32) s s ∧
    (count ≠ 0#32 → Leaves (.rangeInAsid asid vpn count) s (keeping fun e => !(e.asid == asid &&
      decide (e.page < vpn.toNat + count.toNat ∧ vpn.toNat < e.page + e.pages)))) ∧
    Leaves (.wholeAsid asid) s (keeping fun e => e.asid != asid) ∧ Leaves .everyAsid s { done with walks := [] } ∧
    Leaves (.unpoisonFrame frame) s { s with badFrames := s.badFrames.filter fun f => f ≠ frame.toNat % 2 ^ 40 * 4096 } ∧
    (s.ctxState asid ≠ 0 → Leaves (.create asid) s (tcmds s 1#2)) ∧
    (s.ctxState asid = 0 → ∃ t, Leaves (.create asid) s t ∧ t.thr.sys.tcmds = 0#2 ∧ t.tags = s.tags ∧
      t.energy asid = { ebud := 0#32, ebcap := 0x7FFFFFFF#31 }) ∧
    (s.ctxState asid ≠ 1 → Leaves (.destroy asid) s (tcmds s 1#2)) ∧
    (s.ctxState asid = 1 → s.asidInUse asid = true → Leaves (.destroy asid) s (tcmds s 2#2)) ∧
    (s.ctxState asid = 1 → s.asidInUse asid = false → ∃ t, Leaves (.destroy asid) s t ∧ t.thr.sys.tcmds = 0#2 ∧ t.tags = s.tags) ∧
    (∀ i, s.mod.ntEn = true → s.lookup name = some i → s.ntState i = 1 → ∃ t, Leaves (.revoke name asid) s t ∧ t.thr.sys.tcmds = 0#2 ∧
      t.nameCache = s.nameCache.filter fun e => e.name ≠ name) ∧
    (s.mod.ntEn = true → s.lookup name = none → Leaves (.revoke name asid) s (tcmds s 3#2)) ∧
    Leaves .tcmdbReserved s (tcmds s 1#2) ∧ Leaves .elogpop s { s with elog := s.elog.drop 1 } ∧
    (cr.toNat < 0x100 → Leaves (.registerWrite ⟨cr, ctx⟩ value) s
      { s with thr := { s.thr with arch := { s.thr.arch with ucr := s.ucr.write cr.toNat value } } }) ∧
    (0x100 ≤ cr.toNat → cr ≠ 0x205#11 → cr ≠ 0x206#11 → Leaves (.registerWrite ⟨cr, ctx⟩ value) s (s.sysWrite cr.toNat value)) ∧
    ∀ n ∈ [0x205#11, 0x206#11], ∃ t, Leaves (.registerWrite ⟨n, ctx⟩ value) s t ∧ t = { s with energies := t.energies } ∧
      let a := ctx.getD s.thr.asid
      t.energy a = (if n = 0x205#11 then { s.energy a with ebud := value.setWidth 32 } else { s.energy a with ebcap := value.setWidth 31 }) ∧
      ∀ b, b ≠ a → t.energy b = s.energy b)

/-- R293, R350, R352, R355, R356, R374, R379, R385, R387, R390, R391, R392. What a module reset does to memory and tags (log entry 38), how a
request of the host or a peer that fails is answered (log entry 39), with a completion error while the link fails (log entry 59), and where ERRUNC
of a retired lane pends (log entry 41) is the model's choice. -/
def Obligations.ModuleAndHostEventsAct : Prop :=
  (∀ (s : State) (level : BitVec 2) (h0 h1 : BitVec 36) (step_ : BitVec 16),
    let fresh := fun (t : State) => t.mem = [] ∧ t.tags = [] ∧ t.queues = [] ∧ t.launches = [] ∧ t.binds = [] ∧ t.saved = [] ∧
      t.copies = [] ∧ t.elog = [] ∧ t.images = [] ∧ t.sums = [] ∧ t.scrubs = [] ∧ t.thr = Thread.reset ∧ t.others = [] ∧ t.counters = Vector.replicate 18 0#64 ∧
      t.mod.harv0 = h0 ∧ t.mod.harv1 = h1 ∧ t.mod.stepping = step_ ∧ t.mod.rcVfredo = 0#64 ∧ t.mod.rcMop8 = 0#64 ∧ t.mod.plim = 1900#11
    (∃ t, Leaves (.moduleReset false level h0 h1 step_) s t ∧ fresh t ∧ t.mod.svclvl = 0#2 ∧ t.mod.flashBlock = s.mod.flashBlock) ∧
    (s.mod.flashBlock ≠ 0xFFFFFF#24 → ∃ t, Leaves (.moduleReset true level h0 h1 step_) s t ∧ fresh t ∧
      t.mod.svclvl = (if level = 0#2 then 1#2 else level) ∧ t.mod.flashBlock = s.mod.flashBlock + 1#24 ∧
      t.mod.nserial.toNat = s.mod.flashBlock.toNat * 2 ^ 36 ∧ t.mod.nblkEnd.toNat = (s.mod.flashBlock.toNat + 1) * 2 ^ 36) ∧
    (s.mod.svclvl = 1#2 ∨ s.mod.svclvl = 2#2 → ∃ t, Leaves .serviceLevelRaise s t ∧
      t = { s with mod := { s.mod with svclvl := s.mod.svclvl + 1#2 }, dies := t.dies }) ∧
    (s.mod.svclvl = 0#2 ∨ s.mod.svclvl = 3#2 → Leaves .serviceLevelRaise s s) ∧
    (s.mod.nserial = s.mod.nblkEnd → s.mod.flashBlock ≠ 0xFFFFFF#24 → ∃ m, Leaves .serialBlockReserve s { s with mod := m } ∧
      m.flashBlock = s.mod.flashBlock + 1#24 ∧ m.nserial.toNat = s.mod.flashBlock.toNat * 2 ^ 36 ∧
      m.nblkEnd.toNat = (s.mod.flashBlock.toNat + 1) * 2 ^ 36)) ∧
  (∀ (s : State) (key lane : Nat),
    let core := coreOf key
    let c := s.getCore core
    (∃ t, Leaves (.shiftedLaneMismatch key none) s t ∧ t.mem = s.mem ∧ t.thr = s.thr ∧ t.cores = s.cores) ∧
    (lane < 128 + c.retired.length → lane ∉ c.retired →
      let n := Sparse.get 0 c.charges lane + 1
      ∃ t, Leaves (.shiftedLaneMismatch key (some lane)) s t ∧ t.mem = s.mem ∧ Sparse.get 0 (t.getCore core).charges lane = n ∧
        (t.getCore core).retired = (if 2 ≤ n ∧ c.retired.length < 4 then c.retired ++ [lane] else c.retired) ∧
        (2 ≤ n → 4 ≤ c.retired.length → (s.getThr key).bound = true → (t.getThr key).errunc = some (1#8, 0#64)))) ∧
  (∀ (s : State) (name : Word) (asid : BitVec 12) (i : Nat), s.lookup name = some i →
    (s.ntState i = 2 → Leaves (.tombstone name) s (s.setWord (s.ntAddr i + 24) (ntLast (s.ntVersion i) 3#2 (s.ntOwner i)))) ∧
    Leaves (.grantRemove name asid) s ((s.grantBlocks 0x1000000 (s.ntGrant i)).foldl (fun s b => s.clearGrants asid b) s) ∧
    let blocks := s.grantBlocks 0x1000000 (s.ntGrant i)
    let held := ∃ b ∈ blocks, ∃ j, j < 30 ∧ s.grant b j = (0x8#4 ++ asid)
    (held → Leaves (.grantAdd name asid) s s) ∧
    (∀ pa, (∀ b ∈ blocks, ∀ j, j < 30 → grantsTo (s.grant b j) asid = false) → s.openGrant blocks = some pa →
      Leaves (.grantAdd name asid) s (s.writeBytes pa (bytesOf 2 (0x8000 + asid.toNat))))) ∧
  (∀ (s : State) (func : BitVec 8) (va : Word) (w : BitVec 2) (data : Word) (asid : BitVec 12) (root : BitVec 40),
    let n := 2 ^ w.toNat
    let pieces := if va.toNat % n = 0 then [(va, n)] else (List.range n).map fun i => (va + BitVec.ofNat 64 i, 1)
    let answer := fun (t : State) (x : Output) => { t with out := t.out ++ [x] }
    let declined := fun (i : Instr) (t : State) => ∃ x, (x = .abort ∨ x = .unsupported) ∧ Leaves i s (answer { t with free := t.free + 1 } x)
    let failed := fun (i : Instr) (e : Option Stop) (t : State) =>
      (e = some (.translation 4#8) → Leaves i s (answer t .unsupported)) ∧ (e ≠ some (.translation 4#8) → declined i t)
    (s.mod.svclvl = 0#2 → ∀ op, Leaves (.hostBar2Access func va op) s (answer s .unsupported)) ∧
    (s.mod.svclvl ≠ 0#2 → s.linkFails = true → ∀ op, Leaves (.hostBar2Access func va op) s (answer s .completionError)) ∧
    (s.mod.svclvl = 1#2 → s.linkFails = false → ∀ op, declined (.hostBar2Access func va op) s) ∧
    (2 ≤ s.mod.svclvl.toNat → s.linkFails = false → s.hostContext func = none → ∀ op, declined (.hostBar2Access func va op) s) ∧
    (2 ≤ s.mod.svclvl.toNat → s.linkFails = false → s.hostContext func = some (asid, root) →
      (∀ bs e t, s.readAll (some .outside) asid root false pieces = ((bs, e), t) →
        (e = none → Leaves (.hostBar2Access func va (.read w)) s (answer t (.answer bs false))) ∧
        ((∃ pa, e = some (.error pa)) → Leaves (.hostBar2Access func va (.read w)) s (answer t (.answer [] true))) ∧
        (e ≠ none → (∀ pa, e ≠ some (.error pa)) → failed (.hostBar2Access func va (.read w)) e t)) ∧
      (∀ ps e t, s.hostPlaces asid root pieces = ((ps, e), t) →
        (e ≠ none → ∀ bad, failed (.hostBar2Access func va (.write w data bad)) e t) ∧
        (e = none → (∀ p ∈ ps, ∀ core off, s.region p.1 ≠ .window core off) → Apart ps →
          let cells := ps.flatMap fun p => (List.range p.2).map fun i => p.1 + i
          ∃ u, Leaves (.hostBar2Access func va (.write w data false)) s u ∧
            (∀ i, i < n → u.byte (cells.getD i 0) = data.extractLsb' (8 * i) 8) ∧ (∀ a, a ∉ cells → u.byte a = s.byte a) ∧ u.tags = s.tags)))) ∧
  (∀ (s : State) (link : BitVec 4) (pa : BitVec 44) (w : BitVec 2) (data : Word),
    let n := 2 ^ w.toNat
    let memory := fun (n : Nat) =>
      2 ≤ s.mod.svclvl.toNat ∧ ∀ i, i < n → s.region (pa.toNat + i) = .lpddr ∨ ∃ k, s.region (pa.toNat + i) = .slice k
    let works := s.linkFails = false
    let open_ := works ∧ memory n
    (open_ → s.poison = [] → (∀ e ∈ s.late, e.touches 0#16 pa.toNat n = true → s.hides .outside e = false) →
      (∃ t, Leaves (.peerAccess link pa (.plain (.read w))) s t ∧
        t = { s with out := s.out ++ [.answer (s.bytes pa.toNat n) false], late := t.late, free := t.free }) ∧
      Leaves (.peerAccess link pa (.plain (.write w data false))) s (s.writeBytes pa.toNat (bytesOf n data.toNat))) ∧
    (works → s.poison = [] → ∀ (f : CarriedOp) (double : Bool),
      let n := if double then 8 else 4
      let cut := fun (x : Nat) => x % 2 ^ (8 * n)
      let old := numOf (s.bytes pa.toNat n)
      let new := match f with
        | .add => cut (old + data.toNat)
        | .swap => cut data.toNat
        | .cas expected => if old = cut expected.toNat then cut data.toNat else old
      memory n → ∃ t, Leaves (.peerAccess link pa (.atomic f double data)) s t ∧
        t.out = s.out ++ [.answer (s.bytes pa.toNat n) false] ∧ numOf (t.bytes pa.toNat n) = new ∧ t.tags = s.tags ∧
        ∀ a, a < pa.toNat ∨ pa.toNat + n ≤ a → t.byte a = s.byte a) ∧
    (s.linkFails = true → ∀ op, Leaves (.peerAccess link pa op) s { s with out := s.out ++ [.completionError] }) ∧
    (works → ∀ op : PeerOp, ¬memory op.bytes → Leaves (.peerAccess link pa op) s { s with out := s.out ++ [.abort] })) ∧
  (∀ (s : State) (u : TagUnit) (key core off : Nat) (r : SReg) (data : List Byte) (tag : Gen) (nonce : List Byte) (ch : Nat) (link : BitVec 4),
    (∃ d t b f, Leaves (.debugRead u) s { s with out := s.out ++ [.debug d t b], free := f } ∧
      (u = .granule core off → d = s.bytes (windowAddr core off) 64 ∧ b = s.poisoned (windowAddr core off) 64 ∧
        (b = false → t = s.tag (windowAddr core off))) ∧
      (u = .scalar key r → d = bytesOf 8 ((s.getThr key).arch.sreg.get r.toFin).toNat ∧ b = (s.getThr key).arch.sbad.contains r.toNat ∧
        (b = false → t = (s.getThr key).arch.stag.get r.toFin))) ∧
    (∃ t, Leaves (.debugWrite (.scalar key r) data tag) s t ∧ (t.getThr key).arch.sreg.get r.toFin = BitVec.ofNat 64 (numOf data) ∧
      (t.getThr key).arch.stag.get r.toFin = tag ∧ OtherSlots s t [key] ∧ ∀ q : SReg, q ≠ r → (t.getThr key).arch.sreg.get q.toFin =
        (s.getThr key).arch.sreg.get q.toFin) ∧
    (data.length = 64 → off % 64 = 0 → ∃ t, Leaves (.debugWrite (.granule core off) data tag) s t ∧
      t.bytes (windowAddr core off) 64 = data ∧ t.tag (windowAddr core off) = tag ∧
      ∀ a, a < windowAddr core off ∨ windowAddr core off + 64 ≤ a → t.byte a = s.byte a ∧ t.tag a = s.tag a) ∧
    (s.mod.svclvl ≠ 0#2 → ∃ m g c, m = s.quoteMessage nonce ∧ m.length = 192 + nonce.length ∧
      Leaves (.attestationQuote nonce) s { s with out := s.out ++ [.quote m g c] }) ∧
    Leaves (.lpddr6Retraining ch) s s ∧ Leaves (.linkEqualisation link) s s) ∧
  (∀ (s : State) (watts : BitVec 16) (region core : Nat) (rs : List (Nat × Nat)),
    let d : Fin 2 := 0
    (2 ≤ s.mod.svclvl.toNat → s.mod.plim.toNat < 2 * watts.toNat → core < s.ncore → s.dieOf core = 0 → 32 < (s.getCore core).plen.toNat →
      ∃ t, Leaves (.powerLoopWindow false watts) s t ∧ (t.getCore core).plen = (s.getCore core).plen >>> 1 ∧ t.mem = s.mem ∧
        (t.dies.get d).power = watts) ∧
    (∃ es, Leaves .energyRefill s { s with energies := es } ∧ (Sparse.wf Energy.reset s.energies = true → ∀ a e, (a, e) ∈ s.energies →
      Sparse.get Energy.reset es a = { e with ebud := BitVec.ofInt 32 (min (e.ebud.toInt + s.refillOf (BitVec.ofNat 12 a)) e.ebcap.toNat) })) ∧
    (s.mod.svclvl.toNat < 2 → Leaves (.scrubRateUpdate rs) s s ∧ ∀ f, Leaves (.scrubRead region f) s s) ∧
    (let n := s.scrubUnits region
     let i := Sparse.get 0 s.scrubs region
     let unit := scrubUnit region i
     let moved : State := { s with scrubs := Sparse.put 0 s.scrubs region ((i + 1) % n) }
     2 ≤ s.mod.svclvl.toNat → n ≠ 0 → s.region unit = .lpddr ∨ (∃ k, s.region unit = .slice k) → unit < 0x00D000000000 →
      Leaves (.scrubRead region .clean) s moved ∧
      Leaves (.scrubRead region .corrected) s { moved with mod := { s.mod with eccnt := s.mod.eccnt + 1#64 } } ∧
      ∃ t, Leaves (.scrubRead region .uncorrectable) s t ∧ unit / 32 * 32 ∈ t.poison ∧ t.mem = s.mem ∧ t.mod.estat.getLsbD 1 = true ∧
        t.scrubs = moved.scrubs) ∧
    (∀ i, scrubUnit region i < scrubUnit region (i + 1)) ∧
    (2 ≤ s.mod.svclvl.toNat → rs ≠ [] → (∀ r ∈ rs, 2 ^ ((r.1 - 70) / 10) * (16 + r.2) < 65536) → ∃ m, Leaves (.scrubRateUpdate rs) s { s with mod := { s.mod with scrmul := m } } ∧
      (∀ r ∈ rs, 2 ^ ((r.1 - 70) / 10) * (16 + r.2) ≤ m.toNat) ∧ ∃ r ∈ rs, m.toNat = 2 ^ ((r.1 - 70) / 10) * (16 + r.2)))

/-! ## The machine as a whole (01, 05, 21, 22, 23) -/

/-- R250, R328, R338, R369, R376, R382, R391, R396 (Tables 19.5, 21.1, 22.3, 22.4, 23.5); memory (Table 11.2) and tags (R341, Table 20.1) in the
form in which the model holds them. -/
def Obligations.ResetLeavesTheModuleIdle : Prop :=
  let r := State.reset
  r.mod.ecost = 0x0101010101010101#64 ∧ r.mod.plim = 1900#11 ∧ r.mod.estat = 0#4 ∧ r.mod.eccnt = 0#64 ∧ r.mod.coff = 0#72 ∧
  r.mod.rcVfredo = 0#64 ∧ r.mod.rcMop8 = 0#64 ∧ (∀ c, r.counters.get c = 0#64) ∧ r.late = [] ∧ r.elog = [] ∧ r.parked = [] ∧
  (∀ n, (r.getCore n).charges = [] ∧ (r.getCore n).retired = []) ∧ (∀ k, (r.getThr k).bound = false) ∧
  r.queues = [] ∧ r.dropping = [] ∧ r.launches = [] ∧ r.copies = [] ∧ r.colls = [] ∧ r.due = [] ∧ r.deviceEvents = [] ∧
  (∀ waits, r.nextStrand waits = none) ∧ Canonical r

/-- The form in which the model holds memory (Table 11.2) and tags (R341, Table 20.1), kept by whatever writes a byte or a tag. -/
def Obligations.EveryStepKeepsMemoryCanonical : Prop :=
  ∀ s t : State, Canonical s → step s = .next t → Canonical t

/-- R2, R112, R114 to R123 with Tables 5.1 to 5.13. -/
def Obligations.DecodeInvertsEncode : Prop :=
  (∀ (i : Instr) (w : BitVec 32), i.wf = true → encode i = some w → decode w = .ok i) ∧
  (∀ (i : Instr) (w : BitVec 32), decode w = .ok i → i.wf = true ∧ (encode i).isSome = true)

/-- R123 with Table 5.14, and the listings of 04, 06, 12, 14, 16 and 24. -/
def Obligations.SpecWordsDecodeAsTheSpecSays : Prop :=
  decode 0x78304C88#32 = .ok (.vadd ⟨3#6, 1#6, 12#6, true, false, false, 2#3⟩) ∧
  decode 0xA0818744#32 = .ok (.vfma ⟨8#6, 6#6, 7#6, false, true, false, 1#3⟩) ∧
  decode 0xC4930132#32 = .ok (.vld ⟨9#6, 6#5, true, false, 3#3, 2#2⟩) ∧
  decode 0xDA202202#32 = .ok (.mopt true 4#6 17#10 0#3) ∧
  decode 0x69400006#32 = .ok (.ubrk 5#4 6#15) ∧
  decode 0x64E67FFB#32 = .ok (.smine 7#5 3#4 false false (BitVec.ofInt 15 (-5))) ∧
  decode 0x058C6800#32 = .ok (.add 12#5 12#5 13#5) ∧
  decode 0x08E7FFFF#32 = .ok (.addi 7#5 7#5 (BitVec.ofInt 16 (-1))) ∧
  decode 0x2DA63000#32 = .ok (.ld 13#5 6#5 3#4 0#12) ∧
  decode 0x44E07FFD#32 = .ok (.bne 7#5 0#5 false (BitVec.ofInt 15 (-3))) ∧
  decode 0x00005000#32 = .ok .nop ∧ decode 0x00001800#32 = .ok .halt ∧ decode 0x00000800#32 = .ok .eret ∧
  decode 0x60340001#32 = .ok (.jalr 1#5 20#5) ∧ decode 0x00000005#32 = .ok (.trap 5#11) ∧
  decode 0x70421100#32 = .ok (.rpt 1#4 2#6 1#4 1#4 0#4) ∧ decode 0x00004002#32 = .ok (.uloop 2#2) ∧
  decode 0x758E6808#32 = .ok (.vshape 12#5 14#5 13#5 2#2) ∧
  decode 0x39860179#32 = .ok (.amo ⟨12#5, 6#5, 0#5, false, true, 3#3, true⟩ 9#4) ∧
  decode 0xE00E0004#32 = .ok (.csleep 14#5) ∧ decode 0xD8080404#32 = .ok (.mopi false 1#6 2#6 0#3) ∧
  decode 0xE9CD0004#32 = .ok (.tbind 14#5 13#5 0#5) ∧ decode 0xF2E94002#32 = .ok (.lenq 23#5 9#5 8#5) ∧
  decode 0xC0308009#32 = .ok (.kbrka 3#4 2#4) ∧
  (∃ e, decode 0x00000000#32 = .error e) ∧ (∃ e, decode 0xFFFFFFFF#32 = .error e) ∧
  (∃ e, decode 0x78306C88#32 = .error e) ∧ (∃ e, decode 0x69408006#32 = .error e)

/-- R112, R123, R125, R295, R315, R328, R371, R391, R404. Which of several strands steps, and that a step stands for whole instructions, is
the model's choice (log entries 5 and 8), and so is whether a posted instruction retires later (log entry 1). -/
def Obligations.StepRunsTheFetchedInstruction : Prop :=
  (∀ (s : State) (e : Instr) (es : List Instr), s.due = e :: es →
    (s.blocked e = true → step s = s.turn) ∧
    (s.blocked e = false → e.wf = true → step s = afterStep (exec e { s with due := es }))) ∧
  (∀ (s : State) (k : Nat), s.due = [] → s.deviceEvents = [] → s.nextStrand s.waitsOn = some k →
    let u := s.switchTo k
    let pc := u.trip.pc
    Plain u → u.trip.a0 = false → u.thr.ptrap = none → u.thr.errunc = none → u.thr.wdPend = false → u.thr.preempt = false →
    let late := (u.postNext false).filter fun _ => Config.postsLate u.free
    (∀ t, late = some t → step s = .next t.after) ∧
    (late = none → pc.toNat % 4 ≠ 0 → step s = .next (u.deliverHere ⟨Cause.align, 2#8, pc⟩ 0#64).after) ∧
    (∀ (p : Phys) (w : BitVec 32), late = none → pc.toNat % 4 = 0 → Reaches u pc .fetch p → (u.region p.pa = .lpddr ∨ ∃ n, u.region p.pa = .slice n) →
      u.poison = [] →
      let image := u.image?.bind fun c => c.word pc
      (∀ x, image = some x → x.2 = false ∧ ∃ bs, x.1 = bs.map some ∧ w = BitVec.ofNat 32 (numOf bs)) →
      (image = none → w = BitVec.ofNat 32 (numOf (u.bytes p.pa 4)) ∧
        ∀ m ∈ u.thr.codeMem, ∀ i, i < 4 → Sparse.get memDefault m (p.pa + i) = u.byte (p.pa + i)) →
      let v := translated u pc .fetch
      (∀ i x, decode w = .ok i → payEnergy v = .done () x → step s = afterStep (exec i x)) ∧
      (∀ i x, decode w = .ok i → payEnergy v = .wait x → step s = .next { x with thr := { x.thr with waiting := true } }.after) ∧
      (∀ e, decode w = .error e → step s = .next (v.deliverHere ⟨Cause.illegal, 0#8, w.setWidth 64⟩ 0#64).after)))
end

