-- ==== Sys2Proof/Laws/Sparse.lean ====
section
/-!
SUPPORT. Sparse maps: what `put` and `del` read as, and that they keep the canonical form.
-/

namespace Sys2Proof.Laws

open Sys2Proof.Machine

variable {α : Type}

/-! ## Reading -/

theorem get_del (d : α) (m : Sparse α) (a b : Nat) :
    Sparse.get d (Sparse.del m a) b = if b = a then d else Sparse.get d m b := by
  induction m with
  | nil => simp [Sparse.del, Sparse.get]
  | cons c m ih =>
    obtain ⟨k, v⟩ := c
    simp only [Sparse.del, Sparse.get]
    split
    · subst k
      rw [ih]
      split
      · rfl
      · rw [if_neg (by omega)]
    · simp only [Sparse.get]
      by_cases h : k = b
      · rw [if_pos h, if_neg (by omega), if_pos h]
      · rw [if_neg h, if_neg h, ih]

theorem mem_del {m : Sparse α} {a : Nat} {c : Nat × α} : c ∈ Sparse.del m a ↔ c ∈ m ∧ c.1 ≠ a := by
  induction m with
  | nil => simp [Sparse.del]
  | cons x m ih =>
    obtain ⟨k, v⟩ := x
    simp only [Sparse.del]
    split
    · rw [ih, List.mem_cons]
      constructor
      · exact fun h => ⟨.inr h.1, h.2⟩
      · rintro ⟨rfl | h, n⟩
        · exact absurd ‹k = a› n
        · exact ⟨h, n⟩
    · rw [List.mem_cons, List.mem_cons, ih]
      constructor
      · rintro (rfl | h)
        · exact ⟨.inl rfl, ‹_›⟩
        · exact ⟨.inr h.1, h.2⟩
      · rintro ⟨rfl | h, n⟩
        · exact .inl rfl
        · exact .inr ⟨h, n⟩

theorem get_ins (d : α) (m : Sparse α) (a b : Nat) (x : α) (h : ∀ c ∈ m, c.1 ≠ a) :
    Sparse.get d (Sparse.ins a x m) b = if b = a then x else Sparse.get d m b := by
  induction m with
  | nil => simp only [Sparse.ins, Sparse.get]; split <;> simp_all [eq_comm]
  | cons c m ih =>
    obtain ⟨k, v⟩ := c
    have hk : k ≠ a := h (k, v) (by simp)
    have hm : ∀ c ∈ m, c.1 ≠ a := fun c hc => h c (by simp [hc])
    simp only [Sparse.ins]
    split
    · simp only [Sparse.get]
      by_cases e : a = b
      · simp [e]
      · simp [e, Ne.symm e]
    · simp only [Sparse.get, ih hm]
      by_cases e : k = b
      · subst e; simp [hk]
      · simp [e]

/-- A read after a write: the value written at its key, what stood there at every other. -/
theorem get_put [DecidableEq α] (d : α) (m : Sparse α) (a b : Nat) (x : α) :
    Sparse.get d (Sparse.put d m a x) b = if b = a then x else Sparse.get d m b := by
  unfold Sparse.put
  split
  · subst x; rw [get_del]
  · rw [get_ins d _ a b x fun c hc => (mem_del.mp hc).2, get_del]; split <;> rfl

theorem get_filter (d : α) (p : Nat → Bool) (m : Sparse α) (b : Nat) :
    Sparse.get d (m.filter fun c => p c.1) b = if p b then Sparse.get d m b else d := by
  induction m with
  | nil => simp [Sparse.get]
  | cons c m ih =>
    obtain ⟨k, v⟩ := c
    by_cases hk : p k
    · rw [List.filter_cons_of_pos (by simpa using hk)]
      simp only [Sparse.get]
      by_cases e : k = b
      · subst e; simp [hk]
      · simp only [if_neg e, ih]
    · rw [List.filter_cons_of_neg (by simpa using hk), ih]
      simp only [Sparse.get]
      by_cases e : k = b
      · subst e; simp [hk]
      · simp [e]

theorem del_eq_filter (m : Sparse α) (a : Nat) : Sparse.del m a = m.filter fun c => decide (c.1 ≠ a) := by
  induction m with
  | nil => rfl
  | cons c m ih =>
    obtain ⟨k, v⟩ := c
    by_cases h : k = a <;> simp [Sparse.del, h, ih]

/-! ## The canonical form -/

variable [DecidableEq α]

theorem wfFrom_cons {d : α} {lo k : Nat} {v : α} {m : Sparse α} :
    Sparse.wfFrom d lo ((k, v) :: m) = true ↔ (lo ≤ k ∧ v ≠ d) ∧ Sparse.wfFrom d (k + 1) m = true := by
  simp [Sparse.wfFrom]

theorem wfFrom_mono {d : α} {lo lo' : Nat} {m : Sparse α} (h : lo' ≤ lo) (w : Sparse.wfFrom d lo m = true) :
    Sparse.wfFrom d lo' m = true := by
  cases m with
  | nil => rfl
  | cons c m => exact wfFrom_cons.mpr ⟨⟨Nat.le_trans h (wfFrom_cons.mp w).1.1, (wfFrom_cons.mp w).1.2⟩, (wfFrom_cons.mp w).2⟩

theorem wfFrom_filter {d : α} {p : Nat × α → Bool} {m : Sparse α} {lo : Nat} (w : Sparse.wfFrom d lo m = true) :
    Sparse.wfFrom d lo (m.filter p) = true := by
  induction m generalizing lo with
  | nil => rfl
  | cons c m ih =>
    obtain ⟨h, w⟩ := wfFrom_cons.mp w
    rw [List.filter_cons]
    split
    · exact wfFrom_cons.mpr ⟨h, ih w⟩
    · exact wfFrom_mono (by omega) (ih w)

theorem wfFrom_ins {d : α} {m : Sparse α} {lo a : Nat} {x : α} (w : Sparse.wfFrom d lo m = true) (hx : x ≠ d) (hl : lo ≤ a)
    (ha : ∀ c ∈ m, c.1 ≠ a) : Sparse.wfFrom d lo (Sparse.ins a x m) = true := by
  induction m generalizing lo with
  | nil => simp [Sparse.ins, Sparse.wfFrom, hx, hl]
  | cons c m ih =>
    obtain ⟨k, v⟩ := c
    obtain ⟨⟨h1, h2⟩, w⟩ := wfFrom_cons.mp w
    have hk : k ≠ a := ha (k, v) (by simp)
    simp only [Sparse.ins]
    split
    · exact wfFrom_cons.mpr ⟨⟨hl, hx⟩, wfFrom_cons.mpr ⟨⟨by omega, h2⟩, w⟩⟩
    · exact wfFrom_cons.mpr ⟨⟨h1, h2⟩, ih w (by omega) fun c hc => ha c (by simp [hc])⟩

theorem wf_filter {d : α} {p : Nat × α → Bool} {m : Sparse α} (w : Sparse.wf d m = true) : Sparse.wf d (m.filter p) = true :=
  wfFrom_filter w

theorem wf_del {d : α} {m : Sparse α} {a : Nat} (w : Sparse.wf d m = true) : Sparse.wf d (Sparse.del m a) = true := by
  rw [del_eq_filter]; exact wf_filter w

/-- A write keeps the canonical form. -/
theorem wf_put {d : α} {m : Sparse α} {a : Nat} {x : α} (w : Sparse.wf d m = true) : Sparse.wf d (Sparse.put d m a x) = true := by
  unfold Sparse.put
  split
  · exact wf_del w
  · exact wfFrom_ins (wf_del w) ‹_› (Nat.zero_le a) fun c hc => (mem_del.mp hc).2

theorem wf_foldl_put {β : Type} {d : α} (k : β → Nat) (v : β → α) (cs : List β) {m : Sparse α} (w : Sparse.wf d m = true) :
    Sparse.wf d (cs.foldl (fun m c => Sparse.put d m (k c) (v c)) m) = true := by
  induction cs generalizing m with
  | nil => exact w
  | cons c cs ih => exact ih (wf_put w)

theorem get_eq_default {d : α} {lo b : Nat} {m : Sparse α} (w : Sparse.wfFrom d lo m = true) (h : b < lo) : Sparse.get d m b = d := by
  induction m generalizing lo with
  | nil => rfl
  | cons c m ih =>
    obtain ⟨k, v⟩ := c
    obtain ⟨⟨h1, -⟩, w⟩ := wfFrom_cons.mp w
    rw [Sparse.get, if_neg (by omega)]
    exact ih w (by omega)

theorem wfFrom_ext {d : α} {m m' : Sparse α} {lo lo' : Nat} (w : Sparse.wfFrom d lo m = true) (w' : Sparse.wfFrom d lo' m' = true)
    (h : ∀ b, Sparse.get d m b = Sparse.get d m' b) : m = m' := by
  induction m generalizing m' lo lo' with
  | nil =>
    cases m' with
    | nil => rfl
    | cons c m' =>
      have := h c.1
      simp only [Sparse.get, if_pos] at this
      exact absurd this.symm (wfFrom_cons.mp w').1.2
  | cons c m ih =>
    obtain ⟨k, v⟩ := c
    obtain ⟨⟨h1, h2⟩, w⟩ := wfFrom_cons.mp w
    cases m' with
    | nil =>
      have := h k
      simp only [Sparse.get, if_pos] at this
      exact absurd this h2
    | cons c' m' =>
      obtain ⟨k', v'⟩ := c'
      obtain ⟨⟨h1', h2'⟩, w'⟩ := wfFrom_cons.mp w'
      have e : k = k' := by
        rcases Nat.lt_trichotomy k k' with l | l | l
        · have := h k
          rw [Sparse.get, if_pos rfl, Sparse.get, if_neg (by omega), get_eq_default w' (by omega)] at this
          exact absurd this h2
        · exact l
        · have := h k'
          rw [Sparse.get, if_neg (by omega), get_eq_default w (by omega), Sparse.get, if_pos rfl] at this
          exact absurd this.symm h2'
      subst e
      have ev : v = v' := by simpa [Sparse.get] using h k
      subst ev
      congr 1
      refine ih w ‹_› fun b => ?_
      by_cases hb : b ≤ k
      · rw [get_eq_default w (by omega), get_eq_default ‹Sparse.wfFrom d (k + 1) m' = true› (by omega)]
      · have := h b
        rwa [Sparse.get, if_neg (by omega), Sparse.get, if_neg (by omega)] at this

/-- Two maps in canonical form that read the same everywhere are the same data. -/
theorem wf_ext {d : α} {m m' : Sparse α} (w : Sparse.wf d m = true) (w' : Sparse.wf d m' = true)
    (h : ∀ b, Sparse.get d m b = Sparse.get d m' b) : m = m' := wfFrom_ext w w' h

end Sys2Proof.Laws
end

