-- ==== Sys2Proof/Laws/State.lean ====
section
/-!
SUPPORT. What each update of the state leaves in each field: one equation per field and update, so that no later proof unfolds a
record update.
-/

namespace Sys2Proof.Laws

open Sys2Proof.Machine

/-! ## `State.mapThr` -/

@[simp] theorem mapThr_cur (s : State) (f : Thread → Thread) : (s.mapThr f).cur = s.cur := rfl
@[simp] theorem mapThr_thr (s : State) (f : Thread → Thread) : (s.mapThr f).thr = f s.thr := rfl
@[simp] theorem mapThr_others (s : State) (f : Thread → Thread) : (s.mapThr f).others = s.others := rfl
@[simp] theorem mapThr_due (s : State) (f : Thread → Thread) : (s.mapThr f).due = s.due := rfl
@[simp] theorem mapThr_upsets (s : State) (f : Thread → Thread) : (s.mapThr f).upsets = s.upsets := rfl
@[simp] theorem mapThr_free (s : State) (f : Thread → Thread) : (s.mapThr f).free = s.free := rfl
@[simp] theorem mapThr_mem (s : State) (f : Thread → Thread) : (s.mapThr f).mem = s.mem := rfl
@[simp] theorem mapThr_tags (s : State) (f : Thread → Thread) : (s.mapThr f).tags = s.tags := rfl
@[simp] theorem mapThr_poison (s : State) (f : Thread → Thread) : (s.mapThr f).poison = s.poison := rfl
@[simp] theorem mapThr_wrote (s : State) (f : Thread → Thread) : (s.mapThr f).wrote = s.wrote := rfl
@[simp] theorem mapThr_sums (s : State) (f : Thread → Thread) : (s.mapThr f).sums = s.sums := rfl
@[simp] theorem mapThr_scrubs (s : State) (f : Thread → Thread) : (s.mapThr f).scrubs = s.scrubs := rfl
@[simp] theorem mapThr_late (s : State) (f : Thread → Thread) : (s.mapThr f).late = s.late := rfl
@[simp] theorem mapThr_cores (s : State) (f : Thread → Thread) : (s.mapThr f).cores = s.cores := rfl
@[simp] theorem mapThr_counters (s : State) (f : Thread → Thread) : (s.mapThr f).counters = s.counters := rfl
@[simp] theorem mapThr_dies (s : State) (f : Thread → Thread) : (s.mapThr f).dies = s.dies := rfl
@[simp] theorem mapThr_monitors (s : State) (f : Thread → Thread) : (s.mapThr f).monitors = s.monitors := rfl
@[simp] theorem mapThr_walks (s : State) (f : Thread → Thread) : (s.mapThr f).walks = s.walks := rfl
@[simp] theorem mapThr_nameCache (s : State) (f : Thread → Thread) : (s.mapThr f).nameCache = s.nameCache := rfl
@[simp] theorem mapThr_badFrames (s : State) (f : Thread → Thread) : (s.mapThr f).badFrames = s.badFrames := rfl
@[simp] theorem mapThr_dropping (s : State) (f : Thread → Thread) : (s.mapThr f).dropping = s.dropping := rfl
@[simp] theorem mapThr_binds (s : State) (f : Thread → Thread) : (s.mapThr f).binds = s.binds := rfl
@[simp] theorem mapThr_queues (s : State) (f : Thread → Thread) : (s.mapThr f).queues = s.queues := rfl
@[simp] theorem mapThr_launches (s : State) (f : Thread → Thread) : (s.mapThr f).launches = s.launches := rfl
@[simp] theorem mapThr_images (s : State) (f : Thread → Thread) : (s.mapThr f).images = s.images := rfl
@[simp] theorem mapThr_saved (s : State) (f : Thread → Thread) : (s.mapThr f).saved = s.saved := rfl
@[simp] theorem mapThr_parked (s : State) (f : Thread → Thread) : (s.mapThr f).parked = s.parked := rfl
@[simp] theorem mapThr_barriers (s : State) (f : Thread → Thread) : (s.mapThr f).barriers = s.barriers := rfl
@[simp] theorem mapThr_copies (s : State) (f : Thread → Thread) : (s.mapThr f).copies = s.copies := rfl
@[simp] theorem mapThr_colls (s : State) (f : Thread → Thread) : (s.mapThr f).colls = s.colls := rfl
@[simp] theorem mapThr_energies (s : State) (f : Thread → Thread) : (s.mapThr f).energies = s.energies := rfl
@[simp] theorem mapThr_elog (s : State) (f : Thread → Thread) : (s.mapThr f).elog = s.elog := rfl
@[simp] theorem mapThr_out (s : State) (f : Thread → Thread) : (s.mapThr f).out = s.out := rfl
@[simp] theorem mapThr_nextId (s : State) (f : Thread → Thread) : (s.mapThr f).nextId = s.nextId := rfl
@[simp] theorem mapThr_mod (s : State) (f : Thread → Thread) : (s.mapThr f).mod = s.mod := rfl

/-! ## `State.mapArch` -/

@[simp] theorem mapArch_cur (s : State) (f : Arch → Arch) : (s.mapArch f).cur = s.cur := rfl
@[simp] theorem mapArch_thr (s : State) (f : Arch → Arch) : (s.mapArch f).thr = { s.thr with arch := f s.thr.arch } := rfl
@[simp] theorem mapArch_others (s : State) (f : Arch → Arch) : (s.mapArch f).others = s.others := rfl
@[simp] theorem mapArch_due (s : State) (f : Arch → Arch) : (s.mapArch f).due = s.due := rfl
@[simp] theorem mapArch_upsets (s : State) (f : Arch → Arch) : (s.mapArch f).upsets = s.upsets := rfl
@[simp] theorem mapArch_free (s : State) (f : Arch → Arch) : (s.mapArch f).free = s.free := rfl
@[simp] theorem mapArch_mem (s : State) (f : Arch → Arch) : (s.mapArch f).mem = s.mem := rfl
@[simp] theorem mapArch_tags (s : State) (f : Arch → Arch) : (s.mapArch f).tags = s.tags := rfl
@[simp] theorem mapArch_poison (s : State) (f : Arch → Arch) : (s.mapArch f).poison = s.poison := rfl
@[simp] theorem mapArch_wrote (s : State) (f : Arch → Arch) : (s.mapArch f).wrote = s.wrote := rfl
@[simp] theorem mapArch_sums (s : State) (f : Arch → Arch) : (s.mapArch f).sums = s.sums := rfl
@[simp] theorem mapArch_scrubs (s : State) (f : Arch → Arch) : (s.mapArch f).scrubs = s.scrubs := rfl
@[simp] theorem mapArch_late (s : State) (f : Arch → Arch) : (s.mapArch f).late = s.late := rfl
@[simp] theorem mapArch_cores (s : State) (f : Arch → Arch) : (s.mapArch f).cores = s.cores := rfl
@[simp] theorem mapArch_counters (s : State) (f : Arch → Arch) : (s.mapArch f).counters = s.counters := rfl
@[simp] theorem mapArch_dies (s : State) (f : Arch → Arch) : (s.mapArch f).dies = s.dies := rfl
@[simp] theorem mapArch_monitors (s : State) (f : Arch → Arch) : (s.mapArch f).monitors = s.monitors := rfl
@[simp] theorem mapArch_walks (s : State) (f : Arch → Arch) : (s.mapArch f).walks = s.walks := rfl
@[simp] theorem mapArch_nameCache (s : State) (f : Arch → Arch) : (s.mapArch f).nameCache = s.nameCache := rfl
@[simp] theorem mapArch_badFrames (s : State) (f : Arch → Arch) : (s.mapArch f).badFrames = s.badFrames := rfl
@[simp] theorem mapArch_dropping (s : State) (f : Arch → Arch) : (s.mapArch f).dropping = s.dropping := rfl
@[simp] theorem mapArch_binds (s : State) (f : Arch → Arch) : (s.mapArch f).binds = s.binds := rfl
@[simp] theorem mapArch_queues (s : State) (f : Arch → Arch) : (s.mapArch f).queues = s.queues := rfl
@[simp] theorem mapArch_launches (s : State) (f : Arch → Arch) : (s.mapArch f).launches = s.launches := rfl
@[simp] theorem mapArch_images (s : State) (f : Arch → Arch) : (s.mapArch f).images = s.images := rfl
@[simp] theorem mapArch_saved (s : State) (f : Arch → Arch) : (s.mapArch f).saved = s.saved := rfl
@[simp] theorem mapArch_parked (s : State) (f : Arch → Arch) : (s.mapArch f).parked = s.parked := rfl
@[simp] theorem mapArch_barriers (s : State) (f : Arch → Arch) : (s.mapArch f).barriers = s.barriers := rfl
@[simp] theorem mapArch_copies (s : State) (f : Arch → Arch) : (s.mapArch f).copies = s.copies := rfl
@[simp] theorem mapArch_colls (s : State) (f : Arch → Arch) : (s.mapArch f).colls = s.colls := rfl
@[simp] theorem mapArch_energies (s : State) (f : Arch → Arch) : (s.mapArch f).energies = s.energies := rfl
@[simp] theorem mapArch_elog (s : State) (f : Arch → Arch) : (s.mapArch f).elog = s.elog := rfl
@[simp] theorem mapArch_out (s : State) (f : Arch → Arch) : (s.mapArch f).out = s.out := rfl
@[simp] theorem mapArch_nextId (s : State) (f : Arch → Arch) : (s.mapArch f).nextId = s.nextId := rfl
@[simp] theorem mapArch_mod (s : State) (f : Arch → Arch) : (s.mapArch f).mod = s.mod := rfl

/-! ## `State.mapUcr` -/

@[simp] theorem mapUcr_cur (s : State) (f : UserCR → UserCR) : (s.mapUcr f).cur = s.cur := rfl
@[simp] theorem mapUcr_thr (s : State) (f : UserCR → UserCR) : (s.mapUcr f).thr = { s.thr with arch := { s.thr.arch with ucr := f s.ucr } } := rfl
@[simp] theorem mapUcr_others (s : State) (f : UserCR → UserCR) : (s.mapUcr f).others = s.others := rfl
@[simp] theorem mapUcr_due (s : State) (f : UserCR → UserCR) : (s.mapUcr f).due = s.due := rfl
@[simp] theorem mapUcr_upsets (s : State) (f : UserCR → UserCR) : (s.mapUcr f).upsets = s.upsets := rfl
@[simp] theorem mapUcr_free (s : State) (f : UserCR → UserCR) : (s.mapUcr f).free = s.free := rfl
@[simp] theorem mapUcr_mem (s : State) (f : UserCR → UserCR) : (s.mapUcr f).mem = s.mem := rfl
@[simp] theorem mapUcr_tags (s : State) (f : UserCR → UserCR) : (s.mapUcr f).tags = s.tags := rfl
@[simp] theorem mapUcr_poison (s : State) (f : UserCR → UserCR) : (s.mapUcr f).poison = s.poison := rfl
@[simp] theorem mapUcr_wrote (s : State) (f : UserCR → UserCR) : (s.mapUcr f).wrote = s.wrote := rfl
@[simp] theorem mapUcr_sums (s : State) (f : UserCR → UserCR) : (s.mapUcr f).sums = s.sums := rfl
@[simp] theorem mapUcr_scrubs (s : State) (f : UserCR → UserCR) : (s.mapUcr f).scrubs = s.scrubs := rfl
@[simp] theorem mapUcr_late (s : State) (f : UserCR → UserCR) : (s.mapUcr f).late = s.late := rfl
@[simp] theorem mapUcr_cores (s : State) (f : UserCR → UserCR) : (s.mapUcr f).cores = s.cores := rfl
@[simp] theorem mapUcr_counters (s : State) (f : UserCR → UserCR) : (s.mapUcr f).counters = s.counters := rfl
@[simp] theorem mapUcr_dies (s : State) (f : UserCR → UserCR) : (s.mapUcr f).dies = s.dies := rfl
@[simp] theorem mapUcr_monitors (s : State) (f : UserCR → UserCR) : (s.mapUcr f).monitors = s.monitors := rfl
@[simp] theorem mapUcr_walks (s : State) (f : UserCR → UserCR) : (s.mapUcr f).walks = s.walks := rfl
@[simp] theorem mapUcr_nameCache (s : State) (f : UserCR → UserCR) : (s.mapUcr f).nameCache = s.nameCache := rfl
@[simp] theorem mapUcr_badFrames (s : State) (f : UserCR → UserCR) : (s.mapUcr f).badFrames = s.badFrames := rfl
@[simp] theorem mapUcr_dropping (s : State) (f : UserCR → UserCR) : (s.mapUcr f).dropping = s.dropping := rfl
@[simp] theorem mapUcr_binds (s : State) (f : UserCR → UserCR) : (s.mapUcr f).binds = s.binds := rfl
@[simp] theorem mapUcr_queues (s : State) (f : UserCR → UserCR) : (s.mapUcr f).queues = s.queues := rfl
@[simp] theorem mapUcr_launches (s : State) (f : UserCR → UserCR) : (s.mapUcr f).launches = s.launches := rfl
@[simp] theorem mapUcr_images (s : State) (f : UserCR → UserCR) : (s.mapUcr f).images = s.images := rfl
@[simp] theorem mapUcr_saved (s : State) (f : UserCR → UserCR) : (s.mapUcr f).saved = s.saved := rfl
@[simp] theorem mapUcr_parked (s : State) (f : UserCR → UserCR) : (s.mapUcr f).parked = s.parked := rfl
@[simp] theorem mapUcr_barriers (s : State) (f : UserCR → UserCR) : (s.mapUcr f).barriers = s.barriers := rfl
@[simp] theorem mapUcr_copies (s : State) (f : UserCR → UserCR) : (s.mapUcr f).copies = s.copies := rfl
@[simp] theorem mapUcr_colls (s : State) (f : UserCR → UserCR) : (s.mapUcr f).colls = s.colls := rfl
@[simp] theorem mapUcr_energies (s : State) (f : UserCR → UserCR) : (s.mapUcr f).energies = s.energies := rfl
@[simp] theorem mapUcr_elog (s : State) (f : UserCR → UserCR) : (s.mapUcr f).elog = s.elog := rfl
@[simp] theorem mapUcr_out (s : State) (f : UserCR → UserCR) : (s.mapUcr f).out = s.out := rfl
@[simp] theorem mapUcr_nextId (s : State) (f : UserCR → UserCR) : (s.mapUcr f).nextId = s.nextId := rfl
@[simp] theorem mapUcr_mod (s : State) (f : UserCR → UserCR) : (s.mapUcr f).mod = s.mod := rfl

/-! ## `State.mapSys` -/

@[simp] theorem mapSys_cur (s : State) (f : SysCR → SysCR) : (s.mapSys f).cur = s.cur := rfl
@[simp] theorem mapSys_thr (s : State) (f : SysCR → SysCR) : (s.mapSys f).thr = { s.thr with sys := f s.thr.sys } := rfl
@[simp] theorem mapSys_others (s : State) (f : SysCR → SysCR) : (s.mapSys f).others = s.others := rfl
@[simp] theorem mapSys_due (s : State) (f : SysCR → SysCR) : (s.mapSys f).due = s.due := rfl
@[simp] theorem mapSys_upsets (s : State) (f : SysCR → SysCR) : (s.mapSys f).upsets = s.upsets := rfl
@[simp] theorem mapSys_free (s : State) (f : SysCR → SysCR) : (s.mapSys f).free = s.free := rfl
@[simp] theorem mapSys_mem (s : State) (f : SysCR → SysCR) : (s.mapSys f).mem = s.mem := rfl
@[simp] theorem mapSys_tags (s : State) (f : SysCR → SysCR) : (s.mapSys f).tags = s.tags := rfl
@[simp] theorem mapSys_poison (s : State) (f : SysCR → SysCR) : (s.mapSys f).poison = s.poison := rfl
@[simp] theorem mapSys_wrote (s : State) (f : SysCR → SysCR) : (s.mapSys f).wrote = s.wrote := rfl
@[simp] theorem mapSys_sums (s : State) (f : SysCR → SysCR) : (s.mapSys f).sums = s.sums := rfl
@[simp] theorem mapSys_scrubs (s : State) (f : SysCR → SysCR) : (s.mapSys f).scrubs = s.scrubs := rfl
@[simp] theorem mapSys_late (s : State) (f : SysCR → SysCR) : (s.mapSys f).late = s.late := rfl
@[simp] theorem mapSys_cores (s : State) (f : SysCR → SysCR) : (s.mapSys f).cores = s.cores := rfl
@[simp] theorem mapSys_counters (s : State) (f : SysCR → SysCR) : (s.mapSys f).counters = s.counters := rfl
@[simp] theorem mapSys_dies (s : State) (f : SysCR → SysCR) : (s.mapSys f).dies = s.dies := rfl
@[simp] theorem mapSys_monitors (s : State) (f : SysCR → SysCR) : (s.mapSys f).monitors = s.monitors := rfl
@[simp] theorem mapSys_walks (s : State) (f : SysCR → SysCR) : (s.mapSys f).walks = s.walks := rfl
@[simp] theorem mapSys_nameCache (s : State) (f : SysCR → SysCR) : (s.mapSys f).nameCache = s.nameCache := rfl
@[simp] theorem mapSys_badFrames (s : State) (f : SysCR → SysCR) : (s.mapSys f).badFrames = s.badFrames := rfl
@[simp] theorem mapSys_dropping (s : State) (f : SysCR → SysCR) : (s.mapSys f).dropping = s.dropping := rfl
@[simp] theorem mapSys_binds (s : State) (f : SysCR → SysCR) : (s.mapSys f).binds = s.binds := rfl
@[simp] theorem mapSys_queues (s : State) (f : SysCR → SysCR) : (s.mapSys f).queues = s.queues := rfl
@[simp] theorem mapSys_launches (s : State) (f : SysCR → SysCR) : (s.mapSys f).launches = s.launches := rfl
@[simp] theorem mapSys_images (s : State) (f : SysCR → SysCR) : (s.mapSys f).images = s.images := rfl
@[simp] theorem mapSys_saved (s : State) (f : SysCR → SysCR) : (s.mapSys f).saved = s.saved := rfl
@[simp] theorem mapSys_parked (s : State) (f : SysCR → SysCR) : (s.mapSys f).parked = s.parked := rfl
@[simp] theorem mapSys_barriers (s : State) (f : SysCR → SysCR) : (s.mapSys f).barriers = s.barriers := rfl
@[simp] theorem mapSys_copies (s : State) (f : SysCR → SysCR) : (s.mapSys f).copies = s.copies := rfl
@[simp] theorem mapSys_colls (s : State) (f : SysCR → SysCR) : (s.mapSys f).colls = s.colls := rfl
@[simp] theorem mapSys_energies (s : State) (f : SysCR → SysCR) : (s.mapSys f).energies = s.energies := rfl
@[simp] theorem mapSys_elog (s : State) (f : SysCR → SysCR) : (s.mapSys f).elog = s.elog := rfl
@[simp] theorem mapSys_out (s : State) (f : SysCR → SysCR) : (s.mapSys f).out = s.out := rfl
@[simp] theorem mapSys_nextId (s : State) (f : SysCR → SysCR) : (s.mapSys f).nextId = s.nextId := rfl
@[simp] theorem mapSys_mod (s : State) (f : SysCR → SysCR) : (s.mapSys f).mod = s.mod := rfl

/-! ## `State.setTrip` -/

@[simp] theorem setTrip_cur (s : State) (t : Triple) : (s.setTrip t).cur = s.cur := rfl
@[simp] theorem setTrip_thr (s : State) (t : Triple) : (s.setTrip t).thr = { s.thr with arch := { s.thr.arch with trip := t } } := rfl
@[simp] theorem setTrip_others (s : State) (t : Triple) : (s.setTrip t).others = s.others := rfl
@[simp] theorem setTrip_due (s : State) (t : Triple) : (s.setTrip t).due = s.due := rfl
@[simp] theorem setTrip_upsets (s : State) (t : Triple) : (s.setTrip t).upsets = s.upsets := rfl
@[simp] theorem setTrip_free (s : State) (t : Triple) : (s.setTrip t).free = s.free := rfl
@[simp] theorem setTrip_mem (s : State) (t : Triple) : (s.setTrip t).mem = s.mem := rfl
@[simp] theorem setTrip_tags (s : State) (t : Triple) : (s.setTrip t).tags = s.tags := rfl
@[simp] theorem setTrip_poison (s : State) (t : Triple) : (s.setTrip t).poison = s.poison := rfl
@[simp] theorem setTrip_wrote (s : State) (t : Triple) : (s.setTrip t).wrote = s.wrote := rfl
@[simp] theorem setTrip_sums (s : State) (t : Triple) : (s.setTrip t).sums = s.sums := rfl
@[simp] theorem setTrip_scrubs (s : State) (t : Triple) : (s.setTrip t).scrubs = s.scrubs := rfl
@[simp] theorem setTrip_late (s : State) (t : Triple) : (s.setTrip t).late = s.late := rfl
@[simp] theorem setTrip_cores (s : State) (t : Triple) : (s.setTrip t).cores = s.cores := rfl
@[simp] theorem setTrip_counters (s : State) (t : Triple) : (s.setTrip t).counters = s.counters := rfl
@[simp] theorem setTrip_dies (s : State) (t : Triple) : (s.setTrip t).dies = s.dies := rfl
@[simp] theorem setTrip_monitors (s : State) (t : Triple) : (s.setTrip t).monitors = s.monitors := rfl
@[simp] theorem setTrip_walks (s : State) (t : Triple) : (s.setTrip t).walks = s.walks := rfl
@[simp] theorem setTrip_nameCache (s : State) (t : Triple) : (s.setTrip t).nameCache = s.nameCache := rfl
@[simp] theorem setTrip_badFrames (s : State) (t : Triple) : (s.setTrip t).badFrames = s.badFrames := rfl
@[simp] theorem setTrip_dropping (s : State) (t : Triple) : (s.setTrip t).dropping = s.dropping := rfl
@[simp] theorem setTrip_binds (s : State) (t : Triple) : (s.setTrip t).binds = s.binds := rfl
@[simp] theorem setTrip_queues (s : State) (t : Triple) : (s.setTrip t).queues = s.queues := rfl
@[simp] theorem setTrip_launches (s : State) (t : Triple) : (s.setTrip t).launches = s.launches := rfl
@[simp] theorem setTrip_images (s : State) (t : Triple) : (s.setTrip t).images = s.images := rfl
@[simp] theorem setTrip_saved (s : State) (t : Triple) : (s.setTrip t).saved = s.saved := rfl
@[simp] theorem setTrip_parked (s : State) (t : Triple) : (s.setTrip t).parked = s.parked := rfl
@[simp] theorem setTrip_barriers (s : State) (t : Triple) : (s.setTrip t).barriers = s.barriers := rfl
@[simp] theorem setTrip_copies (s : State) (t : Triple) : (s.setTrip t).copies = s.copies := rfl
@[simp] theorem setTrip_colls (s : State) (t : Triple) : (s.setTrip t).colls = s.colls := rfl
@[simp] theorem setTrip_energies (s : State) (t : Triple) : (s.setTrip t).energies = s.energies := rfl
@[simp] theorem setTrip_elog (s : State) (t : Triple) : (s.setTrip t).elog = s.elog := rfl
@[simp] theorem setTrip_out (s : State) (t : Triple) : (s.setTrip t).out = s.out := rfl
@[simp] theorem setTrip_nextId (s : State) (t : Triple) : (s.setTrip t).nextId = s.nextId := rfl
@[simp] theorem setTrip_mod (s : State) (t : Triple) : (s.setTrip t).mod = s.mod := rfl

/-! ## `State.mapMod` -/

@[simp] theorem mapMod_cur (s : State) (f : Module → Module) : (s.mapMod f).cur = s.cur := rfl
@[simp] theorem mapMod_thr (s : State) (f : Module → Module) : (s.mapMod f).thr = s.thr := rfl
@[simp] theorem mapMod_others (s : State) (f : Module → Module) : (s.mapMod f).others = s.others := rfl
@[simp] theorem mapMod_due (s : State) (f : Module → Module) : (s.mapMod f).due = s.due := rfl
@[simp] theorem mapMod_upsets (s : State) (f : Module → Module) : (s.mapMod f).upsets = s.upsets := rfl
@[simp] theorem mapMod_free (s : State) (f : Module → Module) : (s.mapMod f).free = s.free := rfl
@[simp] theorem mapMod_mem (s : State) (f : Module → Module) : (s.mapMod f).mem = s.mem := rfl
@[simp] theorem mapMod_tags (s : State) (f : Module → Module) : (s.mapMod f).tags = s.tags := rfl
@[simp] theorem mapMod_poison (s : State) (f : Module → Module) : (s.mapMod f).poison = s.poison := rfl
@[simp] theorem mapMod_wrote (s : State) (f : Module → Module) : (s.mapMod f).wrote = s.wrote := rfl
@[simp] theorem mapMod_sums (s : State) (f : Module → Module) : (s.mapMod f).sums = s.sums := rfl
@[simp] theorem mapMod_scrubs (s : State) (f : Module → Module) : (s.mapMod f).scrubs = s.scrubs := rfl
@[simp] theorem mapMod_late (s : State) (f : Module → Module) : (s.mapMod f).late = s.late := rfl
@[simp] theorem mapMod_cores (s : State) (f : Module → Module) : (s.mapMod f).cores = s.cores := rfl
@[simp] theorem mapMod_counters (s : State) (f : Module → Module) : (s.mapMod f).counters = s.counters := rfl
@[simp] theorem mapMod_dies (s : State) (f : Module → Module) : (s.mapMod f).dies = s.dies := rfl
@[simp] theorem mapMod_monitors (s : State) (f : Module → Module) : (s.mapMod f).monitors = s.monitors := rfl
@[simp] theorem mapMod_walks (s : State) (f : Module → Module) : (s.mapMod f).walks = s.walks := rfl
@[simp] theorem mapMod_nameCache (s : State) (f : Module → Module) : (s.mapMod f).nameCache = s.nameCache := rfl
@[simp] theorem mapMod_badFrames (s : State) (f : Module → Module) : (s.mapMod f).badFrames = s.badFrames := rfl
@[simp] theorem mapMod_dropping (s : State) (f : Module → Module) : (s.mapMod f).dropping = s.dropping := rfl
@[simp] theorem mapMod_binds (s : State) (f : Module → Module) : (s.mapMod f).binds = s.binds := rfl
@[simp] theorem mapMod_queues (s : State) (f : Module → Module) : (s.mapMod f).queues = s.queues := rfl
@[simp] theorem mapMod_launches (s : State) (f : Module → Module) : (s.mapMod f).launches = s.launches := rfl
@[simp] theorem mapMod_images (s : State) (f : Module → Module) : (s.mapMod f).images = s.images := rfl
@[simp] theorem mapMod_saved (s : State) (f : Module → Module) : (s.mapMod f).saved = s.saved := rfl
@[simp] theorem mapMod_parked (s : State) (f : Module → Module) : (s.mapMod f).parked = s.parked := rfl
@[simp] theorem mapMod_barriers (s : State) (f : Module → Module) : (s.mapMod f).barriers = s.barriers := rfl
@[simp] theorem mapMod_copies (s : State) (f : Module → Module) : (s.mapMod f).copies = s.copies := rfl
@[simp] theorem mapMod_colls (s : State) (f : Module → Module) : (s.mapMod f).colls = s.colls := rfl
@[simp] theorem mapMod_energies (s : State) (f : Module → Module) : (s.mapMod f).energies = s.energies := rfl
@[simp] theorem mapMod_elog (s : State) (f : Module → Module) : (s.mapMod f).elog = s.elog := rfl
@[simp] theorem mapMod_out (s : State) (f : Module → Module) : (s.mapMod f).out = s.out := rfl
@[simp] theorem mapMod_nextId (s : State) (f : Module → Module) : (s.mapMod f).nextId = s.nextId := rfl
@[simp] theorem mapMod_mod (s : State) (f : Module → Module) : (s.mapMod f).mod = f s.mod := rfl

/-! ## `State.tick` -/

@[simp] theorem tick_cur (s : State) : (s.tick).cur = s.cur := rfl
@[simp] theorem tick_thr (s : State) : (s.tick).thr = s.thr := rfl
@[simp] theorem tick_others (s : State) : (s.tick).others = s.others := rfl
@[simp] theorem tick_due (s : State) : (s.tick).due = s.due := rfl
@[simp] theorem tick_upsets (s : State) : (s.tick).upsets = s.upsets := rfl
@[simp] theorem tick_free (s : State) : (s.tick).free = s.free + 1 := rfl
@[simp] theorem tick_mem (s : State) : (s.tick).mem = s.mem := rfl
@[simp] theorem tick_tags (s : State) : (s.tick).tags = s.tags := rfl
@[simp] theorem tick_poison (s : State) : (s.tick).poison = s.poison := rfl
@[simp] theorem tick_wrote (s : State) : (s.tick).wrote = s.wrote := rfl
@[simp] theorem tick_sums (s : State) : (s.tick).sums = s.sums := rfl
@[simp] theorem tick_scrubs (s : State) : (s.tick).scrubs = s.scrubs := rfl
@[simp] theorem tick_late (s : State) : (s.tick).late = s.late := rfl
@[simp] theorem tick_cores (s : State) : (s.tick).cores = s.cores := rfl
@[simp] theorem tick_counters (s : State) : (s.tick).counters = s.counters := rfl
@[simp] theorem tick_dies (s : State) : (s.tick).dies = s.dies := rfl
@[simp] theorem tick_monitors (s : State) : (s.tick).monitors = s.monitors := rfl
@[simp] theorem tick_walks (s : State) : (s.tick).walks = s.walks := rfl
@[simp] theorem tick_nameCache (s : State) : (s.tick).nameCache = s.nameCache := rfl
@[simp] theorem tick_badFrames (s : State) : (s.tick).badFrames = s.badFrames := rfl
@[simp] theorem tick_dropping (s : State) : (s.tick).dropping = s.dropping := rfl
@[simp] theorem tick_binds (s : State) : (s.tick).binds = s.binds := rfl
@[simp] theorem tick_queues (s : State) : (s.tick).queues = s.queues := rfl
@[simp] theorem tick_launches (s : State) : (s.tick).launches = s.launches := rfl
@[simp] theorem tick_images (s : State) : (s.tick).images = s.images := rfl
@[simp] theorem tick_saved (s : State) : (s.tick).saved = s.saved := rfl
@[simp] theorem tick_parked (s : State) : (s.tick).parked = s.parked := rfl
@[simp] theorem tick_barriers (s : State) : (s.tick).barriers = s.barriers := rfl
@[simp] theorem tick_copies (s : State) : (s.tick).copies = s.copies := rfl
@[simp] theorem tick_colls (s : State) : (s.tick).colls = s.colls := rfl
@[simp] theorem tick_energies (s : State) : (s.tick).energies = s.energies := rfl
@[simp] theorem tick_elog (s : State) : (s.tick).elog = s.elog := rfl
@[simp] theorem tick_out (s : State) : (s.tick).out = s.out := rfl
@[simp] theorem tick_nextId (s : State) : (s.tick).nextId = s.nextId := rfl
@[simp] theorem tick_mod (s : State) : (s.tick).mod = s.mod := rfl

/-! ## `State.push` -/

@[simp] theorem push_cur (s : State) (e : Instr) : (s.push e).cur = s.cur := rfl
@[simp] theorem push_thr (s : State) (e : Instr) : (s.push e).thr = s.thr := rfl
@[simp] theorem push_others (s : State) (e : Instr) : (s.push e).others = s.others := rfl
@[simp] theorem push_due (s : State) (e : Instr) : (s.push e).due = s.due ++ [e] := rfl
@[simp] theorem push_upsets (s : State) (e : Instr) : (s.push e).upsets = s.upsets := rfl
@[simp] theorem push_free (s : State) (e : Instr) : (s.push e).free = s.free := rfl
@[simp] theorem push_mem (s : State) (e : Instr) : (s.push e).mem = s.mem := rfl
@[simp] theorem push_tags (s : State) (e : Instr) : (s.push e).tags = s.tags := rfl
@[simp] theorem push_poison (s : State) (e : Instr) : (s.push e).poison = s.poison := rfl
@[simp] theorem push_wrote (s : State) (e : Instr) : (s.push e).wrote = s.wrote := rfl
@[simp] theorem push_sums (s : State) (e : Instr) : (s.push e).sums = s.sums := rfl
@[simp] theorem push_scrubs (s : State) (e : Instr) : (s.push e).scrubs = s.scrubs := rfl
@[simp] theorem push_late (s : State) (e : Instr) : (s.push e).late = s.late := rfl
@[simp] theorem push_cores (s : State) (e : Instr) : (s.push e).cores = s.cores := rfl
@[simp] theorem push_counters (s : State) (e : Instr) : (s.push e).counters = s.counters := rfl
@[simp] theorem push_dies (s : State) (e : Instr) : (s.push e).dies = s.dies := rfl
@[simp] theorem push_monitors (s : State) (e : Instr) : (s.push e).monitors = s.monitors := rfl
@[simp] theorem push_walks (s : State) (e : Instr) : (s.push e).walks = s.walks := rfl
@[simp] theorem push_nameCache (s : State) (e : Instr) : (s.push e).nameCache = s.nameCache := rfl
@[simp] theorem push_badFrames (s : State) (e : Instr) : (s.push e).badFrames = s.badFrames := rfl
@[simp] theorem push_dropping (s : State) (e : Instr) : (s.push e).dropping = s.dropping := rfl
@[simp] theorem push_binds (s : State) (e : Instr) : (s.push e).binds = s.binds := rfl
@[simp] theorem push_queues (s : State) (e : Instr) : (s.push e).queues = s.queues := rfl
@[simp] theorem push_launches (s : State) (e : Instr) : (s.push e).launches = s.launches := rfl
@[simp] theorem push_images (s : State) (e : Instr) : (s.push e).images = s.images := rfl
@[simp] theorem push_saved (s : State) (e : Instr) : (s.push e).saved = s.saved := rfl
@[simp] theorem push_parked (s : State) (e : Instr) : (s.push e).parked = s.parked := rfl
@[simp] theorem push_barriers (s : State) (e : Instr) : (s.push e).barriers = s.barriers := rfl
@[simp] theorem push_copies (s : State) (e : Instr) : (s.push e).copies = s.copies := rfl
@[simp] theorem push_colls (s : State) (e : Instr) : (s.push e).colls = s.colls := rfl
@[simp] theorem push_energies (s : State) (e : Instr) : (s.push e).energies = s.energies := rfl
@[simp] theorem push_elog (s : State) (e : Instr) : (s.push e).elog = s.elog := rfl
@[simp] theorem push_out (s : State) (e : Instr) : (s.push e).out = s.out := rfl
@[simp] theorem push_nextId (s : State) (e : Instr) : (s.push e).nextId = s.nextId := rfl
@[simp] theorem push_mod (s : State) (e : Instr) : (s.push e).mod = s.mod := rfl

/-! ## `State.addLate` -/

@[simp] theorem addLate_cur (s : State) (e : Late) : (s.addLate e).cur = s.cur := rfl
@[simp] theorem addLate_thr (s : State) (e : Late) : (s.addLate e).thr = s.thr := rfl
@[simp] theorem addLate_others (s : State) (e : Late) : (s.addLate e).others = s.others := rfl
@[simp] theorem addLate_due (s : State) (e : Late) : (s.addLate e).due = s.due := rfl
@[simp] theorem addLate_upsets (s : State) (e : Late) : (s.addLate e).upsets = s.upsets := rfl
@[simp] theorem addLate_free (s : State) (e : Late) : (s.addLate e).free = s.free := rfl
@[simp] theorem addLate_mem (s : State) (e : Late) : (s.addLate e).mem = s.mem := rfl
@[simp] theorem addLate_tags (s : State) (e : Late) : (s.addLate e).tags = s.tags := rfl
@[simp] theorem addLate_poison (s : State) (e : Late) : (s.addLate e).poison = s.poison := rfl
@[simp] theorem addLate_wrote (s : State) (e : Late) : (s.addLate e).wrote = s.wrote := rfl
@[simp] theorem addLate_sums (s : State) (e : Late) : (s.addLate e).sums = s.sums := rfl
@[simp] theorem addLate_scrubs (s : State) (e : Late) : (s.addLate e).scrubs = s.scrubs := rfl
@[simp] theorem addLate_late (s : State) (e : Late) : (s.addLate e).late = e :: s.late := rfl
@[simp] theorem addLate_cores (s : State) (e : Late) : (s.addLate e).cores = s.cores := rfl
@[simp] theorem addLate_counters (s : State) (e : Late) : (s.addLate e).counters = s.counters := rfl
@[simp] theorem addLate_dies (s : State) (e : Late) : (s.addLate e).dies = s.dies := rfl
@[simp] theorem addLate_monitors (s : State) (e : Late) : (s.addLate e).monitors = s.monitors := rfl
@[simp] theorem addLate_walks (s : State) (e : Late) : (s.addLate e).walks = s.walks := rfl
@[simp] theorem addLate_nameCache (s : State) (e : Late) : (s.addLate e).nameCache = s.nameCache := rfl
@[simp] theorem addLate_badFrames (s : State) (e : Late) : (s.addLate e).badFrames = s.badFrames := rfl
@[simp] theorem addLate_dropping (s : State) (e : Late) : (s.addLate e).dropping = s.dropping := rfl
@[simp] theorem addLate_binds (s : State) (e : Late) : (s.addLate e).binds = s.binds := rfl
@[simp] theorem addLate_queues (s : State) (e : Late) : (s.addLate e).queues = s.queues := rfl
@[simp] theorem addLate_launches (s : State) (e : Late) : (s.addLate e).launches = s.launches := rfl
@[simp] theorem addLate_images (s : State) (e : Late) : (s.addLate e).images = s.images := rfl
@[simp] theorem addLate_saved (s : State) (e : Late) : (s.addLate e).saved = s.saved := rfl
@[simp] theorem addLate_parked (s : State) (e : Late) : (s.addLate e).parked = s.parked := rfl
@[simp] theorem addLate_barriers (s : State) (e : Late) : (s.addLate e).barriers = s.barriers := rfl
@[simp] theorem addLate_copies (s : State) (e : Late) : (s.addLate e).copies = s.copies := rfl
@[simp] theorem addLate_colls (s : State) (e : Late) : (s.addLate e).colls = s.colls := rfl
@[simp] theorem addLate_energies (s : State) (e : Late) : (s.addLate e).energies = s.energies := rfl
@[simp] theorem addLate_elog (s : State) (e : Late) : (s.addLate e).elog = s.elog := rfl
@[simp] theorem addLate_out (s : State) (e : Late) : (s.addLate e).out = s.out := rfl
@[simp] theorem addLate_nextId (s : State) (e : Late) : (s.addLate e).nextId = s.nextId := rfl
@[simp] theorem addLate_mod (s : State) (e : Late) : (s.addLate e).mod = s.mod := rfl

/-! ## `State.setVstart` -/

@[simp] theorem setVstart_cur (s : State) (e : Nat) : (s.setVstart e).cur = s.cur := rfl
@[simp] theorem setVstart_thr (s : State) (e : Nat) : (s.setVstart e).thr = { s.thr with arch := { s.thr.arch with ucr := { s.ucr with vstart := BitVec.ofNat 16 e } } } := rfl
@[simp] theorem setVstart_others (s : State) (e : Nat) : (s.setVstart e).others = s.others := rfl
@[simp] theorem setVstart_due (s : State) (e : Nat) : (s.setVstart e).due = s.due := rfl
@[simp] theorem setVstart_upsets (s : State) (e : Nat) : (s.setVstart e).upsets = s.upsets := rfl
@[simp] theorem setVstart_free (s : State) (e : Nat) : (s.setVstart e).free = s.free := rfl
@[simp] theorem setVstart_mem (s : State) (e : Nat) : (s.setVstart e).mem = s.mem := rfl
@[simp] theorem setVstart_tags (s : State) (e : Nat) : (s.setVstart e).tags = s.tags := rfl
@[simp] theorem setVstart_poison (s : State) (e : Nat) : (s.setVstart e).poison = s.poison := rfl
@[simp] theorem setVstart_wrote (s : State) (e : Nat) : (s.setVstart e).wrote = s.wrote := rfl
@[simp] theorem setVstart_sums (s : State) (e : Nat) : (s.setVstart e).sums = s.sums := rfl
@[simp] theorem setVstart_scrubs (s : State) (e : Nat) : (s.setVstart e).scrubs = s.scrubs := rfl
@[simp] theorem setVstart_late (s : State) (e : Nat) : (s.setVstart e).late = s.late := rfl
@[simp] theorem setVstart_cores (s : State) (e : Nat) : (s.setVstart e).cores = s.cores := rfl
@[simp] theorem setVstart_counters (s : State) (e : Nat) : (s.setVstart e).counters = s.counters := rfl
@[simp] theorem setVstart_dies (s : State) (e : Nat) : (s.setVstart e).dies = s.dies := rfl
@[simp] theorem setVstart_monitors (s : State) (e : Nat) : (s.setVstart e).monitors = s.monitors := rfl
@[simp] theorem setVstart_walks (s : State) (e : Nat) : (s.setVstart e).walks = s.walks := rfl
@[simp] theorem setVstart_nameCache (s : State) (e : Nat) : (s.setVstart e).nameCache = s.nameCache := rfl
@[simp] theorem setVstart_badFrames (s : State) (e : Nat) : (s.setVstart e).badFrames = s.badFrames := rfl
@[simp] theorem setVstart_dropping (s : State) (e : Nat) : (s.setVstart e).dropping = s.dropping := rfl
@[simp] theorem setVstart_binds (s : State) (e : Nat) : (s.setVstart e).binds = s.binds := rfl
@[simp] theorem setVstart_queues (s : State) (e : Nat) : (s.setVstart e).queues = s.queues := rfl
@[simp] theorem setVstart_launches (s : State) (e : Nat) : (s.setVstart e).launches = s.launches := rfl
@[simp] theorem setVstart_images (s : State) (e : Nat) : (s.setVstart e).images = s.images := rfl
@[simp] theorem setVstart_saved (s : State) (e : Nat) : (s.setVstart e).saved = s.saved := rfl
@[simp] theorem setVstart_parked (s : State) (e : Nat) : (s.setVstart e).parked = s.parked := rfl
@[simp] theorem setVstart_barriers (s : State) (e : Nat) : (s.setVstart e).barriers = s.barriers := rfl
@[simp] theorem setVstart_copies (s : State) (e : Nat) : (s.setVstart e).copies = s.copies := rfl
@[simp] theorem setVstart_colls (s : State) (e : Nat) : (s.setVstart e).colls = s.colls := rfl
@[simp] theorem setVstart_energies (s : State) (e : Nat) : (s.setVstart e).energies = s.energies := rfl
@[simp] theorem setVstart_elog (s : State) (e : Nat) : (s.setVstart e).elog = s.elog := rfl
@[simp] theorem setVstart_out (s : State) (e : Nat) : (s.setVstart e).out = s.out := rfl
@[simp] theorem setVstart_nextId (s : State) (e : Nat) : (s.setVstart e).nextId = s.nextId := rfl
@[simp] theorem setVstart_mod (s : State) (e : Nat) : (s.setVstart e).mod = s.mod := rfl

/-! ## `State.orFlags` -/

@[simp] theorem orFlags_cur (s : State) (x : Flags) : (s.orFlags x).cur = s.cur := rfl
@[simp] theorem orFlags_thr (s : State) (x : Flags) : (s.orFlags x).thr = { s.thr with arch := { s.thr.arch with ucr := { s.ucr with fflags := s.ucr.fflags ||| x } } } := rfl
@[simp] theorem orFlags_others (s : State) (x : Flags) : (s.orFlags x).others = s.others := rfl
@[simp] theorem orFlags_due (s : State) (x : Flags) : (s.orFlags x).due = s.due := rfl
@[simp] theorem orFlags_upsets (s : State) (x : Flags) : (s.orFlags x).upsets = s.upsets := rfl
@[simp] theorem orFlags_free (s : State) (x : Flags) : (s.orFlags x).free = s.free := rfl
@[simp] theorem orFlags_mem (s : State) (x : Flags) : (s.orFlags x).mem = s.mem := rfl
@[simp] theorem orFlags_tags (s : State) (x : Flags) : (s.orFlags x).tags = s.tags := rfl
@[simp] theorem orFlags_poison (s : State) (x : Flags) : (s.orFlags x).poison = s.poison := rfl
@[simp] theorem orFlags_wrote (s : State) (x : Flags) : (s.orFlags x).wrote = s.wrote := rfl
@[simp] theorem orFlags_sums (s : State) (x : Flags) : (s.orFlags x).sums = s.sums := rfl
@[simp] theorem orFlags_scrubs (s : State) (x : Flags) : (s.orFlags x).scrubs = s.scrubs := rfl
@[simp] theorem orFlags_late (s : State) (x : Flags) : (s.orFlags x).late = s.late := rfl
@[simp] theorem orFlags_cores (s : State) (x : Flags) : (s.orFlags x).cores = s.cores := rfl
@[simp] theorem orFlags_counters (s : State) (x : Flags) : (s.orFlags x).counters = s.counters := rfl
@[simp] theorem orFlags_dies (s : State) (x : Flags) : (s.orFlags x).dies = s.dies := rfl
@[simp] theorem orFlags_monitors (s : State) (x : Flags) : (s.orFlags x).monitors = s.monitors := rfl
@[simp] theorem orFlags_walks (s : State) (x : Flags) : (s.orFlags x).walks = s.walks := rfl
@[simp] theorem orFlags_nameCache (s : State) (x : Flags) : (s.orFlags x).nameCache = s.nameCache := rfl
@[simp] theorem orFlags_badFrames (s : State) (x : Flags) : (s.orFlags x).badFrames = s.badFrames := rfl
@[simp] theorem orFlags_dropping (s : State) (x : Flags) : (s.orFlags x).dropping = s.dropping := rfl
@[simp] theorem orFlags_binds (s : State) (x : Flags) : (s.orFlags x).binds = s.binds := rfl
@[simp] theorem orFlags_queues (s : State) (x : Flags) : (s.orFlags x).queues = s.queues := rfl
@[simp] theorem orFlags_launches (s : State) (x : Flags) : (s.orFlags x).launches = s.launches := rfl
@[simp] theorem orFlags_images (s : State) (x : Flags) : (s.orFlags x).images = s.images := rfl
@[simp] theorem orFlags_saved (s : State) (x : Flags) : (s.orFlags x).saved = s.saved := rfl
@[simp] theorem orFlags_parked (s : State) (x : Flags) : (s.orFlags x).parked = s.parked := rfl
@[simp] theorem orFlags_barriers (s : State) (x : Flags) : (s.orFlags x).barriers = s.barriers := rfl
@[simp] theorem orFlags_copies (s : State) (x : Flags) : (s.orFlags x).copies = s.copies := rfl
@[simp] theorem orFlags_colls (s : State) (x : Flags) : (s.orFlags x).colls = s.colls := rfl
@[simp] theorem orFlags_energies (s : State) (x : Flags) : (s.orFlags x).energies = s.energies := rfl
@[simp] theorem orFlags_elog (s : State) (x : Flags) : (s.orFlags x).elog = s.elog := rfl
@[simp] theorem orFlags_out (s : State) (x : Flags) : (s.orFlags x).out = s.out := rfl
@[simp] theorem orFlags_nextId (s : State) (x : Flags) : (s.orFlags x).nextId = s.nextId := rfl
@[simp] theorem orFlags_mod (s : State) (x : Flags) : (s.orFlags x).mod = s.mod := rfl

/-! ## The stores that stay late (11 sections 11.3 to 11.6): nothing else changes -/

@[simp] theorem performWhere_cur (s : State) (p : Late → Bool) (sc : Nat) : (s.performWhere p sc).cur = s.cur := rfl
@[simp] theorem performWhere_thr (s : State) (p : Late → Bool) (sc : Nat) : (s.performWhere p sc).thr = s.thr := rfl
@[simp] theorem performWhere_others (s : State) (p : Late → Bool) (sc : Nat) : (s.performWhere p sc).others = s.others := rfl
@[simp] theorem performWhere_due (s : State) (p : Late → Bool) (sc : Nat) : (s.performWhere p sc).due = s.due := rfl
@[simp] theorem performWhere_upsets (s : State) (p : Late → Bool) (sc : Nat) : (s.performWhere p sc).upsets = s.upsets := rfl
@[simp] theorem performWhere_free (s : State) (p : Late → Bool) (sc : Nat) : (s.performWhere p sc).free = s.free := rfl
@[simp] theorem performWhere_mem (s : State) (p : Late → Bool) (sc : Nat) : (s.performWhere p sc).mem = s.mem := rfl
@[simp] theorem performWhere_tags (s : State) (p : Late → Bool) (sc : Nat) : (s.performWhere p sc).tags = s.tags := rfl
@[simp] theorem performWhere_poison (s : State) (p : Late → Bool) (sc : Nat) : (s.performWhere p sc).poison = s.poison := rfl
@[simp] theorem performWhere_wrote (s : State) (p : Late → Bool) (sc : Nat) : (s.performWhere p sc).wrote = s.wrote := rfl
@[simp] theorem performWhere_sums (s : State) (p : Late → Bool) (sc : Nat) : (s.performWhere p sc).sums = s.sums := rfl
@[simp] theorem performWhere_scrubs (s : State) (p : Late → Bool) (sc : Nat) : (s.performWhere p sc).scrubs = s.scrubs := rfl
@[simp] theorem performWhere_cores (s : State) (p : Late → Bool) (sc : Nat) : (s.performWhere p sc).cores = s.cores := rfl
@[simp] theorem performWhere_counters (s : State) (p : Late → Bool) (sc : Nat) : (s.performWhere p sc).counters = s.counters := rfl
@[simp] theorem performWhere_dies (s : State) (p : Late → Bool) (sc : Nat) : (s.performWhere p sc).dies = s.dies := rfl
@[simp] theorem performWhere_monitors (s : State) (p : Late → Bool) (sc : Nat) : (s.performWhere p sc).monitors = s.monitors := rfl
@[simp] theorem performWhere_walks (s : State) (p : Late → Bool) (sc : Nat) : (s.performWhere p sc).walks = s.walks := rfl
@[simp] theorem performWhere_nameCache (s : State) (p : Late → Bool) (sc : Nat) : (s.performWhere p sc).nameCache = s.nameCache := rfl
@[simp] theorem performWhere_badFrames (s : State) (p : Late → Bool) (sc : Nat) : (s.performWhere p sc).badFrames = s.badFrames := rfl
@[simp] theorem performWhere_dropping (s : State) (p : Late → Bool) (sc : Nat) : (s.performWhere p sc).dropping = s.dropping := rfl
@[simp] theorem performWhere_binds (s : State) (p : Late → Bool) (sc : Nat) : (s.performWhere p sc).binds = s.binds := rfl
@[simp] theorem performWhere_queues (s : State) (p : Late → Bool) (sc : Nat) : (s.performWhere p sc).queues = s.queues := rfl
@[simp] theorem performWhere_launches (s : State) (p : Late → Bool) (sc : Nat) : (s.performWhere p sc).launches = s.launches := rfl
@[simp] theorem performWhere_images (s : State) (p : Late → Bool) (sc : Nat) : (s.performWhere p sc).images = s.images := rfl
@[simp] theorem performWhere_saved (s : State) (p : Late → Bool) (sc : Nat) : (s.performWhere p sc).saved = s.saved := rfl
@[simp] theorem performWhere_parked (s : State) (p : Late → Bool) (sc : Nat) : (s.performWhere p sc).parked = s.parked := rfl
@[simp] theorem performWhere_barriers (s : State) (p : Late → Bool) (sc : Nat) : (s.performWhere p sc).barriers = s.barriers := rfl
@[simp] theorem performWhere_copies (s : State) (p : Late → Bool) (sc : Nat) : (s.performWhere p sc).copies = s.copies := rfl
@[simp] theorem performWhere_colls (s : State) (p : Late → Bool) (sc : Nat) : (s.performWhere p sc).colls = s.colls := rfl
@[simp] theorem performWhere_energies (s : State) (p : Late → Bool) (sc : Nat) : (s.performWhere p sc).energies = s.energies := rfl
@[simp] theorem performWhere_elog (s : State) (p : Late → Bool) (sc : Nat) : (s.performWhere p sc).elog = s.elog := rfl
@[simp] theorem performWhere_out (s : State) (p : Late → Bool) (sc : Nat) : (s.performWhere p sc).out = s.out := rfl
@[simp] theorem performWhere_nextId (s : State) (p : Late → Bool) (sc : Nat) : (s.performWhere p sc).nextId = s.nextId := rfl
@[simp] theorem performWhere_mod (s : State) (p : Late → Bool) (sc : Nat) : (s.performWhere p sc).mod = s.mod := rfl

@[simp] theorem storeFence_cur (s : State) (sc : Nat) : (s.storeFence sc).cur = s.cur := rfl
@[simp] theorem storeFence_thr (s : State) (sc : Nat) : (s.storeFence sc).thr = s.thr := rfl
@[simp] theorem storeFence_others (s : State) (sc : Nat) : (s.storeFence sc).others = s.others := rfl
@[simp] theorem storeFence_due (s : State) (sc : Nat) : (s.storeFence sc).due = s.due := rfl
@[simp] theorem storeFence_upsets (s : State) (sc : Nat) : (s.storeFence sc).upsets = s.upsets := rfl
@[simp] theorem storeFence_free (s : State) (sc : Nat) : (s.storeFence sc).free = s.free := rfl
@[simp] theorem storeFence_mem (s : State) (sc : Nat) : (s.storeFence sc).mem = s.mem := rfl
@[simp] theorem storeFence_tags (s : State) (sc : Nat) : (s.storeFence sc).tags = s.tags := rfl
@[simp] theorem storeFence_poison (s : State) (sc : Nat) : (s.storeFence sc).poison = s.poison := rfl
@[simp] theorem storeFence_wrote (s : State) (sc : Nat) : (s.storeFence sc).wrote = s.wrote := rfl
@[simp] theorem storeFence_sums (s : State) (sc : Nat) : (s.storeFence sc).sums = s.sums := rfl
@[simp] theorem storeFence_scrubs (s : State) (sc : Nat) : (s.storeFence sc).scrubs = s.scrubs := rfl
@[simp] theorem storeFence_cores (s : State) (sc : Nat) : (s.storeFence sc).cores = s.cores := rfl
@[simp] theorem storeFence_counters (s : State) (sc : Nat) : (s.storeFence sc).counters = s.counters := rfl
@[simp] theorem storeFence_dies (s : State) (sc : Nat) : (s.storeFence sc).dies = s.dies := rfl
@[simp] theorem storeFence_monitors (s : State) (sc : Nat) : (s.storeFence sc).monitors = s.monitors := rfl
@[simp] theorem storeFence_walks (s : State) (sc : Nat) : (s.storeFence sc).walks = s.walks := rfl
@[simp] theorem storeFence_nameCache (s : State) (sc : Nat) : (s.storeFence sc).nameCache = s.nameCache := rfl
@[simp] theorem storeFence_badFrames (s : State) (sc : Nat) : (s.storeFence sc).badFrames = s.badFrames := rfl
@[simp] theorem storeFence_dropping (s : State) (sc : Nat) : (s.storeFence sc).dropping = s.dropping := rfl
@[simp] theorem storeFence_binds (s : State) (sc : Nat) : (s.storeFence sc).binds = s.binds := rfl
@[simp] theorem storeFence_queues (s : State) (sc : Nat) : (s.storeFence sc).queues = s.queues := rfl
@[simp] theorem storeFence_launches (s : State) (sc : Nat) : (s.storeFence sc).launches = s.launches := rfl
@[simp] theorem storeFence_images (s : State) (sc : Nat) : (s.storeFence sc).images = s.images := rfl
@[simp] theorem storeFence_saved (s : State) (sc : Nat) : (s.storeFence sc).saved = s.saved := rfl
@[simp] theorem storeFence_parked (s : State) (sc : Nat) : (s.storeFence sc).parked = s.parked := rfl
@[simp] theorem storeFence_barriers (s : State) (sc : Nat) : (s.storeFence sc).barriers = s.barriers := rfl
@[simp] theorem storeFence_copies (s : State) (sc : Nat) : (s.storeFence sc).copies = s.copies := rfl
@[simp] theorem storeFence_colls (s : State) (sc : Nat) : (s.storeFence sc).colls = s.colls := rfl
@[simp] theorem storeFence_energies (s : State) (sc : Nat) : (s.storeFence sc).energies = s.energies := rfl
@[simp] theorem storeFence_elog (s : State) (sc : Nat) : (s.storeFence sc).elog = s.elog := rfl
@[simp] theorem storeFence_out (s : State) (sc : Nat) : (s.storeFence sc).out = s.out := rfl
@[simp] theorem storeFence_nextId (s : State) (sc : Nat) : (s.storeFence sc).nextId = s.nextId := rfl
@[simp] theorem storeFence_mod (s : State) (sc : Nat) : (s.storeFence sc).mod = s.mod := rfl

@[simp] theorem release_cur (s : State) (qs : List Path) (sc : Nat) : (s.release qs sc).cur = s.cur := rfl
@[simp] theorem release_thr (s : State) (qs : List Path) (sc : Nat) : (s.release qs sc).thr = s.thr := rfl
@[simp] theorem release_others (s : State) (qs : List Path) (sc : Nat) : (s.release qs sc).others = s.others := rfl
@[simp] theorem release_due (s : State) (qs : List Path) (sc : Nat) : (s.release qs sc).due = s.due := rfl
@[simp] theorem release_upsets (s : State) (qs : List Path) (sc : Nat) : (s.release qs sc).upsets = s.upsets := rfl
@[simp] theorem release_free (s : State) (qs : List Path) (sc : Nat) : (s.release qs sc).free = s.free := rfl
@[simp] theorem release_mem (s : State) (qs : List Path) (sc : Nat) : (s.release qs sc).mem = s.mem := rfl
@[simp] theorem release_tags (s : State) (qs : List Path) (sc : Nat) : (s.release qs sc).tags = s.tags := rfl
@[simp] theorem release_poison (s : State) (qs : List Path) (sc : Nat) : (s.release qs sc).poison = s.poison := rfl
@[simp] theorem release_wrote (s : State) (qs : List Path) (sc : Nat) : (s.release qs sc).wrote = s.wrote := rfl
@[simp] theorem release_sums (s : State) (qs : List Path) (sc : Nat) : (s.release qs sc).sums = s.sums := rfl
@[simp] theorem release_scrubs (s : State) (qs : List Path) (sc : Nat) : (s.release qs sc).scrubs = s.scrubs := rfl
@[simp] theorem release_cores (s : State) (qs : List Path) (sc : Nat) : (s.release qs sc).cores = s.cores := rfl
@[simp] theorem release_counters (s : State) (qs : List Path) (sc : Nat) : (s.release qs sc).counters = s.counters := rfl
@[simp] theorem release_dies (s : State) (qs : List Path) (sc : Nat) : (s.release qs sc).dies = s.dies := rfl
@[simp] theorem release_monitors (s : State) (qs : List Path) (sc : Nat) : (s.release qs sc).monitors = s.monitors := rfl
@[simp] theorem release_walks (s : State) (qs : List Path) (sc : Nat) : (s.release qs sc).walks = s.walks := rfl
@[simp] theorem release_nameCache (s : State) (qs : List Path) (sc : Nat) : (s.release qs sc).nameCache = s.nameCache := rfl
@[simp] theorem release_badFrames (s : State) (qs : List Path) (sc : Nat) : (s.release qs sc).badFrames = s.badFrames := rfl
@[simp] theorem release_dropping (s : State) (qs : List Path) (sc : Nat) : (s.release qs sc).dropping = s.dropping := rfl
@[simp] theorem release_binds (s : State) (qs : List Path) (sc : Nat) : (s.release qs sc).binds = s.binds := rfl
@[simp] theorem release_queues (s : State) (qs : List Path) (sc : Nat) : (s.release qs sc).queues = s.queues := rfl
@[simp] theorem release_launches (s : State) (qs : List Path) (sc : Nat) : (s.release qs sc).launches = s.launches := rfl
@[simp] theorem release_images (s : State) (qs : List Path) (sc : Nat) : (s.release qs sc).images = s.images := rfl
@[simp] theorem release_saved (s : State) (qs : List Path) (sc : Nat) : (s.release qs sc).saved = s.saved := rfl
@[simp] theorem release_parked (s : State) (qs : List Path) (sc : Nat) : (s.release qs sc).parked = s.parked := rfl
@[simp] theorem release_barriers (s : State) (qs : List Path) (sc : Nat) : (s.release qs sc).barriers = s.barriers := rfl
@[simp] theorem release_copies (s : State) (qs : List Path) (sc : Nat) : (s.release qs sc).copies = s.copies := rfl
@[simp] theorem release_colls (s : State) (qs : List Path) (sc : Nat) : (s.release qs sc).colls = s.colls := rfl
@[simp] theorem release_energies (s : State) (qs : List Path) (sc : Nat) : (s.release qs sc).energies = s.energies := rfl
@[simp] theorem release_elog (s : State) (qs : List Path) (sc : Nat) : (s.release qs sc).elog = s.elog := rfl
@[simp] theorem release_out (s : State) (qs : List Path) (sc : Nat) : (s.release qs sc).out = s.out := rfl
@[simp] theorem release_nextId (s : State) (qs : List Path) (sc : Nat) : (s.release qs sc).nextId = s.nextId := rfl
@[simp] theorem release_mod (s : State) (qs : List Path) (sc : Nat) : (s.release qs sc).mod = s.mod := rfl

@[simp] theorem releaseDevice_cur (s : State) : (s.releaseDevice).cur = s.cur := rfl
@[simp] theorem releaseDevice_thr (s : State) : (s.releaseDevice).thr = s.thr := rfl
@[simp] theorem releaseDevice_others (s : State) : (s.releaseDevice).others = s.others := rfl
@[simp] theorem releaseDevice_due (s : State) : (s.releaseDevice).due = s.due := rfl
@[simp] theorem releaseDevice_upsets (s : State) : (s.releaseDevice).upsets = s.upsets := rfl
@[simp] theorem releaseDevice_free (s : State) : (s.releaseDevice).free = s.free := rfl
@[simp] theorem releaseDevice_mem (s : State) : (s.releaseDevice).mem = s.mem := rfl
@[simp] theorem releaseDevice_tags (s : State) : (s.releaseDevice).tags = s.tags := rfl
@[simp] theorem releaseDevice_poison (s : State) : (s.releaseDevice).poison = s.poison := rfl
@[simp] theorem releaseDevice_wrote (s : State) : (s.releaseDevice).wrote = s.wrote := rfl
@[simp] theorem releaseDevice_sums (s : State) : (s.releaseDevice).sums = s.sums := rfl
@[simp] theorem releaseDevice_scrubs (s : State) : (s.releaseDevice).scrubs = s.scrubs := rfl
@[simp] theorem releaseDevice_cores (s : State) : (s.releaseDevice).cores = s.cores := rfl
@[simp] theorem releaseDevice_counters (s : State) : (s.releaseDevice).counters = s.counters := rfl
@[simp] theorem releaseDevice_dies (s : State) : (s.releaseDevice).dies = s.dies := rfl
@[simp] theorem releaseDevice_monitors (s : State) : (s.releaseDevice).monitors = s.monitors := rfl
@[simp] theorem releaseDevice_walks (s : State) : (s.releaseDevice).walks = s.walks := rfl
@[simp] theorem releaseDevice_nameCache (s : State) : (s.releaseDevice).nameCache = s.nameCache := rfl
@[simp] theorem releaseDevice_badFrames (s : State) : (s.releaseDevice).badFrames = s.badFrames := rfl
@[simp] theorem releaseDevice_dropping (s : State) : (s.releaseDevice).dropping = s.dropping := rfl
@[simp] theorem releaseDevice_binds (s : State) : (s.releaseDevice).binds = s.binds := rfl
@[simp] theorem releaseDevice_queues (s : State) : (s.releaseDevice).queues = s.queues := rfl
@[simp] theorem releaseDevice_launches (s : State) : (s.releaseDevice).launches = s.launches := rfl
@[simp] theorem releaseDevice_images (s : State) : (s.releaseDevice).images = s.images := rfl
@[simp] theorem releaseDevice_saved (s : State) : (s.releaseDevice).saved = s.saved := rfl
@[simp] theorem releaseDevice_parked (s : State) : (s.releaseDevice).parked = s.parked := rfl
@[simp] theorem releaseDevice_barriers (s : State) : (s.releaseDevice).barriers = s.barriers := rfl
@[simp] theorem releaseDevice_copies (s : State) : (s.releaseDevice).copies = s.copies := rfl
@[simp] theorem releaseDevice_colls (s : State) : (s.releaseDevice).colls = s.colls := rfl
@[simp] theorem releaseDevice_energies (s : State) : (s.releaseDevice).energies = s.energies := rfl
@[simp] theorem releaseDevice_elog (s : State) : (s.releaseDevice).elog = s.elog := rfl
@[simp] theorem releaseDevice_out (s : State) : (s.releaseDevice).out = s.out := rfl
@[simp] theorem releaseDevice_nextId (s : State) : (s.releaseDevice).nextId = s.nextId := rfl
@[simp] theorem releaseDevice_mod (s : State) : (s.releaseDevice).mod = s.mod := rfl

@[simp] theorem pathFence_cur (s : State) (p q : Path) (sc : Nat) : (s.pathFence p q sc).cur = s.cur := rfl
@[simp] theorem pathFence_thr (s : State) (p q : Path) (sc : Nat) : (s.pathFence p q sc).thr = s.thr := rfl
@[simp] theorem pathFence_others (s : State) (p q : Path) (sc : Nat) : (s.pathFence p q sc).others = s.others := rfl
@[simp] theorem pathFence_due (s : State) (p q : Path) (sc : Nat) : (s.pathFence p q sc).due = s.due := rfl
@[simp] theorem pathFence_upsets (s : State) (p q : Path) (sc : Nat) : (s.pathFence p q sc).upsets = s.upsets := rfl
@[simp] theorem pathFence_free (s : State) (p q : Path) (sc : Nat) : (s.pathFence p q sc).free = s.free := rfl
@[simp] theorem pathFence_mem (s : State) (p q : Path) (sc : Nat) : (s.pathFence p q sc).mem = s.mem := rfl
@[simp] theorem pathFence_tags (s : State) (p q : Path) (sc : Nat) : (s.pathFence p q sc).tags = s.tags := rfl
@[simp] theorem pathFence_poison (s : State) (p q : Path) (sc : Nat) : (s.pathFence p q sc).poison = s.poison := rfl
@[simp] theorem pathFence_wrote (s : State) (p q : Path) (sc : Nat) : (s.pathFence p q sc).wrote = s.wrote := rfl
@[simp] theorem pathFence_sums (s : State) (p q : Path) (sc : Nat) : (s.pathFence p q sc).sums = s.sums := rfl
@[simp] theorem pathFence_scrubs (s : State) (p q : Path) (sc : Nat) : (s.pathFence p q sc).scrubs = s.scrubs := rfl
@[simp] theorem pathFence_cores (s : State) (p q : Path) (sc : Nat) : (s.pathFence p q sc).cores = s.cores := rfl
@[simp] theorem pathFence_counters (s : State) (p q : Path) (sc : Nat) : (s.pathFence p q sc).counters = s.counters := rfl
@[simp] theorem pathFence_dies (s : State) (p q : Path) (sc : Nat) : (s.pathFence p q sc).dies = s.dies := rfl
@[simp] theorem pathFence_monitors (s : State) (p q : Path) (sc : Nat) : (s.pathFence p q sc).monitors = s.monitors := rfl
@[simp] theorem pathFence_walks (s : State) (p q : Path) (sc : Nat) : (s.pathFence p q sc).walks = s.walks := rfl
@[simp] theorem pathFence_nameCache (s : State) (p q : Path) (sc : Nat) : (s.pathFence p q sc).nameCache = s.nameCache := rfl
@[simp] theorem pathFence_badFrames (s : State) (p q : Path) (sc : Nat) : (s.pathFence p q sc).badFrames = s.badFrames := rfl
@[simp] theorem pathFence_dropping (s : State) (p q : Path) (sc : Nat) : (s.pathFence p q sc).dropping = s.dropping := rfl
@[simp] theorem pathFence_binds (s : State) (p q : Path) (sc : Nat) : (s.pathFence p q sc).binds = s.binds := rfl
@[simp] theorem pathFence_queues (s : State) (p q : Path) (sc : Nat) : (s.pathFence p q sc).queues = s.queues := rfl
@[simp] theorem pathFence_launches (s : State) (p q : Path) (sc : Nat) : (s.pathFence p q sc).launches = s.launches := rfl
@[simp] theorem pathFence_images (s : State) (p q : Path) (sc : Nat) : (s.pathFence p q sc).images = s.images := rfl
@[simp] theorem pathFence_saved (s : State) (p q : Path) (sc : Nat) : (s.pathFence p q sc).saved = s.saved := rfl
@[simp] theorem pathFence_parked (s : State) (p q : Path) (sc : Nat) : (s.pathFence p q sc).parked = s.parked := rfl
@[simp] theorem pathFence_barriers (s : State) (p q : Path) (sc : Nat) : (s.pathFence p q sc).barriers = s.barriers := rfl
@[simp] theorem pathFence_copies (s : State) (p q : Path) (sc : Nat) : (s.pathFence p q sc).copies = s.copies := rfl
@[simp] theorem pathFence_colls (s : State) (p q : Path) (sc : Nat) : (s.pathFence p q sc).colls = s.colls := rfl
@[simp] theorem pathFence_energies (s : State) (p q : Path) (sc : Nat) : (s.pathFence p q sc).energies = s.energies := rfl
@[simp] theorem pathFence_elog (s : State) (p q : Path) (sc : Nat) : (s.pathFence p q sc).elog = s.elog := rfl
@[simp] theorem pathFence_out (s : State) (p q : Path) (sc : Nat) : (s.pathFence p q sc).out = s.out := rfl
@[simp] theorem pathFence_nextId (s : State) (p q : Path) (sc : Nat) : (s.pathFence p q sc).nextId = s.nextId := rfl
@[simp] theorem pathFence_mod (s : State) (p q : Path) (sc : Nat) : (s.pathFence p q sc).mod = s.mod := rfl

@[simp] theorem coreOrder_cur (s : State) : (s.coreOrder).cur = s.cur := rfl
@[simp] theorem coreOrder_thr (s : State) : (s.coreOrder).thr = s.thr := rfl
@[simp] theorem coreOrder_others (s : State) : (s.coreOrder).others = s.others := rfl
@[simp] theorem coreOrder_due (s : State) : (s.coreOrder).due = s.due := rfl
@[simp] theorem coreOrder_upsets (s : State) : (s.coreOrder).upsets = s.upsets := rfl
@[simp] theorem coreOrder_free (s : State) : (s.coreOrder).free = s.free := rfl
@[simp] theorem coreOrder_mem (s : State) : (s.coreOrder).mem = s.mem := rfl
@[simp] theorem coreOrder_tags (s : State) : (s.coreOrder).tags = s.tags := rfl
@[simp] theorem coreOrder_poison (s : State) : (s.coreOrder).poison = s.poison := rfl
@[simp] theorem coreOrder_wrote (s : State) : (s.coreOrder).wrote = s.wrote := rfl
@[simp] theorem coreOrder_sums (s : State) : (s.coreOrder).sums = s.sums := rfl
@[simp] theorem coreOrder_scrubs (s : State) : (s.coreOrder).scrubs = s.scrubs := rfl
@[simp] theorem coreOrder_cores (s : State) : (s.coreOrder).cores = s.cores := rfl
@[simp] theorem coreOrder_counters (s : State) : (s.coreOrder).counters = s.counters := rfl
@[simp] theorem coreOrder_dies (s : State) : (s.coreOrder).dies = s.dies := rfl
@[simp] theorem coreOrder_monitors (s : State) : (s.coreOrder).monitors = s.monitors := rfl
@[simp] theorem coreOrder_walks (s : State) : (s.coreOrder).walks = s.walks := rfl
@[simp] theorem coreOrder_nameCache (s : State) : (s.coreOrder).nameCache = s.nameCache := rfl
@[simp] theorem coreOrder_badFrames (s : State) : (s.coreOrder).badFrames = s.badFrames := rfl
@[simp] theorem coreOrder_dropping (s : State) : (s.coreOrder).dropping = s.dropping := rfl
@[simp] theorem coreOrder_binds (s : State) : (s.coreOrder).binds = s.binds := rfl
@[simp] theorem coreOrder_queues (s : State) : (s.coreOrder).queues = s.queues := rfl
@[simp] theorem coreOrder_launches (s : State) : (s.coreOrder).launches = s.launches := rfl
@[simp] theorem coreOrder_images (s : State) : (s.coreOrder).images = s.images := rfl
@[simp] theorem coreOrder_saved (s : State) : (s.coreOrder).saved = s.saved := rfl
@[simp] theorem coreOrder_parked (s : State) : (s.coreOrder).parked = s.parked := rfl
@[simp] theorem coreOrder_barriers (s : State) : (s.coreOrder).barriers = s.barriers := rfl
@[simp] theorem coreOrder_copies (s : State) : (s.coreOrder).copies = s.copies := rfl
@[simp] theorem coreOrder_colls (s : State) : (s.coreOrder).colls = s.colls := rfl
@[simp] theorem coreOrder_energies (s : State) : (s.coreOrder).energies = s.energies := rfl
@[simp] theorem coreOrder_elog (s : State) : (s.coreOrder).elog = s.elog := rfl
@[simp] theorem coreOrder_out (s : State) : (s.coreOrder).out = s.out := rfl
@[simp] theorem coreOrder_nextId (s : State) : (s.coreOrder).nextId = s.nextId := rfl
@[simp] theorem coreOrder_mod (s : State) : (s.coreOrder).mod = s.mod := rfl

@[simp] theorem launchOrder_cur (s : State) (k : Nat) : (s.launchOrder k).cur = s.cur := rfl
@[simp] theorem launchOrder_thr (s : State) (k : Nat) : (s.launchOrder k).thr = s.thr := rfl
@[simp] theorem launchOrder_others (s : State) (k : Nat) : (s.launchOrder k).others = s.others := rfl
@[simp] theorem launchOrder_due (s : State) (k : Nat) : (s.launchOrder k).due = s.due := rfl
@[simp] theorem launchOrder_upsets (s : State) (k : Nat) : (s.launchOrder k).upsets = s.upsets := rfl
@[simp] theorem launchOrder_free (s : State) (k : Nat) : (s.launchOrder k).free = s.free := rfl
@[simp] theorem launchOrder_mem (s : State) (k : Nat) : (s.launchOrder k).mem = s.mem := rfl
@[simp] theorem launchOrder_tags (s : State) (k : Nat) : (s.launchOrder k).tags = s.tags := rfl
@[simp] theorem launchOrder_poison (s : State) (k : Nat) : (s.launchOrder k).poison = s.poison := rfl
@[simp] theorem launchOrder_wrote (s : State) (k : Nat) : (s.launchOrder k).wrote = s.wrote := rfl
@[simp] theorem launchOrder_sums (s : State) (k : Nat) : (s.launchOrder k).sums = s.sums := rfl
@[simp] theorem launchOrder_scrubs (s : State) (k : Nat) : (s.launchOrder k).scrubs = s.scrubs := rfl
@[simp] theorem launchOrder_cores (s : State) (k : Nat) : (s.launchOrder k).cores = s.cores := rfl
@[simp] theorem launchOrder_counters (s : State) (k : Nat) : (s.launchOrder k).counters = s.counters := rfl
@[simp] theorem launchOrder_dies (s : State) (k : Nat) : (s.launchOrder k).dies = s.dies := rfl
@[simp] theorem launchOrder_monitors (s : State) (k : Nat) : (s.launchOrder k).monitors = s.monitors := rfl
@[simp] theorem launchOrder_walks (s : State) (k : Nat) : (s.launchOrder k).walks = s.walks := rfl
@[simp] theorem launchOrder_nameCache (s : State) (k : Nat) : (s.launchOrder k).nameCache = s.nameCache := rfl
@[simp] theorem launchOrder_badFrames (s : State) (k : Nat) : (s.launchOrder k).badFrames = s.badFrames := rfl
@[simp] theorem launchOrder_dropping (s : State) (k : Nat) : (s.launchOrder k).dropping = s.dropping := rfl
@[simp] theorem launchOrder_binds (s : State) (k : Nat) : (s.launchOrder k).binds = s.binds := rfl
@[simp] theorem launchOrder_queues (s : State) (k : Nat) : (s.launchOrder k).queues = s.queues := rfl
@[simp] theorem launchOrder_launches (s : State) (k : Nat) : (s.launchOrder k).launches = s.launches := rfl
@[simp] theorem launchOrder_images (s : State) (k : Nat) : (s.launchOrder k).images = s.images := rfl
@[simp] theorem launchOrder_saved (s : State) (k : Nat) : (s.launchOrder k).saved = s.saved := rfl
@[simp] theorem launchOrder_parked (s : State) (k : Nat) : (s.launchOrder k).parked = s.parked := rfl
@[simp] theorem launchOrder_barriers (s : State) (k : Nat) : (s.launchOrder k).barriers = s.barriers := rfl
@[simp] theorem launchOrder_copies (s : State) (k : Nat) : (s.launchOrder k).copies = s.copies := rfl
@[simp] theorem launchOrder_colls (s : State) (k : Nat) : (s.launchOrder k).colls = s.colls := rfl
@[simp] theorem launchOrder_energies (s : State) (k : Nat) : (s.launchOrder k).energies = s.energies := rfl
@[simp] theorem launchOrder_elog (s : State) (k : Nat) : (s.launchOrder k).elog = s.elog := rfl
@[simp] theorem launchOrder_out (s : State) (k : Nat) : (s.launchOrder k).out = s.out := rfl
@[simp] theorem launchOrder_nextId (s : State) (k : Nat) : (s.launchOrder k).nextId = s.nextId := rfl
@[simp] theorem launchOrder_mod (s : State) (k : Nat) : (s.launchOrder k).mod = s.mod := rfl

@[simp] theorem acquire_cur (s : State) (qs : List Path) : (s.acquire qs).cur = s.cur := rfl
@[simp] theorem acquire_thr (s : State) (qs : List Path) : (s.acquire qs).thr = s.thr := rfl
@[simp] theorem acquire_others (s : State) (qs : List Path) : (s.acquire qs).others = s.others := rfl
@[simp] theorem acquire_due (s : State) (qs : List Path) : (s.acquire qs).due = s.due := rfl
@[simp] theorem acquire_upsets (s : State) (qs : List Path) : (s.acquire qs).upsets = s.upsets := rfl
@[simp] theorem acquire_free (s : State) (qs : List Path) : (s.acquire qs).free = s.free := rfl
@[simp] theorem acquire_mem (s : State) (qs : List Path) : (s.acquire qs).mem = s.mem := rfl
@[simp] theorem acquire_tags (s : State) (qs : List Path) : (s.acquire qs).tags = s.tags := rfl
@[simp] theorem acquire_poison (s : State) (qs : List Path) : (s.acquire qs).poison = s.poison := rfl
@[simp] theorem acquire_wrote (s : State) (qs : List Path) : (s.acquire qs).wrote = s.wrote := rfl
@[simp] theorem acquire_sums (s : State) (qs : List Path) : (s.acquire qs).sums = s.sums := rfl
@[simp] theorem acquire_scrubs (s : State) (qs : List Path) : (s.acquire qs).scrubs = s.scrubs := rfl
@[simp] theorem acquire_cores (s : State) (qs : List Path) : (s.acquire qs).cores = s.cores := rfl
@[simp] theorem acquire_counters (s : State) (qs : List Path) : (s.acquire qs).counters = s.counters := rfl
@[simp] theorem acquire_dies (s : State) (qs : List Path) : (s.acquire qs).dies = s.dies := rfl
@[simp] theorem acquire_monitors (s : State) (qs : List Path) : (s.acquire qs).monitors = s.monitors := rfl
@[simp] theorem acquire_walks (s : State) (qs : List Path) : (s.acquire qs).walks = s.walks := rfl
@[simp] theorem acquire_nameCache (s : State) (qs : List Path) : (s.acquire qs).nameCache = s.nameCache := rfl
@[simp] theorem acquire_badFrames (s : State) (qs : List Path) : (s.acquire qs).badFrames = s.badFrames := rfl
@[simp] theorem acquire_dropping (s : State) (qs : List Path) : (s.acquire qs).dropping = s.dropping := rfl
@[simp] theorem acquire_binds (s : State) (qs : List Path) : (s.acquire qs).binds = s.binds := rfl
@[simp] theorem acquire_queues (s : State) (qs : List Path) : (s.acquire qs).queues = s.queues := rfl
@[simp] theorem acquire_launches (s : State) (qs : List Path) : (s.acquire qs).launches = s.launches := rfl
@[simp] theorem acquire_images (s : State) (qs : List Path) : (s.acquire qs).images = s.images := rfl
@[simp] theorem acquire_saved (s : State) (qs : List Path) : (s.acquire qs).saved = s.saved := rfl
@[simp] theorem acquire_parked (s : State) (qs : List Path) : (s.acquire qs).parked = s.parked := rfl
@[simp] theorem acquire_barriers (s : State) (qs : List Path) : (s.acquire qs).barriers = s.barriers := rfl
@[simp] theorem acquire_copies (s : State) (qs : List Path) : (s.acquire qs).copies = s.copies := rfl
@[simp] theorem acquire_colls (s : State) (qs : List Path) : (s.acquire qs).colls = s.colls := rfl
@[simp] theorem acquire_energies (s : State) (qs : List Path) : (s.acquire qs).energies = s.energies := rfl
@[simp] theorem acquire_elog (s : State) (qs : List Path) : (s.acquire qs).elog = s.elog := rfl
@[simp] theorem acquire_out (s : State) (qs : List Path) : (s.acquire qs).out = s.out := rfl
@[simp] theorem acquire_nextId (s : State) (qs : List Path) : (s.acquire qs).nextId = s.nextId := rfl
@[simp] theorem acquire_mod (s : State) (qs : List Path) : (s.acquire qs).mod = s.mod := rfl

@[simp] theorem acquireBoth_cur (s : State) : (s.acquireBoth).cur = s.cur := rfl
@[simp] theorem acquireBoth_thr (s : State) : (s.acquireBoth).thr = s.thr := rfl
@[simp] theorem acquireBoth_others (s : State) : (s.acquireBoth).others = s.others := rfl
@[simp] theorem acquireBoth_due (s : State) : (s.acquireBoth).due = s.due := rfl
@[simp] theorem acquireBoth_upsets (s : State) : (s.acquireBoth).upsets = s.upsets := rfl
@[simp] theorem acquireBoth_free (s : State) : (s.acquireBoth).free = s.free := rfl
@[simp] theorem acquireBoth_mem (s : State) : (s.acquireBoth).mem = s.mem := rfl
@[simp] theorem acquireBoth_tags (s : State) : (s.acquireBoth).tags = s.tags := rfl
@[simp] theorem acquireBoth_poison (s : State) : (s.acquireBoth).poison = s.poison := rfl
@[simp] theorem acquireBoth_wrote (s : State) : (s.acquireBoth).wrote = s.wrote := rfl
@[simp] theorem acquireBoth_sums (s : State) : (s.acquireBoth).sums = s.sums := rfl
@[simp] theorem acquireBoth_scrubs (s : State) : (s.acquireBoth).scrubs = s.scrubs := rfl
@[simp] theorem acquireBoth_cores (s : State) : (s.acquireBoth).cores = s.cores := rfl
@[simp] theorem acquireBoth_counters (s : State) : (s.acquireBoth).counters = s.counters := rfl
@[simp] theorem acquireBoth_dies (s : State) : (s.acquireBoth).dies = s.dies := rfl
@[simp] theorem acquireBoth_monitors (s : State) : (s.acquireBoth).monitors = s.monitors := rfl
@[simp] theorem acquireBoth_walks (s : State) : (s.acquireBoth).walks = s.walks := rfl
@[simp] theorem acquireBoth_nameCache (s : State) : (s.acquireBoth).nameCache = s.nameCache := rfl
@[simp] theorem acquireBoth_badFrames (s : State) : (s.acquireBoth).badFrames = s.badFrames := rfl
@[simp] theorem acquireBoth_dropping (s : State) : (s.acquireBoth).dropping = s.dropping := rfl
@[simp] theorem acquireBoth_binds (s : State) : (s.acquireBoth).binds = s.binds := rfl
@[simp] theorem acquireBoth_queues (s : State) : (s.acquireBoth).queues = s.queues := rfl
@[simp] theorem acquireBoth_launches (s : State) : (s.acquireBoth).launches = s.launches := rfl
@[simp] theorem acquireBoth_images (s : State) : (s.acquireBoth).images = s.images := rfl
@[simp] theorem acquireBoth_saved (s : State) : (s.acquireBoth).saved = s.saved := rfl
@[simp] theorem acquireBoth_parked (s : State) : (s.acquireBoth).parked = s.parked := rfl
@[simp] theorem acquireBoth_barriers (s : State) : (s.acquireBoth).barriers = s.barriers := rfl
@[simp] theorem acquireBoth_copies (s : State) : (s.acquireBoth).copies = s.copies := rfl
@[simp] theorem acquireBoth_colls (s : State) : (s.acquireBoth).colls = s.colls := rfl
@[simp] theorem acquireBoth_energies (s : State) : (s.acquireBoth).energies = s.energies := rfl
@[simp] theorem acquireBoth_elog (s : State) : (s.acquireBoth).elog = s.elog := rfl
@[simp] theorem acquireBoth_out (s : State) : (s.acquireBoth).out = s.out := rfl
@[simp] theorem acquireBoth_nextId (s : State) : (s.acquireBoth).nextId = s.nextId := rfl
@[simp] theorem acquireBoth_mod (s : State) : (s.acquireBoth).mod = s.mod := rfl

@[simp] theorem performAll_cur (s : State) (p : Late → Bool) : (s.performAll p).cur = s.cur := rfl
@[simp] theorem performAll_thr (s : State) (p : Late → Bool) : (s.performAll p).thr = s.thr := rfl
@[simp] theorem performAll_others (s : State) (p : Late → Bool) : (s.performAll p).others = s.others := rfl
@[simp] theorem performAll_due (s : State) (p : Late → Bool) : (s.performAll p).due = s.due := rfl
@[simp] theorem performAll_upsets (s : State) (p : Late → Bool) : (s.performAll p).upsets = s.upsets := rfl
@[simp] theorem performAll_free (s : State) (p : Late → Bool) : (s.performAll p).free = s.free := rfl
@[simp] theorem performAll_mem (s : State) (p : Late → Bool) : (s.performAll p).mem = s.mem := rfl
@[simp] theorem performAll_tags (s : State) (p : Late → Bool) : (s.performAll p).tags = s.tags := rfl
@[simp] theorem performAll_poison (s : State) (p : Late → Bool) : (s.performAll p).poison = s.poison := rfl
@[simp] theorem performAll_wrote (s : State) (p : Late → Bool) : (s.performAll p).wrote = s.wrote := rfl
@[simp] theorem performAll_sums (s : State) (p : Late → Bool) : (s.performAll p).sums = s.sums := rfl
@[simp] theorem performAll_scrubs (s : State) (p : Late → Bool) : (s.performAll p).scrubs = s.scrubs := rfl
@[simp] theorem performAll_cores (s : State) (p : Late → Bool) : (s.performAll p).cores = s.cores := rfl
@[simp] theorem performAll_counters (s : State) (p : Late → Bool) : (s.performAll p).counters = s.counters := rfl
@[simp] theorem performAll_dies (s : State) (p : Late → Bool) : (s.performAll p).dies = s.dies := rfl
@[simp] theorem performAll_monitors (s : State) (p : Late → Bool) : (s.performAll p).monitors = s.monitors := rfl
@[simp] theorem performAll_walks (s : State) (p : Late → Bool) : (s.performAll p).walks = s.walks := rfl
@[simp] theorem performAll_nameCache (s : State) (p : Late → Bool) : (s.performAll p).nameCache = s.nameCache := rfl
@[simp] theorem performAll_badFrames (s : State) (p : Late → Bool) : (s.performAll p).badFrames = s.badFrames := rfl
@[simp] theorem performAll_dropping (s : State) (p : Late → Bool) : (s.performAll p).dropping = s.dropping := rfl
@[simp] theorem performAll_binds (s : State) (p : Late → Bool) : (s.performAll p).binds = s.binds := rfl
@[simp] theorem performAll_queues (s : State) (p : Late → Bool) : (s.performAll p).queues = s.queues := rfl
@[simp] theorem performAll_launches (s : State) (p : Late → Bool) : (s.performAll p).launches = s.launches := rfl
@[simp] theorem performAll_images (s : State) (p : Late → Bool) : (s.performAll p).images = s.images := rfl
@[simp] theorem performAll_saved (s : State) (p : Late → Bool) : (s.performAll p).saved = s.saved := rfl
@[simp] theorem performAll_parked (s : State) (p : Late → Bool) : (s.performAll p).parked = s.parked := rfl
@[simp] theorem performAll_barriers (s : State) (p : Late → Bool) : (s.performAll p).barriers = s.barriers := rfl
@[simp] theorem performAll_copies (s : State) (p : Late → Bool) : (s.performAll p).copies = s.copies := rfl
@[simp] theorem performAll_colls (s : State) (p : Late → Bool) : (s.performAll p).colls = s.colls := rfl
@[simp] theorem performAll_energies (s : State) (p : Late → Bool) : (s.performAll p).energies = s.energies := rfl
@[simp] theorem performAll_elog (s : State) (p : Late → Bool) : (s.performAll p).elog = s.elog := rfl
@[simp] theorem performAll_out (s : State) (p : Late → Bool) : (s.performAll p).out = s.out := rfl
@[simp] theorem performAll_nextId (s : State) (p : Late → Bool) : (s.performAll p).nextId = s.nextId := rfl
@[simp] theorem performAll_mod (s : State) (p : Late → Bool) : (s.performAll p).mod = s.mod := rfl

@[simp] theorem drained_cur (s : State) : (s.drained).cur = s.cur := rfl
@[simp] theorem drained_thr (s : State) : (s.drained).thr = s.thr := rfl
@[simp] theorem drained_others (s : State) : (s.drained).others = s.others := rfl
@[simp] theorem drained_due (s : State) : (s.drained).due = s.due := rfl
@[simp] theorem drained_upsets (s : State) : (s.drained).upsets = s.upsets := rfl
@[simp] theorem drained_free (s : State) : (s.drained).free = s.free := rfl
@[simp] theorem drained_mem (s : State) : (s.drained).mem = s.mem := rfl
@[simp] theorem drained_tags (s : State) : (s.drained).tags = s.tags := rfl
@[simp] theorem drained_poison (s : State) : (s.drained).poison = s.poison := rfl
@[simp] theorem drained_wrote (s : State) : (s.drained).wrote = s.wrote := rfl
@[simp] theorem drained_sums (s : State) : (s.drained).sums = s.sums := rfl
@[simp] theorem drained_scrubs (s : State) : (s.drained).scrubs = s.scrubs := rfl
@[simp] theorem drained_cores (s : State) : (s.drained).cores = s.cores := rfl
@[simp] theorem drained_counters (s : State) : (s.drained).counters = s.counters := rfl
@[simp] theorem drained_dies (s : State) : (s.drained).dies = s.dies := rfl
@[simp] theorem drained_monitors (s : State) : (s.drained).monitors = s.monitors := rfl
@[simp] theorem drained_walks (s : State) : (s.drained).walks = s.walks := rfl
@[simp] theorem drained_nameCache (s : State) : (s.drained).nameCache = s.nameCache := rfl
@[simp] theorem drained_badFrames (s : State) : (s.drained).badFrames = s.badFrames := rfl
@[simp] theorem drained_dropping (s : State) : (s.drained).dropping = s.dropping := rfl
@[simp] theorem drained_binds (s : State) : (s.drained).binds = s.binds := rfl
@[simp] theorem drained_queues (s : State) : (s.drained).queues = s.queues := rfl
@[simp] theorem drained_launches (s : State) : (s.drained).launches = s.launches := rfl
@[simp] theorem drained_images (s : State) : (s.drained).images = s.images := rfl
@[simp] theorem drained_saved (s : State) : (s.drained).saved = s.saved := rfl
@[simp] theorem drained_parked (s : State) : (s.drained).parked = s.parked := rfl
@[simp] theorem drained_barriers (s : State) : (s.drained).barriers = s.barriers := rfl
@[simp] theorem drained_copies (s : State) : (s.drained).copies = s.copies := rfl
@[simp] theorem drained_colls (s : State) : (s.drained).colls = s.colls := rfl
@[simp] theorem drained_energies (s : State) : (s.drained).energies = s.energies := rfl
@[simp] theorem drained_elog (s : State) : (s.drained).elog = s.elog := rfl
@[simp] theorem drained_out (s : State) : (s.drained).out = s.out := rfl
@[simp] theorem drained_nextId (s : State) : (s.drained).nextId = s.nextId := rfl
@[simp] theorem drained_mod (s : State) : (s.drained).mod = s.mod := rfl

@[simp] theorem performInst_cur (s : State) (inst : Nat) : (s.performInst inst).cur = s.cur := rfl
@[simp] theorem performInst_thr (s : State) (inst : Nat) : (s.performInst inst).thr = s.thr := rfl
@[simp] theorem performInst_others (s : State) (inst : Nat) : (s.performInst inst).others = s.others := rfl
@[simp] theorem performInst_due (s : State) (inst : Nat) : (s.performInst inst).due = s.due := rfl
@[simp] theorem performInst_upsets (s : State) (inst : Nat) : (s.performInst inst).upsets = s.upsets := rfl
@[simp] theorem performInst_free (s : State) (inst : Nat) : (s.performInst inst).free = s.free := rfl
@[simp] theorem performInst_mem (s : State) (inst : Nat) : (s.performInst inst).mem = s.mem := rfl
@[simp] theorem performInst_tags (s : State) (inst : Nat) : (s.performInst inst).tags = s.tags := rfl
@[simp] theorem performInst_poison (s : State) (inst : Nat) : (s.performInst inst).poison = s.poison := rfl
@[simp] theorem performInst_wrote (s : State) (inst : Nat) : (s.performInst inst).wrote = s.wrote := rfl
@[simp] theorem performInst_sums (s : State) (inst : Nat) : (s.performInst inst).sums = s.sums := rfl
@[simp] theorem performInst_scrubs (s : State) (inst : Nat) : (s.performInst inst).scrubs = s.scrubs := rfl
@[simp] theorem performInst_cores (s : State) (inst : Nat) : (s.performInst inst).cores = s.cores := rfl
@[simp] theorem performInst_counters (s : State) (inst : Nat) : (s.performInst inst).counters = s.counters := rfl
@[simp] theorem performInst_dies (s : State) (inst : Nat) : (s.performInst inst).dies = s.dies := rfl
@[simp] theorem performInst_monitors (s : State) (inst : Nat) : (s.performInst inst).monitors = s.monitors := rfl
@[simp] theorem performInst_walks (s : State) (inst : Nat) : (s.performInst inst).walks = s.walks := rfl
@[simp] theorem performInst_nameCache (s : State) (inst : Nat) : (s.performInst inst).nameCache = s.nameCache := rfl
@[simp] theorem performInst_badFrames (s : State) (inst : Nat) : (s.performInst inst).badFrames = s.badFrames := rfl
@[simp] theorem performInst_dropping (s : State) (inst : Nat) : (s.performInst inst).dropping = s.dropping := rfl
@[simp] theorem performInst_binds (s : State) (inst : Nat) : (s.performInst inst).binds = s.binds := rfl
@[simp] theorem performInst_queues (s : State) (inst : Nat) : (s.performInst inst).queues = s.queues := rfl
@[simp] theorem performInst_launches (s : State) (inst : Nat) : (s.performInst inst).launches = s.launches := rfl
@[simp] theorem performInst_images (s : State) (inst : Nat) : (s.performInst inst).images = s.images := rfl
@[simp] theorem performInst_saved (s : State) (inst : Nat) : (s.performInst inst).saved = s.saved := rfl
@[simp] theorem performInst_parked (s : State) (inst : Nat) : (s.performInst inst).parked = s.parked := rfl
@[simp] theorem performInst_barriers (s : State) (inst : Nat) : (s.performInst inst).barriers = s.barriers := rfl
@[simp] theorem performInst_copies (s : State) (inst : Nat) : (s.performInst inst).copies = s.copies := rfl
@[simp] theorem performInst_colls (s : State) (inst : Nat) : (s.performInst inst).colls = s.colls := rfl
@[simp] theorem performInst_energies (s : State) (inst : Nat) : (s.performInst inst).energies = s.energies := rfl
@[simp] theorem performInst_elog (s : State) (inst : Nat) : (s.performInst inst).elog = s.elog := rfl
@[simp] theorem performInst_out (s : State) (inst : Nat) : (s.performInst inst).out = s.out := rfl
@[simp] theorem performInst_nextId (s : State) (inst : Nat) : (s.performInst inst).nextId = s.nextId := rfl
@[simp] theorem performInst_mod (s : State) (inst : Nat) : (s.performInst inst).mod = s.mod := rfl

@[simp] theorem performSince_cur (s : State) (n : Nat) : (s.performSince n).cur = s.cur := rfl
@[simp] theorem performSince_thr (s : State) (n : Nat) : (s.performSince n).thr = s.thr := rfl
@[simp] theorem performSince_others (s : State) (n : Nat) : (s.performSince n).others = s.others := rfl
@[simp] theorem performSince_due (s : State) (n : Nat) : (s.performSince n).due = s.due := rfl
@[simp] theorem performSince_upsets (s : State) (n : Nat) : (s.performSince n).upsets = s.upsets := rfl
@[simp] theorem performSince_free (s : State) (n : Nat) : (s.performSince n).free = s.free := rfl
@[simp] theorem performSince_mem (s : State) (n : Nat) : (s.performSince n).mem = s.mem := rfl
@[simp] theorem performSince_tags (s : State) (n : Nat) : (s.performSince n).tags = s.tags := rfl
@[simp] theorem performSince_poison (s : State) (n : Nat) : (s.performSince n).poison = s.poison := rfl
@[simp] theorem performSince_wrote (s : State) (n : Nat) : (s.performSince n).wrote = s.wrote := rfl
@[simp] theorem performSince_sums (s : State) (n : Nat) : (s.performSince n).sums = s.sums := rfl
@[simp] theorem performSince_scrubs (s : State) (n : Nat) : (s.performSince n).scrubs = s.scrubs := rfl
@[simp] theorem performSince_cores (s : State) (n : Nat) : (s.performSince n).cores = s.cores := rfl
@[simp] theorem performSince_counters (s : State) (n : Nat) : (s.performSince n).counters = s.counters := rfl
@[simp] theorem performSince_dies (s : State) (n : Nat) : (s.performSince n).dies = s.dies := rfl
@[simp] theorem performSince_monitors (s : State) (n : Nat) : (s.performSince n).monitors = s.monitors := rfl
@[simp] theorem performSince_walks (s : State) (n : Nat) : (s.performSince n).walks = s.walks := rfl
@[simp] theorem performSince_nameCache (s : State) (n : Nat) : (s.performSince n).nameCache = s.nameCache := rfl
@[simp] theorem performSince_badFrames (s : State) (n : Nat) : (s.performSince n).badFrames = s.badFrames := rfl
@[simp] theorem performSince_dropping (s : State) (n : Nat) : (s.performSince n).dropping = s.dropping := rfl
@[simp] theorem performSince_binds (s : State) (n : Nat) : (s.performSince n).binds = s.binds := rfl
@[simp] theorem performSince_queues (s : State) (n : Nat) : (s.performSince n).queues = s.queues := rfl
@[simp] theorem performSince_launches (s : State) (n : Nat) : (s.performSince n).launches = s.launches := rfl
@[simp] theorem performSince_images (s : State) (n : Nat) : (s.performSince n).images = s.images := rfl
@[simp] theorem performSince_saved (s : State) (n : Nat) : (s.performSince n).saved = s.saved := rfl
@[simp] theorem performSince_parked (s : State) (n : Nat) : (s.performSince n).parked = s.parked := rfl
@[simp] theorem performSince_barriers (s : State) (n : Nat) : (s.performSince n).barriers = s.barriers := rfl
@[simp] theorem performSince_copies (s : State) (n : Nat) : (s.performSince n).copies = s.copies := rfl
@[simp] theorem performSince_colls (s : State) (n : Nat) : (s.performSince n).colls = s.colls := rfl
@[simp] theorem performSince_energies (s : State) (n : Nat) : (s.performSince n).energies = s.energies := rfl
@[simp] theorem performSince_elog (s : State) (n : Nat) : (s.performSince n).elog = s.elog := rfl
@[simp] theorem performSince_out (s : State) (n : Nat) : (s.performSince n).out = s.out := rfl
@[simp] theorem performSince_nextId (s : State) (n : Nat) : (s.performSince n).nextId = s.nextId := rfl
@[simp] theorem performSince_mod (s : State) (n : Nat) : (s.performSince n).mod = s.mod := rfl

@[simp] theorem widenOrder_cur (s : State) (sc : Nat) : (s.widenOrder sc).cur = s.cur := rfl
@[simp] theorem widenOrder_thr (s : State) (sc : Nat) : (s.widenOrder sc).thr = s.thr := rfl
@[simp] theorem widenOrder_others (s : State) (sc : Nat) : (s.widenOrder sc).others = s.others := rfl
@[simp] theorem widenOrder_due (s : State) (sc : Nat) : (s.widenOrder sc).due = s.due := rfl
@[simp] theorem widenOrder_upsets (s : State) (sc : Nat) : (s.widenOrder sc).upsets = s.upsets := rfl
@[simp] theorem widenOrder_free (s : State) (sc : Nat) : (s.widenOrder sc).free = s.free := rfl
@[simp] theorem widenOrder_mem (s : State) (sc : Nat) : (s.widenOrder sc).mem = s.mem := rfl
@[simp] theorem widenOrder_tags (s : State) (sc : Nat) : (s.widenOrder sc).tags = s.tags := rfl
@[simp] theorem widenOrder_poison (s : State) (sc : Nat) : (s.widenOrder sc).poison = s.poison := rfl
@[simp] theorem widenOrder_wrote (s : State) (sc : Nat) : (s.widenOrder sc).wrote = s.wrote := rfl
@[simp] theorem widenOrder_sums (s : State) (sc : Nat) : (s.widenOrder sc).sums = s.sums := rfl
@[simp] theorem widenOrder_scrubs (s : State) (sc : Nat) : (s.widenOrder sc).scrubs = s.scrubs := rfl
@[simp] theorem widenOrder_cores (s : State) (sc : Nat) : (s.widenOrder sc).cores = s.cores := rfl
@[simp] theorem widenOrder_counters (s : State) (sc : Nat) : (s.widenOrder sc).counters = s.counters := rfl
@[simp] theorem widenOrder_dies (s : State) (sc : Nat) : (s.widenOrder sc).dies = s.dies := rfl
@[simp] theorem widenOrder_monitors (s : State) (sc : Nat) : (s.widenOrder sc).monitors = s.monitors := rfl
@[simp] theorem widenOrder_walks (s : State) (sc : Nat) : (s.widenOrder sc).walks = s.walks := rfl
@[simp] theorem widenOrder_nameCache (s : State) (sc : Nat) : (s.widenOrder sc).nameCache = s.nameCache := rfl
@[simp] theorem widenOrder_badFrames (s : State) (sc : Nat) : (s.widenOrder sc).badFrames = s.badFrames := rfl
@[simp] theorem widenOrder_dropping (s : State) (sc : Nat) : (s.widenOrder sc).dropping = s.dropping := rfl
@[simp] theorem widenOrder_binds (s : State) (sc : Nat) : (s.widenOrder sc).binds = s.binds := rfl
@[simp] theorem widenOrder_queues (s : State) (sc : Nat) : (s.widenOrder sc).queues = s.queues := rfl
@[simp] theorem widenOrder_launches (s : State) (sc : Nat) : (s.widenOrder sc).launches = s.launches := rfl
@[simp] theorem widenOrder_images (s : State) (sc : Nat) : (s.widenOrder sc).images = s.images := rfl
@[simp] theorem widenOrder_saved (s : State) (sc : Nat) : (s.widenOrder sc).saved = s.saved := rfl
@[simp] theorem widenOrder_parked (s : State) (sc : Nat) : (s.widenOrder sc).parked = s.parked := rfl
@[simp] theorem widenOrder_barriers (s : State) (sc : Nat) : (s.widenOrder sc).barriers = s.barriers := rfl
@[simp] theorem widenOrder_copies (s : State) (sc : Nat) : (s.widenOrder sc).copies = s.copies := rfl
@[simp] theorem widenOrder_colls (s : State) (sc : Nat) : (s.widenOrder sc).colls = s.colls := rfl
@[simp] theorem widenOrder_energies (s : State) (sc : Nat) : (s.widenOrder sc).energies = s.energies := rfl
@[simp] theorem widenOrder_elog (s : State) (sc : Nat) : (s.widenOrder sc).elog = s.elog := rfl
@[simp] theorem widenOrder_out (s : State) (sc : Nat) : (s.widenOrder sc).out = s.out := rfl
@[simp] theorem widenOrder_nextId (s : State) (sc : Nat) : (s.widenOrder sc).nextId = s.nextId := rfl
@[simp] theorem widenOrder_mod (s : State) (sc : Nat) : (s.widenOrder sc).mod = s.mod := rfl

/-! ## The accessors through the updates of the strand -/

@[simp] theorem ucr_mapThr (s : State) (f : Thread → Thread) : (s.mapThr f).ucr = (f s.thr).arch.ucr := rfl
@[simp] theorem trip_mapThr (s : State) (f : Thread → Thread) : (s.mapThr f).trip = (f s.thr).arch.trip := rfl
@[simp] theorem byte_mapThr (s : State) (f : Thread → Thread) (pa : Nat) : (s.mapThr f).byte pa = s.byte pa := rfl
@[simp] theorem tag_mapThr (s : State) (f : Thread → Thread) (at_ : Nat) : (s.mapThr f).tag at_ = s.tag at_ := rfl
@[simp] theorem ucr_mapArch (s : State) (f : Arch → Arch) : (s.mapArch f).ucr = (f s.thr.arch).ucr := rfl
@[simp] theorem trip_mapArch (s : State) (f : Arch → Arch) : (s.mapArch f).trip = (f s.thr.arch).trip := rfl
@[simp] theorem byte_mapArch (s : State) (f : Arch → Arch) (pa : Nat) : (s.mapArch f).byte pa = s.byte pa := rfl
@[simp] theorem tag_mapArch (s : State) (f : Arch → Arch) (at_ : Nat) : (s.mapArch f).tag at_ = s.tag at_ := rfl
@[simp] theorem ucr_mapUcr (s : State) (f : UserCR → UserCR) : (s.mapUcr f).ucr = f s.ucr := rfl
@[simp] theorem trip_mapUcr (s : State) (f : UserCR → UserCR) : (s.mapUcr f).trip = s.trip := rfl
@[simp] theorem byte_mapUcr (s : State) (f : UserCR → UserCR) (pa : Nat) : (s.mapUcr f).byte pa = s.byte pa := rfl
@[simp] theorem tag_mapUcr (s : State) (f : UserCR → UserCR) (at_ : Nat) : (s.mapUcr f).tag at_ = s.tag at_ := rfl
@[simp] theorem ucr_mapSys (s : State) (f : SysCR → SysCR) : (s.mapSys f).ucr = s.ucr := rfl
@[simp] theorem trip_mapSys (s : State) (f : SysCR → SysCR) : (s.mapSys f).trip = s.trip := rfl
@[simp] theorem byte_mapSys (s : State) (f : SysCR → SysCR) (pa : Nat) : (s.mapSys f).byte pa = s.byte pa := rfl
@[simp] theorem tag_mapSys (s : State) (f : SysCR → SysCR) (at_ : Nat) : (s.mapSys f).tag at_ = s.tag at_ := rfl
@[simp] theorem ucr_setTrip (s : State) (t : Triple) : (s.setTrip t).ucr = s.ucr := rfl
@[simp] theorem trip_setTrip (s : State) (t : Triple) : (s.setTrip t).trip = t := rfl
@[simp] theorem byte_setTrip (s : State) (t : Triple) (pa : Nat) : (s.setTrip t).byte pa = s.byte pa := rfl
@[simp] theorem tag_setTrip (s : State) (t : Triple) (at_ : Nat) : (s.setTrip t).tag at_ = s.tag at_ := rfl
@[simp] theorem ucr_mapMod (s : State) (f : Module → Module) : (s.mapMod f).ucr = s.ucr := rfl
@[simp] theorem trip_mapMod (s : State) (f : Module → Module) : (s.mapMod f).trip = s.trip := rfl
@[simp] theorem byte_mapMod (s : State) (f : Module → Module) (pa : Nat) : (s.mapMod f).byte pa = s.byte pa := rfl
@[simp] theorem tag_mapMod (s : State) (f : Module → Module) (at_ : Nat) : (s.mapMod f).tag at_ = s.tag at_ := rfl
@[simp] theorem ucr_tick (s : State) : (s.tick).ucr = s.ucr := rfl
@[simp] theorem trip_tick (s : State) : (s.tick).trip = s.trip := rfl
@[simp] theorem byte_tick (s : State) (pa : Nat) : (s.tick).byte pa = s.byte pa := rfl
@[simp] theorem tag_tick (s : State) (at_ : Nat) : (s.tick).tag at_ = s.tag at_ := rfl
@[simp] theorem ucr_push (s : State) (e : Instr) : (s.push e).ucr = s.ucr := rfl
@[simp] theorem trip_push (s : State) (e : Instr) : (s.push e).trip = s.trip := rfl
@[simp] theorem byte_push (s : State) (e : Instr) (pa : Nat) : (s.push e).byte pa = s.byte pa := rfl
@[simp] theorem tag_push (s : State) (e : Instr) (at_ : Nat) : (s.push e).tag at_ = s.tag at_ := rfl
@[simp] theorem ucr_setVstart (s : State) (e : Nat) : (s.setVstart e).ucr = { s.ucr with vstart := BitVec.ofNat 16 e } := rfl
@[simp] theorem trip_setVstart (s : State) (e : Nat) : (s.setVstart e).trip = s.trip := rfl
@[simp] theorem byte_setVstart (s : State) (e : Nat) (pa : Nat) : (s.setVstart e).byte pa = s.byte pa := rfl
@[simp] theorem tag_setVstart (s : State) (e : Nat) (at_ : Nat) : (s.setVstart e).tag at_ = s.tag at_ := rfl
@[simp] theorem ucr_orFlags (s : State) (x : Flags) : (s.orFlags x).ucr = { s.ucr with fflags := s.ucr.fflags ||| x } := rfl
@[simp] theorem trip_orFlags (s : State) (x : Flags) : (s.orFlags x).trip = s.trip := rfl
@[simp] theorem byte_orFlags (s : State) (x : Flags) (pa : Nat) : (s.orFlags x).byte pa = s.byte pa := rfl
@[simp] theorem tag_orFlags (s : State) (x : Flags) (at_ : Nat) : (s.orFlags x).tag at_ = s.tag at_ := rfl

end Sys2Proof.Laws
end

