-- ==== Sys2Proof/Laws/Memory.lean ====
section
/-!
SUPPORT. The memory operations: what a byte and a tag read as after each of them, and that each keeps the canonical form of memory and
tags.
-/

namespace Sys2Proof.Laws

open Sys2Proof.Machine Sys2Proof.Safety

/-! ## Bytes written and cleared -/

theorem get_write (m : List Host.Cell) (pa : Nat) (bs : List Byte) (a : Nat) :
    Sparse.get memDefault (Memory.write m pa bs) a =
      if pa ≤ a ∧ a < pa + bs.length then bs.getD (a - pa) 0#8 else Sparse.get memDefault m a := by
  induction bs generalizing m pa with
  | nil => simp [Memory.write] <;> (intro h h1; omega)
  | cons b bs ih =>
    rw [Memory.write, ih, get_put]
    rcases Nat.lt_trichotomy a pa with h | h | h
    · rw [if_neg (by omega), if_neg (by omega), if_neg (by omega)]
    · subst h
      rw [if_neg (by omega), if_pos rfl, if_pos (by simp)]
      simp
    · by_cases h2 : a < pa + 1 + bs.length
      · rw [if_pos (by omega), if_pos (by simp; omega)]
        obtain ⟨k, rfl⟩ : ∃ k, a = pa + 1 + k := ⟨a - (pa + 1), by omega⟩
        rw [show pa + 1 + k - (pa + 1) = k by omega, show pa + 1 + k - pa = k + 1 by omega]
        simp
      · rw [if_neg (by omega), if_neg (by omega), if_neg (by simp; omega)]

theorem get_clear (m : List Host.Cell) (pa n a : Nat) :
    Sparse.get memDefault (Memory.clear m pa n) a = if pa ≤ a ∧ a < pa + n then 0#8 else Sparse.get memDefault m a := by
  rw [Memory.clear, get_filter memDefault (fun k => decide (k < pa ∨ pa + n ≤ k))]
  by_cases h : pa ≤ a ∧ a < pa + n
  · rw [if_neg (by simp; omega), if_pos h]; rfl
  · rw [if_pos (by simp; omega), if_neg h]

theorem wf_write {m : List Host.Cell} (pa : Nat) (bs : List Byte) (w : Memory.wf m = true) : Memory.wf (Memory.write m pa bs) = true := by
  induction bs generalizing m pa with
  | nil => exact w
  | cons b bs ih => exact ih (pa + 1) (wf_put w)

theorem wf_clear {m : List Host.Cell} (pa n : Nat) (w : Memory.wf m = true) : Memory.wf (Memory.clear m pa n) = true := wf_filter w

/-- A state with the memory and tags of a canonical one is canonical. -/
theorem canonical_of_eq {s t : State} (c : Canonical s) (hm : t.mem = s.mem) (ht : t.tags = s.tags) : Canonical t := by
  unfold Canonical; rw [hm, ht]; exact c

/-! ## `putBytes` and `writeBytes` -/

/-- Bytes put change memory, what the step has written, and poison only. -/
theorem putBytes_rest (s : State) (pa : Nat) (bs : List Byte) :
    s.putBytes pa bs = { s with mem := Memory.write s.mem pa bs, wrote := (s.putBytes pa bs).wrote, poison := (s.putBytes pa bs).poison } := by
  unfold State.putBytes; split <;> rfl

@[simp] theorem mem_putBytes (s : State) (pa : Nat) (bs : List Byte) : (s.putBytes pa bs).mem = Memory.write s.mem pa bs := by
  rw [putBytes_rest]

@[simp] theorem tags_putBytes (s : State) (pa : Nat) (bs : List Byte) : (s.putBytes pa bs).tags = s.tags := by rw [putBytes_rest]

@[simp] theorem tag_putBytes (s : State) (pa : Nat) (bs : List Byte) (a : Nat) : (s.putBytes pa bs).tag a = s.tag a := by
  unfold State.tag; rw [tags_putBytes]

theorem byte_putBytes (s : State) (pa : Nat) (bs : List Byte) (a : Nat) :
    (s.putBytes pa bs).byte a = if pa ≤ a ∧ a < pa + bs.length then bs.getD (a - pa) 0#8 else s.byte a := by
  unfold State.byte; rw [mem_putBytes]; exact get_write _ _ _ _

theorem canonical_putBytes {s : State} (c : Canonical s) (pa : Nat) (bs : List Byte) : Canonical (s.putBytes pa bs) := by
  refine ⟨?_, ?_⟩
  · rw [mem_putBytes]; exact wf_write pa bs c.1
  · rw [tags_putBytes]; exact c.2

/-- Without poison, bytes put change memory only. -/
theorem putBytes_sound {s : State} (h : s.poison = []) (pa : Nat) (bs : List Byte) :
    s.putBytes pa bs = { s with mem := Memory.write s.mem pa bs } := by
  simp [State.putBytes, State.poisoned, h]

/-- A write that every observer sees at once may be put on top of late stores; nothing else changes by that. -/
theorem overwritten_rest (s : State) (pa : Nat) (old : List Byte) (gen : Gen) :
    s.overwritten pa old gen = { s with late := (s.overwritten pa old gen).late } := by
  unfold State.overwritten; split <;> rfl

theorem byte_writeBytes (s : State) (pa : Nat) (bs : List Byte) (a : Nat) :
    (s.writeBytes pa bs).byte a = if pa ≤ a ∧ a < pa + bs.length then bs.getD (a - pa) 0#8 else s.byte a := by
  unfold State.writeBytes; rw [byte_putBytes, overwritten_rest]; rfl

@[simp] theorem tag_writeBytes (s : State) (pa : Nat) (bs : List Byte) (a : Nat) : (s.writeBytes pa bs).tag a = s.tag a := by
  unfold State.writeBytes; rw [tag_putBytes, overwritten_rest]; rfl

theorem canonical_writeBytes {s : State} (c : Canonical s) (pa : Nat) (bs : List Byte) : Canonical (s.writeBytes pa bs) :=
  canonical_putBytes (canonical_of_eq c (by rw [overwritten_rest]) (by rw [overwritten_rest])) _ _

/-! ## `stamp` and `writeTagged` -/

theorem tag_stamp (s : State) (g : Nat) (gen : Gen) (a : Nat) : (s.stamp g gen).tag a = if a / 64 = g then gen else s.tag a := by
  unfold State.stamp State.tag
  split
  · split
    · subst g; assumption
    · rfl
  · exact get_put _ _ _ _ _

theorem byte_stamp (s : State) (g : Nat) (gen : Gen) (a : Nat) :
    (s.stamp g gen).byte a = if a / 64 = g ∧ s.tag a ≠ gen then 0#8 else s.byte a := by
  unfold State.stamp State.byte State.tag
  split
  · rw [if_neg]
    rintro ⟨rfl, h⟩
    exact h ‹_›
  · simp only [get_clear]
    by_cases h : a / 64 = g
    · subst h
      rw [if_pos (by omega), if_pos ⟨rfl, ‹_›⟩]
    · rw [if_neg (by omega), if_neg (by simp [h])]

theorem canonical_stamp {s : State} (c : Canonical s) (g : Nat) (gen : Gen) : Canonical (s.stamp g gen) := by
  unfold State.stamp
  split
  · exact c
  · exact ⟨wf_clear _ _ c.1, wf_put c.2⟩

/-- A stamp changes memory, tags and poison only. -/
theorem stamp_rest (s : State) (g : Nat) (gen : Gen) :
    s.stamp g gen = { s with mem := (s.stamp g gen).mem, tags := (s.stamp g gen).tags, poison := (s.stamp g gen).poison } := by
  unfold State.stamp; split <;> rfl

theorem tag_stampFrom (s : State) (g : Nat) (gen : Gen) (n a : Nat) :
    (s.stampFrom g gen n).tag a = if g ≤ a / 64 ∧ a / 64 < g + n then gen else s.tag a := by
  induction n generalizing s g with
  | zero => rw [if_neg (by omega)]; rfl
  | succ n ih =>
    rw [State.stampFrom, ih, tag_stamp]
    by_cases h : a / 64 = g
    · rw [if_neg (by omega), if_pos h, if_pos (by omega)]
    · rw [if_neg h]
      by_cases h2 : g + 1 ≤ a / 64 ∧ a / 64 < g + 1 + n
      · rw [if_pos h2, if_pos (by omega)]
      · rw [if_neg h2, if_neg (by omega)]

theorem byte_stampFrom (s : State) (g : Nat) (gen : Gen) (n a : Nat) :
    (s.stampFrom g gen n).byte a = if (g ≤ a / 64 ∧ a / 64 < g + n) ∧ s.tag a ≠ gen then 0#8 else s.byte a := by
  induction n generalizing s g with
  | zero => rw [if_neg (by omega)]; rfl
  | succ n ih =>
    rw [State.stampFrom, ih, tag_stamp, byte_stamp]
    by_cases h : a / 64 = g
    · rw [if_neg (by omega)]
      by_cases h2 : s.tag a = gen
      · simp [h2]
      · rw [if_pos ⟨h, h2⟩, if_pos ⟨by omega, h2⟩]
    · rw [if_neg h, if_neg (by simp [h] : ¬(a / 64 = g ∧ s.tag a ≠ gen))]
      by_cases h2 : g + 1 ≤ a / 64 ∧ a / 64 < g + 1 + n
      · by_cases h3 : s.tag a = gen
        · simp [h3]
        · rw [if_pos ⟨h2, h3⟩, if_pos ⟨by omega, h3⟩]
      · rw [if_neg (by simp; omega), if_neg (by simp; omega)]

theorem canonical_stampFrom {s : State} (c : Canonical s) (g : Nat) (gen : Gen) (n : Nat) : Canonical (s.stampFrom g gen n) := by
  induction n generalizing s g with
  | zero => exact c
  | succ n ih => exact ih (canonical_stamp c g gen) _

theorem stampFrom_rest (s : State) (g : Nat) (gen : Gen) (n : Nat) :
    s.stampFrom g gen n =
      { s with mem := (s.stampFrom g gen n).mem, tags := (s.stampFrom g gen n).tags, poison := (s.stampFrom g gen n).poison } := by
  induction n generalizing s g with
  | zero => rfl
  | succ n ih =>
    have e := ih (s.stamp g gen) (g + 1)
    rw [State.stampFrom, e]
    have h := stamp_rest s g gen
    generalize hm : (s.stamp g gen).mem = m at h
    generalize ht : (s.stamp g gen).tags = t at h
    generalize hp : (s.stamp g gen).poison = p at h
    rw [h]

/-- What a byte of tagged storage reads as after a write under the same generation: a stale granule reads as zero before and after. -/
theorem seen_writeTagged (s : State) (pa : Nat) (bs : List Byte) (gen : Gen) (a : Nat) :
    Seen (s.writeTagged pa bs gen) gen a = if pa ≤ a ∧ a < pa + bs.length then bs.getD (a - pa) 0#8 else Seen s gen a := by
  unfold State.writeTagged
  split
  · subst bs; simp <;> omega
  · rename_i h
    have hl : 0 < bs.length := List.length_pos_iff.mpr h
    unfold Seen
    rw [byte_putBytes, byte_stampFrom]
    have ht : ∀ b, (State.putBytes (s.stampFrom (pa / 64) gen ((pa + bs.length - 1) / 64 + 1 - pa / 64)) pa bs).tag b =
        if pa / 64 ≤ b / 64 ∧ b / 64 < pa / 64 + ((pa + bs.length - 1) / 64 + 1 - pa / 64) then gen else s.tag b :=
      fun b => by rw [tag_putBytes]; exact tag_stampFrom s _ gen _ b
    rw [ht]
    by_cases h1 : pa ≤ a ∧ a < pa + bs.length
    · rw [if_pos h1, if_pos h1, if_pos (by rw [if_pos (by omega)])]
    · rw [if_neg h1, if_neg h1]
      by_cases h2 : pa / 64 ≤ a / 64 ∧ a / 64 < pa / 64 + ((pa + bs.length - 1) / 64 + 1 - pa / 64)
      · rw [if_pos h2, if_pos rfl]
        by_cases h3 : s.tag a = gen <;> simp [h2, h3]
      · simp [h2]

/-- A tagged write changes no byte and no tag outside the granules it touches. -/
theorem writeTagged_outside (s : State) (pa : Nat) (bs : List Byte) (gen : Gen) (a : Nat)
    (h : a / 64 < pa / 64 ∨ (pa + bs.length - 1) / 64 < a / 64) :
    (s.writeTagged pa bs gen).byte a = s.byte a ∧ (s.writeTagged pa bs gen).tag a = s.tag a := by
  unfold State.writeTagged
  split
  · exact ⟨rfl, rfl⟩
  · rename_i hb
    have hl : 0 < bs.length := List.length_pos_iff.mpr hb
    constructor
    · rw [byte_putBytes, byte_stampFrom, if_neg (by omega), if_neg (by rintro ⟨h', -⟩; omega)]
    · rw [tag_putBytes, tag_stampFrom, if_neg (by omega)]

theorem canonical_writeTagged {s : State} (c : Canonical s) (pa : Nat) (bs : List Byte) (gen : Gen) :
    Canonical (s.writeTagged pa bs gen) := by
  unfold State.writeTagged
  split
  · exact c
  · exact canonical_putBytes (canonical_stampFrom c _ _ _) _ _

/-- A tagged write changes memory, tags, what the step has written, and poison only. -/
theorem writeTagged_rest (s : State) (pa : Nat) (bs : List Byte) (gen : Gen) :
    s.writeTagged pa bs gen = { s with
      mem := (s.writeTagged pa bs gen).mem, tags := (s.writeTagged pa bs gen).tags, wrote := (s.writeTagged pa bs gen).wrote,
      poison := (s.writeTagged pa bs gen).poison } := by
  unfold State.writeTagged
  split
  · rfl
  · have h := stampFrom_rest s (pa / 64) gen ((pa + bs.length - 1) / 64 + 1 - pa / 64)
    generalize s.stampFrom (pa / 64) gen ((pa + bs.length - 1) / 64 + 1 - pa / 64) = x at h
    rw [putBytes_rest, h]

/-- Writes clear poison and make none. -/
theorem poison_stamp {s : State} (h : s.poison = []) (g : Nat) (gen : Gen) : (s.stamp g gen).poison = [] := by
  unfold State.stamp; split
  · exact h
  · simp [clearPoison, h]

theorem poison_stampFrom {s : State} (h : s.poison = []) (g : Nat) (gen : Gen) (n : Nat) : (s.stampFrom g gen n).poison = [] := by
  induction n generalizing s g with
  | zero => exact h
  | succ n ih => exact ih (poison_stamp h g gen) _

theorem poison_writeTagged {s : State} (h : s.poison = []) (pa : Nat) (bs : List Byte) (gen : Gen) :
    (s.writeTagged pa bs gen).poison = [] := by
  unfold State.writeTagged; split
  · exact h
  · rw [putBytes_sound (poison_stampFrom h _ _ _)]; exact poison_stampFrom h _ _ _

/-- Without poison a tagged write changes memory and tags only. -/
theorem writeTagged_sound {s : State} (h : s.poison = []) (pa : Nat) (bs : List Byte) (gen : Gen) :
    s.writeTagged pa bs gen = { s with mem := (s.writeTagged pa bs gen).mem, tags := (s.writeTagged pa bs gen).tags } := by
  have hp := poison_writeTagged h pa bs gen
  have hw : (s.writeTagged pa bs gen).wrote = s.wrote := by
    unfold State.writeTagged; split
    · rfl
    · rw [putBytes_sound (poison_stampFrom h _ _ _), stampFrom_rest]
  have e := writeTagged_rest s pa bs gen
  rw [hp, hw] at e
  rw [e, ← h]

@[simp] theorem poisoned_nil {s : State} (h : s.poison = []) (pa n : Nat) : s.poisoned pa n = false := by
  simp [State.poisoned, h]

/-! ## Late stores -/

/-- A reader to whom a place's stores tell nothing new reads what memory holds, and nothing changes. -/
theorem viewed_of_settled {s : State} {r : Reader} {gen : Gen} {pa : Nat} {bs : List Byte} (h : s.unsettled r gen pa bs.length = false) :
    s.viewed r gen pa bs = (bs, s) := by
  simp [State.viewed, h]

/-- A view changes what is late for whom and the free values' counter only. -/
theorem viewed_rest (s : State) (r : Reader) (gen : Gen) (pa : Nat) (bs : List Byte) :
    (s.viewed r gen pa bs).2 = { s with late := (s.viewed r gen pa bs).2.late, free := (s.viewed r gen pa bs).2.free } := by
  unfold State.viewed; split <;> rfl

/-- One access looks at every late store once: the stores stay what they are but for who has seen them. -/
theorem look_same (s : State) (r : Reader) (gen : Gen) (pa n : Nat) (pick : Nat → Bool) (us es : List Late) :
    (s.look r gen pa n pick us es).map (fun x => { x.1 with seen := [] }) = es.map fun e => { e with seen := [] } := by
  induction es generalizing us with
  | nil => rfl
  | cons e es ih =>
    simp only [State.look, List.map_cons, ih]
    congr 1
    split
    · split <;> rfl
    · split <;> rfl

end Sys2Proof.Laws
end

