-- ==== Sys2Proof/Laws/Canonical.lean ====
section
/-!
SUPPORT. The operations that change memory or tags otherwise than by a write: each keeps the canonical form.
-/

namespace Sys2Proof.Laws

open Sys2Proof.Machine Sys2Proof.Safety

/-- Two canonical lists joined where every key of the first lies below every key of the second. -/
theorem wfFrom_append {α : Type} [DecidableEq α] {d : α} {m n : Sparse α} {lo c : Nat} (w : Sparse.wfFrom d lo m = true)
    (h : ∀ p ∈ m, p.1 < c) (hl : lo ≤ c) (v : Sparse.wfFrom d c n = true) : Sparse.wfFrom d lo (m ++ n) = true := by
  induction m generalizing lo with
  | nil => exact wfFrom_mono hl v
  | cons p m ih =>
    obtain ⟨k, x⟩ := p
    obtain ⟨a, w⟩ := wfFrom_cons.mp w
    exact wfFrom_cons.mpr ⟨a, ih w (fun q hq => h q (List.mem_cons_of_mem _ hq)) (h (k, x) (.head _))⟩

/-- A run of keys under one value that is not the default. -/
theorem wfFrom_run {α : Type} [DecidableEq α] {d x : α} (hx : x ≠ d) (lo n : Nat) :
    Sparse.wfFrom d lo ((List.range n).map fun i => (lo + i, x)) = true := by
  induction n generalizing lo with
  | zero => rfl
  | succ n ih =>
    have e : ((List.range (n + 1)).map fun i => (lo + i, x)) = (lo, x) :: (List.range n).map fun i => (lo + 1 + i, x) := by
      rw [List.range_succ_eq_map, List.map_cons, List.map_map]
      congr 1
      exact List.map_congr_left fun i _ => by simp [Nat.add_comm 1, Nat.add_assoc]
    rw [e]
    exact wfFrom_cons.mpr ⟨⟨Nat.le_refl lo, hx⟩, ih (lo + 1)⟩

/-- The part of a canonical list from a key on. -/
theorem wfFrom_above {α : Type} [DecidableEq α] {d : α} {m : Sparse α} {lo : Nat} (w : Sparse.wfFrom d lo m = true) (c : Nat) :
    Sparse.wfFrom d c (m.filter fun p => decide (c ≤ p.1)) = true := by
  induction m generalizing lo with
  | nil => rfl
  | cons p m ih =>
    obtain ⟨k, x⟩ := p
    obtain ⟨a, w⟩ := wfFrom_cons.mp w
    rw [List.filter_cons]
    by_cases h : c ≤ k
    · rw [if_pos (by simpa using h)]
      exact wfFrom_cons.mpr ⟨⟨h, a.2⟩, wfFrom_filter w⟩
    · rw [if_neg (by simpa using h)]
      exact ih w

/-- A list of the same keys whose values are replaced, the default left out. -/
theorem wf_replaced {α : Type} [DecidableEq α] {d : α} (f : Nat × α → α) {m : Sparse α} {lo : Nat} (w : Sparse.wfFrom d lo m = true) :
    Sparse.wfFrom d lo ((m.map fun p => (p.1, f p)).filter fun p => p.2 ≠ d) = true := by
  induction m generalizing lo with
  | nil => rfl
  | cons p m ih =>
    obtain ⟨k, x⟩ := p
    obtain ⟨a, w⟩ := wfFrom_cons.mp w
    rw [List.map_cons, List.filter_cons]
    split
    · rename_i h
      exact wfFrom_cons.mpr ⟨⟨a.1, by simpa using h⟩, ih w⟩
    · exact wfFrom_mono (by omega) (ih w)

theorem canonical_zeroGranules {s : State} (c : Canonical s) (pa n : Nat) (gen : Gen) : Canonical (s.zeroGranules pa n gen) := by
  refine ⟨wf_clear _ _ c.1, ?_⟩
  show Sparse.wfFrom 0#16 0 ((s.tags.filter fun p => decide (p.1 < pa / 64)) ++
    (if gen = 0#16 then [] else (List.range n).map fun i => (pa / 64 + i, gen)) ++ s.tags.filter fun p => decide (pa / 64 + n ≤ p.1)) = true
  rw [List.append_assoc]
  refine wfFrom_append (c := pa / 64) (wfFrom_filter c.2) (fun p hp => by simpa using (List.mem_filter.mp hp).2) (Nat.zero_le _) ?_
  refine wfFrom_append (c := pa / 64 + n) ?_ ?_ (Nat.le_add_right _ _) (wfFrom_above c.2 _)
  · split
    · rfl
    · exact wfFrom_run ‹_› _ _
  · intro p hp
    split at hp
    · exact absurd hp (List.not_mem_nil)
    · obtain ⟨i, hi, rfl⟩ := List.mem_map.mp hp
      have := List.mem_range.mp hi
      simp only
      omega

/-- Cells written one after another at a distance. -/
theorem wf_cells {α : Type} [DecidableEq α] (d : α) (lo : Nat) (cs : List (Nat × α)) {m : Sparse α} (w : Sparse.wf d m = true) :
    Sparse.wf d (cs.foldl (fun m c => Sparse.put d m (lo + c.1) c.2) m) = true :=
  wf_foldl_put (fun c : Nat × α => lo + c.1) (fun c => c.2) cs w

theorem canonical_restoreVector {s : State} (c : Canonical s) (u : Unresolved) : Canonical (s.restoreVector u) :=
  ⟨wf_foldl_put (d := memDefault) (fun c : Nat × Byte => c.1) (fun c => c.2) (u.cells.filter fun c => s.ownVector c.1) (wf_filter c.1),
    wf_foldl_put (d := 0#16) (fun p : Nat × Gen => p.1) (fun p => p.2) (u.tags.filter fun p => s.ownVector (64 * p.1)) (wf_filter c.2)⟩

theorem canonical_restoreImage {s : State} (c : Canonical s) (core off : Nat) (gen : Gen) (im : Image) :
    Canonical (s.restoreImage core off gen im) := by
  have h : ∀ (gs : List Nat) (s : State), Canonical s → Canonical (gs.foldl (fun s g => s.stamp (windowAddr core off / 64 + g) gen) s) := by
    intro gs
    induction gs with
    | nil => exact fun _ h => h
    | cons g gs ih => exact fun s h => ih _ (canonical_stamp h _ _)
  exact ⟨wf_cells memDefault (windowAddr core off) im.cells (h im.granules s c).1, (h im.granules s c).2⟩

theorem canonical_restamp {s : State} (c : Canonical s) (lo n : Nat) (old new : Gen) : Canonical (s.restamp lo n old new) := by
  refine ⟨c.1, ?_⟩
  have e : (fun p : Nat × Gen => if lo ≤ p.1 ∧ p.1 < lo + n ∧ p.2 = old then (p.1, new) else (p.1, p.2)) =
      fun p => (p.1, if lo ≤ p.1 ∧ p.1 < lo + n ∧ p.2 = old then new else p.2) := by
    funext p; split <;> rfl
  show Sparse.wfFrom 0#16 0 ((s.tags.map fun p : Nat × Gen => if lo ≤ p.1 ∧ p.1 < lo + n ∧ p.2 = old then (p.1, new) else (p.1, p.2)).filter
    fun p => p.2 ≠ 0#16) = true
  rw [e]
  exact wf_replaced _ c.2

theorem canonical_setThr {s : State} (c : Canonical s) (k : Nat) (t : Thread) : Canonical (s.setThr k t) := by
  unfold State.setThr; split <;> exact c

theorem canonical_foldl_setThr (f : State → Nat → Thread) (ks : List Nat) {s : State} (c : Canonical s) :
    Canonical (ks.foldl (fun s k => s.setThr k (f s k)) s) := by
  induction ks generalizing s with
  | nil => exact c
  | cons k ks ih => exact ih (canonical_setThr c _ _)

theorem canonical_endSweep {s : State} (c : Canonical s) (core pool : Nat) (skip : List Nat) : Canonical (s.endSweep core pool skip) := by
  unfold State.endSweep
  dsimp only
  have granules : ∀ (f : State → Nat → Thread) (keep : Nat × Gen → Bool),
      Canonical ((coreKeys core).foldl (fun s k => s.setThr k (f s k)) { s with tags := s.tags.filter keep }) :=
    fun f _ => canonical_foldl_setThr f _ ⟨c.1, wf_filter c.2⟩
  split
  · exact canonical_foldl_setThr _ _ c
  · exact granules _ _
  · exact canonical_foldl_setThr _ _ c
  · exact granules _ _
  · exact granules _ _

theorem canonical_debugGranule {s : State} (c : Canonical s) (pa : Nat) (data : List Byte) (tag : Gen) :
    Canonical (s.debugGranule pa data tag) := ⟨(canonical_writeBytes c pa data).1, wf_put c.2⟩

theorem canonical_patchCheckpoints {s : State} (c : Canonical s) (core : Nat) (f : State → State) :
    Canonical (s.patchCheckpoints core f) := by
  unfold State.patchCheckpoints
  generalize coreKeys core = ks
  induction ks generalizing s with
  | nil => exact c
  | cons k ks ih =>
    refine ih ?_
    dsimp only
    split
    · exact c
    · exact canonical_setThr c _ _

theorem canonical_debugWrite {s t : State} (c : Canonical s) (u : TagUnit) (data : List Byte) (tag : Gen)
    (h : execDebugWrite u data tag s = .next t) : Canonical t := by
  have slot : ∀ k f, Canonical (s.mapSlot k f) := fun k f => by unfold State.mapSlot; exact canonical_setThr c _ _
  cases u <;> cases h
  · exact slot _ _
  · exact slot _ _
  · exact slot _ _
  · exact canonical_debugGranule (canonical_patchCheckpoints c _ _) _ _ _

end Sys2Proof.Laws
end

