-- ==== Sys2Proof/Laws/Ops.lean ====
section
/-!
SUPPORT. The shared operations of the control thread: what each of them can do, said once.
-/

namespace Sys2Proof.Laws

open Sys2Proof.Machine Sys2Proof.Safety

/-! ## Bodies -/

@[simp] theorem andThen_done {α β : Type} (a : α) (s : State) (f : α → State → Res β) : (Res.done a s).andThen f = f a s := rfl
@[simp] theorem andThen_trap {α β : Type} (t : Trap) (s : State) (f : α → State → Res β) : (Res.trap t s).andThen f = .trap t s := rfl
@[simp] theorem andThen_wait {α β : Type} (s : State) (f : α → State → Res β) : (Res.wait s : Res α).andThen f = .wait s := rfl

/-! ## Scalar registers -/

/-- A vector read after a write. -/
theorem get_set {α : Type} {n : Nat} (v : Vector α n) (i : Nat) (x : α) (h : i < n) (j : Fin n) :
    (v.set i x h).get j = if i = j.val then x else v.get j := by
  show (v.set i x h)[j.val] = if i = j.val then x else v[j.val]
  exact Vector.getElem_set ..

@[simp] theorem reg_zero (s : State) : s.reg 0#5 = 0#64 := rfl

@[simp] theorem regLive_zero (s : State) : s.regLive 0#5 = true := rfl

theorem setReg_nonzero (s : State) {rd : SReg} (h : rd ≠ 0#5) (x : Word) :
    s.setReg rd x = { s with thr := { s.thr with arch := { s.thr.arch with
      sreg := s.thr.arch.sreg.set rd.toNat x rd.isLt, stag := s.thr.arch.stag.set rd.toNat s.thr.genS rd.isLt
      sbad := s.thr.arch.sbad.filter fun b => b ≠ rd.toNat } } } := by
  unfold State.setReg; rw [if_neg h]; rfl

theorem toFin_ne {r rd : SReg} (h : r ≠ rd) : rd.toNat ≠ r.toNat := fun c => h (BitVec.eq_of_toNat_eq c.symm)

/-- A register write read back: the written register reads as `x` (s0 as zero), every other as before. -/
theorem reg_setReg (s : State) (rd r : SReg) (x : Word) :
    (s.setReg rd x).reg r = if r = rd ∧ rd ≠ 0#5 then x else s.reg r := by
  by_cases h : rd = 0#5
  · simp [State.setReg, h]
  · rw [setReg_nonzero s h]
    simp only [State.reg, get_set]
    by_cases e : r = rd
    · subst e; simp [h]
    · simp [e, toFin_ne e]

theorem regLive_setReg (s : State) (rd r : SReg) (x : Word) :
    (s.setReg rd x).regLive r = (decide (r = rd) || s.regLive r) := by
  by_cases h : rd = 0#5
  · subst h
    by_cases e : r = 0#5 <;> simp [State.setReg, e]
  · rw [setReg_nonzero s h]
    simp only [State.regLive, get_set]
    by_cases e : r = rd
    · subst e; simp
    · simp [e, toFin_ne e]

/-- A written register is free of poison; every other as before. -/
theorem regBad_setReg (s : State) (rd r : SReg) (x : Word) :
    (s.setReg rd x).regBad r = if r = rd then false else s.regBad r := by
  by_cases h : rd = 0#5
  · by_cases e : r = 0#5 <;> simp [State.setReg, State.regBad, h, e]
  · by_cases e : r = rd
    · subst e; rw [setReg_nonzero s h]; simp [State.regBad]
    · have l : (s.setReg rd x).regLive r = s.regLive r := by rw [regLive_setReg]; simp [e]
      rw [if_neg e, State.regBad, State.regBad, l, setReg_nonzero s h]
      have : (decide (r.toNat ≠ rd.toNat)) = true := by simp [Ne.symm (toFin_ne e)]
      simp only [List.contains_eq_mem, List.mem_filter, this, and_true]

/-- A register write changes the register file, its tags and its poison only. -/
theorem setReg_rest (s : State) (rd : SReg) (x : Word) :
    s.setReg rd x = { s with thr := { s.thr with arch := { s.thr.arch with
      sreg := (s.setReg rd x).thr.arch.sreg, stag := (s.setReg rd x).thr.arch.stag, sbad := (s.setReg rd x).thr.arch.sbad } } } := by
  unfold State.setReg; split <;> rfl

@[simp] theorem ucr_setReg (s : State) (rd : SReg) (x : Word) : (s.setReg rd x).ucr = s.ucr := by rw [setReg_rest]; rfl
@[simp] theorem trip_setReg (s : State) (rd : SReg) (x : Word) : (s.setReg rd x).trip = s.trip := by rw [setReg_rest]; rfl
@[simp] theorem byte_setReg (s : State) (rd : SReg) (x : Word) (a : Nat) : (s.setReg rd x).byte a = s.byte a := by
  rw [setReg_rest]; rfl
@[simp] theorem tag_setReg (s : State) (rd : SReg) (x : Word) (a : Nat) : (s.setReg rd x).tag a = s.tag a := by
  rw [setReg_rest]; rfl

theorem plain_setReg {s : State} (h : Plain s) (rd : SReg) (x : Word) : Plain (s.setReg rd x) := by
  rw [setReg_rest]; exact ⟨h.noReplay, h.noGroup, h.resolved, h.whole⟩

theorem readable_setReg {s : State} {r : SReg} (h : Readable s r) (rd : SReg) (x : Word) : Readable (s.setReg rd x) r := by
  refine ⟨h.1.elim (fun h => .inl (by simpa using h)) fun h => .inr (by rw [regLive_setReg, h, Bool.or_true]), ?_⟩
  rw [regBad_setReg, h.2, ite_self]

/-- A read of a readable register answers its value and changes nothing. -/
theorem readReg_done {s : State} {r : SReg} (h : Readable s r) : readReg r s = .done (s.reg r) s := by
  unfold readReg
  obtain ⟨h | h, b⟩ := h <;> simp [h, b]

/-- A read of a stale register under GENMODE = 1 traps (R133). -/
theorem readReg_stale {s : State} {r : SReg} (g : s.ucr.genmode = 1#1) (h : s.regLive r = false) :
    readReg r s = .trap ⟨Cause.gentrap, 0#8, regValue r⟩ s := by
  unfold readReg; simp [g, h]

theorem readPosted_done {s : State} {r : SReg} (p : s.thr.replaying = false) (h : Readable s r) :
    readPosted r s = .done (s.reg r) s := by
  unfold readPosted; simp [p, readReg_done h]

/-! ## The end of an instruction -/

theorem fall_eq (t : Triple) : t.fall = Fallen t := by simp [Triple.fall, Triple.advance, Fallen]

/-- An ordinary word that falls through. -/
theorem completed_fall {s : State} (p : Plain s) : s.completed .fall = Moved s { s.thr.arch with trip := Fallen s.trip } := by
  show s.retired = _
  unfold State.retired
  rw [if_neg (by simp [p.noReplay])]
  split
  · rename_i h
    exact absurd (p.noGroup.symm.trans h) (by simp)
  · show Moved s { s.thr.arch with trip := s.thr.arch.trip.fall } = _
    rw [fall_eq]; rfl

theorem retired_plain {s : State} (p : Plain s) : s.retired = Moved s { s.thr.arch with trip := Fallen s.trip } := completed_fall p

theorem completed_taken (s : State) (a : Word) : s.completed (.taken a) = Moved s { s.thr.arch with trip := Safety.Taken s.trip a } := by
  simp only [State.completed, Triple.advance, Bool.or_false, State.mapThr]; rfl

theorem completed_notTaken (s : State) (n : Bool) :
    s.completed (.notTaken n) = Moved s { s.thr.arch with trip := Safety.NotTaken s.trip n } := rfl

/-- A control-thread body that is done. -/
@[simp] theorem runControl_done (s0 s : State) (c : Ctl) : runControl s0 (.done c s) = .next (s.completed c) := rfl
@[simp] theorem runPosted_done (i : Instr) (s0 s : State) (u : Unit) : runPosted i s0 (.done u s) = .next s.retired := rfl

/-- A trap of a control-thread instruction with every `ubrk` resolved is delivered at once. -/
theorem runControl_trap {s0 s : State} (h : s.thr.unres = []) (t : Trap) : runControl s0 (.trap t s) = .next (s.deliverHere t 0#64) := by
  simp [runControl, takeTrap, h]

theorem whenResolved_plain {α : Type} {s : State} (p : Plain s) (k : State → Res α) : whenResolved s k = k s := by
  simp [whenResolved, p.resolved]

/-- A register write and then the step of the triple, seen from outside. -/
theorem wroteReg_of_setReg (s : State) (rd : SReg) (x : Word) (n : Triple) :
    WroteReg s (Moved (s.setReg rd x) { (s.setReg rd x).thr.arch with trip := n }) rd x s.ucr n where
  value := by
    show (s.setReg rd x).reg rd = _
    rw [reg_setReg]
    by_cases h : rd = 0#5 <;> simp [h]
  live := by
    show (s.setReg rd x).regLive rd = true ∧ (s.setReg rd x).regBad rd = false
    rw [regLive_setReg, regBad_setReg]; simp
  others := fun r hr => by
    refine ⟨?_, ?_, ?_⟩
    · show (s.setReg rd x).reg r = _
      rw [reg_setReg]; simp [hr]
    · show (s.setReg rd x).regLive r = _
      rw [regLive_setReg]; simp [hr]
    · show (s.setReg rd x).regBad r = _
      rw [regBad_setReg, if_neg hr]
  memory := fun a => ⟨by show (s.setReg rd x).byte a = _; simp, by show (s.setReg rd x).tag a = _; simp⟩
  frame := by rw [setReg_rest]; rfl

/-- A body that writes one register and falls through. -/
theorem gives_of_body {s : State} (p : Plain s) {rd : SReg} {x : Word} {i : Instr}
    (h : exec i s = runControl s (.done .fall (s.setReg rd x))) : Gives i s rd x := by
  refine ⟨_, h.trans ?_, wroteReg_of_setReg s rd x _⟩
  rw [runControl_done, completed_fall (plain_setReg p rd x), trip_setReg]

end Sys2Proof.Laws
end

