-- ==== Sys2Proof/Laws/PerInstr.lean ====
section
/-!
SUPPORT. Per-instruction facts. The family `Encoding` says of one instruction that decoding its word gives it back; the
lemmas before it read the fields of a word that a format packs.
-/

namespace Sys2Proof.Laws

set_option linter.unusedSimpArgs false
set_option Elab.async false

/-- The `k` bits of `x` from bit `l`, kept folded so that the lemmas below apply. -/
def bits {m : Nat} (x : BitVec m) (l k : Nat) : BitVec k := x.extractLsb' l k

/-- Bit `i` of `x`, kept folded. -/
def bit {m : Nat} (x : BitVec m) (i : Nat) : Bool := x.getLsbD i

/-- No bit of the mask `z` is set in `x`. -/
def Clear {m : Nat} (x : BitVec m) (z : Nat) : Prop := ∀ i, z.testBit i = true → x.getLsbD i = false

@[simp] theorem fieldAt_bits (w : BitVec 32) (l k : Nat) : fieldAt w l k = bits w l k := rfl

@[simp] theorem flagAt_bit (w : BitVec 32) (i : Nat) : flagAt w i = bit w i := rfl

@[simp] theorem bits_append_high {m n k l : Nat} (x : BitVec m) (y : BitVec n) (h : n ≤ l) :
    bits (x ++ y) l k = bits x (l - n) k := by
  apply BitVec.eq_of_getLsbD_eq
  intro i hi
  simp [bits, BitVec.getLsbD_append, hi, show ¬ l + i < n by omega, show l + i - n = l - n + i by omega]

@[simp] theorem bits_append_low {m n k l : Nat} (x : BitVec m) (y : BitVec n) (h : l + k ≤ n) :
    bits (x ++ y) l k = bits y l k := by
  apply BitVec.eq_of_getLsbD_eq
  intro i hi
  simp [bits, BitVec.getLsbD_append, hi, show l + i < n by omega]

@[simp] theorem bits_all {n : Nat} (x : BitVec n) : bits x 0 n = x := by
  apply BitVec.eq_of_getLsbD_eq
  intro i hi
  simp [bits, hi]

@[simp] theorem bit_append_high {m n i : Nat} (x : BitVec m) (y : BitVec n) (h : n ≤ i) :
    bit (x ++ y) i = bit x (i - n) := by
  simp [bit, BitVec.getLsbD_append, show ¬ i < n by omega]

@[simp] theorem bit_append_low {m n i : Nat} (x : BitVec m) (y : BitVec n) (h : i < n) : bit (x ++ y) i = bit y i := by
  simp [bit, BitVec.getLsbD_append, h]

@[simp] theorem bit_ofBit (b : Bool) : bit (ofBit b) 0 = b := by cases b <;> rfl

@[simp] theorem bit_zero {m : Nat} (i : Nat) : bit (0#m) i = false := by simp [bit]

@[simp] theorem clear_append {m n : Nat} (x : BitVec m) (y : BitVec n) (z : Nat) :
    Clear (x ++ y) z ↔ Clear x (z >>> n) ∧ Clear y (z % 2 ^ n) := by
  simp only [Clear, BitVec.getLsbD_append, Nat.testBit_shiftRight, Nat.testBit_mod_two_pow, Bool.and_eq_true,
    decide_eq_true_eq]
  constructor
  · intro h
    exact ⟨fun i hi => by simpa using h (n + i) hi, fun i hi => by simpa [hi.1] using h i hi.2⟩
  · rintro ⟨h, k⟩ i hi
    by_cases hin : i < n
    · simpa [hin] using k i ⟨hin, hi⟩
    · simpa [hin] using h (i - n) (by simpa [show n + (i - n) = i by omega] using hi)

@[simp] theorem clear_none {m : Nat} (x : BitVec m) : Clear x 0 := by simp [Clear]

@[simp] theorem clear_zero {m : Nat} (z : Nat) : Clear (0#m) z := by simp [Clear]

@[simp] theorem clear_false (z : Nat) : Clear (ofBit false) z := by simp [Clear, ofBit]

@[simp] theorem bits_ofNat (n m l k : Nat) : bits (BitVec.ofNat m n) l k = BitVec.ofNat k ((n % 2 ^ m) >>> l) := by
  apply BitVec.eq_of_getLsbD_eq
  intro i hi
  rw [BitVec.getLsbD_ofNat, Nat.testBit_shiftRight, Nat.testBit_mod_two_pow]
  simp [bits, hi, BitVec.getLsbD_ofNat]

theorem clear_one (m z : Nat) (h : z.testBit 0 = false) : Clear (BitVec.ofNat m 1) z := by
  intro i hi
  have h0 : i ≠ 0 := fun e => by simp [e, h] at hi
  have h1 : Nat.testBit 1 i = false :=
    Bool.eq_false_iff.2 fun hc => h0 (Nat.testBit_one_eq_true_iff_self_eq_zero.1 hc)
  simp [BitVec.getLsbD_ofNat, h1]

/-- A masked word is zero just when the mask's bits are clear in it. -/
theorem and_eq_zero (w : BitVec 32) (z : Nat) : w &&& BitVec.ofNat 32 z = 0#32 ↔ Clear w (z % 2 ^ 32) := by
  unfold Clear
  constructor
  · intro h i hi
    have h' := congrArg (BitVec.getLsbD · i) h
    simp only [Nat.testBit_mod_two_pow, Bool.and_eq_true, decide_eq_true_eq] at hi
    have hz : (BitVec.ofNat 32 z).getLsbD i = true := by rw [BitVec.getLsbD_ofNat]; simp only [hi.1, hi.2]; rfl
    simpa only [BitVec.getLsbD_and, hz, Bool.and_true, BitVec.getLsbD_zero] using h'
  · intro h
    apply BitVec.eq_of_getLsbD_eq
    intro i hi
    have h' := h i
    simp only [Nat.testBit_mod_two_pow, Bool.and_eq_true, decide_eq_true_eq] at h'
    by_cases hz : z.testBit i = true
    · simp [h' ⟨hi, hz⟩]
    · simp [BitVec.getLsbD_ofNat, hz]

/-- The check of the zero fields passes just when they are zero (R123). -/
@[simp] theorem zeros_ok (w : BitVec 32) (z : Nat) (i : Instr) :
    zeros w (BitVec.ofNat 32 z) i = .ok i ↔ Clear w (z % 2 ^ 32) := by
  unfold zeros
  split
  next h => exact ⟨fun _ => (and_eq_zero w z).1 h, fun _ => rfl⟩
  next h => exact ⟨fun e => by simp at e, fun c => absurd ((and_eq_zero w z).2 c) h⟩

/-- A word whose major and selector name a well-formed instruction decodes to it. -/
theorem decode_of_pick {w : BitVec 32} {i : Instr} (hp : pick w = .ok i) (hi : i.wf = true) : decode w = .ok i := by
  simp [decode, hp, hi]

/-- Decoding the word of `i` gives `i` back. -/
def Encoding.Statement (i : Instr) : Prop := ∀ w, encode i = some w → i.wf = true → decode w = .ok i

/-- For an instruction with a word it is enough that the major and the selector name it. -/
theorem encoding_of_pick {i : Instr} {v : BitVec 32} (he : encode i = some v) (hp : pick v = .ok i) :
    Encoding.Statement i := by
  intro w hw hi
  rw [he] at hw
  cases hw
  exact decode_of_pick hp hi

/-- An event has no word. -/
theorem encoding_of_event {i : Instr} (he : encode i = none) : Encoding.Statement i := by
  intro w hw
  rw [he] at hw
  cases hw

theorem pick_sys {w : BitVec 32} (h : (bits w 26 6).toNat = 0) : pick w = pickSys w := by
  unfold pick
  simp only [fieldAt_bits, h]

theorem pick_alu {w : BitVec 32} (h : (bits w 26 6).toNat = 1) : pick w = pickAlu w := by
  unfold pick
  simp only [fieldAt_bits, h]

theorem pick_addi {w : BitVec 32} (h : (bits w 26 6).toNat = 2) : pick w = .ok (.addi (fieldAt w 21 5) (fieldAt w 16 5) (fieldAt w 0 16)) := by
  unfold pick
  simp only [fieldAt_bits, h]

theorem pick_andi {w : BitVec 32} (h : (bits w 26 6).toNat = 3) : pick w = .ok (.andi (fieldAt w 21 5) (fieldAt w 16 5) (fieldAt w 0 16)) := by
  unfold pick
  simp only [fieldAt_bits, h]

theorem pick_ori {w : BitVec 32} (h : (bits w 26 6).toNat = 4) : pick w = .ok (.ori (fieldAt w 21 5) (fieldAt w 16 5) (fieldAt w 0 16)) := by
  unfold pick
  simp only [fieldAt_bits, h]

theorem pick_xori {w : BitVec 32} (h : (bits w 26 6).toNat = 5) : pick w = .ok (.xori (fieldAt w 21 5) (fieldAt w 16 5) (fieldAt w 0 16)) := by
  unfold pick
  simp only [fieldAt_bits, h]

theorem pick_slti {w : BitVec 32} (h : (bits w 26 6).toNat = 6) : pick w = .ok (.slti (fieldAt w 21 5) (fieldAt w 16 5) (fieldAt w 0 16)) := by
  unfold pick
  simp only [fieldAt_bits, h]

theorem pick_sltiu {w : BitVec 32} (h : (bits w 26 6).toNat = 7) : pick w = .ok (.sltiu (fieldAt w 21 5) (fieldAt w 16 5) (fieldAt w 0 16)) := by
  unfold pick
  simp only [fieldAt_bits, h]

theorem pick_shift {w : BitVec 32} (h : (bits w 26 6).toNat = 8) : pick w = pickShift w := by
  unfold pick
  simp only [fieldAt_bits, h]

theorem pick_lins {w : BitVec 32} (h : (bits w 26 6).toNat = 9) : pick w = zeros w 0x001C0000#32 (.lins (fieldAt w 21 5) (fieldAt w 16 2) (fieldAt w 0 16)) := by
  unfold pick
  simp only [fieldAt_bits, h]

theorem pick_addpc {w : BitVec 32} (h : (bits w 26 6).toNat = 10) : pick w = zeros w 0x001F0000#32 (.addpc (fieldAt w 21 5) (fieldAt w 0 16)) := by
  unfold pick
  simp only [fieldAt_bits, h]

theorem pick_ld {w : BitVec 32} (h : (bits w 26 6).toNat = 11) : pick w = .ok (.ld (fieldAt w 21 5) (fieldAt w 16 5) (fieldAt w 12 4) (fieldAt w 0 12)) := by
  unfold pick
  simp only [fieldAt_bits, h]

theorem pick_st {w : BitVec 32} (h : (bits w 26 6).toNat = 12) : pick w = .ok (.st (fieldAt w 21 5) (fieldAt w 16 5) (fieldAt w 12 4) (fieldAt w 0 12)) := by
  unfold pick
  simp only [fieldAt_bits, h]

theorem pick_indexed {w : BitVec 32} (h : (bits w 26 6).toNat = 13) : pick w = pickIndexed w := by
  unfold pick
  simp only [fieldAt_bits, h]

theorem pick_atomic {w : BitVec 32} (h : (bits w 26 6).toNat = 14) : pick w = pickAtomic w := by
  unfold pick
  simp only [fieldAt_bits, h]

theorem pick_wait {w : BitVec 32} (h : (bits w 26 6).toNat = 15) : pick w = pickWait w := by
  unfold pick
  simp only [fieldAt_bits, h]

theorem pick_beq {w : BitVec 32} (h : (bits w 26 6).toNat = 16) : pick w = .ok (.beq (fieldAt w 21 5) (fieldAt w 16 5) (flagAt w 15) (fieldAt w 0 15)) := by
  unfold pick
  simp only [fieldAt_bits, h]

theorem pick_bne {w : BitVec 32} (h : (bits w 26 6).toNat = 17) : pick w = .ok (.bne (fieldAt w 21 5) (fieldAt w 16 5) (flagAt w 15) (fieldAt w 0 15)) := by
  unfold pick
  simp only [fieldAt_bits, h]

theorem pick_blt {w : BitVec 32} (h : (bits w 26 6).toNat = 18) : pick w = .ok (.blt (fieldAt w 21 5) (fieldAt w 16 5) (flagAt w 15) (fieldAt w 0 15)) := by
  unfold pick
  simp only [fieldAt_bits, h]

theorem pick_bge {w : BitVec 32} (h : (bits w 26 6).toNat = 19) : pick w = .ok (.bge (fieldAt w 21 5) (fieldAt w 16 5) (flagAt w 15) (fieldAt w 0 15)) := by
  unfold pick
  simp only [fieldAt_bits, h]

theorem pick_bltu {w : BitVec 32} (h : (bits w 26 6).toNat = 20) : pick w = .ok (.bltu (fieldAt w 21 5) (fieldAt w 16 5) (flagAt w 15) (fieldAt w 0 15)) := by
  unfold pick
  simp only [fieldAt_bits, h]

theorem pick_bgeu {w : BitVec 32} (h : (bits w 26 6).toNat = 21) : pick w = .ok (.bgeu (fieldAt w 21 5) (fieldAt w 16 5) (flagAt w 15) (fieldAt w 0 15)) := by
  unfold pick
  simp only [fieldAt_bits, h]

theorem pick_j {w : BitVec 32} (h : (bits w 26 6).toNat = 22) : pick w = .ok (.j (fieldAt w 0 26)) := by
  unfold pick
  simp only [fieldAt_bits, h]

theorem pick_jal {w : BitVec 32} (h : (bits w 26 6).toNat = 23) : pick w = .ok (.jal (fieldAt w 0 26)) := by
  unfold pick
  simp only [fieldAt_bits, h]

theorem pick_jump {w : BitVec 32} (h : (bits w 26 6).toNat = 24) : pick w = pickJump w := by
  unfold pick
  simp only [fieldAt_bits, h]

theorem pick_smine {w : BitVec 32} (h : (bits w 26 6).toNat = 25) : pick w = .ok (.smine (fieldAt w 21 5) (fieldAt w 17 4) (flagAt w 16) (flagAt w 15) (fieldAt w 0 15)) := by
  unfold pick
  simp only [fieldAt_bits, h]

theorem pick_ubrk {w : BitVec 32} (h : (bits w 26 6).toNat = 26) : pick w = zeros w 0x003F8000#32 (.ubrk (fieldAt w 22 4) (fieldAt w 0 15)) := by
  unfold pick
  simp only [fieldAt_bits, h]

theorem pick_vbx {w : BitVec 32} (h : (bits w 26 6).toNat = 27) : pick w = zeros w 0x000F0000#32 (.vbx (fieldAt w 22 4) (fieldAt w 20 2) (flagAt w 15) (fieldAt w 0 15)) := by
  unfold pick
  simp only [fieldAt_bits, h]

theorem pick_rpt {w : BitVec 32} (h : (bits w 26 6).toNat = 28) : pick w = zeros w 0x0000000F#32 (.rpt (fieldAt w 22 4) (fieldAt w 16 6) (fieldAt w 12 4) (fieldAt w 8 4) (fieldAt w 4 4)) := by
  unfold pick
  simp only [fieldAt_bits, h]

theorem pick_shape {w : BitVec 32} (h : (bits w 26 6).toNat = 29) : pick w = pickShape w := by
  unfold pick
  simp only [fieldAt_bits, h]

theorem pick_vi0 {w : BitVec 32} (h : (bits w 26 6).toNat = 30) : pick w = pickVi0 w := by
  unfold pick
  simp only [fieldAt_bits, h]

theorem pick_vi1 {w : BitVec 32} (h : (bits w 26 6).toNat = 31) : pick w = pickVi1 w := by
  unfold pick
  simp only [fieldAt_bits, h]

theorem pick_vi2 {w : BitVec 32} (h : (bits w 26 6).toNat = 32) : pick w = pickVi2 w := by
  unfold pick
  simp only [fieldAt_bits, h]

theorem pick_vi3 {w : BitVec 32} (h : (bits w 26 6).toNat = 33) : pick w = pickVi3 w := by
  unfold pick
  simp only [fieldAt_bits, h]

theorem pick_vi4 {w : BitVec 32} (h : (bits w 26 6).toNat = 34) : pick w = pickVi4 w := by
  unfold pick
  simp only [fieldAt_bits, h]

theorem pick_vi5 {w : BitVec 32} (h : (bits w 26 6).toNat = 35) : pick w = pickVi5 w := by
  unfold pick
  simp only [fieldAt_bits, h]

theorem pick_vi6 {w : BitVec 32} (h : (bits w 26 6).toNat = 36) : pick w = pickVi6 w := by
  unfold pick
  simp only [fieldAt_bits, h]

theorem pick_vi7 {w : BitVec 32} (h : (bits w 26 6).toNat = 37) : pick w = pickVi7 w := by
  unfold pick
  simp only [fieldAt_bits, h]

theorem pick_vcmp {w : BitVec 32} (h : (bits w 26 6).toNat = 38) : pick w = .ok (.vcmp (fieldAt w 22 4) (fieldAt w 18 4) (fieldAt w 12 6) (fieldAt w 6 6) (flagAt w 5) (fieldAt w 2 3) (fieldAt w 0 2)) := by
  unfold pick
  simp only [fieldAt_bits, h]

theorem pick_vf0 {w : BitVec 32} (h : (bits w 26 6).toNat = 39) : pick w = pickVf0 w := by
  unfold pick
  simp only [fieldAt_bits, h]

theorem pick_vf1 {w : BitVec 32} (h : (bits w 26 6).toNat = 40) : pick w = pickVf1 w := by
  unfold pick
  simp only [fieldAt_bits, h]

theorem pick_vf2 {w : BitVec 32} (h : (bits w 26 6).toNat = 41) : pick w = pickVf2 w := by
  unfold pick
  simp only [fieldAt_bits, h]

theorem pick_vf3 {w : BitVec 32} (h : (bits w 26 6).toNat = 42) : pick w = pickVf3 w := by
  unfold pick
  simp only [fieldAt_bits, h]

theorem pick_vf4 {w : BitVec 32} (h : (bits w 26 6).toNat = 43) : pick w = pickVf4 w := by
  unfold pick
  simp only [fieldAt_bits, h]

theorem pick_vcvt {w : BitVec 32} (h : (bits w 26 6).toNat = 44) : pick w = .ok (.vcvt (fieldAt w 20 6) (fieldAt w 14 6) (fieldAt w 11 3) (flagAt w 10) (fieldAt w 8 2) (fieldAt w 4 4) (fieldAt w 0 4)) := by
  unfold pick
  simp only [fieldAt_bits, h]

theorem pick_vred0 {w : BitVec 32} (h : (bits w 26 6).toNat = 45) : pick w = pickVred0 w := by
  unfold pick
  simp only [fieldAt_bits, h]

theorem pick_vred1 {w : BitVec 32} (h : (bits w 26 6).toNat = 46) : pick w = pickVred1 w := by
  unfold pick
  simp only [fieldAt_bits, h]

theorem pick_perm {w : BitVec 32} (h : (bits w 26 6).toNat = 47) : pick w = pickPerm w := by
  unfold pick
  simp only [fieldAt_bits, h]

theorem pick_mask {w : BitVec 32} (h : (bits w 26 6).toNat = 48) : pick w = pickMask w := by
  unfold pick
  simp only [fieldAt_bits, h]

theorem pick_loadz {w : BitVec 32} (h : (bits w 26 6).toNat = 49) : pick w = pickLoadZ w := by
  unfold pick
  simp only [fieldAt_bits, h]

theorem pick_loads {w : BitVec 32} (h : (bits w 26 6).toNat = 50) : pick w = pickLoadS w := by
  unfold pick
  simp only [fieldAt_bits, h]

theorem pick_store {w : BitVec 32} (h : (bits w 26 6).toNat = 51) : pick w = pickStore w := by
  unfold pick
  simp only [fieldAt_bits, h]

theorem pick_vamo {w : BitVec 32} (h : (bits w 26 6).toNat = 52) : pick w = pickVamo w := by
  unfold pick
  simp only [fieldAt_bits, h]

theorem pick_vamo2 {w : BitVec 32} (h : (bits w 26 6).toNat = 53) : pick w = pickVamo2 w := by
  unfold pick
  simp only [fieldAt_bits, h]

theorem pick_matrix {w : BitVec 32} (h : (bits w 26 6).toNat = 54) : pick w = pickMatrix w := by
  unfold pick
  simp only [fieldAt_bits, h]

theorem pick_sync {w : BitVec 32} (h : (bits w 26 6).toNat = 55) : pick w = pickSync w := by
  unfold pick
  simp only [fieldAt_bits, h]

theorem pick_copy {w : BitVec 32} (h : (bits w 26 6).toNat = 56) : pick w = pickCopy w := by
  unfold pick
  simp only [fieldAt_bits, h]

theorem pick_coll {w : BitVec 32} (h : (bits w 26 6).toNat = 57) : pick w = pickColl w := by
  unfold pick
  simp only [fieldAt_bits, h]

theorem pick_name {w : BitVec 32} (h : (bits w 26 6).toNat = 58) : pick w = pickName w := by
  unfold pick
  simp only [fieldAt_bits, h]

theorem pick_vml {w : BitVec 32} (h : (bits w 26 6).toNat = 59) : pick w = pickVml w := by
  unfold pick
  simp only [fieldAt_bits, h]

theorem pick_seq {w : BitVec 32} (h : (bits w 26 6).toNat = 60) : pick w = pickSeq w := by
  unfold pick
  simp only [fieldAt_bits, h]

theorem pick_legacy {w : BitVec 32} (h : (bits w 26 6).toNat = 61) : pick w = pickLegacy w := by
  unfold pick
  simp only [fieldAt_bits, h]

theorem Encoding.trap : ∀ code, Encoding.Statement (.trap code) := fun code => encoding_of_pick rfl (by
  rw [pick_sys (by simp (disch := decide) only [packS, bits_append_high, bits_all, BitVec.toNat_ofNat, Nat.reduceSub, Nat.sub_add_eq, Nat.reducePow, Nat.reduceMod])]
  simp (disch := decide) only [pickSys, packS, fieldAt_bits, bits_append_high, bits_append_low, bits_all, BitVec.toNat_ofNat, Nat.reduceSub, Nat.sub_add_eq, Nat.reduceMod, Nat.reducePow, zeros_ok, clear_append, clear_none, clear_zero, clear_false, Nat.reduceShiftRight, Nat.shiftRight_add, Nat.pow_add, Nat.reduceMul, and_self])
theorem Encoding.eret : Encoding.Statement (.eret) := encoding_of_pick rfl (by
  rw [pick_sys (by simp (disch := decide) only [packS, bits_append_high, bits_all, BitVec.toNat_ofNat, Nat.reduceSub, Nat.sub_add_eq, Nat.reducePow, Nat.reduceMod])]
  simp (disch := decide) only [pickSys, packS, fieldAt_bits, bits_append_high, bits_append_low, bits_all, BitVec.toNat_ofNat, Nat.reduceSub, Nat.sub_add_eq, Nat.reduceMod, Nat.reducePow, zeros_ok, clear_append, clear_none, clear_zero, clear_false, Nat.reduceShiftRight, Nat.shiftRight_add, Nat.pow_add, Nat.reduceMul, and_self])
theorem Encoding.brk : ∀ code, Encoding.Statement (.brk code) := fun code => encoding_of_pick rfl (by
  rw [pick_sys (by simp (disch := decide) only [packS, bits_append_high, bits_all, BitVec.toNat_ofNat, Nat.reduceSub, Nat.sub_add_eq, Nat.reducePow, Nat.reduceMod])]
  simp (disch := decide) only [pickSys, packS, fieldAt_bits, bits_append_high, bits_append_low, bits_all, BitVec.toNat_ofNat, Nat.reduceSub, Nat.sub_add_eq, Nat.reduceMod, Nat.reducePow, zeros_ok, clear_append, clear_none, clear_zero, clear_false, Nat.reduceShiftRight, Nat.shiftRight_add, Nat.pow_add, Nat.reduceMul, and_self])
theorem Encoding.halt : Encoding.Statement (.halt) := encoding_of_pick rfl (by
  rw [pick_sys (by simp (disch := decide) only [packS, bits_append_high, bits_all, BitVec.toNat_ofNat, Nat.reduceSub, Nat.sub_add_eq, Nat.reducePow, Nat.reduceMod])]
  simp (disch := decide) only [pickSys, packS, fieldAt_bits, bits_append_high, bits_append_low, bits_all, BitVec.toNat_ofNat, Nat.reduceSub, Nat.sub_add_eq, Nat.reduceMod, Nat.reducePow, zeros_ok, clear_append, clear_none, clear_zero, clear_false, Nat.reduceShiftRight, Nat.shiftRight_add, Nat.pow_add, Nat.reduceMul, and_self])
theorem Encoding.crd : ∀ rd cr, Encoding.Statement (.crd rd cr) := fun rd cr => encoding_of_pick rfl (by
  rw [pick_sys (by simp (disch := decide) only [packS, bits_append_high, bits_all, BitVec.toNat_ofNat, Nat.reduceSub, Nat.sub_add_eq, Nat.reducePow, Nat.reduceMod])]
  simp (disch := decide) only [pickSys, packS, fieldAt_bits, bits_append_high, bits_append_low, bits_all, BitVec.toNat_ofNat, Nat.reduceSub, Nat.sub_add_eq, Nat.reduceMod, Nat.reducePow, zeros_ok, clear_append, clear_none, clear_zero, clear_false, Nat.reduceShiftRight, Nat.shiftRight_add, Nat.pow_add, Nat.reduceMul, and_self])
theorem Encoding.cwr : ∀ ra cr, Encoding.Statement (.cwr ra cr) := fun ra cr => encoding_of_pick rfl (by
  rw [pick_sys (by simp (disch := decide) only [packS, bits_append_high, bits_all, BitVec.toNat_ofNat, Nat.reduceSub, Nat.sub_add_eq, Nat.reducePow, Nat.reduceMod])]
  simp (disch := decide) only [pickSys, packS, fieldAt_bits, bits_append_high, bits_append_low, bits_all, BitVec.toNat_ofNat, Nat.reduceSub, Nat.sub_add_eq, Nat.reduceMod, Nat.reducePow, zeros_ok, clear_append, clear_none, clear_zero, clear_false, Nat.reduceShiftRight, Nat.shiftRight_add, Nat.pow_add, Nat.reduceMul, and_self])
theorem Encoding.crs : ∀ rd ra cr, Encoding.Statement (.crs rd ra cr) := fun rd ra cr => encoding_of_pick rfl (by
  rw [pick_sys (by simp (disch := decide) only [packS, bits_append_high, bits_all, BitVec.toNat_ofNat, Nat.reduceSub, Nat.sub_add_eq, Nat.reducePow, Nat.reduceMod])]
  simp (disch := decide) only [pickSys, packS, fieldAt_bits, bits_append_high, bits_append_low, bits_all, BitVec.toNat_ofNat, Nat.reduceSub, Nat.sub_add_eq, Nat.reduceMod, Nat.reducePow])
theorem Encoding.crc : ∀ rd ra cr, Encoding.Statement (.crc rd ra cr) := fun rd ra cr => encoding_of_pick rfl (by
  rw [pick_sys (by simp (disch := decide) only [packS, bits_append_high, bits_all, BitVec.toNat_ofNat, Nat.reduceSub, Nat.sub_add_eq, Nat.reducePow, Nat.reduceMod])]
  simp (disch := decide) only [pickSys, packS, fieldAt_bits, bits_append_high, bits_append_low, bits_all, BitVec.toNat_ofNat, Nat.reduceSub, Nat.sub_add_eq, Nat.reduceMod, Nat.reducePow])
theorem Encoding.uloop : ∀ h, Encoding.Statement (.uloop h) := fun h => encoding_of_pick rfl (by
  rw [pick_sys (by simp (disch := decide) only [packS, bits_append_high, bits_all, BitVec.toNat_ofNat, Nat.reduceSub, Nat.sub_add_eq, Nat.reducePow, Nat.reduceMod])]
  simp (disch := decide) only [pickSys, packS, fieldAt_bits, bits_append_high, bits_append_low, bits_all, BitVec.toNat_ofNat, Nat.reduceSub, Nat.sub_add_eq, Nat.reduceMod, Nat.reducePow, zeros_ok, clear_append, clear_none, clear_zero, clear_false, Nat.reduceShiftRight, Nat.shiftRight_add, Nat.pow_add, Nat.reduceMul, and_self])
theorem Encoding.ecls : ∀ n, Encoding.Statement (.ecls n) := fun n => encoding_of_pick rfl (by
  rw [pick_sys (by simp (disch := decide) only [packS, bits_append_high, bits_all, BitVec.toNat_ofNat, Nat.reduceSub, Nat.sub_add_eq, Nat.reducePow, Nat.reduceMod])]
  simp (disch := decide) only [pickSys, packS, fieldAt_bits, bits_append_high, bits_append_low, bits_all, BitVec.toNat_ofNat, Nat.reduceSub, Nat.sub_add_eq, Nat.reduceMod, Nat.reducePow, zeros_ok, clear_append, clear_none, clear_zero, clear_false, Nat.reduceShiftRight, Nat.shiftRight_add, Nat.pow_add, Nat.reduceMul, and_self])
theorem Encoding.nop : Encoding.Statement (.nop) := encoding_of_pick rfl (by
  rw [pick_sys (by simp (disch := decide) only [packS, bits_append_high, bits_all, BitVec.toNat_ofNat, Nat.reduceSub, Nat.sub_add_eq, Nat.reducePow, Nat.reduceMod])]
  simp (disch := decide) only [pickSys, packS, fieldAt_bits, bits_append_high, bits_append_low, bits_all, BitVec.toNat_ofNat, Nat.reduceSub, Nat.sub_add_eq, Nat.reduceMod, Nat.reducePow, zeros_ok, clear_append, clear_none, clear_zero, clear_false, Nat.reduceShiftRight, Nat.shiftRight_add, Nat.pow_add, Nat.reduceMul, and_self])
theorem Encoding.add : ∀ rd ra rb, Encoding.Statement (.add rd ra rb) := fun rd ra rb => encoding_of_pick rfl (by
  rw [pick_alu (by simp (disch := decide) only [packA, bits_append_high, bits_all, BitVec.toNat_ofNat, Nat.reduceSub, Nat.sub_add_eq, Nat.reducePow, Nat.reduceMod])]
  simp (disch := decide) only [pickAlu, packA, fieldAt_bits, bits_append_high, bits_append_low, bits_all, BitVec.toNat_ofNat, Nat.reduceSub, Nat.sub_add_eq, Nat.reduceMod, Nat.reducePow])
theorem Encoding.sub : ∀ rd ra rb, Encoding.Statement (.sub rd ra rb) := fun rd ra rb => encoding_of_pick rfl (by
  rw [pick_alu (by simp (disch := decide) only [packA, bits_append_high, bits_all, BitVec.toNat_ofNat, Nat.reduceSub, Nat.sub_add_eq, Nat.reducePow, Nat.reduceMod])]
  simp (disch := decide) only [pickAlu, packA, fieldAt_bits, bits_append_high, bits_append_low, bits_all, BitVec.toNat_ofNat, Nat.reduceSub, Nat.sub_add_eq, Nat.reduceMod, Nat.reducePow])
theorem Encoding.and : ∀ rd ra rb, Encoding.Statement (.and rd ra rb) := fun rd ra rb => encoding_of_pick rfl (by
  rw [pick_alu (by simp (disch := decide) only [packA, bits_append_high, bits_all, BitVec.toNat_ofNat, Nat.reduceSub, Nat.sub_add_eq, Nat.reducePow, Nat.reduceMod])]
  simp (disch := decide) only [pickAlu, packA, fieldAt_bits, bits_append_high, bits_append_low, bits_all, BitVec.toNat_ofNat, Nat.reduceSub, Nat.sub_add_eq, Nat.reduceMod, Nat.reducePow])
theorem Encoding.or : ∀ rd ra rb, Encoding.Statement (.or rd ra rb) := fun rd ra rb => encoding_of_pick rfl (by
  rw [pick_alu (by simp (disch := decide) only [packA, bits_append_high, bits_all, BitVec.toNat_ofNat, Nat.reduceSub, Nat.sub_add_eq, Nat.reducePow, Nat.reduceMod])]
  simp (disch := decide) only [pickAlu, packA, fieldAt_bits, bits_append_high, bits_append_low, bits_all, BitVec.toNat_ofNat, Nat.reduceSub, Nat.sub_add_eq, Nat.reduceMod, Nat.reducePow])
theorem Encoding.xor : ∀ rd ra rb, Encoding.Statement (.xor rd ra rb) := fun rd ra rb => encoding_of_pick rfl (by
  rw [pick_alu (by simp (disch := decide) only [packA, bits_append_high, bits_all, BitVec.toNat_ofNat, Nat.reduceSub, Nat.sub_add_eq, Nat.reducePow, Nat.reduceMod])]
  simp (disch := decide) only [pickAlu, packA, fieldAt_bits, bits_append_high, bits_append_low, bits_all, BitVec.toNat_ofNat, Nat.reduceSub, Nat.sub_add_eq, Nat.reduceMod, Nat.reducePow])
theorem Encoding.andn : ∀ rd ra rb, Encoding.Statement (.andn rd ra rb) := fun rd ra rb => encoding_of_pick rfl (by
  rw [pick_alu (by simp (disch := decide) only [packA, bits_append_high, bits_all, BitVec.toNat_ofNat, Nat.reduceSub, Nat.sub_add_eq, Nat.reducePow, Nat.reduceMod])]
  simp (disch := decide) only [pickAlu, packA, fieldAt_bits, bits_append_high, bits_append_low, bits_all, BitVec.toNat_ofNat, Nat.reduceSub, Nat.sub_add_eq, Nat.reduceMod, Nat.reducePow])
theorem Encoding.sll : ∀ rd ra rb, Encoding.Statement (.sll rd ra rb) := fun rd ra rb => encoding_of_pick rfl (by
  rw [pick_alu (by simp (disch := decide) only [packA, bits_append_high, bits_all, BitVec.toNat_ofNat, Nat.reduceSub, Nat.sub_add_eq, Nat.reducePow, Nat.reduceMod])]
  simp (disch := decide) only [pickAlu, packA, fieldAt_bits, bits_append_high, bits_append_low, bits_all, BitVec.toNat_ofNat, Nat.reduceSub, Nat.sub_add_eq, Nat.reduceMod, Nat.reducePow])
theorem Encoding.srl : ∀ rd ra rb, Encoding.Statement (.srl rd ra rb) := fun rd ra rb => encoding_of_pick rfl (by
  rw [pick_alu (by simp (disch := decide) only [packA, bits_append_high, bits_all, BitVec.toNat_ofNat, Nat.reduceSub, Nat.sub_add_eq, Nat.reducePow, Nat.reduceMod])]
  simp (disch := decide) only [pickAlu, packA, fieldAt_bits, bits_append_high, bits_append_low, bits_all, BitVec.toNat_ofNat, Nat.reduceSub, Nat.sub_add_eq, Nat.reduceMod, Nat.reducePow])
theorem Encoding.sra : ∀ rd ra rb, Encoding.Statement (.sra rd ra rb) := fun rd ra rb => encoding_of_pick rfl (by
  rw [pick_alu (by simp (disch := decide) only [packA, bits_append_high, bits_all, BitVec.toNat_ofNat, Nat.reduceSub, Nat.sub_add_eq, Nat.reducePow, Nat.reduceMod])]
  simp (disch := decide) only [pickAlu, packA, fieldAt_bits, bits_append_high, bits_append_low, bits_all, BitVec.toNat_ofNat, Nat.reduceSub, Nat.sub_add_eq, Nat.reduceMod, Nat.reducePow])
theorem Encoding.slt : ∀ rd ra rb, Encoding.Statement (.slt rd ra rb) := fun rd ra rb => encoding_of_pick rfl (by
  rw [pick_alu (by simp (disch := decide) only [packA, bits_append_high, bits_all, BitVec.toNat_ofNat, Nat.reduceSub, Nat.sub_add_eq, Nat.reducePow, Nat.reduceMod])]
  simp (disch := decide) only [pickAlu, packA, fieldAt_bits, bits_append_high, bits_append_low, bits_all, BitVec.toNat_ofNat, Nat.reduceSub, Nat.sub_add_eq, Nat.reduceMod, Nat.reducePow])
theorem Encoding.sltu : ∀ rd ra rb, Encoding.Statement (.sltu rd ra rb) := fun rd ra rb => encoding_of_pick rfl (by
  rw [pick_alu (by simp (disch := decide) only [packA, bits_append_high, bits_all, BitVec.toNat_ofNat, Nat.reduceSub, Nat.sub_add_eq, Nat.reducePow, Nat.reduceMod])]
  simp (disch := decide) only [pickAlu, packA, fieldAt_bits, bits_append_high, bits_append_low, bits_all, BitVec.toNat_ofNat, Nat.reduceSub, Nat.sub_add_eq, Nat.reduceMod, Nat.reducePow])
theorem Encoding.min : ∀ rd ra rb, Encoding.Statement (.min rd ra rb) := fun rd ra rb => encoding_of_pick rfl (by
  rw [pick_alu (by simp (disch := decide) only [packA, bits_append_high, bits_all, BitVec.toNat_ofNat, Nat.reduceSub, Nat.sub_add_eq, Nat.reducePow, Nat.reduceMod])]
  simp (disch := decide) only [pickAlu, packA, fieldAt_bits, bits_append_high, bits_append_low, bits_all, BitVec.toNat_ofNat, Nat.reduceSub, Nat.sub_add_eq, Nat.reduceMod, Nat.reducePow])
theorem Encoding.max : ∀ rd ra rb, Encoding.Statement (.max rd ra rb) := fun rd ra rb => encoding_of_pick rfl (by
  rw [pick_alu (by simp (disch := decide) only [packA, bits_append_high, bits_all, BitVec.toNat_ofNat, Nat.reduceSub, Nat.sub_add_eq, Nat.reducePow, Nat.reduceMod])]
  simp (disch := decide) only [pickAlu, packA, fieldAt_bits, bits_append_high, bits_append_low, bits_all, BitVec.toNat_ofNat, Nat.reduceSub, Nat.sub_add_eq, Nat.reduceMod, Nat.reducePow])
theorem Encoding.minu : ∀ rd ra rb, Encoding.Statement (.minu rd ra rb) := fun rd ra rb => encoding_of_pick rfl (by
  rw [pick_alu (by simp (disch := decide) only [packA, bits_append_high, bits_all, BitVec.toNat_ofNat, Nat.reduceSub, Nat.sub_add_eq, Nat.reducePow, Nat.reduceMod])]
  simp (disch := decide) only [pickAlu, packA, fieldAt_bits, bits_append_high, bits_append_low, bits_all, BitVec.toNat_ofNat, Nat.reduceSub, Nat.sub_add_eq, Nat.reduceMod, Nat.reducePow])
theorem Encoding.maxu : ∀ rd ra rb, Encoding.Statement (.maxu rd ra rb) := fun rd ra rb => encoding_of_pick rfl (by
  rw [pick_alu (by simp (disch := decide) only [packA, bits_append_high, bits_all, BitVec.toNat_ofNat, Nat.reduceSub, Nat.sub_add_eq, Nat.reducePow, Nat.reduceMod])]
  simp (disch := decide) only [pickAlu, packA, fieldAt_bits, bits_append_high, bits_append_low, bits_all, BitVec.toNat_ofNat, Nat.reduceSub, Nat.sub_add_eq, Nat.reduceMod, Nat.reducePow])
theorem Encoding.mul : ∀ rd ra rb, Encoding.Statement (.mul rd ra rb) := fun rd ra rb => encoding_of_pick rfl (by
  rw [pick_alu (by simp (disch := decide) only [packA, bits_append_high, bits_all, BitVec.toNat_ofNat, Nat.reduceSub, Nat.sub_add_eq, Nat.reducePow, Nat.reduceMod])]
  simp (disch := decide) only [pickAlu, packA, fieldAt_bits, bits_append_high, bits_append_low, bits_all, BitVec.toNat_ofNat, Nat.reduceSub, Nat.sub_add_eq, Nat.reduceMod, Nat.reducePow])
theorem Encoding.mulh : ∀ rd ra rb, Encoding.Statement (.mulh rd ra rb) := fun rd ra rb => encoding_of_pick rfl (by
  rw [pick_alu (by simp (disch := decide) only [packA, bits_append_high, bits_all, BitVec.toNat_ofNat, Nat.reduceSub, Nat.sub_add_eq, Nat.reducePow, Nat.reduceMod])]
  simp (disch := decide) only [pickAlu, packA, fieldAt_bits, bits_append_high, bits_append_low, bits_all, BitVec.toNat_ofNat, Nat.reduceSub, Nat.sub_add_eq, Nat.reduceMod, Nat.reducePow])
theorem Encoding.mulhu : ∀ rd ra rb, Encoding.Statement (.mulhu rd ra rb) := fun rd ra rb => encoding_of_pick rfl (by
  rw [pick_alu (by simp (disch := decide) only [packA, bits_append_high, bits_all, BitVec.toNat_ofNat, Nat.reduceSub, Nat.sub_add_eq, Nat.reducePow, Nat.reduceMod])]
  simp (disch := decide) only [pickAlu, packA, fieldAt_bits, bits_append_high, bits_append_low, bits_all, BitVec.toNat_ofNat, Nat.reduceSub, Nat.sub_add_eq, Nat.reduceMod, Nat.reducePow])
theorem Encoding.div : ∀ rd ra rb, Encoding.Statement (.div rd ra rb) := fun rd ra rb => encoding_of_pick rfl (by
  rw [pick_alu (by simp (disch := decide) only [packA, bits_append_high, bits_all, BitVec.toNat_ofNat, Nat.reduceSub, Nat.sub_add_eq, Nat.reducePow, Nat.reduceMod])]
  simp (disch := decide) only [pickAlu, packA, fieldAt_bits, bits_append_high, bits_append_low, bits_all, BitVec.toNat_ofNat, Nat.reduceSub, Nat.sub_add_eq, Nat.reduceMod, Nat.reducePow])
theorem Encoding.divu : ∀ rd ra rb, Encoding.Statement (.divu rd ra rb) := fun rd ra rb => encoding_of_pick rfl (by
  rw [pick_alu (by simp (disch := decide) only [packA, bits_append_high, bits_all, BitVec.toNat_ofNat, Nat.reduceSub, Nat.sub_add_eq, Nat.reducePow, Nat.reduceMod])]
  simp (disch := decide) only [pickAlu, packA, fieldAt_bits, bits_append_high, bits_append_low, bits_all, BitVec.toNat_ofNat, Nat.reduceSub, Nat.sub_add_eq, Nat.reduceMod, Nat.reducePow])
theorem Encoding.rem : ∀ rd ra rb, Encoding.Statement (.rem rd ra rb) := fun rd ra rb => encoding_of_pick rfl (by
  rw [pick_alu (by simp (disch := decide) only [packA, bits_append_high, bits_all, BitVec.toNat_ofNat, Nat.reduceSub, Nat.sub_add_eq, Nat.reducePow, Nat.reduceMod])]
  simp (disch := decide) only [pickAlu, packA, fieldAt_bits, bits_append_high, bits_append_low, bits_all, BitVec.toNat_ofNat, Nat.reduceSub, Nat.sub_add_eq, Nat.reduceMod, Nat.reducePow])
theorem Encoding.remu : ∀ rd ra rb, Encoding.Statement (.remu rd ra rb) := fun rd ra rb => encoding_of_pick rfl (by
  rw [pick_alu (by simp (disch := decide) only [packA, bits_append_high, bits_all, BitVec.toNat_ofNat, Nat.reduceSub, Nat.sub_add_eq, Nat.reducePow, Nat.reduceMod])]
  simp (disch := decide) only [pickAlu, packA, fieldAt_bits, bits_append_high, bits_append_low, bits_all, BitVec.toNat_ofNat, Nat.reduceSub, Nat.sub_add_eq, Nat.reduceMod, Nat.reducePow])
theorem Encoding.clz : ∀ rd ra, Encoding.Statement (.clz rd ra) := fun rd ra => encoding_of_pick rfl (by
  rw [pick_alu (by simp (disch := decide) only [packA, bits_append_high, bits_all, BitVec.toNat_ofNat, Nat.reduceSub, Nat.sub_add_eq, Nat.reducePow, Nat.reduceMod])]
  simp (disch := decide) only [pickAlu, packA, fieldAt_bits, bits_append_high, bits_append_low, bits_all, BitVec.toNat_ofNat, Nat.reduceSub, Nat.sub_add_eq, Nat.reduceMod, Nat.reducePow, zeros_ok, clear_append, clear_none, clear_zero, clear_false, Nat.reduceShiftRight, Nat.shiftRight_add, Nat.pow_add, Nat.reduceMul, and_self])
theorem Encoding.ctz : ∀ rd ra, Encoding.Statement (.ctz rd ra) := fun rd ra => encoding_of_pick rfl (by
  rw [pick_alu (by simp (disch := decide) only [packA, bits_append_high, bits_all, BitVec.toNat_ofNat, Nat.reduceSub, Nat.sub_add_eq, Nat.reducePow, Nat.reduceMod])]
  simp (disch := decide) only [pickAlu, packA, fieldAt_bits, bits_append_high, bits_append_low, bits_all, BitVec.toNat_ofNat, Nat.reduceSub, Nat.sub_add_eq, Nat.reduceMod, Nat.reducePow, zeros_ok, clear_append, clear_none, clear_zero, clear_false, Nat.reduceShiftRight, Nat.shiftRight_add, Nat.pow_add, Nat.reduceMul, and_self])
theorem Encoding.popc : ∀ rd ra, Encoding.Statement (.popc rd ra) := fun rd ra => encoding_of_pick rfl (by
  rw [pick_alu (by simp (disch := decide) only [packA, bits_append_high, bits_all, BitVec.toNat_ofNat, Nat.reduceSub, Nat.sub_add_eq, Nat.reducePow, Nat.reduceMod])]
  simp (disch := decide) only [pickAlu, packA, fieldAt_bits, bits_append_high, bits_append_low, bits_all, BitVec.toNat_ofNat, Nat.reduceSub, Nat.sub_add_eq, Nat.reduceMod, Nat.reducePow, zeros_ok, clear_append, clear_none, clear_zero, clear_false, Nat.reduceShiftRight, Nat.shiftRight_add, Nat.pow_add, Nat.reduceMul, and_self])
theorem Encoding.addi : ∀ rd ra imm, Encoding.Statement (.addi rd ra imm) := fun rd ra imm => encoding_of_pick rfl (by
  rw [pick_addi (by simp (disch := decide) only [packI, bits_append_high, bits_all, BitVec.toNat_ofNat, Nat.reduceSub, Nat.sub_add_eq, Nat.reducePow, Nat.reduceMod])]
  simp (disch := decide) only [packI, fieldAt_bits, bits_append_high, bits_append_low, bits_all, BitVec.toNat_ofNat, Nat.reduceSub, Nat.sub_add_eq, Nat.reduceMod, Nat.reducePow])
theorem Encoding.andi : ∀ rd ra imm, Encoding.Statement (.andi rd ra imm) := fun rd ra imm => encoding_of_pick rfl (by
  rw [pick_andi (by simp (disch := decide) only [packI, bits_append_high, bits_all, BitVec.toNat_ofNat, Nat.reduceSub, Nat.sub_add_eq, Nat.reducePow, Nat.reduceMod])]
  simp (disch := decide) only [packI, fieldAt_bits, bits_append_high, bits_append_low, bits_all, BitVec.toNat_ofNat, Nat.reduceSub, Nat.sub_add_eq, Nat.reduceMod, Nat.reducePow])
theorem Encoding.ori : ∀ rd ra imm, Encoding.Statement (.ori rd ra imm) := fun rd ra imm => encoding_of_pick rfl (by
  rw [pick_ori (by simp (disch := decide) only [packI, bits_append_high, bits_all, BitVec.toNat_ofNat, Nat.reduceSub, Nat.sub_add_eq, Nat.reducePow, Nat.reduceMod])]
  simp (disch := decide) only [packI, fieldAt_bits, bits_append_high, bits_append_low, bits_all, BitVec.toNat_ofNat, Nat.reduceSub, Nat.sub_add_eq, Nat.reduceMod, Nat.reducePow])
theorem Encoding.xori : ∀ rd ra imm, Encoding.Statement (.xori rd ra imm) := fun rd ra imm => encoding_of_pick rfl (by
  rw [pick_xori (by simp (disch := decide) only [packI, bits_append_high, bits_all, BitVec.toNat_ofNat, Nat.reduceSub, Nat.sub_add_eq, Nat.reducePow, Nat.reduceMod])]
  simp (disch := decide) only [packI, fieldAt_bits, bits_append_high, bits_append_low, bits_all, BitVec.toNat_ofNat, Nat.reduceSub, Nat.sub_add_eq, Nat.reduceMod, Nat.reducePow])
theorem Encoding.slti : ∀ rd ra imm, Encoding.Statement (.slti rd ra imm) := fun rd ra imm => encoding_of_pick rfl (by
  rw [pick_slti (by simp (disch := decide) only [packI, bits_append_high, bits_all, BitVec.toNat_ofNat, Nat.reduceSub, Nat.sub_add_eq, Nat.reducePow, Nat.reduceMod])]
  simp (disch := decide) only [packI, fieldAt_bits, bits_append_high, bits_append_low, bits_all, BitVec.toNat_ofNat, Nat.reduceSub, Nat.sub_add_eq, Nat.reduceMod, Nat.reducePow])
theorem Encoding.sltiu : ∀ rd ra imm, Encoding.Statement (.sltiu rd ra imm) := fun rd ra imm => encoding_of_pick rfl (by
  rw [pick_sltiu (by simp (disch := decide) only [packI, bits_append_high, bits_all, BitVec.toNat_ofNat, Nat.reduceSub, Nat.sub_add_eq, Nat.reducePow, Nat.reduceMod])]
  simp (disch := decide) only [packI, fieldAt_bits, bits_append_high, bits_append_low, bits_all, BitVec.toNat_ofNat, Nat.reduceSub, Nat.sub_add_eq, Nat.reduceMod, Nat.reducePow])
theorem Encoding.slli : ∀ rd ra n, Encoding.Statement (.slli rd ra n) := fun rd ra n => encoding_of_pick rfl (by
  rw [pick_shift (by simp (disch := decide) only [packI, bits_append_high, bits_all, BitVec.toNat_ofNat, Nat.reduceSub, Nat.sub_add_eq, Nat.reducePow, Nat.reduceMod])]
  simp (disch := decide) only [pickShift, packI, fieldAt_bits, bits_append_high, bits_append_low, bits_all, BitVec.toNat_ofNat, Nat.reduceSub, Nat.sub_add_eq, Nat.reduceMod, Nat.reducePow, zeros_ok, clear_append, clear_none, clear_zero, clear_false, Nat.reduceShiftRight, Nat.shiftRight_add, Nat.pow_add, Nat.reduceMul, and_self])
theorem Encoding.srli : ∀ rd ra n, Encoding.Statement (.srli rd ra n) := fun rd ra n => encoding_of_pick rfl (by
  rw [pick_shift (by simp (disch := decide) only [packI, bits_append_high, bits_all, BitVec.toNat_ofNat, Nat.reduceSub, Nat.sub_add_eq, Nat.reducePow, Nat.reduceMod])]
  simp (disch := decide) only [pickShift, packI, fieldAt_bits, bits_append_high, bits_append_low, bits_all, BitVec.toNat_ofNat, Nat.reduceSub, Nat.sub_add_eq, Nat.reduceMod, Nat.reducePow, zeros_ok, clear_append, clear_none, clear_zero, clear_false, Nat.reduceShiftRight, Nat.shiftRight_add, Nat.pow_add, Nat.reduceMul, and_self])
theorem Encoding.srai : ∀ rd ra n, Encoding.Statement (.srai rd ra n) := fun rd ra n => encoding_of_pick rfl (by
  rw [pick_shift (by simp (disch := decide) only [packI, bits_append_high, bits_all, BitVec.toNat_ofNat, Nat.reduceSub, Nat.sub_add_eq, Nat.reducePow, Nat.reduceMod])]
  simp (disch := decide) only [pickShift, packI, fieldAt_bits, bits_append_high, bits_append_low, bits_all, BitVec.toNat_ofNat, Nat.reduceSub, Nat.sub_add_eq, Nat.reduceMod, Nat.reducePow, zeros_ok, clear_append, clear_none, clear_zero, clear_false, Nat.reduceShiftRight, Nat.shiftRight_add, Nat.pow_add, Nat.reduceMul, and_self])
theorem Encoding.lins : ∀ rd slot imm, Encoding.Statement (.lins rd slot imm) := fun rd slot imm => encoding_of_pick rfl (by
  rw [pick_lins (by simp (disch := decide) only [packI, bits_append_high, bits_all, BitVec.toNat_ofNat, Nat.reduceSub, Nat.sub_add_eq, Nat.reducePow, Nat.reduceMod])]
  simp (disch := decide) only [packI, fieldAt_bits, bits_append_high, bits_append_low, bits_all, BitVec.toNat_ofNat, Nat.reduceSub, Nat.sub_add_eq, Nat.reduceMod, Nat.reducePow, zeros_ok, clear_append, clear_none, clear_zero, clear_false, Nat.reduceShiftRight, Nat.shiftRight_add, Nat.pow_add, Nat.reduceMul, and_self])
theorem Encoding.addpc : ∀ rd imm, Encoding.Statement (.addpc rd imm) := fun rd imm => encoding_of_pick rfl (by
  rw [pick_addpc (by simp (disch := decide) only [packI, bits_append_high, bits_all, BitVec.toNat_ofNat, Nat.reduceSub, Nat.sub_add_eq, Nat.reducePow, Nat.reduceMod])]
  simp (disch := decide) only [packI, fieldAt_bits, bits_append_high, bits_append_low, bits_all, BitVec.toNat_ofNat, Nat.reduceSub, Nat.sub_add_eq, Nat.reduceMod, Nat.reducePow, zeros_ok, clear_append, clear_none, clear_zero, clear_false, Nat.reduceShiftRight, Nat.shiftRight_add, Nat.pow_add, Nat.reduceMul, and_self])
theorem Encoding.ld : ∀ rd ra w off, Encoding.Statement (.ld rd ra w off) := fun rd ra w off => encoding_of_pick rfl (by
  rw [pick_ld (by simp (disch := decide) only [packL, bits_append_high, bits_all, BitVec.toNat_ofNat, Nat.reduceSub, Nat.sub_add_eq, Nat.reducePow, Nat.reduceMod])]
  simp (disch := decide) only [packL, fieldAt_bits, bits_append_high, bits_append_low, bits_all, BitVec.toNat_ofNat, Nat.reduceSub, Nat.sub_add_eq, Nat.reduceMod, Nat.reducePow])
theorem Encoding.st : ∀ rd ra w off, Encoding.Statement (.st rd ra w off) := fun rd ra w off => encoding_of_pick rfl (by
  rw [pick_st (by simp (disch := decide) only [packL, bits_append_high, bits_all, BitVec.toNat_ofNat, Nat.reduceSub, Nat.sub_add_eq, Nat.reducePow, Nat.reduceMod])]
  simp (disch := decide) only [packL, fieldAt_bits, bits_append_high, bits_append_low, bits_all, BitVec.toNat_ofNat, Nat.reduceSub, Nat.sub_add_eq, Nat.reduceMod, Nat.reducePow])
theorem Encoding.ldx : ∀ rd ra rb w, Encoding.Statement (.ldx rd ra rb w) := fun rd ra rb w => encoding_of_pick rfl (by
  rw [pick_indexed (by simp (disch := decide) only [packA, bits_append_high, bits_all, BitVec.toNat_ofNat, Nat.reduceSub, Nat.sub_add_eq, Nat.reducePow, Nat.reduceMod])]
  simp (disch := decide) only [pickIndexed, packA, fieldAt_bits, bits_append_high, bits_append_low, bits_all, BitVec.toNat_ofNat, Nat.reduceSub, Nat.sub_add_eq, Nat.reduceMod, Nat.reducePow, zeros_ok, clear_append, clear_none, clear_zero, clear_false, Nat.reduceShiftRight, Nat.shiftRight_add, Nat.pow_add, Nat.reduceMul, and_self])
theorem Encoding.stx : ∀ rd ra rb w, Encoding.Statement (.stx rd ra rb w) := fun rd ra rb w => encoding_of_pick rfl (by
  rw [pick_indexed (by simp (disch := decide) only [packA, bits_append_high, bits_all, BitVec.toNat_ofNat, Nat.reduceSub, Nat.sub_add_eq, Nat.reducePow, Nat.reduceMod])]
  simp (disch := decide) only [pickIndexed, packA, fieldAt_bits, bits_append_high, bits_append_low, bits_all, BitVec.toNat_ofNat, Nat.reduceSub, Nat.sub_add_eq, Nat.reduceMod, Nat.reducePow, zeros_ok, clear_append, clear_none, clear_zero, clear_false, Nat.reduceShiftRight, Nat.shiftRight_add, Nat.pow_add, Nat.reduceMul, and_self])
theorem Encoding.amo : ∀ f op, Encoding.Statement (.amo f op) := by
  intro f op w he hi
  cases he
  refine decode_of_pick ?_ hi
  have hop : op.toNat ≤ 9 := by
    simp only [Instr.wf, Bool.and_eq_true, decide_eq_true_eq] at hi
    exact hi.1.2
  rw [pick_atomic (by simp (disch := decide) only [packA, bits_append_high, bits_all, BitVec.toNat_ofNat, Nat.reduceSub, Nat.sub_add_eq, Nat.reducePow, Nat.reduceMod])]
  simp (disch := decide) only [pickAtomic, packA, fieldAt_bits, flagAt_bit, bits_append_high, bits_append_low,
    bits_all, bit_append_high, bit_append_low, bit_ofBit, BitVec.toNat_ofNat, Nat.reduceSub, Nat.sub_add_eq, Nat.reduceMod,
    Nat.reducePow]
  split
  next h => omega
  next =>
    simp (disch := decide) only [zeros_ok, clear_append, clear_none, clear_zero, Nat.reduceShiftRight, Nat.shiftRight_add,
      Nat.pow_add, Nat.reduceMul, Nat.reduceMod, Nat.reducePow, and_self]
theorem Encoding.cas : ∀ f, Encoding.Statement (.cas f) := fun f => encoding_of_pick rfl (by
  rw [pick_atomic (by simp (disch := decide) only [packA, bits_append_high, bits_all, BitVec.toNat_ofNat, Nat.reduceSub, Nat.sub_add_eq, Nat.reducePow, Nat.reduceMod])]
  simp (disch := decide) only [pickAtomic, packA, fieldAt_bits, bits_append_high, bits_append_low, bits_all, BitVec.toNat_ofNat, Nat.reduceSub, Nat.sub_add_eq, Nat.reduceMod, Nat.reducePow, flagAt_bit, bit_append_high, bit_append_low, bit_ofBit, zeros_ok, clear_append, clear_none, clear_zero, clear_false, Nat.reduceShiftRight, Nat.shiftRight_add, Nat.pow_add, Nat.reduceMul, and_self])
theorem Encoding.waddr : ∀ rd ra rb, Encoding.Statement (.waddr rd ra rb) := fun rd ra rb => encoding_of_pick rfl (by
  rw [pick_wait (by simp (disch := decide) only [packA, bits_append_high, bits_all, BitVec.toNat_ofNat, Nat.reduceSub, Nat.sub_add_eq, Nat.reducePow, Nat.reduceMod])]
  simp (disch := decide) only [pickWait, packA, fieldAt_bits, bits_append_high, bits_append_low, bits_all, BitVec.toNat_ofNat, Nat.reduceSub, Nat.sub_add_eq, Nat.reduceMod, Nat.reducePow, zeros_ok, clear_append, clear_none, clear_zero, clear_false, Nat.reduceShiftRight, Nat.shiftRight_add, Nat.pow_add, Nat.reduceMul, and_self, bits_ofNat, clear_one])
theorem Encoding.wake : ∀ rd ra rb, Encoding.Statement (.wake rd ra rb) := fun rd ra rb => encoding_of_pick rfl (by
  rw [pick_wait (by simp (disch := decide) only [packA, bits_append_high, bits_all, BitVec.toNat_ofNat, Nat.reduceSub, Nat.sub_add_eq, Nat.reducePow, Nat.reduceMod])]
  simp (disch := decide) only [pickWait, packA, fieldAt_bits, bits_append_high, bits_append_low, bits_all, BitVec.toNat_ofNat, Nat.reduceSub, Nat.sub_add_eq, Nat.reduceMod, Nat.reducePow, zeros_ok, clear_append, clear_none, clear_zero, clear_false, Nat.reduceShiftRight, Nat.shiftRight_add, Nat.pow_add, Nat.reduceMul, and_self, bits_ofNat, clear_one])
theorem Encoding.beq : ∀ ra rb n off, Encoding.Statement (.beq ra rb n off) := fun ra rb n off => encoding_of_pick rfl (by
  rw [pick_beq (by simp (disch := decide) only [packB, bits_append_high, bits_all, BitVec.toNat_ofNat, Nat.reduceSub, Nat.sub_add_eq, Nat.reducePow, Nat.reduceMod])]
  simp (disch := decide) only [packB, fieldAt_bits, bits_append_high, bits_append_low, bits_all, BitVec.toNat_ofNat, Nat.reduceSub, Nat.sub_add_eq, Nat.reduceMod, Nat.reducePow, flagAt_bit, bit_append_high, bit_append_low, bit_ofBit])
theorem Encoding.bne : ∀ ra rb n off, Encoding.Statement (.bne ra rb n off) := fun ra rb n off => encoding_of_pick rfl (by
  rw [pick_bne (by simp (disch := decide) only [packB, bits_append_high, bits_all, BitVec.toNat_ofNat, Nat.reduceSub, Nat.sub_add_eq, Nat.reducePow, Nat.reduceMod])]
  simp (disch := decide) only [packB, fieldAt_bits, bits_append_high, bits_append_low, bits_all, BitVec.toNat_ofNat, Nat.reduceSub, Nat.sub_add_eq, Nat.reduceMod, Nat.reducePow, flagAt_bit, bit_append_high, bit_append_low, bit_ofBit])
theorem Encoding.blt : ∀ ra rb n off, Encoding.Statement (.blt ra rb n off) := fun ra rb n off => encoding_of_pick rfl (by
  rw [pick_blt (by simp (disch := decide) only [packB, bits_append_high, bits_all, BitVec.toNat_ofNat, Nat.reduceSub, Nat.sub_add_eq, Nat.reducePow, Nat.reduceMod])]
  simp (disch := decide) only [packB, fieldAt_bits, bits_append_high, bits_append_low, bits_all, BitVec.toNat_ofNat, Nat.reduceSub, Nat.sub_add_eq, Nat.reduceMod, Nat.reducePow, flagAt_bit, bit_append_high, bit_append_low, bit_ofBit])
theorem Encoding.bge : ∀ ra rb n off, Encoding.Statement (.bge ra rb n off) := fun ra rb n off => encoding_of_pick rfl (by
  rw [pick_bge (by simp (disch := decide) only [packB, bits_append_high, bits_all, BitVec.toNat_ofNat, Nat.reduceSub, Nat.sub_add_eq, Nat.reducePow, Nat.reduceMod])]
  simp (disch := decide) only [packB, fieldAt_bits, bits_append_high, bits_append_low, bits_all, BitVec.toNat_ofNat, Nat.reduceSub, Nat.sub_add_eq, Nat.reduceMod, Nat.reducePow, flagAt_bit, bit_append_high, bit_append_low, bit_ofBit])
theorem Encoding.bltu : ∀ ra rb n off, Encoding.Statement (.bltu ra rb n off) := fun ra rb n off => encoding_of_pick rfl (by
  rw [pick_bltu (by simp (disch := decide) only [packB, bits_append_high, bits_all, BitVec.toNat_ofNat, Nat.reduceSub, Nat.sub_add_eq, Nat.reducePow, Nat.reduceMod])]
  simp (disch := decide) only [packB, fieldAt_bits, bits_append_high, bits_append_low, bits_all, BitVec.toNat_ofNat, Nat.reduceSub, Nat.sub_add_eq, Nat.reduceMod, Nat.reducePow, flagAt_bit, bit_append_high, bit_append_low, bit_ofBit])
theorem Encoding.bgeu : ∀ ra rb n off, Encoding.Statement (.bgeu ra rb n off) := fun ra rb n off => encoding_of_pick rfl (by
  rw [pick_bgeu (by simp (disch := decide) only [packB, bits_append_high, bits_all, BitVec.toNat_ofNat, Nat.reduceSub, Nat.sub_add_eq, Nat.reducePow, Nat.reduceMod])]
  simp (disch := decide) only [packB, fieldAt_bits, bits_append_high, bits_append_low, bits_all, BitVec.toNat_ofNat, Nat.reduceSub, Nat.sub_add_eq, Nat.reduceMod, Nat.reducePow, flagAt_bit, bit_append_high, bit_append_low, bit_ofBit])
theorem Encoding.j : ∀ off, Encoding.Statement (.j off) := fun off => encoding_of_pick rfl (by
  rw [pick_j (by simp (disch := decide) only [packJ, bits_append_high, bits_all, BitVec.toNat_ofNat, Nat.reduceSub, Nat.sub_add_eq, Nat.reducePow, Nat.reduceMod])]
  simp (disch := decide) only [packJ, fieldAt_bits, bits_append_high, bits_append_low, bits_all, BitVec.toNat_ofNat, Nat.reduceSub, Nat.sub_add_eq, Nat.reduceMod, Nat.reducePow])
theorem Encoding.jal : ∀ off, Encoding.Statement (.jal off) := fun off => encoding_of_pick rfl (by
  rw [pick_jal (by simp (disch := decide) only [packJ, bits_append_high, bits_all, BitVec.toNat_ofNat, Nat.reduceSub, Nat.sub_add_eq, Nat.reducePow, Nat.reduceMod])]
  simp (disch := decide) only [packJ, fieldAt_bits, bits_append_high, bits_append_low, bits_all, BitVec.toNat_ofNat, Nat.reduceSub, Nat.sub_add_eq, Nat.reduceMod, Nat.reducePow])
theorem Encoding.jr : ∀ ra, Encoding.Statement (.jr ra) := fun ra => encoding_of_pick rfl (by
  rw [pick_jump (by simp (disch := decide) only [packA, bits_append_high, bits_all, BitVec.toNat_ofNat, Nat.reduceSub, Nat.sub_add_eq, Nat.reducePow, Nat.reduceMod])]
  simp (disch := decide) only [pickJump, packA, fieldAt_bits, bits_append_high, bits_append_low, bits_all, BitVec.toNat_ofNat, Nat.reduceSub, Nat.sub_add_eq, Nat.reduceMod, Nat.reducePow, zeros_ok, clear_append, clear_none, clear_zero, clear_false, Nat.reduceShiftRight, Nat.shiftRight_add, Nat.pow_add, Nat.reduceMul, and_self])
theorem Encoding.jalr : ∀ rd ra, Encoding.Statement (.jalr rd ra) := fun rd ra => encoding_of_pick rfl (by
  rw [pick_jump (by simp (disch := decide) only [packA, bits_append_high, bits_all, BitVec.toNat_ofNat, Nat.reduceSub, Nat.sub_add_eq, Nat.reducePow, Nat.reduceMod])]
  simp (disch := decide) only [pickJump, packA, fieldAt_bits, bits_append_high, bits_append_low, bits_all, BitVec.toNat_ofNat, Nat.reduceSub, Nat.sub_add_eq, Nat.reduceMod, Nat.reducePow, zeros_ok, clear_append, clear_none, clear_zero, clear_false, Nat.reduceShiftRight, Nat.shiftRight_add, Nat.pow_add, Nat.reduceMul, and_self])
theorem Encoding.smine : ∀ rc pm row n off, Encoding.Statement (.smine rc pm row n off) := fun rc pm row n off => encoding_of_pick rfl (by
  rw [pick_smine (by simp (disch := decide) only [packSM, bits_append_high, bits_all, BitVec.toNat_ofNat, Nat.reduceSub, Nat.sub_add_eq, Nat.reducePow, Nat.reduceMod])]
  simp (disch := decide) only [packSM, fieldAt_bits, bits_append_high, bits_append_low, bits_all, BitVec.toNat_ofNat, Nat.reduceSub, Nat.sub_add_eq, Nat.reduceMod, Nat.reducePow, flagAt_bit, bit_append_high, bit_append_low, bit_ofBit])
theorem Encoding.ubrk : ∀ k off, Encoding.Statement (.ubrk k off) := fun k off => encoding_of_pick rfl (by
  rw [pick_ubrk (by simp (disch := decide) only [packVB, bits_append_high, bits_all, BitVec.toNat_ofNat, Nat.reduceSub, Nat.sub_add_eq, Nat.reducePow, Nat.reduceMod])]
  simp (disch := decide) only [packVB, fieldAt_bits, bits_append_high, bits_append_low, bits_all, BitVec.toNat_ofNat, Nat.reduceSub, Nat.sub_add_eq, Nat.reduceMod, Nat.reducePow, zeros_ok, clear_append, clear_none, clear_zero, clear_false, Nat.reduceShiftRight, Nat.shiftRight_add, Nat.pow_add, Nat.reduceMul, and_self])
theorem Encoding.vbx : ∀ k c n off, Encoding.Statement (.vbx k c n off) := fun k c n off => encoding_of_pick rfl (by
  rw [pick_vbx (by simp (disch := decide) only [packVB, bits_append_high, bits_all, BitVec.toNat_ofNat, Nat.reduceSub, Nat.sub_add_eq, Nat.reducePow, Nat.reduceMod])]
  simp (disch := decide) only [packVB, fieldAt_bits, bits_append_high, bits_append_low, bits_all, BitVec.toNat_ofNat, Nat.reduceSub, Nat.sub_add_eq, Nat.reduceMod, Nat.reducePow, flagAt_bit, bit_append_high, bit_append_low, bit_ofBit, zeros_ok, clear_append, clear_none, clear_zero, clear_false, Nat.reduceShiftRight, Nat.shiftRight_add, Nat.pow_add, Nat.reduceMul, and_self])
theorem Encoding.rpt : ∀ cnt reps sd sa sb, Encoding.Statement (.rpt cnt reps sd sa sb) := fun cnt reps sd sa sb => encoding_of_pick rfl (by
  rw [pick_rpt (by simp (disch := decide) only [packRP, bits_append_high, bits_all, BitVec.toNat_ofNat, Nat.reduceSub, Nat.sub_add_eq, Nat.reducePow, Nat.reduceMod])]
  simp (disch := decide) only [packRP, fieldAt_bits, bits_append_high, bits_append_low, bits_all, BitVec.toNat_ofNat, Nat.reduceSub, Nat.sub_add_eq, Nat.reduceMod, Nat.reducePow, zeros_ok, clear_append, clear_none, clear_zero, clear_false, Nat.reduceShiftRight, Nat.shiftRight_add, Nat.pow_add, Nat.reduceMul, and_self])
theorem Encoding.vshape : ∀ rd ra rb ew, Encoding.Statement (.vshape rd ra rb ew) := fun rd ra rb ew => encoding_of_pick rfl (by
  rw [pick_shape (by simp (disch := decide) only [packA, bits_append_high, bits_all, BitVec.toNat_ofNat, Nat.reduceSub, Nat.sub_add_eq, Nat.reducePow, Nat.reduceMod])]
  simp (disch := decide) only [pickShape, packA, fieldAt_bits, bits_append_high, bits_append_low, bits_all, BitVec.toNat_ofNat, Nat.reduceSub, Nat.sub_add_eq, Nat.reduceMod, Nat.reducePow, zeros_ok, clear_append, clear_none, clear_zero, clear_false, Nat.reduceShiftRight, Nat.shiftRight_add, Nat.pow_add, Nat.reduceMul, and_self])
theorem Encoding.vcfg : ∀ ra, Encoding.Statement (.vcfg ra) := fun ra => encoding_of_pick rfl (by
  rw [pick_shape (by simp (disch := decide) only [packA, bits_append_high, bits_all, BitVec.toNat_ofNat, Nat.reduceSub, Nat.sub_add_eq, Nat.reducePow, Nat.reduceMod])]
  simp (disch := decide) only [pickShape, packA, fieldAt_bits, bits_append_high, bits_append_low, bits_all, BitVec.toNat_ofNat, Nat.reduceSub, Nat.sub_add_eq, Nat.reduceMod, Nat.reducePow, zeros_ok, clear_append, clear_none, clear_zero, clear_false, Nat.reduceShiftRight, Nat.shiftRight_add, Nat.pow_add, Nat.reduceMul, and_self, bits_ofNat, clear_one])
theorem Encoding.klen : ∀ kd ra ew, Encoding.Statement (.klen kd ra ew) := fun kd ra ew => encoding_of_pick rfl (by
  rw [pick_shape (by simp (disch := decide) only [packA, bits_append_high, bits_all, BitVec.toNat_ofNat, Nat.reduceSub, Nat.sub_add_eq, Nat.reducePow, Nat.reduceMod])]
  simp (disch := decide) only [pickShape, packA, fieldAt_bits, bits_append_high, bits_append_low, bits_all, BitVec.toNat_ofNat, Nat.reduceSub, Nat.sub_add_eq, Nat.reduceMod, Nat.reducePow, zeros_ok, clear_append, clear_none, clear_zero, clear_false, Nat.reduceShiftRight, Nat.shiftRight_add, Nat.pow_add, Nat.reduceMul, and_self])
theorem Encoding.vadd : ∀ f, Encoding.Statement (.vadd f) := fun f => encoding_of_pick rfl (by
  rw [pick_vi0 (by simp (disch := decide) only [packV, bits_append_high, bits_all, BitVec.toNat_ofNat, Nat.reduceSub, Nat.sub_add_eq, Nat.reducePow, Nat.reduceMod])]
  simp (disch := decide) only [pickVi0, packV, fieldAt_bits, bits_append_high, bits_append_low, bits_all, BitVec.toNat_ofNat, Nat.reduceSub, Nat.sub_add_eq, Nat.reduceMod, Nat.reducePow, flagAt_bit, bit_append_high, bit_append_low, bit_ofBit])
theorem Encoding.vsub : ∀ f, Encoding.Statement (.vsub f) := fun f => encoding_of_pick rfl (by
  rw [pick_vi0 (by simp (disch := decide) only [packV, bits_append_high, bits_all, BitVec.toNat_ofNat, Nat.reduceSub, Nat.sub_add_eq, Nat.reducePow, Nat.reduceMod])]
  simp (disch := decide) only [pickVi0, packV, fieldAt_bits, bits_append_high, bits_append_low, bits_all, BitVec.toNat_ofNat, Nat.reduceSub, Nat.sub_add_eq, Nat.reduceMod, Nat.reducePow, flagAt_bit, bit_append_high, bit_append_low, bit_ofBit])
theorem Encoding.vrsub : ∀ f, Encoding.Statement (.vrsub f) := fun f => encoding_of_pick rfl (by
  rw [pick_vi0 (by simp (disch := decide) only [packV, bits_append_high, bits_all, BitVec.toNat_ofNat, Nat.reduceSub, Nat.sub_add_eq, Nat.reducePow, Nat.reduceMod])]
  simp (disch := decide) only [pickVi0, packV, fieldAt_bits, bits_append_high, bits_append_low, bits_all, BitVec.toNat_ofNat, Nat.reduceSub, Nat.sub_add_eq, Nat.reduceMod, Nat.reducePow, flagAt_bit, bit_append_high, bit_append_low, bit_ofBit])
theorem Encoding.vmul : ∀ f, Encoding.Statement (.vmul f) := fun f => encoding_of_pick rfl (by
  rw [pick_vi0 (by simp (disch := decide) only [packV, bits_append_high, bits_all, BitVec.toNat_ofNat, Nat.reduceSub, Nat.sub_add_eq, Nat.reducePow, Nat.reduceMod])]
  simp (disch := decide) only [pickVi0, packV, fieldAt_bits, bits_append_high, bits_append_low, bits_all, BitVec.toNat_ofNat, Nat.reduceSub, Nat.sub_add_eq, Nat.reduceMod, Nat.reducePow, flagAt_bit, bit_append_high, bit_append_low, bit_ofBit])
theorem Encoding.vmulh : ∀ f, Encoding.Statement (.vmulh f) := fun f => encoding_of_pick rfl (by
  rw [pick_vi1 (by simp (disch := decide) only [packV, bits_append_high, bits_all, BitVec.toNat_ofNat, Nat.reduceSub, Nat.sub_add_eq, Nat.reducePow, Nat.reduceMod])]
  simp (disch := decide) only [pickVi1, packV, fieldAt_bits, bits_append_high, bits_append_low, bits_all, BitVec.toNat_ofNat, Nat.reduceSub, Nat.sub_add_eq, Nat.reduceMod, Nat.reducePow, flagAt_bit, bit_append_high, bit_append_low, bit_ofBit])
theorem Encoding.vmulhu : ∀ f, Encoding.Statement (.vmulhu f) := fun f => encoding_of_pick rfl (by
  rw [pick_vi1 (by simp (disch := decide) only [packV, bits_append_high, bits_all, BitVec.toNat_ofNat, Nat.reduceSub, Nat.sub_add_eq, Nat.reducePow, Nat.reduceMod])]
  simp (disch := decide) only [pickVi1, packV, fieldAt_bits, bits_append_high, bits_append_low, bits_all, BitVec.toNat_ofNat, Nat.reduceSub, Nat.sub_add_eq, Nat.reduceMod, Nat.reducePow, flagAt_bit, bit_append_high, bit_append_low, bit_ofBit])
theorem Encoding.vdiv : ∀ f, Encoding.Statement (.vdiv f) := fun f => encoding_of_pick rfl (by
  rw [pick_vi1 (by simp (disch := decide) only [packV, bits_append_high, bits_all, BitVec.toNat_ofNat, Nat.reduceSub, Nat.sub_add_eq, Nat.reducePow, Nat.reduceMod])]
  simp (disch := decide) only [pickVi1, packV, fieldAt_bits, bits_append_high, bits_append_low, bits_all, BitVec.toNat_ofNat, Nat.reduceSub, Nat.sub_add_eq, Nat.reduceMod, Nat.reducePow, flagAt_bit, bit_append_high, bit_append_low, bit_ofBit])
theorem Encoding.vdivu : ∀ f, Encoding.Statement (.vdivu f) := fun f => encoding_of_pick rfl (by
  rw [pick_vi1 (by simp (disch := decide) only [packV, bits_append_high, bits_all, BitVec.toNat_ofNat, Nat.reduceSub, Nat.sub_add_eq, Nat.reducePow, Nat.reduceMod])]
  simp (disch := decide) only [pickVi1, packV, fieldAt_bits, bits_append_high, bits_append_low, bits_all, BitVec.toNat_ofNat, Nat.reduceSub, Nat.sub_add_eq, Nat.reduceMod, Nat.reducePow, flagAt_bit, bit_append_high, bit_append_low, bit_ofBit])
theorem Encoding.vrem : ∀ f, Encoding.Statement (.vrem f) := fun f => encoding_of_pick rfl (by
  rw [pick_vi2 (by simp (disch := decide) only [packV, bits_append_high, bits_all, BitVec.toNat_ofNat, Nat.reduceSub, Nat.sub_add_eq, Nat.reducePow, Nat.reduceMod])]
  simp (disch := decide) only [pickVi2, packV, fieldAt_bits, bits_append_high, bits_append_low, bits_all, BitVec.toNat_ofNat, Nat.reduceSub, Nat.sub_add_eq, Nat.reduceMod, Nat.reducePow, flagAt_bit, bit_append_high, bit_append_low, bit_ofBit])
theorem Encoding.vremu : ∀ f, Encoding.Statement (.vremu f) := fun f => encoding_of_pick rfl (by
  rw [pick_vi2 (by simp (disch := decide) only [packV, bits_append_high, bits_all, BitVec.toNat_ofNat, Nat.reduceSub, Nat.sub_add_eq, Nat.reducePow, Nat.reduceMod])]
  simp (disch := decide) only [pickVi2, packV, fieldAt_bits, bits_append_high, bits_append_low, bits_all, BitVec.toNat_ofNat, Nat.reduceSub, Nat.sub_add_eq, Nat.reduceMod, Nat.reducePow, flagAt_bit, bit_append_high, bit_append_low, bit_ofBit])
theorem Encoding.vmin : ∀ f, Encoding.Statement (.vmin f) := fun f => encoding_of_pick rfl (by
  rw [pick_vi2 (by simp (disch := decide) only [packV, bits_append_high, bits_all, BitVec.toNat_ofNat, Nat.reduceSub, Nat.sub_add_eq, Nat.reducePow, Nat.reduceMod])]
  simp (disch := decide) only [pickVi2, packV, fieldAt_bits, bits_append_high, bits_append_low, bits_all, BitVec.toNat_ofNat, Nat.reduceSub, Nat.sub_add_eq, Nat.reduceMod, Nat.reducePow, flagAt_bit, bit_append_high, bit_append_low, bit_ofBit])
theorem Encoding.vmax : ∀ f, Encoding.Statement (.vmax f) := fun f => encoding_of_pick rfl (by
  rw [pick_vi2 (by simp (disch := decide) only [packV, bits_append_high, bits_all, BitVec.toNat_ofNat, Nat.reduceSub, Nat.sub_add_eq, Nat.reducePow, Nat.reduceMod])]
  simp (disch := decide) only [pickVi2, packV, fieldAt_bits, bits_append_high, bits_append_low, bits_all, BitVec.toNat_ofNat, Nat.reduceSub, Nat.sub_add_eq, Nat.reduceMod, Nat.reducePow, flagAt_bit, bit_append_high, bit_append_low, bit_ofBit])
theorem Encoding.vminu : ∀ f, Encoding.Statement (.vminu f) := fun f => encoding_of_pick rfl (by
  rw [pick_vi3 (by simp (disch := decide) only [packV, bits_append_high, bits_all, BitVec.toNat_ofNat, Nat.reduceSub, Nat.sub_add_eq, Nat.reducePow, Nat.reduceMod])]
  simp (disch := decide) only [pickVi3, packV, fieldAt_bits, bits_append_high, bits_append_low, bits_all, BitVec.toNat_ofNat, Nat.reduceSub, Nat.sub_add_eq, Nat.reduceMod, Nat.reducePow, flagAt_bit, bit_append_high, bit_append_low, bit_ofBit])
theorem Encoding.vmaxu : ∀ f, Encoding.Statement (.vmaxu f) := fun f => encoding_of_pick rfl (by
  rw [pick_vi3 (by simp (disch := decide) only [packV, bits_append_high, bits_all, BitVec.toNat_ofNat, Nat.reduceSub, Nat.sub_add_eq, Nat.reducePow, Nat.reduceMod])]
  simp (disch := decide) only [pickVi3, packV, fieldAt_bits, bits_append_high, bits_append_low, bits_all, BitVec.toNat_ofNat, Nat.reduceSub, Nat.sub_add_eq, Nat.reduceMod, Nat.reducePow, flagAt_bit, bit_append_high, bit_append_low, bit_ofBit])
theorem Encoding.vand : ∀ f, Encoding.Statement (.vand f) := fun f => encoding_of_pick rfl (by
  rw [pick_vi3 (by simp (disch := decide) only [packV, bits_append_high, bits_all, BitVec.toNat_ofNat, Nat.reduceSub, Nat.sub_add_eq, Nat.reducePow, Nat.reduceMod])]
  simp (disch := decide) only [pickVi3, packV, fieldAt_bits, bits_append_high, bits_append_low, bits_all, BitVec.toNat_ofNat, Nat.reduceSub, Nat.sub_add_eq, Nat.reduceMod, Nat.reducePow, flagAt_bit, bit_append_high, bit_append_low, bit_ofBit])
theorem Encoding.vor : ∀ f, Encoding.Statement (.vor f) := fun f => encoding_of_pick rfl (by
  rw [pick_vi3 (by simp (disch := decide) only [packV, bits_append_high, bits_all, BitVec.toNat_ofNat, Nat.reduceSub, Nat.sub_add_eq, Nat.reducePow, Nat.reduceMod])]
  simp (disch := decide) only [pickVi3, packV, fieldAt_bits, bits_append_high, bits_append_low, bits_all, BitVec.toNat_ofNat, Nat.reduceSub, Nat.sub_add_eq, Nat.reduceMod, Nat.reducePow, flagAt_bit, bit_append_high, bit_append_low, bit_ofBit])
theorem Encoding.vxor : ∀ f, Encoding.Statement (.vxor f) := fun f => encoding_of_pick rfl (by
  rw [pick_vi4 (by simp (disch := decide) only [packV, bits_append_high, bits_all, BitVec.toNat_ofNat, Nat.reduceSub, Nat.sub_add_eq, Nat.reducePow, Nat.reduceMod])]
  simp (disch := decide) only [pickVi4, packV, fieldAt_bits, bits_append_high, bits_append_low, bits_all, BitVec.toNat_ofNat, Nat.reduceSub, Nat.sub_add_eq, Nat.reduceMod, Nat.reducePow, flagAt_bit, bit_append_high, bit_append_low, bit_ofBit])
theorem Encoding.vandn : ∀ f, Encoding.Statement (.vandn f) := fun f => encoding_of_pick rfl (by
  rw [pick_vi4 (by simp (disch := decide) only [packV, bits_append_high, bits_all, BitVec.toNat_ofNat, Nat.reduceSub, Nat.sub_add_eq, Nat.reducePow, Nat.reduceMod])]
  simp (disch := decide) only [pickVi4, packV, fieldAt_bits, bits_append_high, bits_append_low, bits_all, BitVec.toNat_ofNat, Nat.reduceSub, Nat.sub_add_eq, Nat.reduceMod, Nat.reducePow, flagAt_bit, bit_append_high, bit_append_low, bit_ofBit])
theorem Encoding.vsll : ∀ f, Encoding.Statement (.vsll f) := fun f => encoding_of_pick rfl (by
  rw [pick_vi4 (by simp (disch := decide) only [packV, bits_append_high, bits_all, BitVec.toNat_ofNat, Nat.reduceSub, Nat.sub_add_eq, Nat.reducePow, Nat.reduceMod])]
  simp (disch := decide) only [pickVi4, packV, fieldAt_bits, bits_append_high, bits_append_low, bits_all, BitVec.toNat_ofNat, Nat.reduceSub, Nat.sub_add_eq, Nat.reduceMod, Nat.reducePow, flagAt_bit, bit_append_high, bit_append_low, bit_ofBit])
theorem Encoding.vsrl : ∀ f, Encoding.Statement (.vsrl f) := fun f => encoding_of_pick rfl (by
  rw [pick_vi4 (by simp (disch := decide) only [packV, bits_append_high, bits_all, BitVec.toNat_ofNat, Nat.reduceSub, Nat.sub_add_eq, Nat.reducePow, Nat.reduceMod])]
  simp (disch := decide) only [pickVi4, packV, fieldAt_bits, bits_append_high, bits_append_low, bits_all, BitVec.toNat_ofNat, Nat.reduceSub, Nat.sub_add_eq, Nat.reduceMod, Nat.reducePow, flagAt_bit, bit_append_high, bit_append_low, bit_ofBit])
theorem Encoding.vsra : ∀ f, Encoding.Statement (.vsra f) := fun f => encoding_of_pick rfl (by
  rw [pick_vi5 (by simp (disch := decide) only [packV, bits_append_high, bits_all, BitVec.toNat_ofNat, Nat.reduceSub, Nat.sub_add_eq, Nat.reducePow, Nat.reduceMod])]
  simp (disch := decide) only [pickVi5, packV, fieldAt_bits, bits_append_high, bits_append_low, bits_all, BitVec.toNat_ofNat, Nat.reduceSub, Nat.sub_add_eq, Nat.reduceMod, Nat.reducePow, flagAt_bit, bit_append_high, bit_append_low, bit_ofBit])
theorem Encoding.vsadd : ∀ f, Encoding.Statement (.vsadd f) := fun f => encoding_of_pick rfl (by
  rw [pick_vi5 (by simp (disch := decide) only [packV, bits_append_high, bits_all, BitVec.toNat_ofNat, Nat.reduceSub, Nat.sub_add_eq, Nat.reducePow, Nat.reduceMod])]
  simp (disch := decide) only [pickVi5, packV, fieldAt_bits, bits_append_high, bits_append_low, bits_all, BitVec.toNat_ofNat, Nat.reduceSub, Nat.sub_add_eq, Nat.reduceMod, Nat.reducePow, flagAt_bit, bit_append_high, bit_append_low, bit_ofBit])
theorem Encoding.vssub : ∀ f, Encoding.Statement (.vssub f) := fun f => encoding_of_pick rfl (by
  rw [pick_vi5 (by simp (disch := decide) only [packV, bits_append_high, bits_all, BitVec.toNat_ofNat, Nat.reduceSub, Nat.sub_add_eq, Nat.reducePow, Nat.reduceMod])]
  simp (disch := decide) only [pickVi5, packV, fieldAt_bits, bits_append_high, bits_append_low, bits_all, BitVec.toNat_ofNat, Nat.reduceSub, Nat.sub_add_eq, Nat.reduceMod, Nat.reducePow, flagAt_bit, bit_append_high, bit_append_low, bit_ofBit])
theorem Encoding.vsaddu : ∀ f, Encoding.Statement (.vsaddu f) := fun f => encoding_of_pick rfl (by
  rw [pick_vi5 (by simp (disch := decide) only [packV, bits_append_high, bits_all, BitVec.toNat_ofNat, Nat.reduceSub, Nat.sub_add_eq, Nat.reducePow, Nat.reduceMod])]
  simp (disch := decide) only [pickVi5, packV, fieldAt_bits, bits_append_high, bits_append_low, bits_all, BitVec.toNat_ofNat, Nat.reduceSub, Nat.sub_add_eq, Nat.reduceMod, Nat.reducePow, flagAt_bit, bit_append_high, bit_append_low, bit_ofBit])
theorem Encoding.vssubu : ∀ f, Encoding.Statement (.vssubu f) := fun f => encoding_of_pick rfl (by
  rw [pick_vi6 (by simp (disch := decide) only [packV, bits_append_high, bits_all, BitVec.toNat_ofNat, Nat.reduceSub, Nat.sub_add_eq, Nat.reducePow, Nat.reduceMod])]
  simp (disch := decide) only [pickVi6, packV, fieldAt_bits, bits_append_high, bits_append_low, bits_all, BitVec.toNat_ofNat, Nat.reduceSub, Nat.sub_add_eq, Nat.reduceMod, Nat.reducePow, flagAt_bit, bit_append_high, bit_append_low, bit_ofBit])
theorem Encoding.vmerge : ∀ f, Encoding.Statement (.vmerge f) := fun f => encoding_of_pick rfl (by
  rw [pick_vi6 (by simp (disch := decide) only [packV, bits_append_high, bits_all, BitVec.toNat_ofNat, Nat.reduceSub, Nat.sub_add_eq, Nat.reducePow, Nat.reduceMod])]
  simp (disch := decide) only [pickVi6, packV, fieldAt_bits, bits_append_high, bits_append_low, bits_all, BitVec.toNat_ofNat, Nat.reduceSub, Nat.sub_add_eq, Nat.reduceMod, Nat.reducePow, flagAt_bit, bit_append_high, bit_append_low, bit_ofBit])
theorem Encoding.vclz : ∀ f, Encoding.Statement (.vclz f) := fun f => encoding_of_pick rfl (by
  rw [pick_vi6 (by simp (disch := decide) only [packV, bits_append_high, bits_all, BitVec.toNat_ofNat, Nat.reduceSub, Nat.sub_add_eq, Nat.reducePow, Nat.reduceMod])]
  simp (disch := decide) only [pickVi6, packV, fieldAt_bits, bits_append_high, bits_append_low, bits_all, BitVec.toNat_ofNat, Nat.reduceSub, Nat.sub_add_eq, Nat.reduceMod, Nat.reducePow, flagAt_bit, bit_append_high, bit_append_low, bit_ofBit, zeros_ok, clear_append, clear_none, clear_zero, clear_false, Nat.reduceShiftRight, Nat.shiftRight_add, Nat.pow_add, Nat.reduceMul, and_self])
theorem Encoding.vpopc : ∀ f, Encoding.Statement (.vpopc f) := fun f => encoding_of_pick rfl (by
  rw [pick_vi6 (by simp (disch := decide) only [packV, bits_append_high, bits_all, BitVec.toNat_ofNat, Nat.reduceSub, Nat.sub_add_eq, Nat.reducePow, Nat.reduceMod])]
  simp (disch := decide) only [pickVi6, packV, fieldAt_bits, bits_append_high, bits_append_low, bits_all, BitVec.toNat_ofNat, Nat.reduceSub, Nat.sub_add_eq, Nat.reduceMod, Nat.reducePow, flagAt_bit, bit_append_high, bit_append_low, bit_ofBit, zeros_ok, clear_append, clear_none, clear_zero, clear_false, Nat.reduceShiftRight, Nat.shiftRight_add, Nat.pow_add, Nat.reduceMul, and_self])
theorem Encoding.vmacc : ∀ f, Encoding.Statement (.vmacc f) := fun f => encoding_of_pick rfl (by
  rw [pick_vi7 (by simp (disch := decide) only [packV, bits_append_high, bits_all, BitVec.toNat_ofNat, Nat.reduceSub, Nat.sub_add_eq, Nat.reducePow, Nat.reduceMod])]
  simp (disch := decide) only [pickVi7, packV, fieldAt_bits, bits_append_high, bits_append_low, bits_all, BitVec.toNat_ofNat, Nat.reduceSub, Nat.sub_add_eq, Nat.reduceMod, Nat.reducePow, flagAt_bit, bit_append_high, bit_append_low, bit_ofBit])
theorem Encoding.vnmsac : ∀ f, Encoding.Statement (.vnmsac f) := fun f => encoding_of_pick rfl (by
  rw [pick_vi7 (by simp (disch := decide) only [packV, bits_append_high, bits_all, BitVec.toNat_ofNat, Nat.reduceSub, Nat.sub_add_eq, Nat.reducePow, Nat.reduceMod])]
  simp (disch := decide) only [pickVi7, packV, fieldAt_bits, bits_append_high, bits_append_low, bits_all, BitVec.toNat_ofNat, Nat.reduceSub, Nat.sub_add_eq, Nat.reduceMod, Nat.reducePow, flagAt_bit, bit_append_high, bit_append_low, bit_ofBit])
theorem Encoding.vabsd : ∀ f, Encoding.Statement (.vabsd f) := fun f => encoding_of_pick rfl (by
  rw [pick_vi7 (by simp (disch := decide) only [packV, bits_append_high, bits_all, BitVec.toNat_ofNat, Nat.reduceSub, Nat.sub_add_eq, Nat.reducePow, Nat.reduceMod])]
  simp (disch := decide) only [pickVi7, packV, fieldAt_bits, bits_append_high, bits_append_low, bits_all, BitVec.toNat_ofNat, Nat.reduceSub, Nat.sub_add_eq, Nat.reduceMod, Nat.reducePow, flagAt_bit, bit_append_high, bit_append_low, bit_ofBit])
theorem Encoding.vmulq : ∀ f, Encoding.Statement (.vmulq f) := fun f => encoding_of_pick rfl (by
  rw [pick_vi7 (by simp (disch := decide) only [packV, bits_append_high, bits_all, BitVec.toNat_ofNat, Nat.reduceSub, Nat.sub_add_eq, Nat.reducePow, Nat.reduceMod])]
  simp (disch := decide) only [pickVi7, packV, fieldAt_bits, bits_append_high, bits_append_low, bits_all, BitVec.toNat_ofNat, Nat.reduceSub, Nat.sub_add_eq, Nat.reduceMod, Nat.reducePow, flagAt_bit, bit_append_high, bit_append_low, bit_ofBit])
theorem Encoding.vcmp : ∀ kd cc va vb s km ty, Encoding.Statement (.vcmp kd cc va vb s km ty) := fun kd cc va vb s km ty => encoding_of_pick rfl (by
  rw [pick_vcmp (by simp (disch := decide) only [packC, bits_append_high, bits_all, BitVec.toNat_ofNat, Nat.reduceSub, Nat.sub_add_eq, Nat.reducePow, Nat.reduceMod])]
  simp (disch := decide) only [packC, fieldAt_bits, bits_append_high, bits_append_low, bits_all, BitVec.toNat_ofNat, Nat.reduceSub, Nat.sub_add_eq, Nat.reduceMod, Nat.reducePow, flagAt_bit, bit_append_high, bit_append_low, bit_ofBit])
theorem Encoding.vfadd : ∀ f, Encoding.Statement (.vfadd f) := fun f => encoding_of_pick rfl (by
  rw [pick_vf0 (by simp (disch := decide) only [packV, bits_append_high, bits_all, BitVec.toNat_ofNat, Nat.reduceSub, Nat.sub_add_eq, Nat.reducePow, Nat.reduceMod])]
  simp (disch := decide) only [pickVf0, packV, fieldAt_bits, bits_append_high, bits_append_low, bits_all, BitVec.toNat_ofNat, Nat.reduceSub, Nat.sub_add_eq, Nat.reduceMod, Nat.reducePow, flagAt_bit, bit_append_high, bit_append_low, bit_ofBit])
theorem Encoding.vfsub : ∀ f, Encoding.Statement (.vfsub f) := fun f => encoding_of_pick rfl (by
  rw [pick_vf0 (by simp (disch := decide) only [packV, bits_append_high, bits_all, BitVec.toNat_ofNat, Nat.reduceSub, Nat.sub_add_eq, Nat.reducePow, Nat.reduceMod])]
  simp (disch := decide) only [pickVf0, packV, fieldAt_bits, bits_append_high, bits_append_low, bits_all, BitVec.toNat_ofNat, Nat.reduceSub, Nat.sub_add_eq, Nat.reduceMod, Nat.reducePow, flagAt_bit, bit_append_high, bit_append_low, bit_ofBit])
theorem Encoding.vfmul : ∀ f, Encoding.Statement (.vfmul f) := fun f => encoding_of_pick rfl (by
  rw [pick_vf0 (by simp (disch := decide) only [packV, bits_append_high, bits_all, BitVec.toNat_ofNat, Nat.reduceSub, Nat.sub_add_eq, Nat.reducePow, Nat.reduceMod])]
  simp (disch := decide) only [pickVf0, packV, fieldAt_bits, bits_append_high, bits_append_low, bits_all, BitVec.toNat_ofNat, Nat.reduceSub, Nat.sub_add_eq, Nat.reduceMod, Nat.reducePow, flagAt_bit, bit_append_high, bit_append_low, bit_ofBit])
theorem Encoding.vfdiv : ∀ f, Encoding.Statement (.vfdiv f) := fun f => encoding_of_pick rfl (by
  rw [pick_vf0 (by simp (disch := decide) only [packV, bits_append_high, bits_all, BitVec.toNat_ofNat, Nat.reduceSub, Nat.sub_add_eq, Nat.reducePow, Nat.reduceMod])]
  simp (disch := decide) only [pickVf0, packV, fieldAt_bits, bits_append_high, bits_append_low, bits_all, BitVec.toNat_ofNat, Nat.reduceSub, Nat.sub_add_eq, Nat.reduceMod, Nat.reducePow, flagAt_bit, bit_append_high, bit_append_low, bit_ofBit])
theorem Encoding.vfma : ∀ f, Encoding.Statement (.vfma f) := fun f => encoding_of_pick rfl (by
  rw [pick_vf1 (by simp (disch := decide) only [packV, bits_append_high, bits_all, BitVec.toNat_ofNat, Nat.reduceSub, Nat.sub_add_eq, Nat.reducePow, Nat.reduceMod])]
  simp (disch := decide) only [pickVf1, packV, fieldAt_bits, bits_append_high, bits_append_low, bits_all, BitVec.toNat_ofNat, Nat.reduceSub, Nat.sub_add_eq, Nat.reduceMod, Nat.reducePow, flagAt_bit, bit_append_high, bit_append_low, bit_ofBit])
theorem Encoding.vfms : ∀ f, Encoding.Statement (.vfms f) := fun f => encoding_of_pick rfl (by
  rw [pick_vf1 (by simp (disch := decide) only [packV, bits_append_high, bits_all, BitVec.toNat_ofNat, Nat.reduceSub, Nat.sub_add_eq, Nat.reducePow, Nat.reduceMod])]
  simp (disch := decide) only [pickVf1, packV, fieldAt_bits, bits_append_high, bits_append_low, bits_all, BitVec.toNat_ofNat, Nat.reduceSub, Nat.sub_add_eq, Nat.reduceMod, Nat.reducePow, flagAt_bit, bit_append_high, bit_append_low, bit_ofBit])
theorem Encoding.vfnma : ∀ f, Encoding.Statement (.vfnma f) := fun f => encoding_of_pick rfl (by
  rw [pick_vf1 (by simp (disch := decide) only [packV, bits_append_high, bits_all, BitVec.toNat_ofNat, Nat.reduceSub, Nat.sub_add_eq, Nat.reducePow, Nat.reduceMod])]
  simp (disch := decide) only [pickVf1, packV, fieldAt_bits, bits_append_high, bits_append_low, bits_all, BitVec.toNat_ofNat, Nat.reduceSub, Nat.sub_add_eq, Nat.reduceMod, Nat.reducePow, flagAt_bit, bit_append_high, bit_append_low, bit_ofBit])
theorem Encoding.vfmin : ∀ f, Encoding.Statement (.vfmin f) := fun f => encoding_of_pick rfl (by
  rw [pick_vf1 (by simp (disch := decide) only [packV, bits_append_high, bits_all, BitVec.toNat_ofNat, Nat.reduceSub, Nat.sub_add_eq, Nat.reducePow, Nat.reduceMod])]
  simp (disch := decide) only [pickVf1, packV, fieldAt_bits, bits_append_high, bits_append_low, bits_all, BitVec.toNat_ofNat, Nat.reduceSub, Nat.sub_add_eq, Nat.reduceMod, Nat.reducePow, flagAt_bit, bit_append_high, bit_append_low, bit_ofBit])
theorem Encoding.vfmax : ∀ f, Encoding.Statement (.vfmax f) := fun f => encoding_of_pick rfl (by
  rw [pick_vf2 (by simp (disch := decide) only [packV, bits_append_high, bits_all, BitVec.toNat_ofNat, Nat.reduceSub, Nat.sub_add_eq, Nat.reducePow, Nat.reduceMod])]
  simp (disch := decide) only [pickVf2, packV, fieldAt_bits, bits_append_high, bits_append_low, bits_all, BitVec.toNat_ofNat, Nat.reduceSub, Nat.sub_add_eq, Nat.reduceMod, Nat.reducePow, flagAt_bit, bit_append_high, bit_append_low, bit_ofBit])
theorem Encoding.vfsgnj : ∀ f, Encoding.Statement (.vfsgnj f) := fun f => encoding_of_pick rfl (by
  rw [pick_vf2 (by simp (disch := decide) only [packV, bits_append_high, bits_all, BitVec.toNat_ofNat, Nat.reduceSub, Nat.sub_add_eq, Nat.reducePow, Nat.reduceMod])]
  simp (disch := decide) only [pickVf2, packV, fieldAt_bits, bits_append_high, bits_append_low, bits_all, BitVec.toNat_ofNat, Nat.reduceSub, Nat.sub_add_eq, Nat.reduceMod, Nat.reducePow, flagAt_bit, bit_append_high, bit_append_low, bit_ofBit])
theorem Encoding.vfsgnjn : ∀ f, Encoding.Statement (.vfsgnjn f) := fun f => encoding_of_pick rfl (by
  rw [pick_vf2 (by simp (disch := decide) only [packV, bits_append_high, bits_all, BitVec.toNat_ofNat, Nat.reduceSub, Nat.sub_add_eq, Nat.reducePow, Nat.reduceMod])]
  simp (disch := decide) only [pickVf2, packV, fieldAt_bits, bits_append_high, bits_append_low, bits_all, BitVec.toNat_ofNat, Nat.reduceSub, Nat.sub_add_eq, Nat.reduceMod, Nat.reducePow, flagAt_bit, bit_append_high, bit_append_low, bit_ofBit])
theorem Encoding.vfsgnjx : ∀ f, Encoding.Statement (.vfsgnjx f) := fun f => encoding_of_pick rfl (by
  rw [pick_vf2 (by simp (disch := decide) only [packV, bits_append_high, bits_all, BitVec.toNat_ofNat, Nat.reduceSub, Nat.sub_add_eq, Nat.reducePow, Nat.reduceMod])]
  simp (disch := decide) only [pickVf2, packV, fieldAt_bits, bits_append_high, bits_append_low, bits_all, BitVec.toNat_ofNat, Nat.reduceSub, Nat.sub_add_eq, Nat.reduceMod, Nat.reducePow, flagAt_bit, bit_append_high, bit_append_low, bit_ofBit])
theorem Encoding.vfsqrt : ∀ f, Encoding.Statement (.vfsqrt f) := fun f => encoding_of_pick rfl (by
  rw [pick_vf3 (by simp (disch := decide) only [packV, bits_append_high, bits_all, BitVec.toNat_ofNat, Nat.reduceSub, Nat.sub_add_eq, Nat.reducePow, Nat.reduceMod])]
  simp (disch := decide) only [pickVf3, packV, fieldAt_bits, bits_append_high, bits_append_low, bits_all, BitVec.toNat_ofNat, Nat.reduceSub, Nat.sub_add_eq, Nat.reduceMod, Nat.reducePow, flagAt_bit, bit_append_high, bit_append_low, bit_ofBit, zeros_ok, clear_append, clear_none, clear_zero, clear_false, Nat.reduceShiftRight, Nat.shiftRight_add, Nat.pow_add, Nat.reduceMul, and_self])
theorem Encoding.vfrcp : ∀ f, Encoding.Statement (.vfrcp f) := fun f => encoding_of_pick rfl (by
  rw [pick_vf3 (by simp (disch := decide) only [packV, bits_append_high, bits_all, BitVec.toNat_ofNat, Nat.reduceSub, Nat.sub_add_eq, Nat.reducePow, Nat.reduceMod])]
  simp (disch := decide) only [pickVf3, packV, fieldAt_bits, bits_append_high, bits_append_low, bits_all, BitVec.toNat_ofNat, Nat.reduceSub, Nat.sub_add_eq, Nat.reduceMod, Nat.reducePow, flagAt_bit, bit_append_high, bit_append_low, bit_ofBit, zeros_ok, clear_append, clear_none, clear_zero, clear_false, Nat.reduceShiftRight, Nat.shiftRight_add, Nat.pow_add, Nat.reduceMul, and_self])
theorem Encoding.vfrsq : ∀ f, Encoding.Statement (.vfrsq f) := fun f => encoding_of_pick rfl (by
  rw [pick_vf3 (by simp (disch := decide) only [packV, bits_append_high, bits_all, BitVec.toNat_ofNat, Nat.reduceSub, Nat.sub_add_eq, Nat.reducePow, Nat.reduceMod])]
  simp (disch := decide) only [pickVf3, packV, fieldAt_bits, bits_append_high, bits_append_low, bits_all, BitVec.toNat_ofNat, Nat.reduceSub, Nat.sub_add_eq, Nat.reduceMod, Nat.reducePow, flagAt_bit, bit_append_high, bit_append_low, bit_ofBit, zeros_ok, clear_append, clear_none, clear_zero, clear_false, Nat.reduceShiftRight, Nat.shiftRight_add, Nat.pow_add, Nat.reduceMul, and_self])
theorem Encoding.vfexp2 : ∀ f, Encoding.Statement (.vfexp2 f) := fun f => encoding_of_pick rfl (by
  rw [pick_vf3 (by simp (disch := decide) only [packV, bits_append_high, bits_all, BitVec.toNat_ofNat, Nat.reduceSub, Nat.sub_add_eq, Nat.reducePow, Nat.reduceMod])]
  simp (disch := decide) only [pickVf3, packV, fieldAt_bits, bits_append_high, bits_append_low, bits_all, BitVec.toNat_ofNat, Nat.reduceSub, Nat.sub_add_eq, Nat.reduceMod, Nat.reducePow, flagAt_bit, bit_append_high, bit_append_low, bit_ofBit, zeros_ok, clear_append, clear_none, clear_zero, clear_false, Nat.reduceShiftRight, Nat.shiftRight_add, Nat.pow_add, Nat.reduceMul, and_self])
theorem Encoding.vflog2 : ∀ f, Encoding.Statement (.vflog2 f) := fun f => encoding_of_pick rfl (by
  rw [pick_vf4 (by simp (disch := decide) only [packV, bits_append_high, bits_all, BitVec.toNat_ofNat, Nat.reduceSub, Nat.sub_add_eq, Nat.reducePow, Nat.reduceMod])]
  simp (disch := decide) only [pickVf4, packV, fieldAt_bits, bits_append_high, bits_append_low, bits_all, BitVec.toNat_ofNat, Nat.reduceSub, Nat.sub_add_eq, Nat.reduceMod, Nat.reducePow, flagAt_bit, bit_append_high, bit_append_low, bit_ofBit, zeros_ok, clear_append, clear_none, clear_zero, clear_false, Nat.reduceShiftRight, Nat.shiftRight_add, Nat.pow_add, Nat.reduceMul, and_self])
theorem Encoding.vfsigm : ∀ f, Encoding.Statement (.vfsigm f) := fun f => encoding_of_pick rfl (by
  rw [pick_vf4 (by simp (disch := decide) only [packV, bits_append_high, bits_all, BitVec.toNat_ofNat, Nat.reduceSub, Nat.sub_add_eq, Nat.reducePow, Nat.reduceMod])]
  simp (disch := decide) only [pickVf4, packV, fieldAt_bits, bits_append_high, bits_append_low, bits_all, BitVec.toNat_ofNat, Nat.reduceSub, Nat.sub_add_eq, Nat.reduceMod, Nat.reducePow, flagAt_bit, bit_append_high, bit_append_low, bit_ofBit, zeros_ok, clear_append, clear_none, clear_zero, clear_false, Nat.reduceShiftRight, Nat.shiftRight_add, Nat.pow_add, Nat.reduceMul, and_self])
theorem Encoding.vftanh : ∀ f, Encoding.Statement (.vftanh f) := fun f => encoding_of_pick rfl (by
  rw [pick_vf4 (by simp (disch := decide) only [packV, bits_append_high, bits_all, BitVec.toNat_ofNat, Nat.reduceSub, Nat.sub_add_eq, Nat.reducePow, Nat.reduceMod])]
  simp (disch := decide) only [pickVf4, packV, fieldAt_bits, bits_append_high, bits_append_low, bits_all, BitVec.toNat_ofNat, Nat.reduceSub, Nat.sub_add_eq, Nat.reduceMod, Nat.reducePow, flagAt_bit, bit_append_high, bit_append_low, bit_ofBit, zeros_ok, clear_append, clear_none, clear_zero, clear_false, Nat.reduceShiftRight, Nat.shiftRight_add, Nat.pow_add, Nat.reduceMul, and_self])
theorem Encoding.vfcls : ∀ f, Encoding.Statement (.vfcls f) := fun f => encoding_of_pick rfl (by
  rw [pick_vf4 (by simp (disch := decide) only [packV, bits_append_high, bits_all, BitVec.toNat_ofNat, Nat.reduceSub, Nat.sub_add_eq, Nat.reducePow, Nat.reduceMod])]
  simp (disch := decide) only [pickVf4, packV, fieldAt_bits, bits_append_high, bits_append_low, bits_all, BitVec.toNat_ofNat, Nat.reduceSub, Nat.sub_add_eq, Nat.reduceMod, Nat.reducePow, flagAt_bit, bit_append_high, bit_append_low, bit_ofBit, zeros_ok, clear_append, clear_none, clear_zero, clear_false, Nat.reduceShiftRight, Nat.shiftRight_add, Nat.pow_add, Nat.reduceMul, and_self])
theorem Encoding.vcvt : ∀ vd va rm sat km dst src, Encoding.Statement (.vcvt vd va rm sat km dst src) := fun vd va rm sat km dst src => encoding_of_pick rfl (by
  rw [pick_vcvt (by simp (disch := decide) only [packK, bits_append_high, bits_all, BitVec.toNat_ofNat, Nat.reduceSub, Nat.sub_add_eq, Nat.reducePow, Nat.reduceMod])]
  simp (disch := decide) only [packK, fieldAt_bits, bits_append_high, bits_append_low, bits_all, BitVec.toNat_ofNat, Nat.reduceSub, Nat.sub_add_eq, Nat.reduceMod, Nat.reducePow, flagAt_bit, bit_append_high, bit_append_low, bit_ofBit])
theorem Encoding.vredsum : ∀ f, Encoding.Statement (.vredsum f) := fun f => encoding_of_pick rfl (by
  rw [pick_vred0 (by simp (disch := decide) only [packV, bits_append_high, bits_all, BitVec.toNat_ofNat, Nat.reduceSub, Nat.sub_add_eq, Nat.reducePow, Nat.reduceMod])]
  simp (disch := decide) only [pickVred0, packV, fieldAt_bits, bits_append_high, bits_append_low, bits_all, BitVec.toNat_ofNat, Nat.reduceSub, Nat.sub_add_eq, Nat.reduceMod, Nat.reducePow, flagAt_bit, bit_append_high, bit_append_low, bit_ofBit])
theorem Encoding.vredmax : ∀ f, Encoding.Statement (.vredmax f) := fun f => encoding_of_pick rfl (by
  rw [pick_vred0 (by simp (disch := decide) only [packV, bits_append_high, bits_all, BitVec.toNat_ofNat, Nat.reduceSub, Nat.sub_add_eq, Nat.reducePow, Nat.reduceMod])]
  simp (disch := decide) only [pickVred0, packV, fieldAt_bits, bits_append_high, bits_append_low, bits_all, BitVec.toNat_ofNat, Nat.reduceSub, Nat.sub_add_eq, Nat.reduceMod, Nat.reducePow, flagAt_bit, bit_append_high, bit_append_low, bit_ofBit])
theorem Encoding.vredmin : ∀ f, Encoding.Statement (.vredmin f) := fun f => encoding_of_pick rfl (by
  rw [pick_vred0 (by simp (disch := decide) only [packV, bits_append_high, bits_all, BitVec.toNat_ofNat, Nat.reduceSub, Nat.sub_add_eq, Nat.reducePow, Nat.reduceMod])]
  simp (disch := decide) only [pickVred0, packV, fieldAt_bits, bits_append_high, bits_append_low, bits_all, BitVec.toNat_ofNat, Nat.reduceSub, Nat.sub_add_eq, Nat.reduceMod, Nat.reducePow, flagAt_bit, bit_append_high, bit_append_low, bit_ofBit])
theorem Encoding.vredor : ∀ f, Encoding.Statement (.vredor f) := fun f => encoding_of_pick rfl (by
  rw [pick_vred0 (by simp (disch := decide) only [packV, bits_append_high, bits_all, BitVec.toNat_ofNat, Nat.reduceSub, Nat.sub_add_eq, Nat.reducePow, Nat.reduceMod])]
  simp (disch := decide) only [pickVred0, packV, fieldAt_bits, bits_append_high, bits_append_low, bits_all, BitVec.toNat_ofNat, Nat.reduceSub, Nat.sub_add_eq, Nat.reduceMod, Nat.reducePow, flagAt_bit, bit_append_high, bit_append_low, bit_ofBit])
theorem Encoding.vfredsum : ∀ f, Encoding.Statement (.vfredsum f) := fun f => encoding_of_pick rfl (by
  rw [pick_vred1 (by simp (disch := decide) only [packV, bits_append_high, bits_all, BitVec.toNat_ofNat, Nat.reduceSub, Nat.sub_add_eq, Nat.reducePow, Nat.reduceMod])]
  simp (disch := decide) only [pickVred1, packV, fieldAt_bits, bits_append_high, bits_append_low, bits_all, BitVec.toNat_ofNat, Nat.reduceSub, Nat.sub_add_eq, Nat.reduceMod, Nat.reducePow, flagAt_bit, bit_append_high, bit_append_low, bit_ofBit])
theorem Encoding.vfredmax : ∀ f, Encoding.Statement (.vfredmax f) := fun f => encoding_of_pick rfl (by
  rw [pick_vred1 (by simp (disch := decide) only [packV, bits_append_high, bits_all, BitVec.toNat_ofNat, Nat.reduceSub, Nat.sub_add_eq, Nat.reducePow, Nat.reduceMod])]
  simp (disch := decide) only [pickVred1, packV, fieldAt_bits, bits_append_high, bits_append_low, bits_all, BitVec.toNat_ofNat, Nat.reduceSub, Nat.sub_add_eq, Nat.reduceMod, Nat.reducePow, flagAt_bit, bit_append_high, bit_append_low, bit_ofBit])
theorem Encoding.vfredmin : ∀ f, Encoding.Statement (.vfredmin f) := fun f => encoding_of_pick rfl (by
  rw [pick_vred1 (by simp (disch := decide) only [packV, bits_append_high, bits_all, BitVec.toNat_ofNat, Nat.reduceSub, Nat.sub_add_eq, Nat.reducePow, Nat.reduceMod])]
  simp (disch := decide) only [pickVred1, packV, fieldAt_bits, bits_append_high, bits_append_low, bits_all, BitVec.toNat_ofNat, Nat.reduceSub, Nat.sub_add_eq, Nat.reduceMod, Nat.reducePow, flagAt_bit, bit_append_high, bit_append_low, bit_ofBit])
theorem Encoding.vredand : ∀ f, Encoding.Statement (.vredand f) := fun f => encoding_of_pick rfl (by
  rw [pick_vred1 (by simp (disch := decide) only [packV, bits_append_high, bits_all, BitVec.toNat_ofNat, Nat.reduceSub, Nat.sub_add_eq, Nat.reducePow, Nat.reduceMod])]
  simp (disch := decide) only [pickVred1, packV, fieldAt_bits, bits_append_high, bits_append_low, bits_all, BitVec.toNat_ofNat, Nat.reduceSub, Nat.sub_add_eq, Nat.reduceMod, Nat.reducePow, flagAt_bit, bit_append_high, bit_append_low, bit_ofBit])
theorem Encoding.vmv : ∀ vd va k, Encoding.Statement (.vmv vd va k) := fun vd va k => encoding_of_pick rfl (by
  rw [pick_perm (by simp (disch := decide) only [packK, bits_append_high, bits_all, BitVec.toNat_ofNat, Nat.reduceSub, Nat.sub_add_eq, Nat.reducePow, Nat.reduceMod])]
  simp (disch := decide) only [pickPerm, packK, fieldAt_bits, bits_append_high, bits_append_low, bits_all, BitVec.toNat_ofNat, Nat.reduceSub, Nat.sub_add_eq, Nat.reduceMod, Nat.reducePow, zeros_ok, clear_append, clear_none, clear_zero, clear_false, Nat.reduceShiftRight, Nat.shiftRight_add, Nat.pow_add, Nat.reduceMul, and_self])
theorem Encoding.vmvs : ∀ vd ra k, Encoding.Statement (.vmvs vd ra k) := fun vd ra k => encoding_of_pick rfl (by
  rw [pick_perm (by simp (disch := decide) only [packK, bits_append_high, bits_all, BitVec.toNat_ofNat, Nat.reduceSub, Nat.sub_add_eq, Nat.reducePow, Nat.reduceMod])]
  simp (disch := decide) only [pickPerm, packK, fieldAt_bits, bits_append_high, bits_append_low, bits_all, BitVec.toNat_ofNat, Nat.reduceSub, Nat.sub_add_eq, Nat.reduceMod, Nat.reducePow, zeros_ok, clear_append, clear_none, clear_zero, clear_false, Nat.reduceShiftRight, Nat.shiftRight_add, Nat.pow_add, Nat.reduceMul, and_self])
theorem Encoding.vmvx : ∀ rd va rb, Encoding.Statement (.vmvx rd va rb) := fun rd va rb => encoding_of_pick rfl (by
  rw [pick_perm (by simp (disch := decide) only [packK, bits_append_high, bits_all, BitVec.toNat_ofNat, Nat.reduceSub, Nat.sub_add_eq, Nat.reducePow, Nat.reduceMod])]
  simp (disch := decide) only [pickPerm, packK, fieldAt_bits, bits_append_high, bits_append_low, bits_all, BitVec.toNat_ofNat, Nat.reduceSub, Nat.sub_add_eq, Nat.reduceMod, Nat.reducePow, zeros_ok, clear_append, clear_none, clear_zero, clear_false, Nat.reduceShiftRight, Nat.shiftRight_add, Nat.pow_add, Nat.reduceMul, and_self])
theorem Encoding.vslideup : ∀ vd va rb k, Encoding.Statement (.vslideup vd va rb k) := fun vd va rb k => encoding_of_pick rfl (by
  rw [pick_perm (by simp (disch := decide) only [packK, bits_append_high, bits_all, BitVec.toNat_ofNat, Nat.reduceSub, Nat.sub_add_eq, Nat.reducePow, Nat.reduceMod])]
  simp (disch := decide) only [pickPerm, packK, fieldAt_bits, bits_append_high, bits_append_low, bits_all, BitVec.toNat_ofNat, Nat.reduceSub, Nat.sub_add_eq, Nat.reduceMod, Nat.reducePow, zeros_ok, clear_append, clear_none, clear_zero, clear_false, Nat.reduceShiftRight, Nat.shiftRight_add, Nat.pow_add, Nat.reduceMul, and_self])
theorem Encoding.vslidedn : ∀ vd va rb k, Encoding.Statement (.vslidedn vd va rb k) := fun vd va rb k => encoding_of_pick rfl (by
  rw [pick_perm (by simp (disch := decide) only [packK, bits_append_high, bits_all, BitVec.toNat_ofNat, Nat.reduceSub, Nat.sub_add_eq, Nat.reducePow, Nat.reduceMod])]
  simp (disch := decide) only [pickPerm, packK, fieldAt_bits, bits_append_high, bits_append_low, bits_all, BitVec.toNat_ofNat, Nat.reduceSub, Nat.sub_add_eq, Nat.reduceMod, Nat.reducePow, zeros_ok, clear_append, clear_none, clear_zero, clear_false, Nat.reduceShiftRight, Nat.shiftRight_add, Nat.pow_add, Nat.reduceMul, and_self])
theorem Encoding.vslide1up : ∀ vd va rb k, Encoding.Statement (.vslide1up vd va rb k) := fun vd va rb k => encoding_of_pick rfl (by
  rw [pick_perm (by simp (disch := decide) only [packK, bits_append_high, bits_all, BitVec.toNat_ofNat, Nat.reduceSub, Nat.sub_add_eq, Nat.reducePow, Nat.reduceMod])]
  simp (disch := decide) only [pickPerm, packK, fieldAt_bits, bits_append_high, bits_append_low, bits_all, BitVec.toNat_ofNat, Nat.reduceSub, Nat.sub_add_eq, Nat.reduceMod, Nat.reducePow, zeros_ok, clear_append, clear_none, clear_zero, clear_false, Nat.reduceShiftRight, Nat.shiftRight_add, Nat.pow_add, Nat.reduceMul, and_self])
theorem Encoding.vslide1dn : ∀ vd va rb k, Encoding.Statement (.vslide1dn vd va rb k) := fun vd va rb k => encoding_of_pick rfl (by
  rw [pick_perm (by simp (disch := decide) only [packK, bits_append_high, bits_all, BitVec.toNat_ofNat, Nat.reduceSub, Nat.sub_add_eq, Nat.reducePow, Nat.reduceMod])]
  simp (disch := decide) only [pickPerm, packK, fieldAt_bits, bits_append_high, bits_append_low, bits_all, BitVec.toNat_ofNat, Nat.reduceSub, Nat.sub_add_eq, Nat.reduceMod, Nat.reducePow, zeros_ok, clear_append, clear_none, clear_zero, clear_false, Nat.reduceShiftRight, Nat.shiftRight_add, Nat.pow_add, Nat.reduceMul, and_self])
theorem Encoding.vgather : ∀ vd va vb k, Encoding.Statement (.vgather vd va vb k) := fun vd va vb k => encoding_of_pick rfl (by
  rw [pick_perm (by simp (disch := decide) only [packK, bits_append_high, bits_all, BitVec.toNat_ofNat, Nat.reduceSub, Nat.sub_add_eq, Nat.reducePow, Nat.reduceMod])]
  simp (disch := decide) only [pickPerm, packK, fieldAt_bits, bits_append_high, bits_append_low, bits_all, BitVec.toNat_ofNat, Nat.reduceSub, Nat.sub_add_eq, Nat.reduceMod, Nat.reducePow])
theorem Encoding.vcompress : ∀ vd va k, Encoding.Statement (.vcompress vd va k) := fun vd va k => encoding_of_pick rfl (by
  rw [pick_perm (by simp (disch := decide) only [packK, bits_append_high, bits_all, BitVec.toNat_ofNat, Nat.reduceSub, Nat.sub_add_eq, Nat.reducePow, Nat.reduceMod])]
  simp (disch := decide) only [pickPerm, packK, fieldAt_bits, bits_append_high, bits_append_low, bits_all, BitVec.toNat_ofNat, Nat.reduceSub, Nat.sub_add_eq, Nat.reduceMod, Nat.reducePow, zeros_ok, clear_append, clear_none, clear_zero, clear_false, Nat.reduceShiftRight, Nat.shiftRight_add, Nat.pow_add, Nat.reduceMul, and_self])
theorem Encoding.vexpand : ∀ vd va k, Encoding.Statement (.vexpand vd va k) := fun vd va k => encoding_of_pick rfl (by
  rw [pick_perm (by simp (disch := decide) only [packK, bits_append_high, bits_all, BitVec.toNat_ofNat, Nat.reduceSub, Nat.sub_add_eq, Nat.reducePow, Nat.reduceMod])]
  simp (disch := decide) only [pickPerm, packK, fieldAt_bits, bits_append_high, bits_append_low, bits_all, BitVec.toNat_ofNat, Nat.reduceSub, Nat.sub_add_eq, Nat.reduceMod, Nat.reducePow, zeros_ok, clear_append, clear_none, clear_zero, clear_false, Nat.reduceShiftRight, Nat.shiftRight_add, Nat.pow_add, Nat.reduceMul, and_self])
theorem Encoding.viota : ∀ vd ka k, Encoding.Statement (.viota vd ka k) := fun vd ka k => encoding_of_pick rfl (by
  rw [pick_perm (by simp (disch := decide) only [packK, bits_append_high, bits_all, BitVec.toNat_ofNat, Nat.reduceSub, Nat.sub_add_eq, Nat.reducePow, Nat.reduceMod])]
  simp (disch := decide) only [pickPerm, packK, fieldAt_bits, bits_append_high, bits_append_low, bits_all, BitVec.toNat_ofNat, Nat.reduceSub, Nat.sub_add_eq, Nat.reduceMod, Nat.reducePow, zeros_ok, clear_append, clear_none, clear_zero, clear_false, Nat.reduceShiftRight, Nat.shiftRight_add, Nat.pow_add, Nat.reduceMul, and_self])
theorem Encoding.vid : ∀ vd k, Encoding.Statement (.vid vd k) := fun vd k => encoding_of_pick rfl (by
  rw [pick_perm (by simp (disch := decide) only [packK, bits_append_high, bits_all, BitVec.toNat_ofNat, Nat.reduceSub, Nat.sub_add_eq, Nat.reducePow, Nat.reduceMod])]
  simp (disch := decide) only [pickPerm, packK, fieldAt_bits, bits_append_high, bits_append_low, bits_all, BitVec.toNat_ofNat, Nat.reduceSub, Nat.sub_add_eq, Nat.reduceMod, Nat.reducePow, zeros_ok, clear_append, clear_none, clear_zero, clear_false, Nat.reduceShiftRight, Nat.shiftRight_add, Nat.pow_add, Nat.reduceMul, and_self])
theorem Encoding.vtrans : ∀ vd va k, Encoding.Statement (.vtrans vd va k) := fun vd va k => encoding_of_pick rfl (by
  rw [pick_perm (by simp (disch := decide) only [packK, bits_append_high, bits_all, BitVec.toNat_ofNat, Nat.reduceSub, Nat.sub_add_eq, Nat.reducePow, Nat.reduceMod])]
  simp (disch := decide) only [pickPerm, packK, fieldAt_bits, bits_append_high, bits_append_low, bits_all, BitVec.toNat_ofNat, Nat.reduceSub, Nat.sub_add_eq, Nat.reduceMod, Nat.reducePow, zeros_ok, clear_append, clear_none, clear_zero, clear_false, Nat.reduceShiftRight, Nat.shiftRight_add, Nat.pow_add, Nat.reduceMul, and_self])
theorem Encoding.vrowbc : ∀ vd va rb k, Encoding.Statement (.vrowbc vd va rb k) := fun vd va rb k => encoding_of_pick rfl (by
  rw [pick_perm (by simp (disch := decide) only [packK, bits_append_high, bits_all, BitVec.toNat_ofNat, Nat.reduceSub, Nat.sub_add_eq, Nat.reducePow, Nat.reduceMod])]
  simp (disch := decide) only [pickPerm, packK, fieldAt_bits, bits_append_high, bits_append_low, bits_all, BitVec.toNat_ofNat, Nat.reduceSub, Nat.sub_add_eq, Nat.reduceMod, Nat.reducePow, zeros_ok, clear_append, clear_none, clear_zero, clear_false, Nat.reduceShiftRight, Nat.shiftRight_add, Nat.pow_add, Nat.reduceMul, and_self])
theorem Encoding.kand : ∀ kd ka kb, Encoding.Statement (.kand kd ka kb) := fun kd ka kb => encoding_of_pick rfl (by
  rw [pick_mask (by simp (disch := decide) only [packK, bits_append_high, bits_all, BitVec.toNat_ofNat, Nat.reduceSub, Nat.sub_add_eq, Nat.reducePow, Nat.reduceMod])]
  simp (disch := decide) only [pickMask, packK, fieldAt_bits, bits_append_high, bits_append_low, bits_all, BitVec.toNat_ofNat, Nat.reduceSub, Nat.sub_add_eq, Nat.reduceMod, Nat.reducePow, zeros_ok, clear_append, clear_none, clear_zero, clear_false, Nat.reduceShiftRight, Nat.shiftRight_add, Nat.pow_add, Nat.reduceMul, and_self])
theorem Encoding.kor : ∀ kd ka kb, Encoding.Statement (.kor kd ka kb) := fun kd ka kb => encoding_of_pick rfl (by
  rw [pick_mask (by simp (disch := decide) only [packK, bits_append_high, bits_all, BitVec.toNat_ofNat, Nat.reduceSub, Nat.sub_add_eq, Nat.reducePow, Nat.reduceMod])]
  simp (disch := decide) only [pickMask, packK, fieldAt_bits, bits_append_high, bits_append_low, bits_all, BitVec.toNat_ofNat, Nat.reduceSub, Nat.sub_add_eq, Nat.reduceMod, Nat.reducePow, zeros_ok, clear_append, clear_none, clear_zero, clear_false, Nat.reduceShiftRight, Nat.shiftRight_add, Nat.pow_add, Nat.reduceMul, and_self])
theorem Encoding.kxor : ∀ kd ka kb, Encoding.Statement (.kxor kd ka kb) := fun kd ka kb => encoding_of_pick rfl (by
  rw [pick_mask (by simp (disch := decide) only [packK, bits_append_high, bits_all, BitVec.toNat_ofNat, Nat.reduceSub, Nat.sub_add_eq, Nat.reducePow, Nat.reduceMod])]
  simp (disch := decide) only [pickMask, packK, fieldAt_bits, bits_append_high, bits_append_low, bits_all, BitVec.toNat_ofNat, Nat.reduceSub, Nat.sub_add_eq, Nat.reduceMod, Nat.reducePow, zeros_ok, clear_append, clear_none, clear_zero, clear_false, Nat.reduceShiftRight, Nat.shiftRight_add, Nat.pow_add, Nat.reduceMul, and_self])
theorem Encoding.kandn : ∀ kd ka kb, Encoding.Statement (.kandn kd ka kb) := fun kd ka kb => encoding_of_pick rfl (by
  rw [pick_mask (by simp (disch := decide) only [packK, bits_append_high, bits_all, BitVec.toNat_ofNat, Nat.reduceSub, Nat.sub_add_eq, Nat.reducePow, Nat.reduceMod])]
  simp (disch := decide) only [pickMask, packK, fieldAt_bits, bits_append_high, bits_append_low, bits_all, BitVec.toNat_ofNat, Nat.reduceSub, Nat.sub_add_eq, Nat.reduceMod, Nat.reducePow, zeros_ok, clear_append, clear_none, clear_zero, clear_false, Nat.reduceShiftRight, Nat.shiftRight_add, Nat.pow_add, Nat.reduceMul, and_self])
theorem Encoding.knot : ∀ kd ka, Encoding.Statement (.knot kd ka) := fun kd ka => encoding_of_pick rfl (by
  rw [pick_mask (by simp (disch := decide) only [packK, bits_append_high, bits_all, BitVec.toNat_ofNat, Nat.reduceSub, Nat.sub_add_eq, Nat.reducePow, Nat.reduceMod])]
  simp (disch := decide) only [pickMask, packK, fieldAt_bits, bits_append_high, bits_append_low, bits_all, BitVec.toNat_ofNat, Nat.reduceSub, Nat.sub_add_eq, Nat.reduceMod, Nat.reducePow, zeros_ok, clear_append, clear_none, clear_zero, clear_false, Nat.reduceShiftRight, Nat.shiftRight_add, Nat.pow_add, Nat.reduceMul, and_self])
theorem Encoding.kmv : ∀ kd ka, Encoding.Statement (.kmv kd ka) := fun kd ka => encoding_of_pick rfl (by
  rw [pick_mask (by simp (disch := decide) only [packK, bits_append_high, bits_all, BitVec.toNat_ofNat, Nat.reduceSub, Nat.sub_add_eq, Nat.reducePow, Nat.reduceMod])]
  simp (disch := decide) only [pickMask, packK, fieldAt_bits, bits_append_high, bits_append_low, bits_all, BitVec.toNat_ofNat, Nat.reduceSub, Nat.sub_add_eq, Nat.reduceMod, Nat.reducePow, zeros_ok, clear_append, clear_none, clear_zero, clear_false, Nat.reduceShiftRight, Nat.shiftRight_add, Nat.pow_add, Nat.reduceMul, and_self])
theorem Encoding.kpopc : ∀ rd ka, Encoding.Statement (.kpopc rd ka) := fun rd ka => encoding_of_pick rfl (by
  rw [pick_mask (by simp (disch := decide) only [packK, bits_append_high, bits_all, BitVec.toNat_ofNat, Nat.reduceSub, Nat.sub_add_eq, Nat.reducePow, Nat.reduceMod])]
  simp (disch := decide) only [pickMask, packK, fieldAt_bits, bits_append_high, bits_append_low, bits_all, BitVec.toNat_ofNat, Nat.reduceSub, Nat.sub_add_eq, Nat.reduceMod, Nat.reducePow, zeros_ok, clear_append, clear_none, clear_zero, clear_false, Nat.reduceShiftRight, Nat.shiftRight_add, Nat.pow_add, Nat.reduceMul, and_self])
theorem Encoding.kfirst : ∀ rd ka, Encoding.Statement (.kfirst rd ka) := fun rd ka => encoding_of_pick rfl (by
  rw [pick_mask (by simp (disch := decide) only [packK, bits_append_high, bits_all, BitVec.toNat_ofNat, Nat.reduceSub, Nat.sub_add_eq, Nat.reducePow, Nat.reduceMod])]
  simp (disch := decide) only [pickMask, packK, fieldAt_bits, bits_append_high, bits_append_low, bits_all, BitVec.toNat_ofNat, Nat.reduceSub, Nat.sub_add_eq, Nat.reduceMod, Nat.reducePow, zeros_ok, clear_append, clear_none, clear_zero, clear_false, Nat.reduceShiftRight, Nat.shiftRight_add, Nat.pow_add, Nat.reduceMul, and_self])
theorem Encoding.kbrkb : ∀ kd ka, Encoding.Statement (.kbrkb kd ka) := fun kd ka => encoding_of_pick rfl (by
  rw [pick_mask (by simp (disch := decide) only [packK, bits_append_high, bits_all, BitVec.toNat_ofNat, Nat.reduceSub, Nat.sub_add_eq, Nat.reducePow, Nat.reduceMod])]
  simp (disch := decide) only [pickMask, packK, fieldAt_bits, bits_append_high, bits_append_low, bits_all, BitVec.toNat_ofNat, Nat.reduceSub, Nat.sub_add_eq, Nat.reduceMod, Nat.reducePow, zeros_ok, clear_append, clear_none, clear_zero, clear_false, Nat.reduceShiftRight, Nat.shiftRight_add, Nat.pow_add, Nat.reduceMul, and_self])
theorem Encoding.kbrka : ∀ kd ka, Encoding.Statement (.kbrka kd ka) := fun kd ka => encoding_of_pick rfl (by
  rw [pick_mask (by simp (disch := decide) only [packK, bits_append_high, bits_all, BitVec.toNat_ofNat, Nat.reduceSub, Nat.sub_add_eq, Nat.reducePow, Nat.reduceMod])]
  simp (disch := decide) only [pickMask, packK, fieldAt_bits, bits_append_high, bits_append_low, bits_all, BitVec.toNat_ofNat, Nat.reduceSub, Nat.sub_add_eq, Nat.reduceMod, Nat.reducePow, zeros_ok, clear_append, clear_none, clear_zero, clear_false, Nat.reduceShiftRight, Nat.shiftRight_add, Nat.pow_add, Nat.reduceMul, and_self])
theorem Encoding.kbrko : ∀ kd ka, Encoding.Statement (.kbrko kd ka) := fun kd ka => encoding_of_pick rfl (by
  rw [pick_mask (by simp (disch := decide) only [packK, bits_append_high, bits_all, BitVec.toNat_ofNat, Nat.reduceSub, Nat.sub_add_eq, Nat.reducePow, Nat.reduceMod])]
  simp (disch := decide) only [pickMask, packK, fieldAt_bits, bits_append_high, bits_append_low, bits_all, BitVec.toNat_ofNat, Nat.reduceSub, Nat.sub_add_eq, Nat.reduceMod, Nat.reducePow, zeros_ok, clear_append, clear_none, clear_zero, clear_false, Nat.reduceShiftRight, Nat.shiftRight_add, Nat.pow_add, Nat.reduceMul, and_self])
theorem Encoding.kfromv : ∀ kd va, Encoding.Statement (.kfromv kd va) := fun kd va => encoding_of_pick rfl (by
  rw [pick_mask (by simp (disch := decide) only [packK, bits_append_high, bits_all, BitVec.toNat_ofNat, Nat.reduceSub, Nat.sub_add_eq, Nat.reducePow, Nat.reduceMod])]
  simp (disch := decide) only [pickMask, packK, fieldAt_bits, bits_append_high, bits_append_low, bits_all, BitVec.toNat_ofNat, Nat.reduceSub, Nat.sub_add_eq, Nat.reduceMod, Nat.reducePow, zeros_ok, clear_append, clear_none, clear_zero, clear_false, Nat.reduceShiftRight, Nat.shiftRight_add, Nat.pow_add, Nat.reduceMul, and_self])
theorem Encoding.ktov : ∀ vd ka, Encoding.Statement (.ktov vd ka) := fun vd ka => encoding_of_pick rfl (by
  rw [pick_mask (by simp (disch := decide) only [packK, bits_append_high, bits_all, BitVec.toNat_ofNat, Nat.reduceSub, Nat.sub_add_eq, Nat.reducePow, Nat.reduceMod])]
  simp (disch := decide) only [pickMask, packK, fieldAt_bits, bits_append_high, bits_append_low, bits_all, BitVec.toNat_ofNat, Nat.reduceSub, Nat.sub_add_eq, Nat.reduceMod, Nat.reducePow, zeros_ok, clear_append, clear_none, clear_zero, clear_false, Nat.reduceShiftRight, Nat.shiftRight_add, Nat.pow_add, Nat.reduceMul, and_self])
theorem Encoding.kset : ∀ kd ra rb, Encoding.Statement (.kset kd ra rb) := fun kd ra rb => encoding_of_pick rfl (by
  rw [pick_mask (by simp (disch := decide) only [packK, bits_append_high, bits_all, BitVec.toNat_ofNat, Nat.reduceSub, Nat.sub_add_eq, Nat.reducePow, Nat.reduceMod])]
  simp (disch := decide) only [pickMask, packK, fieldAt_bits, bits_append_high, bits_append_low, bits_all, BitVec.toNat_ofNat, Nat.reduceSub, Nat.sub_add_eq, Nat.reduceMod, Nat.reducePow, zeros_ok, clear_append, clear_none, clear_zero, clear_false, Nat.reduceShiftRight, Nat.shiftRight_add, Nat.pow_add, Nat.reduceMul, and_self])
theorem Encoding.vld : ∀ f, Encoding.Statement (.vld f) := fun f => encoding_of_pick rfl (by
  rw [pick_loadz (by simp (disch := decide) only [packM, bits_append_high, bits_all, BitVec.toNat_ofNat, Nat.reduceSub, Nat.sub_add_eq, Nat.reducePow, Nat.reduceMod])]
  simp (disch := decide) only [pickLoadZ, packM, fieldAt_bits, bits_append_high, bits_append_low, bits_all, BitVec.toNat_ofNat, Nat.reduceSub, Nat.sub_add_eq, Nat.reduceMod, Nat.reducePow, flagAt_bit, bit_append_high, bit_append_low, bit_ofBit, zeros_ok, clear_append, clear_none, clear_zero, clear_false, Nat.reduceShiftRight, Nat.shiftRight_add, Nat.pow_add, Nat.reduceMul, and_self])
theorem Encoding.vldstr : ∀ f st, Encoding.Statement (.vldstr f st) := fun f st => encoding_of_pick rfl (by
  rw [pick_loadz (by simp (disch := decide) only [packM, bits_append_high, bits_all, BitVec.toNat_ofNat, Nat.reduceSub, Nat.sub_add_eq, Nat.reducePow, Nat.reduceMod])]
  simp (disch := decide) only [pickLoadZ, packM, fieldAt_bits, bits_append_high, bits_append_low, bits_all, BitVec.toNat_ofNat, Nat.reduceSub, Nat.sub_add_eq, Nat.reduceMod, Nat.reducePow, flagAt_bit, bit_append_high, bit_append_low, bit_ofBit, zeros_ok, clear_append, clear_none, clear_zero, clear_false, Nat.reduceShiftRight, Nat.shiftRight_add, Nat.pow_add, Nat.reduceMul, and_self])
theorem Encoding.vldx : ∀ f vi, Encoding.Statement (.vldx f vi) := fun f vi => encoding_of_pick rfl (by
  rw [pick_loadz (by simp (disch := decide) only [packM, bits_append_high, bits_all, BitVec.toNat_ofNat, Nat.reduceSub, Nat.sub_add_eq, Nat.reducePow, Nat.reduceMod])]
  simp (disch := decide) only [pickLoadZ, packM, fieldAt_bits, bits_append_high, bits_append_low, bits_all, BitVec.toNat_ofNat, Nat.reduceSub, Nat.sub_add_eq, Nat.reduceMod, Nat.reducePow, flagAt_bit, bit_append_high, bit_append_low, bit_ofBit])
theorem Encoding.vldff : ∀ f, Encoding.Statement (.vldff f) := fun f => encoding_of_pick rfl (by
  rw [pick_loadz (by simp (disch := decide) only [packM, bits_append_high, bits_all, BitVec.toNat_ofNat, Nat.reduceSub, Nat.sub_add_eq, Nat.reducePow, Nat.reduceMod])]
  simp (disch := decide) only [pickLoadZ, packM, fieldAt_bits, bits_append_high, bits_append_low, bits_all, BitVec.toNat_ofNat, Nat.reduceSub, Nat.sub_add_eq, Nat.reduceMod, Nat.reducePow, flagAt_bit, bit_append_high, bit_append_low, bit_ofBit, zeros_ok, clear_append, clear_none, clear_zero, clear_false, Nat.reduceShiftRight, Nat.shiftRight_add, Nat.pow_add, Nat.reduceMul, and_self])
theorem Encoding.vldSignExtending : ∀ f, Encoding.Statement (.vldSignExtending f) := fun f => encoding_of_pick rfl (by
  rw [pick_loads (by simp (disch := decide) only [packM, bits_append_high, bits_all, BitVec.toNat_ofNat, Nat.reduceSub, Nat.sub_add_eq, Nat.reducePow, Nat.reduceMod])]
  simp (disch := decide) only [pickLoadS, packM, fieldAt_bits, bits_append_high, bits_append_low, bits_all, BitVec.toNat_ofNat, Nat.reduceSub, Nat.sub_add_eq, Nat.reduceMod, Nat.reducePow, flagAt_bit, bit_append_high, bit_append_low, bit_ofBit, zeros_ok, clear_append, clear_none, clear_zero, clear_false, Nat.reduceShiftRight, Nat.shiftRight_add, Nat.pow_add, Nat.reduceMul, and_self])
theorem Encoding.vldstrSignExtending : ∀ f st, Encoding.Statement (.vldstrSignExtending f st) := fun f st => encoding_of_pick rfl (by
  rw [pick_loads (by simp (disch := decide) only [packM, bits_append_high, bits_all, BitVec.toNat_ofNat, Nat.reduceSub, Nat.sub_add_eq, Nat.reducePow, Nat.reduceMod])]
  simp (disch := decide) only [pickLoadS, packM, fieldAt_bits, bits_append_high, bits_append_low, bits_all, BitVec.toNat_ofNat, Nat.reduceSub, Nat.sub_add_eq, Nat.reduceMod, Nat.reducePow, flagAt_bit, bit_append_high, bit_append_low, bit_ofBit, zeros_ok, clear_append, clear_none, clear_zero, clear_false, Nat.reduceShiftRight, Nat.shiftRight_add, Nat.pow_add, Nat.reduceMul, and_self])
theorem Encoding.vldxSignExtending : ∀ f vi, Encoding.Statement (.vldxSignExtending f vi) := fun f vi => encoding_of_pick rfl (by
  rw [pick_loads (by simp (disch := decide) only [packM, bits_append_high, bits_all, BitVec.toNat_ofNat, Nat.reduceSub, Nat.sub_add_eq, Nat.reducePow, Nat.reduceMod])]
  simp (disch := decide) only [pickLoadS, packM, fieldAt_bits, bits_append_high, bits_append_low, bits_all, BitVec.toNat_ofNat, Nat.reduceSub, Nat.sub_add_eq, Nat.reduceMod, Nat.reducePow, flagAt_bit, bit_append_high, bit_append_low, bit_ofBit])
theorem Encoding.vldffSignExtending : ∀ f, Encoding.Statement (.vldffSignExtending f) := fun f => encoding_of_pick rfl (by
  rw [pick_loads (by simp (disch := decide) only [packM, bits_append_high, bits_all, BitVec.toNat_ofNat, Nat.reduceSub, Nat.sub_add_eq, Nat.reducePow, Nat.reduceMod])]
  simp (disch := decide) only [pickLoadS, packM, fieldAt_bits, bits_append_high, bits_append_low, bits_all, BitVec.toNat_ofNat, Nat.reduceSub, Nat.sub_add_eq, Nat.reduceMod, Nat.reducePow, flagAt_bit, bit_append_high, bit_append_low, bit_ofBit, zeros_ok, clear_append, clear_none, clear_zero, clear_false, Nat.reduceShiftRight, Nat.shiftRight_add, Nat.pow_add, Nat.reduceMul, and_self])
theorem Encoding.vst : ∀ f, Encoding.Statement (.vst f) := fun f => encoding_of_pick rfl (by
  rw [pick_store (by simp (disch := decide) only [packM, bits_append_high, bits_all, BitVec.toNat_ofNat, Nat.reduceSub, Nat.sub_add_eq, Nat.reducePow, Nat.reduceMod])]
  simp (disch := decide) only [pickStore, packM, fieldAt_bits, bits_append_high, bits_append_low, bits_all, BitVec.toNat_ofNat, Nat.reduceSub, Nat.sub_add_eq, Nat.reduceMod, Nat.reducePow, flagAt_bit, bit_append_high, bit_append_low, bit_ofBit, zeros_ok, clear_append, clear_none, clear_zero, clear_false, Nat.reduceShiftRight, Nat.shiftRight_add, Nat.pow_add, Nat.reduceMul, and_self])
theorem Encoding.vststr : ∀ f st, Encoding.Statement (.vststr f st) := fun f st => encoding_of_pick rfl (by
  rw [pick_store (by simp (disch := decide) only [packM, bits_append_high, bits_all, BitVec.toNat_ofNat, Nat.reduceSub, Nat.sub_add_eq, Nat.reducePow, Nat.reduceMod])]
  simp (disch := decide) only [pickStore, packM, fieldAt_bits, bits_append_high, bits_append_low, bits_all, BitVec.toNat_ofNat, Nat.reduceSub, Nat.sub_add_eq, Nat.reduceMod, Nat.reducePow, flagAt_bit, bit_append_high, bit_append_low, bit_ofBit, zeros_ok, clear_append, clear_none, clear_zero, clear_false, Nat.reduceShiftRight, Nat.shiftRight_add, Nat.pow_add, Nat.reduceMul, and_self])
theorem Encoding.vstx : ∀ f vi, Encoding.Statement (.vstx f vi) := fun f vi => encoding_of_pick rfl (by
  rw [pick_store (by simp (disch := decide) only [packM, bits_append_high, bits_all, BitVec.toNat_ofNat, Nat.reduceSub, Nat.sub_add_eq, Nat.reducePow, Nat.reduceMod])]
  simp (disch := decide) only [pickStore, packM, fieldAt_bits, bits_append_high, bits_append_low, bits_all, BitVec.toNat_ofNat, Nat.reduceSub, Nat.sub_add_eq, Nat.reduceMod, Nat.reducePow, flagAt_bit, bit_append_high, bit_append_low, bit_ofBit])
theorem Encoding.vamoAdd : ∀ f, Encoding.Statement (.vamoAdd f) := fun f => encoding_of_pick rfl (by
  rw [pick_vamo (by simp (disch := decide) only [packAV, bits_append_high, bits_all, BitVec.toNat_ofNat, Nat.reduceSub, Nat.sub_add_eq, Nat.reducePow, Nat.reduceMod])]
  simp (disch := decide) only [pickVamo, packAV, fieldAt_bits, bits_append_high, bits_append_low, bits_all, BitVec.toNat_ofNat, Nat.reduceSub, Nat.sub_add_eq, Nat.reduceMod, Nat.reducePow, flagAt_bit, bit_append_high, bit_append_low, bit_ofBit])
theorem Encoding.vamoSwap : ∀ f, Encoding.Statement (.vamoSwap f) := fun f => encoding_of_pick rfl (by
  rw [pick_vamo (by simp (disch := decide) only [packAV, bits_append_high, bits_all, BitVec.toNat_ofNat, Nat.reduceSub, Nat.sub_add_eq, Nat.reducePow, Nat.reduceMod])]
  simp (disch := decide) only [pickVamo, packAV, fieldAt_bits, bits_append_high, bits_append_low, bits_all, BitVec.toNat_ofNat, Nat.reduceSub, Nat.sub_add_eq, Nat.reduceMod, Nat.reducePow, flagAt_bit, bit_append_high, bit_append_low, bit_ofBit])
theorem Encoding.vamoAnd : ∀ f, Encoding.Statement (.vamoAnd f) := fun f => encoding_of_pick rfl (by
  rw [pick_vamo (by simp (disch := decide) only [packAV, bits_append_high, bits_all, BitVec.toNat_ofNat, Nat.reduceSub, Nat.sub_add_eq, Nat.reducePow, Nat.reduceMod])]
  simp (disch := decide) only [pickVamo, packAV, fieldAt_bits, bits_append_high, bits_append_low, bits_all, BitVec.toNat_ofNat, Nat.reduceSub, Nat.sub_add_eq, Nat.reduceMod, Nat.reducePow, flagAt_bit, bit_append_high, bit_append_low, bit_ofBit])
theorem Encoding.vamoOr : ∀ f, Encoding.Statement (.vamoOr f) := fun f => encoding_of_pick rfl (by
  rw [pick_vamo (by simp (disch := decide) only [packAV, bits_append_high, bits_all, BitVec.toNat_ofNat, Nat.reduceSub, Nat.sub_add_eq, Nat.reducePow, Nat.reduceMod])]
  simp (disch := decide) only [pickVamo, packAV, fieldAt_bits, bits_append_high, bits_append_low, bits_all, BitVec.toNat_ofNat, Nat.reduceSub, Nat.sub_add_eq, Nat.reduceMod, Nat.reducePow, flagAt_bit, bit_append_high, bit_append_low, bit_ofBit])
theorem Encoding.vamoXor : ∀ f, Encoding.Statement (.vamoXor f) := fun f => encoding_of_pick rfl (by
  rw [pick_vamo (by simp (disch := decide) only [packAV, bits_append_high, bits_all, BitVec.toNat_ofNat, Nat.reduceSub, Nat.sub_add_eq, Nat.reducePow, Nat.reduceMod])]
  simp (disch := decide) only [pickVamo, packAV, fieldAt_bits, bits_append_high, bits_append_low, bits_all, BitVec.toNat_ofNat, Nat.reduceSub, Nat.sub_add_eq, Nat.reduceMod, Nat.reducePow, flagAt_bit, bit_append_high, bit_append_low, bit_ofBit])
theorem Encoding.vamoMin : ∀ f, Encoding.Statement (.vamoMin f) := fun f => encoding_of_pick rfl (by
  rw [pick_vamo (by simp (disch := decide) only [packAV, bits_append_high, bits_all, BitVec.toNat_ofNat, Nat.reduceSub, Nat.sub_add_eq, Nat.reducePow, Nat.reduceMod])]
  simp (disch := decide) only [pickVamo, packAV, fieldAt_bits, bits_append_high, bits_append_low, bits_all, BitVec.toNat_ofNat, Nat.reduceSub, Nat.sub_add_eq, Nat.reduceMod, Nat.reducePow, flagAt_bit, bit_append_high, bit_append_low, bit_ofBit])
theorem Encoding.vamoMax : ∀ f, Encoding.Statement (.vamoMax f) := fun f => encoding_of_pick rfl (by
  rw [pick_vamo (by simp (disch := decide) only [packAV, bits_append_high, bits_all, BitVec.toNat_ofNat, Nat.reduceSub, Nat.sub_add_eq, Nat.reducePow, Nat.reduceMod])]
  simp (disch := decide) only [pickVamo, packAV, fieldAt_bits, bits_append_high, bits_append_low, bits_all, BitVec.toNat_ofNat, Nat.reduceSub, Nat.sub_add_eq, Nat.reduceMod, Nat.reducePow, flagAt_bit, bit_append_high, bit_append_low, bit_ofBit])
theorem Encoding.vamoCas : ∀ f, Encoding.Statement (.vamoCas f) := fun f => encoding_of_pick rfl (by
  rw [pick_vamo (by simp (disch := decide) only [packAV, bits_append_high, bits_all, BitVec.toNat_ofNat, Nat.reduceSub, Nat.sub_add_eq, Nat.reducePow, Nat.reduceMod])]
  simp (disch := decide) only [pickVamo, packAV, fieldAt_bits, bits_append_high, bits_append_low, bits_all, BitVec.toNat_ofNat, Nat.reduceSub, Nat.sub_add_eq, Nat.reduceMod, Nat.reducePow, flagAt_bit, bit_append_high, bit_append_low, bit_ofBit])
theorem Encoding.vamoMinu : ∀ f, Encoding.Statement (.vamoMinu f) := fun f => encoding_of_pick rfl (by
  rw [pick_vamo2 (by simp (disch := decide) only [packAV, bits_append_high, bits_all, BitVec.toNat_ofNat, Nat.reduceSub, Nat.sub_add_eq, Nat.reducePow, Nat.reduceMod])]
  simp (disch := decide) only [pickVamo2, packAV, fieldAt_bits, bits_append_high, bits_append_low, bits_all, BitVec.toNat_ofNat, Nat.reduceSub, Nat.sub_add_eq, Nat.reduceMod, Nat.reducePow, flagAt_bit, bit_append_high, bit_append_low, bit_ofBit])
theorem Encoding.vamoMaxu : ∀ f, Encoding.Statement (.vamoMaxu f) := fun f => encoding_of_pick rfl (by
  rw [pick_vamo2 (by simp (disch := decide) only [packAV, bits_append_high, bits_all, BitVec.toNat_ofNat, Nat.reduceSub, Nat.sub_add_eq, Nat.reducePow, Nat.reduceMod])]
  simp (disch := decide) only [pickVamo2, packAV, fieldAt_bits, bits_append_high, bits_append_low, bits_all, BitVec.toNat_ofNat, Nat.reduceSub, Nat.sub_add_eq, Nat.reduceMod, Nat.reducePow, flagAt_bit, bit_append_high, bit_append_low, bit_ofBit])
theorem Encoding.vamoFadd : ∀ f, Encoding.Statement (.vamoFadd f) := fun f => encoding_of_pick rfl (by
  rw [pick_vamo2 (by simp (disch := decide) only [packAV, bits_append_high, bits_all, BitVec.toNat_ofNat, Nat.reduceSub, Nat.sub_add_eq, Nat.reducePow, Nat.reduceMod])]
  simp (disch := decide) only [pickVamo2, packAV, fieldAt_bits, bits_append_high, bits_append_low, bits_all, BitVec.toNat_ofNat, Nat.reduceSub, Nat.sub_add_eq, Nat.reduceMod, Nat.reducePow, flagAt_bit, bit_append_high, bit_append_low, bit_ofBit])
theorem Encoding.vamoDip : ∀ f, Encoding.Statement (.vamoDip f) := fun f => encoding_of_pick rfl (by
  rw [pick_vamo2 (by simp (disch := decide) only [packAV, bits_append_high, bits_all, BitVec.toNat_ofNat, Nat.reduceSub, Nat.sub_add_eq, Nat.reducePow, Nat.reduceMod])]
  simp (disch := decide) only [pickVamo2, packAV, fieldAt_bits, bits_append_high, bits_append_low, bits_all, BitVec.toNat_ofNat, Nat.reduceSub, Nat.sub_add_eq, Nat.reduceMod, Nat.reducePow, flagAt_bit, bit_append_high, bit_append_low, bit_ofBit])
theorem Encoding.vhist : ∀ f, Encoding.Statement (.vhist f) := fun f => encoding_of_pick rfl (by
  rw [pick_vamo2 (by simp (disch := decide) only [packAV, bits_append_high, bits_all, BitVec.toNat_ofNat, Nat.reduceSub, Nat.sub_add_eq, Nat.reducePow, Nat.reduceMod])]
  simp (disch := decide) only [pickVamo2, packAV, fieldAt_bits, bits_append_high, bits_append_low, bits_all, BitVec.toNat_ofNat, Nat.reduceSub, Nat.sub_add_eq, Nat.reduceMod, Nat.reducePow, flagAt_bit, bit_append_high, bit_append_low, bit_ofBit])
theorem Encoding.mzero : ∀ ac, Encoding.Statement (.mzero ac) := fun ac => encoding_of_pick rfl (by
  rw [pick_matrix (by simp (disch := decide) only [packX, bits_append_high, bits_all, BitVec.toNat_ofNat, Nat.reduceSub, Nat.sub_add_eq, Nat.reducePow, Nat.reduceMod])]
  simp (disch := decide) only [pickMatrix, packX, fieldAt_bits, bits_append_high, bits_append_low, bits_all, BitVec.toNat_ofNat, Nat.reduceSub, Nat.sub_add_eq, Nat.reduceMod, Nat.reducePow, flagAt_bit, bit_append_high, bit_append_low, bit_ofBit, zeros_ok, clear_append, clear_none, clear_zero, clear_false, Nat.reduceShiftRight, Nat.shiftRight_add, Nat.pow_add, Nat.reduceMul, and_self])
theorem Encoding.mop : ∀ ac va vb km, Encoding.Statement (.mop ac va vb km) := fun ac va vb km => encoding_of_pick rfl (by
  rw [pick_matrix (by simp (disch := decide) only [packX, bits_append_high, bits_all, BitVec.toNat_ofNat, Nat.reduceSub, Nat.sub_add_eq, Nat.reducePow, Nat.reduceMod])]
  simp (disch := decide) only [pickMatrix, packX, fieldAt_bits, bits_append_high, bits_append_low, bits_all, BitVec.toNat_ofNat, Nat.reduceSub, Nat.sub_add_eq, Nat.reduceMod, Nat.reducePow, flagAt_bit, bit_append_high, bit_append_low, bit_ofBit, zeros_ok, clear_append, clear_none, clear_zero, clear_false, Nat.reduceShiftRight, Nat.shiftRight_add, Nat.pow_add, Nat.reduceMul, and_self])
theorem Encoding.mopt : ∀ ac va tid km, Encoding.Statement (.mopt ac va tid km) := fun ac va tid km => encoding_of_pick rfl (by
  rw [pick_matrix (by simp (disch := decide) only [packX, bits_append_high, bits_all, BitVec.toNat_ofNat, Nat.reduceSub, Nat.sub_add_eq, Nat.reducePow, Nat.reduceMod])]
  simp (disch := decide) only [pickMatrix, packX, fieldAt_bits, bits_append_high, bits_append_low, bits_all, BitVec.toNat_ofNat, Nat.reduceSub, Nat.sub_add_eq, Nat.reduceMod, Nat.reducePow, flagAt_bit, bit_append_high, bit_append_low, bit_ofBit])
theorem Encoding.mopk : ∀ ac va tid km, Encoding.Statement (.mopk ac va tid km) := fun ac va tid km => encoding_of_pick rfl (by
  rw [pick_matrix (by simp (disch := decide) only [packX, bits_append_high, bits_all, BitVec.toNat_ofNat, Nat.reduceSub, Nat.sub_add_eq, Nat.reducePow, Nat.reduceMod])]
  simp (disch := decide) only [pickMatrix, packX, fieldAt_bits, bits_append_high, bits_append_low, bits_all, BitVec.toNat_ofNat, Nat.reduceSub, Nat.sub_add_eq, Nat.reduceMod, Nat.reducePow, flagAt_bit, bit_append_high, bit_append_low, bit_ofBit])
theorem Encoding.mopi : ∀ ac va vb km, Encoding.Statement (.mopi ac va vb km) := fun ac va vb km => encoding_of_pick rfl (by
  rw [pick_matrix (by simp (disch := decide) only [packX, bits_append_high, bits_all, BitVec.toNat_ofNat, Nat.reduceSub, Nat.sub_add_eq, Nat.reducePow, Nat.reduceMod])]
  simp (disch := decide) only [pickMatrix, packX, fieldAt_bits, bits_append_high, bits_append_low, bits_all, BitVec.toNat_ofNat, Nat.reduceSub, Nat.sub_add_eq, Nat.reduceMod, Nat.reducePow, flagAt_bit, bit_append_high, bit_append_low, bit_ofBit, zeros_ok, clear_append, clear_none, clear_zero, clear_false, Nat.reduceShiftRight, Nat.shiftRight_add, Nat.pow_add, Nat.reduceMul, and_self])
theorem Encoding.mld : ∀ ac sb km, Encoding.Statement (.mld ac sb km) := fun ac sb km => encoding_of_pick rfl (by
  rw [pick_matrix (by simp (disch := decide) only [packX, bits_append_high, bits_all, BitVec.toNat_ofNat, Nat.reduceSub, Nat.sub_add_eq, Nat.reducePow, Nat.reduceMod])]
  simp (disch := decide) only [pickMatrix, packX, fieldAt_bits, bits_append_high, bits_append_low, bits_all, BitVec.toNat_ofNat, Nat.reduceSub, Nat.sub_add_eq, Nat.reduceMod, Nat.reducePow, flagAt_bit, bit_append_high, bit_append_low, bit_ofBit, zeros_ok, clear_append, clear_none, clear_zero, clear_false, Nat.reduceShiftRight, Nat.shiftRight_add, Nat.pow_add, Nat.reduceMul, and_self])
theorem Encoding.mst : ∀ ac sb km, Encoding.Statement (.mst ac sb km) := fun ac sb km => encoding_of_pick rfl (by
  rw [pick_matrix (by simp (disch := decide) only [packX, bits_append_high, bits_all, BitVec.toNat_ofNat, Nat.reduceSub, Nat.sub_add_eq, Nat.reducePow, Nat.reduceMod])]
  simp (disch := decide) only [pickMatrix, packX, fieldAt_bits, bits_append_high, bits_append_low, bits_all, BitVec.toNat_ofNat, Nat.reduceSub, Nat.sub_add_eq, Nat.reduceMod, Nat.reducePow, flagAt_bit, bit_append_high, bit_append_low, bit_ofBit, zeros_ok, clear_append, clear_none, clear_zero, clear_false, Nat.reduceShiftRight, Nat.shiftRight_add, Nat.pow_add, Nat.reduceMul, and_self])
theorem Encoding.mva : ∀ ac vd km, Encoding.Statement (.mva ac vd km) := fun ac vd km => encoding_of_pick rfl (by
  rw [pick_matrix (by simp (disch := decide) only [packX, bits_append_high, bits_all, BitVec.toNat_ofNat, Nat.reduceSub, Nat.sub_add_eq, Nat.reducePow, Nat.reduceMod])]
  simp (disch := decide) only [pickMatrix, packX, fieldAt_bits, bits_append_high, bits_append_low, bits_all, BitVec.toNat_ofNat, Nat.reduceSub, Nat.sub_add_eq, Nat.reduceMod, Nat.reducePow, flagAt_bit, bit_append_high, bit_append_low, bit_ofBit, zeros_ok, clear_append, clear_none, clear_zero, clear_false, Nat.reduceShiftRight, Nat.shiftRight_add, Nat.pow_add, Nat.reduceMul, and_self])
theorem Encoding.mav : ∀ ac va km, Encoding.Statement (.mav ac va km) := fun ac va km => encoding_of_pick rfl (by
  rw [pick_matrix (by simp (disch := decide) only [packX, bits_append_high, bits_all, BitVec.toNat_ofNat, Nat.reduceSub, Nat.sub_add_eq, Nat.reducePow, Nat.reduceMod])]
  simp (disch := decide) only [pickMatrix, packX, fieldAt_bits, bits_append_high, bits_append_low, bits_all, BitVec.toNat_ofNat, Nat.reduceSub, Nat.sub_add_eq, Nat.reduceMod, Nat.reducePow, flagAt_bit, bit_append_high, bit_append_low, bit_ofBit, zeros_ok, clear_append, clear_none, clear_zero, clear_false, Nat.reduceShiftRight, Nat.shiftRight_add, Nat.pow_add, Nat.reduceMul, and_self])
theorem Encoding.fence : ∀ ll ls sl ss sc, Encoding.Statement (.fence ll ls sl ss sc) := fun ll ls sl ss sc => encoding_of_pick rfl (by
  rw [pick_sync (by simp (disch := decide) only [packA, bits_append_high, bits_all, BitVec.toNat_ofNat, Nat.reduceSub, Nat.sub_add_eq, Nat.reducePow, Nat.reduceMod])]
  simp (disch := decide) only [pickSync, packA, fieldAt_bits, bits_append_high, bits_append_low, bits_all, BitVec.toNat_ofNat, Nat.reduceSub, Nat.sub_add_eq, Nat.reduceMod, Nat.reducePow, flagAt_bit, bit_append_high, bit_append_low, bit_ofBit, zeros_ok, clear_append, clear_none, clear_zero, clear_false, Nat.reduceShiftRight, Nat.shiftRight_add, Nat.pow_add, Nat.reduceMul, and_self])
theorem Encoding.pfence : ∀ p q sc, Encoding.Statement (.pfence p q sc) := fun p q sc => encoding_of_pick rfl (by
  rw [pick_sync (by simp (disch := decide) only [packA, bits_append_high, bits_all, BitVec.toNat_ofNat, Nat.reduceSub, Nat.sub_add_eq, Nat.reducePow, Nat.reduceMod])]
  simp (disch := decide) only [pickSync, packA, fieldAt_bits, bits_append_high, bits_append_low, bits_all, BitVec.toNat_ofNat, Nat.reduceSub, Nat.sub_add_eq, Nat.reduceMod, Nat.reducePow, zeros_ok, clear_append, clear_none, clear_zero, clear_false, Nat.reduceShiftRight, Nat.shiftRight_add, Nat.pow_add, Nat.reduceMul, and_self])
theorem Encoding.arrive : ∀ rd b, Encoding.Statement (.arrive rd b) := fun rd b => encoding_of_pick rfl (by
  rw [pick_sync (by simp (disch := decide) only [packA, bits_append_high, bits_all, BitVec.toNat_ofNat, Nat.reduceSub, Nat.sub_add_eq, Nat.reducePow, Nat.reduceMod])]
  simp (disch := decide) only [pickSync, packA, fieldAt_bits, bits_append_high, bits_append_low, bits_all, BitVec.toNat_ofNat, Nat.reduceSub, Nat.sub_add_eq, Nat.reduceMod, Nat.reducePow, zeros_ok, clear_append, clear_none, clear_zero, clear_false, Nat.reduceShiftRight, Nat.shiftRight_add, Nat.pow_add, Nat.reduceMul, and_self])
theorem Encoding.bwait : ∀ b rb, Encoding.Statement (.bwait b rb) := fun b rb => encoding_of_pick rfl (by
  rw [pick_sync (by simp (disch := decide) only [packA, bits_append_high, bits_all, BitVec.toNat_ofNat, Nat.reduceSub, Nat.sub_add_eq, Nat.reducePow, Nat.reduceMod])]
  simp (disch := decide) only [pickSync, packA, fieldAt_bits, bits_append_high, bits_append_low, bits_all, BitVec.toNat_ofNat, Nat.reduceSub, Nat.sub_add_eq, Nat.reduceMod, Nat.reducePow, zeros_ok, clear_append, clear_none, clear_zero, clear_false, Nat.reduceShiftRight, Nat.shiftRight_add, Nat.pow_add, Nat.reduceMul, and_self])
theorem Encoding.bset : ∀ b ra, Encoding.Statement (.bset b ra) := fun b ra => encoding_of_pick rfl (by
  rw [pick_sync (by simp (disch := decide) only [packA, bits_append_high, bits_all, BitVec.toNat_ofNat, Nat.reduceSub, Nat.sub_add_eq, Nat.reducePow, Nat.reduceMod])]
  simp (disch := decide) only [pickSync, packA, fieldAt_bits, bits_append_high, bits_append_low, bits_all, BitVec.toNat_ofNat, Nat.reduceSub, Nat.sub_add_eq, Nat.reduceMod, Nat.reducePow, zeros_ok, clear_append, clear_none, clear_zero, clear_false, Nat.reduceShiftRight, Nat.shiftRight_add, Nat.pow_add, Nat.reduceMul, and_self])
theorem Encoding.gmember : ∀ rd ra rb, Encoding.Statement (.gmember rd ra rb) := fun rd ra rb => encoding_of_pick rfl (by
  rw [pick_sync (by simp (disch := decide) only [packA, bits_append_high, bits_all, BitVec.toNat_ofNat, Nat.reduceSub, Nat.sub_add_eq, Nat.reducePow, Nat.reduceMod])]
  simp (disch := decide) only [pickSync, packA, fieldAt_bits, bits_append_high, bits_append_low, bits_all, BitVec.toNat_ofNat, Nat.reduceSub, Nat.sub_add_eq, Nat.reduceMod, Nat.reducePow, zeros_ok, clear_append, clear_none, clear_zero, clear_false, Nat.reduceShiftRight, Nat.shiftRight_add, Nat.pow_add, Nat.reduceMul, and_self])
theorem Encoding.gsize : ∀ rd ra, Encoding.Statement (.gsize rd ra) := fun rd ra => encoding_of_pick rfl (by
  rw [pick_sync (by simp (disch := decide) only [packA, bits_append_high, bits_all, BitVec.toNat_ofNat, Nat.reduceSub, Nat.sub_add_eq, Nat.reducePow, Nat.reduceMod])]
  simp (disch := decide) only [pickSync, packA, fieldAt_bits, bits_append_high, bits_append_low, bits_all, BitVec.toNat_ofNat, Nat.reduceSub, Nat.sub_add_eq, Nat.reduceMod, Nat.reducePow, zeros_ok, clear_append, clear_none, clear_zero, clear_false, Nat.reduceShiftRight, Nat.shiftRight_add, Nat.pow_add, Nat.reduceMul, and_self])
theorem Encoding.grank : ∀ rd ra, Encoding.Statement (.grank rd ra) := fun rd ra => encoding_of_pick rfl (by
  rw [pick_sync (by simp (disch := decide) only [packA, bits_append_high, bits_all, BitVec.toNat_ofNat, Nat.reduceSub, Nat.sub_add_eq, Nat.reducePow, Nat.reduceMod])]
  simp (disch := decide) only [pickSync, packA, fieldAt_bits, bits_append_high, bits_append_low, bits_all, BitVec.toNat_ofNat, Nat.reduceSub, Nat.sub_add_eq, Nat.reduceMod, Nat.reducePow, zeros_ok, clear_append, clear_none, clear_zero, clear_false, Nat.reduceShiftRight, Nat.shiftRight_add, Nat.pow_add, Nat.reduceMul, and_self])
theorem Encoding.lfork : ∀ rd ra, Encoding.Statement (.lfork rd ra) := fun rd ra => encoding_of_pick rfl (by
  rw [pick_sync (by simp (disch := decide) only [packA, bits_append_high, bits_all, BitVec.toNat_ofNat, Nat.reduceSub, Nat.sub_add_eq, Nat.reducePow, Nat.reduceMod])]
  simp (disch := decide) only [pickSync, packA, fieldAt_bits, bits_append_high, bits_append_low, bits_all, BitVec.toNat_ofNat, Nat.reduceSub, Nat.sub_add_eq, Nat.reduceMod, Nat.reducePow, zeros_ok, clear_append, clear_none, clear_zero, clear_false, Nat.reduceShiftRight, Nat.shiftRight_add, Nat.pow_add, Nat.reduceMul, and_self])
theorem Encoding.ljoin : Encoding.Statement (.ljoin) := encoding_of_pick rfl (by
  rw [pick_sync (by simp (disch := decide) only [packA, bits_append_high, bits_all, BitVec.toNat_ofNat, Nat.reduceSub, Nat.sub_add_eq, Nat.reducePow, Nat.reduceMod])]
  simp (disch := decide) only [pickSync, packA, fieldAt_bits, bits_append_high, bits_append_low, bits_all, BitVec.toNat_ofNat, Nat.reduceSub, Nat.sub_add_eq, Nat.reduceMod, Nat.reducePow, zeros_ok, clear_append, clear_none, clear_zero, clear_false, Nat.reduceShiftRight, Nat.shiftRight_add, Nat.pow_add, Nat.reduceMul, and_self])
theorem Encoding.cpy : ∀ rd ra rb twoD, Encoding.Statement (.cpy rd ra rb twoD) := fun rd ra rb twoD => encoding_of_pick rfl (by
  rw [pick_copy (by simp (disch := decide) only [packA, bits_append_high, bits_all, BitVec.toNat_ofNat, Nat.reduceSub, Nat.sub_add_eq, Nat.reducePow, Nat.reduceMod])]
  simp (disch := decide) only [pickCopy, packA, fieldAt_bits, bits_append_high, bits_append_low, bits_all, BitVec.toNat_ofNat, Nat.reduceSub, Nat.sub_add_eq, Nat.reduceMod, Nat.reducePow, flagAt_bit, bit_append_high, bit_append_low, bit_ofBit, zeros_ok, clear_append, clear_none, clear_zero, clear_false, Nat.reduceShiftRight, Nat.shiftRight_add, Nat.pow_add, Nat.reduceMul, and_self])
theorem Encoding.cpyw : ∀ rd ra rb, Encoding.Statement (.cpyw rd ra rb) := fun rd ra rb => encoding_of_pick rfl (by
  rw [pick_copy (by simp (disch := decide) only [packA, bits_append_high, bits_all, BitVec.toNat_ofNat, Nat.reduceSub, Nat.sub_add_eq, Nat.reducePow, Nat.reduceMod])]
  simp (disch := decide) only [pickCopy, packA, fieldAt_bits, bits_append_high, bits_append_low, bits_all, BitVec.toNat_ofNat, Nat.reduceSub, Nat.sub_add_eq, Nat.reduceMod, Nat.reducePow, zeros_ok, clear_append, clear_none, clear_zero, clear_false, Nat.reduceShiftRight, Nat.shiftRight_add, Nat.pow_add, Nat.reduceMul, and_self])
theorem Encoding.cbatch : Encoding.Statement (.cbatch) := encoding_of_pick rfl (by
  rw [pick_copy (by simp (disch := decide) only [packA, bits_append_high, bits_all, BitVec.toNat_ofNat, Nat.reduceSub, Nat.sub_add_eq, Nat.reducePow, Nat.reduceMod])]
  simp (disch := decide) only [pickCopy, packA, fieldAt_bits, bits_append_high, bits_append_low, bits_all, BitVec.toNat_ofNat, Nat.reduceSub, Nat.sub_add_eq, Nat.reduceMod, Nat.reducePow, zeros_ok, clear_append, clear_none, clear_zero, clear_false, Nat.reduceShiftRight, Nat.shiftRight_add, Nat.pow_add, Nat.reduceMul, and_self])
theorem Encoding.cwait : ∀ ra, Encoding.Statement (.cwait ra) := fun ra => encoding_of_pick rfl (by
  rw [pick_copy (by simp (disch := decide) only [packA, bits_append_high, bits_all, BitVec.toNat_ofNat, Nat.reduceSub, Nat.sub_add_eq, Nat.reducePow, Nat.reduceMod])]
  simp (disch := decide) only [pickCopy, packA, fieldAt_bits, bits_append_high, bits_append_low, bits_all, BitVec.toNat_ofNat, Nat.reduceSub, Nat.sub_add_eq, Nat.reduceMod, Nat.reducePow, zeros_ok, clear_append, clear_none, clear_zero, clear_false, Nat.reduceShiftRight, Nat.shiftRight_add, Nat.pow_add, Nat.reduceMul, and_self])
theorem Encoding.csleep : ∀ ra, Encoding.Statement (.csleep ra) := fun ra => encoding_of_pick rfl (by
  rw [pick_copy (by simp (disch := decide) only [packA, bits_append_high, bits_all, BitVec.toNat_ofNat, Nat.reduceSub, Nat.sub_add_eq, Nat.reducePow, Nat.reduceMod])]
  simp (disch := decide) only [pickCopy, packA, fieldAt_bits, bits_append_high, bits_append_low, bits_all, BitVec.toNat_ofNat, Nat.reduceSub, Nat.sub_add_eq, Nat.reduceMod, Nat.reducePow, zeros_ok, clear_append, clear_none, clear_zero, clear_false, Nat.reduceShiftRight, Nat.shiftRight_add, Nat.pow_add, Nat.reduceMul, and_self])
theorem Encoding.rdcnt : ∀ rd, Encoding.Statement (.rdcnt rd) := fun rd => encoding_of_pick rfl (by
  rw [pick_copy (by simp (disch := decide) only [packA, bits_append_high, bits_all, BitVec.toNat_ofNat, Nat.reduceSub, Nat.sub_add_eq, Nat.reducePow, Nat.reduceMod])]
  simp (disch := decide) only [pickCopy, packA, fieldAt_bits, bits_append_high, bits_append_low, bits_all, BitVec.toNat_ofNat, Nat.reduceSub, Nat.sub_add_eq, Nat.reduceMod, Nat.reducePow, zeros_ok, clear_append, clear_none, clear_zero, clear_false, Nat.reduceShiftRight, Nat.shiftRight_add, Nat.pow_add, Nat.reduceMul, and_self])
theorem Encoding.xred : ∀ rd ra rb fmt, Encoding.Statement (.xred rd ra rb fmt) := fun rd ra rb fmt => encoding_of_pick rfl (by
  rw [pick_coll (by simp (disch := decide) only [packA, bits_append_high, bits_all, BitVec.toNat_ofNat, Nat.reduceSub, Nat.sub_add_eq, Nat.reducePow, Nat.reduceMod])]
  simp (disch := decide) only [pickColl, packA, fieldAt_bits, bits_append_high, bits_append_low, bits_all, BitVec.toNat_ofNat, Nat.reduceSub, Nat.sub_add_eq, Nat.reduceMod, Nat.reducePow, zeros_ok, clear_append, clear_none, clear_zero, clear_false, Nat.reduceShiftRight, Nat.shiftRight_add, Nat.pow_add, Nat.reduceMul, and_self])
theorem Encoding.xbc : ∀ rd ra rb fmt, Encoding.Statement (.xbc rd ra rb fmt) := fun rd ra rb fmt => encoding_of_pick rfl (by
  rw [pick_coll (by simp (disch := decide) only [packA, bits_append_high, bits_all, BitVec.toNat_ofNat, Nat.reduceSub, Nat.sub_add_eq, Nat.reducePow, Nat.reduceMod])]
  simp (disch := decide) only [pickColl, packA, fieldAt_bits, bits_append_high, bits_append_low, bits_all, BitVec.toNat_ofNat, Nat.reduceSub, Nat.sub_add_eq, Nat.reduceMod, Nat.reducePow, zeros_ok, clear_append, clear_none, clear_zero, clear_false, Nat.reduceShiftRight, Nat.shiftRight_add, Nat.pow_add, Nat.reduceMul, and_self])
theorem Encoding.xag : ∀ rd ra rb fmt, Encoding.Statement (.xag rd ra rb fmt) := fun rd ra rb fmt => encoding_of_pick rfl (by
  rw [pick_coll (by simp (disch := decide) only [packA, bits_append_high, bits_all, BitVec.toNat_ofNat, Nat.reduceSub, Nat.sub_add_eq, Nat.reducePow, Nat.reduceMod])]
  simp (disch := decide) only [pickColl, packA, fieldAt_bits, bits_append_high, bits_append_low, bits_all, BitVec.toNat_ofNat, Nat.reduceSub, Nat.sub_add_eq, Nat.reduceMod, Nat.reducePow, zeros_ok, clear_append, clear_none, clear_zero, clear_false, Nat.reduceShiftRight, Nat.shiftRight_add, Nat.pow_add, Nat.reduceMul, and_self])
theorem Encoding.xwait : ∀ rd, Encoding.Statement (.xwait rd) := fun rd => encoding_of_pick rfl (by
  rw [pick_coll (by simp (disch := decide) only [packA, bits_append_high, bits_all, BitVec.toNat_ofNat, Nat.reduceSub, Nat.sub_add_eq, Nat.reducePow, Nat.reduceMod])]
  simp (disch := decide) only [pickColl, packA, fieldAt_bits, bits_append_high, bits_append_low, bits_all, BitVec.toNat_ofNat, Nat.reduceSub, Nat.sub_add_eq, Nat.reduceMod, Nat.reducePow, zeros_ok, clear_append, clear_none, clear_zero, clear_false, Nat.reduceShiftRight, Nat.shiftRight_add, Nat.pow_add, Nat.reduceMul, and_self])
theorem Encoding.nnew : ∀ rd ra, Encoding.Statement (.nnew rd ra) := fun rd ra => encoding_of_pick rfl (by
  rw [pick_name (by simp (disch := decide) only [packA, bits_append_high, bits_all, BitVec.toNat_ofNat, Nat.reduceSub, Nat.sub_add_eq, Nat.reducePow, Nat.reduceMod])]
  simp (disch := decide) only [pickName, packA, fieldAt_bits, bits_append_high, bits_append_low, bits_all, BitVec.toNat_ofNat, Nat.reduceSub, Nat.sub_add_eq, Nat.reduceMod, Nat.reducePow, zeros_ok, clear_append, clear_none, clear_zero, clear_false, Nat.reduceShiftRight, Nat.shiftRight_add, Nat.pow_add, Nat.reduceMul, and_self])
theorem Encoding.nres : ∀ rd ra, Encoding.Statement (.nres rd ra) := fun rd ra => encoding_of_pick rfl (by
  rw [pick_name (by simp (disch := decide) only [packA, bits_append_high, bits_all, BitVec.toNat_ofNat, Nat.reduceSub, Nat.sub_add_eq, Nat.reducePow, Nat.reduceMod])]
  simp (disch := decide) only [pickName, packA, fieldAt_bits, bits_append_high, bits_append_low, bits_all, BitVec.toNat_ofNat, Nat.reduceSub, Nat.sub_add_eq, Nat.reduceMod, Nat.reducePow, zeros_ok, clear_append, clear_none, clear_zero, clear_false, Nat.reduceShiftRight, Nat.shiftRight_add, Nat.pow_add, Nat.reduceMul, and_self])
theorem Encoding.nkill : ∀ ra, Encoding.Statement (.nkill ra) := fun ra => encoding_of_pick rfl (by
  rw [pick_name (by simp (disch := decide) only [packA, bits_append_high, bits_all, BitVec.toNat_ofNat, Nat.reduceSub, Nat.sub_add_eq, Nat.reducePow, Nat.reduceMod])]
  simp (disch := decide) only [pickName, packA, fieldAt_bits, bits_append_high, bits_append_low, bits_all, BitVec.toNat_ofNat, Nat.reduceSub, Nat.sub_add_eq, Nat.reduceMod, Nat.reducePow, zeros_ok, clear_append, clear_none, clear_zero, clear_false, Nat.reduceShiftRight, Nat.shiftRight_add, Nat.pow_add, Nat.reduceMul, and_self])
theorem Encoding.ncas : ∀ rd ra rb, Encoding.Statement (.ncas rd ra rb) := fun rd ra rb => encoding_of_pick rfl (by
  rw [pick_name (by simp (disch := decide) only [packA, bits_append_high, bits_all, BitVec.toNat_ofNat, Nat.reduceSub, Nat.sub_add_eq, Nat.reducePow, Nat.reduceMod])]
  simp (disch := decide) only [pickName, packA, fieldAt_bits, bits_append_high, bits_append_low, bits_all, BitVec.toNat_ofNat, Nat.reduceSub, Nat.sub_add_eq, Nat.reduceMod, Nat.reducePow, zeros_ok, clear_append, clear_none, clear_zero, clear_false, Nat.reduceShiftRight, Nat.shiftRight_add, Nat.pow_add, Nat.reduceMul, and_self])
theorem Encoding.tbind : ∀ rd ra rb, Encoding.Statement (.tbind rd ra rb) := fun rd ra rb => encoding_of_pick rfl (by
  rw [pick_name (by simp (disch := decide) only [packA, bits_append_high, bits_all, BitVec.toNat_ofNat, Nat.reduceSub, Nat.sub_add_eq, Nat.reducePow, Nat.reduceMod])]
  simp (disch := decide) only [pickName, packA, fieldAt_bits, bits_append_high, bits_append_low, bits_all, BitVec.toNat_ofNat, Nat.reduceSub, Nat.sub_add_eq, Nat.reduceMod, Nat.reducePow, zeros_ok, clear_append, clear_none, clear_zero, clear_false, Nat.reduceShiftRight, Nat.shiftRight_add, Nat.pow_add, Nat.reduceMul, and_self])
theorem Encoding.tunbind : ∀ ra, Encoding.Statement (.tunbind ra) := fun ra => encoding_of_pick rfl (by
  rw [pick_name (by simp (disch := decide) only [packA, bits_append_high, bits_all, BitVec.toNat_ofNat, Nat.reduceSub, Nat.sub_add_eq, Nat.reducePow, Nat.reduceMod])]
  simp (disch := decide) only [pickName, packA, fieldAt_bits, bits_append_high, bits_append_low, bits_all, BitVec.toNat_ofNat, Nat.reduceSub, Nat.sub_add_eq, Nat.reduceMod, Nat.reducePow, zeros_ok, clear_append, clear_none, clear_zero, clear_false, Nat.reduceShiftRight, Nat.shiftRight_add, Nat.pow_add, Nat.reduceMul, and_self])
theorem Encoding.tq : ∀ rd ra, Encoding.Statement (.tq rd ra) := fun rd ra => encoding_of_pick rfl (by
  rw [pick_name (by simp (disch := decide) only [packA, bits_append_high, bits_all, BitVec.toNat_ofNat, Nat.reduceSub, Nat.sub_add_eq, Nat.reducePow, Nat.reduceMod])]
  simp (disch := decide) only [pickName, packA, fieldAt_bits, bits_append_high, bits_append_low, bits_all, BitVec.toNat_ofNat, Nat.reduceSub, Nat.sub_add_eq, Nat.reduceMod, Nat.reducePow, zeros_ok, clear_append, clear_none, clear_zero, clear_false, Nat.reduceShiftRight, Nat.shiftRight_add, Nat.pow_add, Nat.reduceMul, and_self])
theorem Encoding.orset : ∀ ra rb, Encoding.Statement (.orset ra rb) := fun ra rb => encoding_of_pick rfl (by
  rw [pick_name (by simp (disch := decide) only [packA, bits_append_high, bits_all, BitVec.toNat_ofNat, Nat.reduceSub, Nat.sub_add_eq, Nat.reducePow, Nat.reduceMod])]
  simp (disch := decide) only [pickName, packA, fieldAt_bits, bits_append_high, bits_append_low, bits_all, BitVec.toNat_ofNat, Nat.reduceSub, Nat.sub_add_eq, Nat.reduceMod, Nat.reducePow, zeros_ok, clear_append, clear_none, clear_zero, clear_false, Nat.reduceShiftRight, Nat.shiftRight_add, Nat.pow_add, Nat.reduceMul, and_self])
theorem Encoding.orclr : ∀ ra, Encoding.Statement (.orclr ra) := fun ra => encoding_of_pick rfl (by
  rw [pick_name (by simp (disch := decide) only [packA, bits_append_high, bits_all, BitVec.toNat_ofNat, Nat.reduceSub, Nat.sub_add_eq, Nat.reducePow, Nat.reduceMod])]
  simp (disch := decide) only [pickName, packA, fieldAt_bits, bits_append_high, bits_append_low, bits_all, BitVec.toNat_ofNat, Nat.reduceSub, Nat.sub_add_eq, Nat.reduceMod, Nat.reducePow, zeros_ok, clear_append, clear_none, clear_zero, clear_false, Nat.reduceShiftRight, Nat.shiftRight_add, Nat.pow_add, Nat.reduceMul, and_self])
theorem Encoding.smerge : ∀ f, Encoding.Statement (.smerge f) := fun f => encoding_of_pick rfl (by
  rw [pick_vml (by simp (disch := decide) only [packV, bits_append_high, bits_all, BitVec.toNat_ofNat, Nat.reduceSub, Nat.sub_add_eq, Nat.reducePow, Nat.reduceMod])]
  simp (disch := decide) only [pickVml, packV, fieldAt_bits, bits_append_high, bits_append_low, bits_all, BitVec.toNat_ofNat, Nat.reduceSub, Nat.sub_add_eq, Nat.reduceMod, Nat.reducePow, flagAt_bit, bit_append_high, bit_append_low, bit_ofBit, zeros_ok, clear_append, clear_none, clear_zero, clear_false, Nat.reduceShiftRight, Nat.shiftRight_add, Nat.pow_add, Nat.reduceMul, and_self])
theorem Encoding.vrng : ∀ f, Encoding.Statement (.vrng f) := fun f => encoding_of_pick rfl (by
  rw [pick_vml (by simp (disch := decide) only [packV, bits_append_high, bits_all, BitVec.toNat_ofNat, Nat.reduceSub, Nat.sub_add_eq, Nat.reducePow, Nat.reduceMod])]
  simp (disch := decide) only [pickVml, packV, fieldAt_bits, bits_append_high, bits_append_low, bits_all, BitVec.toNat_ofNat, Nat.reduceSub, Nat.sub_add_eq, Nat.reduceMod, Nat.reducePow, flagAt_bit, bit_append_high, bit_append_low, bit_ofBit])
theorem Encoding.vexpd : ∀ f, Encoding.Statement (.vexpd f) := fun f => encoding_of_pick rfl (by
  rw [pick_vml (by simp (disch := decide) only [packV, bits_append_high, bits_all, BitVec.toNat_ofNat, Nat.reduceSub, Nat.sub_add_eq, Nat.reducePow, Nat.reduceMod])]
  simp (disch := decide) only [pickVml, packV, fieldAt_bits, bits_append_high, bits_append_low, bits_all, BitVec.toNat_ofNat, Nat.reduceSub, Nat.sub_add_eq, Nat.reduceMod, Nat.reducePow, flagAt_bit, bit_append_high, bit_append_low, bit_ofBit])
theorem Encoding.glean : ∀ rd ra rb, Encoding.Statement (.glean rd ra rb) := fun rd ra rb => encoding_of_pick rfl (by
  rw [pick_seq (by simp (disch := decide) only [packA, bits_append_high, bits_all, BitVec.toNat_ofNat, Nat.reduceSub, Nat.sub_add_eq, Nat.reducePow, Nat.reduceMod])]
  simp (disch := decide) only [pickSeq, packA, fieldAt_bits, bits_append_high, bits_append_low, bits_all, BitVec.toNat_ofNat, Nat.reduceSub, Nat.sub_add_eq, Nat.reduceMod, Nat.reducePow, zeros_ok, clear_append, clear_none, clear_zero, clear_false, Nat.reduceShiftRight, Nat.shiftRight_add, Nat.pow_add, Nat.reduceMul, and_self])
theorem Encoding.gadv : ∀ rd ra rb, Encoding.Statement (.gadv rd ra rb) := fun rd ra rb => encoding_of_pick rfl (by
  rw [pick_seq (by simp (disch := decide) only [packA, bits_append_high, bits_all, BitVec.toNat_ofNat, Nat.reduceSub, Nat.sub_add_eq, Nat.reducePow, Nat.reduceMod])]
  simp (disch := decide) only [pickSeq, packA, fieldAt_bits, bits_append_high, bits_append_low, bits_all, BitVec.toNat_ofNat, Nat.reduceSub, Nat.sub_add_eq, Nat.reduceMod, Nat.reducePow, zeros_ok, clear_append, clear_none, clear_zero, clear_false, Nat.reduceShiftRight, Nat.shiftRight_add, Nat.pow_add, Nat.reduceMul, and_self])
theorem Encoding.lenq : ∀ rd ra rb, Encoding.Statement (.lenq rd ra rb) := fun rd ra rb => encoding_of_pick rfl (by
  rw [pick_seq (by simp (disch := decide) only [packA, bits_append_high, bits_all, BitVec.toNat_ofNat, Nat.reduceSub, Nat.sub_add_eq, Nat.reducePow, Nat.reduceMod])]
  simp (disch := decide) only [pickSeq, packA, fieldAt_bits, bits_append_high, bits_append_low, bits_all, BitVec.toNat_ofNat, Nat.reduceSub, Nat.sub_add_eq, Nat.reduceMod, Nat.reducePow, zeros_ok, clear_append, clear_none, clear_zero, clear_false, Nat.reduceShiftRight, Nat.shiftRight_add, Nat.pow_add, Nat.reduceMul, and_self])
theorem Encoding.vfredo : ∀ vd va vb km, Encoding.Statement (.vfredo vd va vb km) := fun vd va vb km => encoding_of_pick rfl (by
  rw [pick_legacy (by simp (disch := decide) only [packA, bits_append_high, bits_all, BitVec.toNat_ofNat, Nat.reduceSub, Nat.sub_add_eq, Nat.reducePow, Nat.reduceMod])]
  simp (disch := decide) only [pickLegacy, packA, fieldAt_bits, bits_append_high, bits_append_low, bits_all, BitVec.toNat_ofNat, Nat.reduceSub, Nat.sub_add_eq, Nat.reduceMod, Nat.reducePow, zeros_ok, clear_append, clear_none, clear_zero, clear_false, Nat.reduceShiftRight, Nat.shiftRight_add, Nat.pow_add, Nat.reduceMul, and_self])
theorem Encoding.mop8 : ∀ rd ra rb fn, Encoding.Statement (.mop8 rd ra rb fn) := fun rd ra rb fn => encoding_of_pick rfl (by
  rw [pick_legacy (by simp (disch := decide) only [packA, bits_append_high, bits_all, BitVec.toNat_ofNat, Nat.reduceSub, Nat.sub_add_eq, Nat.reducePow, Nat.reduceMod])]
  simp (disch := decide) only [pickLegacy, packA, fieldAt_bits, bits_append_high, bits_append_low, bits_all, BitVec.toNat_ofNat, Nat.reduceSub, Nat.sub_add_eq, Nat.reduceMod, Nat.reducePow])
theorem Encoding.annulledStep : Encoding.Statement (.annulledStep) := encoding_of_event rfl
theorem Encoding.ubrkResolve : Encoding.Statement (.ubrkResolve) := encoding_of_event rfl
theorem Encoding.postedTrapDelivery : Encoding.Statement (.postedTrapDelivery) := encoding_of_event rfl
theorem Encoding.asyncEventTake : Encoding.Statement (.asyncEventTake) := encoding_of_event rfl
theorem Encoding.shiftedLaneMismatch : ∀ key lane, Encoding.Statement (.shiftedLaneMismatch key lane) := fun _ _ => encoding_of_event rfl
theorem Encoding.preempt : Encoding.Statement (.preempt) := encoding_of_event rfl
theorem Encoding.imageWriteComplete : ∀ key, Encoding.Statement (.imageWriteComplete key) := fun _ => encoding_of_event rfl
theorem Encoding.strandBind : ∀ queue, Encoding.Statement (.strandBind queue) := fun _ => encoding_of_event rfl
theorem Encoding.harrowSweepEnd : ∀ core pool, Encoding.Statement (.harrowSweepEnd core pool) := fun _ _ => encoding_of_event rfl
theorem Encoding.restore : ∀ uid, Encoding.Statement (.restore uid) := fun _ => encoding_of_event rfl
theorem Encoding.launchAccept : ∀ queue, Encoding.Statement (.launchAccept queue) := fun _ => encoding_of_event rfl
theorem Encoding.launchComplete : ∀ launch, Encoding.Statement (.launchComplete launch) := fun _ => encoding_of_event rfl
theorem Encoding.watchdogExpire : ∀ key, Encoding.Statement (.watchdogExpire key) := fun _ => encoding_of_event rfl
theorem Encoding.quantumExpire : ∀ key, Encoding.Statement (.quantumExpire key) := fun _ => encoding_of_event rfl
theorem Encoding.bindRecordWrite : ∀ n words, Encoding.Statement (.bindRecordWrite n words) := fun _ _ => encoding_of_event rfl
theorem Encoding.queueCreate : ∀ name depth prio owner page, Encoding.Statement (.queueCreate name depth prio owner page) := fun _ _ _ _ _ => encoding_of_event rfl
theorem Encoding.grantAdd : ∀ name asid, Encoding.Statement (.grantAdd name asid) := fun _ _ => encoding_of_event rfl
theorem Encoding.tombstone : ∀ name, Encoding.Statement (.tombstone name) := fun _ => encoding_of_event rfl
theorem Encoding.copyComplete : ∀ id, Encoding.Statement (.copyComplete id) := fun _ => encoding_of_event rfl
theorem Encoding.copyStop : ∀ id, Encoding.Statement (.copyStop id) := fun _ => encoding_of_event rfl
theorem Encoding.csleepExpire : ∀ key, Encoding.Statement (.csleepExpire key) := fun _ => encoding_of_event rfl
theorem Encoding.collectiveComplete : ∀ id, Encoding.Statement (.collectiveComplete id) := fun _ => encoding_of_event rfl
theorem Encoding.headlandLinkFail : ∀ link, Encoding.Statement (.headlandLinkFail link) := fun _ => encoding_of_event rfl
theorem Encoding.monitorEvict : ∀ key, Encoding.Statement (.monitorEvict key) := fun _ => encoding_of_event rfl
theorem Encoding.serialBlockReserve : Encoding.Statement (.serialBlockReserve) := encoding_of_event rfl
theorem Encoding.powerLoopWindow : ∀ die watts, Encoding.Statement (.powerLoopWindow die watts) := fun _ _ => encoding_of_event rfl
theorem Encoding.energyRefill : Encoding.Statement (.energyRefill) := encoding_of_event rfl
theorem Encoding.scrubRead : ∀ unit found, Encoding.Statement (.scrubRead unit found) := fun _ _ => encoding_of_event rfl
theorem Encoding.scrubRateUpdate : ∀ regions, Encoding.Statement (.scrubRateUpdate regions) := fun _ => encoding_of_event rfl
theorem Encoding.moduleReset : ∀ verified die1 harv0 harv1 stepping, Encoding.Statement (.moduleReset verified die1 harv0 harv1 stepping) := fun _ _ _ _ _ => encoding_of_event rfl
theorem Encoding.serviceLevelRaise : Encoding.Statement (.serviceLevelRaise) := encoding_of_event rfl
theorem Encoding.doorbell : ∀ func page access, Encoding.Statement (.doorbell func page access) := fun _ _ _ => encoding_of_event rfl
theorem Encoding.hostBar2Access : ∀ func va op, Encoding.Statement (.hostBar2Access func va op) := fun _ _ _ => encoding_of_event rfl
theorem Encoding.peerAccess : ∀ link pa op, Encoding.Statement (.peerAccess link pa op) := fun _ _ _ => encoding_of_event rfl
theorem Encoding.attestationQuote : ∀ nonce, Encoding.Statement (.attestationQuote nonce) := fun _ => encoding_of_event rfl
theorem Encoding.debugRead : ∀ u, Encoding.Statement (.debugRead u) := fun _ => encoding_of_event rfl
theorem Encoding.debugWrite : ∀ u data tag, Encoding.Statement (.debugWrite u data tag) := fun _ _ _ => encoding_of_event rfl
theorem Encoding.rangeInAsid : ∀ asid vpn count, Encoding.Statement (.rangeInAsid asid vpn count) := fun _ _ _ => encoding_of_event rfl
theorem Encoding.wholeAsid : ∀ asid, Encoding.Statement (.wholeAsid asid) := fun _ => encoding_of_event rfl
theorem Encoding.everyAsid : Encoding.Statement (.everyAsid) := encoding_of_event rfl
theorem Encoding.unpoisonFrame : ∀ frame, Encoding.Statement (.unpoisonFrame frame) := fun _ => encoding_of_event rfl
theorem Encoding.create : ∀ asid, Encoding.Statement (.create asid) := fun _ => encoding_of_event rfl
theorem Encoding.destroy : ∀ asid, Encoding.Statement (.destroy asid) := fun _ => encoding_of_event rfl
theorem Encoding.revoke : ∀ name asid, Encoding.Statement (.revoke name asid) := fun _ _ => encoding_of_event rfl
theorem Encoding.tcmdbReserved : Encoding.Statement (.tcmdbReserved) := encoding_of_event rfl
theorem Encoding.elogpop : Encoding.Statement (.elogpop) := encoding_of_event rfl
theorem Encoding.registerWrite : ∀ target value, Encoding.Statement (.registerWrite target value) := fun _ _ => encoding_of_event rfl
theorem Encoding.discardSavedContext : ∀ uid, Encoding.Statement (.discardSavedContext uid) := fun _ => encoding_of_event rfl
theorem Encoding.debugHalt : ∀ key, Encoding.Statement (.debugHalt key) := fun _ => encoding_of_event rfl
theorem Encoding.debugResume : ∀ key, Encoding.Statement (.debugResume key) := fun _ => encoding_of_event rfl
theorem Encoding.headlandLinkTrained : ∀ link, Encoding.Statement (.headlandLinkTrained link) := fun _ => encoding_of_event rfl
theorem Encoding.lpddr6Retraining : ∀ channel, Encoding.Statement (.lpddr6Retraining channel) := fun _ => encoding_of_event rfl
theorem Encoding.linkEqualisation : ∀ link, Encoding.Statement (.linkEqualisation link) := fun _ => encoding_of_event rfl
theorem Encoding.copyTranslationFault : ∀ id, Encoding.Statement (.copyTranslationFault id) := fun _ => encoding_of_event rfl
theorem Encoding.grantRemove : ∀ name asid, Encoding.Statement (.grantRemove name asid) := fun _ _ => encoding_of_event rfl

end Sys2Proof.Laws
end

