-- ==== Sys2Proof/Laws/Vector.lean ====
section
/-!
SUPPORT. Elements of vector registers: what `wr_elem` and `rd_elem` do, and the loop of an element-wise instruction, said once.
-/

namespace Sys2Proof.Laws
open Sys2Proof.Machine Sys2Proof.Safety

theorem numOf_bytesOf (n x : Nat) : numOf (bytesOf n x) = x % 256 ^ n := by
  induction n generalizing x with
  | zero => simp [bytesOf, numOf, Nat.mod_one]
  | succ n ih =>
    rw [bytesOf, numOf, ih]
    have h1 : (BitVec.ofNat 8 x).toNat = x % 256 := by simp
    rw [h1, Nat.pow_succ, Nat.mul_comm (256 ^ n) 256, Nat.mod_mul]

@[simp] theorem length_bytesOf (n x : Nat) : (bytesOf n x).length = n := by
  induction n generalizing x with
  | zero => rfl
  | succ n ih => simp [bytesOf, ih]

theorem numOf_lt (bs : List Byte) : numOf bs < 256 ^ bs.length := by
  induction bs with
  | nil => simp [numOf]
  | cons b bs ih =>
    have := b.isLt
    rw [numOf, List.length_cons, Nat.pow_succ]
    omega

theorem sew_cases (u : UserCR) : u.sewBytes = 1 ∨ u.sewBytes = 2 ∨ u.sewBytes = 4 ∨ u.sewBytes = 8 := by
  unfold UserCR.sewBytes
  have h : u.vsew.toNat < 4 := u.vsew.isLt
  have : u.vsew.toNat = 0 ∨ u.vsew.toNat = 1 ∨ u.vsew.toNat = 2 ∨ u.vsew.toNat = 3 := by omega
  rcases this with h | h | h | h <;> simp [h]

theorem two_pow_sew (u : UserCR) : 2 ^ u.sew = 256 ^ u.sewBytes := by
  rw [UserCR.sew, Nat.pow_mul]

theorem capacity_mod (u : UserCR) : u.capacity % 64 = 0 := by
  unfold UserCR.capacity UserCR.regCount
  generalize u.vcfg.extractLsb' 2 2 = a
  generalize u.vcfg.extractLsb' 0 2 = b
  revert a b; decide

/-- The parts of `VectorReady` that place the registers in storage. -/
structure Placed (s : State) : Prop where
  fits    : s.thr.roff + s.ucr.elems * s.ucr.sewBytes ≤ s.ucr.capacity
  granule : s.thr.vbase % 64 = 0 ∧ s.thr.roff % 64 = 0

theorem elemAt_eq (s : State) (v : VReg) (e : Nat) : elemAt s v e =
    (windowBase + coreOf s.cur * 0x800000 + s.thr.vbase + v.toNat * s.ucr.capacity + s.thr.roff) + e * s.ucr.sewBytes := by
  simp only [elemAt, windowAddr, State.vregOff]; omega

theorem elemBase_mod {s : State} (p : Placed s) (v : VReg) :
    (windowBase + coreOf s.cur * 0x800000 + s.thr.vbase + v.toNat * s.ucr.capacity + s.thr.roff) % 64 = 0 := by
  have h := capacity_mod s.ucr
  have h2 : (v.toNat * s.ucr.capacity) % 64 = 0 := by rw [Nat.mul_mod, h]; simp
  have := p.granule
  simp only [windowBase]
  omega

/-- An element lies in one granule. -/
theorem elem_granule {s : State} (p : Placed s) (v : VReg) (e i : Nat) (h : i < s.ucr.sewBytes) :
    (elemAt s v e + i) / 64 = elemAt s v e / 64 := by
  have hb := elemBase_mod p v
  rw [elemAt_eq]
  rcases sew_cases s.ucr with c | c | c | c <;> rw [c] at h ⊢ <;> omega

/-- What an element reads as, byte by byte. -/
theorem elemOrZero_eq {s : State} (p : Placed s) (v : VReg) (e : Nat) :
    s.elemOrZero v e = numOf ((List.range s.ucr.sewBytes).map fun i => Seen s s.thr.genV (elemAt s v e + i)) := by
  have key : ∀ i < s.ucr.sewBytes, s.tag (elemAt s v e + i) = s.tag (elemAt s v e) := by
    intro i h; simp only [State.tag, elem_granule p v e i h]
  show (if s.tag (elemAt s v e) = s.thr.genV then numOf (s.bytes (elemAt s v e) s.ucr.sewBytes) else 0) = _
  split
  · rename_i h
    congr 1
    apply List.map_congr_left
    intro i hi
    simp [Seen, key i (by simpa using hi), h]
  · rename_i h
    have : ((List.range s.ucr.sewBytes).map fun i => Seen s s.thr.genV (elemAt s v e + i)) = List.replicate s.ucr.sewBytes 0#8 := by
      apply List.ext_getElem (by simp)
      intro i h1 h2
      simp at h1
      simp [Seen, key i h1, h]
    rw [this]
    generalize s.ucr.sewBytes = n
    induction n with
    | zero => rfl
    | succ n ih => rw [List.replicate_succ, numOf, ← ih]; simp

theorem elemOrZero_lt {s : State} (p : Placed s) (v : VReg) (e : Nat) : s.elemOrZero v e < 2 ^ s.ucr.sew := by
  rw [elemOrZero_eq p, two_pow_sew]
  have := numOf_lt ((List.range s.ucr.sewBytes).map fun i => Seen s s.thr.genV (elemAt s v e + i))
  simpa using this

/-- Elements of registers in storage do not overlap. -/
theorem elem_apart {s : State} {v v' : VReg} {e e' : Nat} (h : s.thr.roff + (e + 1) * s.ucr.sewBytes ≤ s.ucr.capacity) (h' : s.thr.roff + (e' + 1) * s.ucr.sewBytes ≤ s.ucr.capacity)
    (ne : ¬(v = v' ∧ e = e')) :
    elemAt s v e + s.ucr.sewBytes ≤ elemAt s v' e' ∨ elemAt s v' e' + s.ucr.sewBytes ≤ elemAt s v e := by
  simp only [elemAt_eq, Nat.add_mul] at *
  by_cases hv : v = v'
  · subst hv
    have : e ≠ e' := fun c => ne ⟨rfl, c⟩
    rcases Nat.lt_or_gt_of_ne this with c | c
    · left
      have := Nat.mul_le_mul_right s.ucr.sewBytes (show e + 1 ≤ e' from c)
      rw [Nat.add_mul] at this; omega
    · right
      have := Nat.mul_le_mul_right s.ucr.sewBytes (show e' + 1 ≤ e from c)
      rw [Nat.add_mul] at this; omega
  · have : v.toNat ≠ v'.toNat := fun c => hv (BitVec.eq_of_toNat_eq c)
    rcases Nat.lt_or_gt_of_ne this with c | c
    · left
      have := Nat.mul_le_mul_right s.ucr.capacity (show v.toNat + 1 ≤ v'.toNat from c)
      rw [Nat.add_mul] at this; omega
    · right
      have := Nat.mul_le_mul_right s.ucr.capacity (show v'.toNat + 1 ≤ v.toNat from c)
      rw [Nat.add_mul] at this; omega

/-- `wr_elem`: the element, and nothing else. -/
theorem wrElem_rest {s : State} (h : s.poison = []) (v : VReg) (e x : Nat) :
    s.wrElem v e x = { s with mem := (s.wrElem v e x).mem, tags := (s.wrElem v e x).tags } := by
  unfold State.wrElem
  split
  · rfl
  · exact writeTagged_sound h _ _ _

/-- An element within its register. -/
theorem wrElem_eq {s : State} {e : Nat} (he : s.thr.roff + (e + 1) * s.ucr.sewBytes ≤ s.ucr.capacity) (v : VReg) (x : Nat) :
    s.wrElem v e x = s.writeTagged (elemAt s v e) (bytesOf s.ucr.sewBytes x) s.thr.genV := by
  have i : s.inVreg (e * s.ucr.sewBytes) s.ucr.sewBytes = true := by
    unfold State.inVreg; rw [Nat.add_mul] at he; simp; omega
  unfold State.wrElem
  rw [if_neg (by simp [i])]
  rfl

theorem elemOrZero_wrElem {s : State} (p : Placed s) (h : s.poison = []) (v v' : VReg) (e e' x : Nat)
    (he : s.thr.roff + (e + 1) * s.ucr.sewBytes ≤ s.ucr.capacity) (he' : s.thr.roff + (e' + 1) * s.ucr.sewBytes ≤ s.ucr.capacity) :
    (s.wrElem v e x).elemOrZero v' e' = if v' = v ∧ e' = e then x % 2 ^ s.ucr.sew else s.elemOrZero v' e' := by
  have r := wrElem_rest h v e x
  have p' : Placed (s.wrElem v e x) := by rw [r]; exact ⟨p.fits, p.granule⟩
  rw [elemOrZero_eq p', elemOrZero_eq p]
  have e1 : (s.wrElem v e x).ucr = s.ucr := by rw [r]; rfl
  have e2 : elemAt (s.wrElem v e x) v' e' = elemAt s v' e' := by rw [r]; rfl
  have e3 : (s.wrElem v e x).thr = s.thr := by rw [r]
  rw [e1, e2, e3]
  have sw : ∀ a, Seen (s.wrElem v e x) s.thr.genV a = if elemAt s v e ≤ a ∧ a < elemAt s v e + s.ucr.sewBytes
      then (bytesOf s.ucr.sewBytes x).getD (a - elemAt s v e) 0#8 else Seen s s.thr.genV a := by
    intro a
    have := seen_writeTagged s (elemAt s v e) (bytesOf s.ucr.sewBytes x) s.thr.genV a
    rw [length_bytesOf] at this
    rw [wrElem_eq he]
    exact this
  by_cases c : v' = v ∧ e' = e
  · obtain ⟨rfl, rfl⟩ := c
    rw [if_pos ⟨rfl, rfl⟩, two_pow_sew, ← numOf_bytesOf]
    congr 1
    apply List.ext_getElem (by simp)
    intro i h1 h2
    simp at h1
    simp [sw, h1]
  · rw [if_neg c]
    congr 1
    apply List.map_congr_left
    intro i hi
    have hi : i < s.ucr.sewBytes := by simpa using hi
    rw [sw, if_neg]
    have := elem_apart (v := v') (v' := v) he' he c
    omega

/-- A tagged write inside one granule. -/
theorem tag_writeTagged_one (s : State) (pa : Nat) (bs : List Byte) (gen : Gen) (a : Nat) (h : 0 < bs.length)
    (one : (pa + bs.length - 1) / 64 = pa / 64) :
    (s.writeTagged pa bs gen).tag a = if a / 64 = pa / 64 then gen else s.tag a := by
  unfold State.writeTagged
  rw [if_neg (List.ne_nil_of_length_pos h), one]
  rw [tag_putBytes, tag_stampFrom]
  by_cases c : a / 64 = pa / 64
  · rw [if_pos c, if_pos (by omega)]
  · rw [if_neg c, if_neg (by omega)]

theorem elem_one {s : State} (p : Placed s) (v : VReg) (e x : Nat) :
    (elemAt s v e + (bytesOf s.ucr.sewBytes x).length - 1) / 64 = elemAt s v e / 64 := by
  rw [length_bytesOf]
  have hs := sew_cases s.ucr
  have h := elem_granule p v e (s.ucr.sewBytes - 1) (by omega)
  rw [← h, Nat.add_sub_assoc (by omega)]

theorem tag_wrElem {s : State} (p : Placed s) {e : Nat} (he : s.thr.roff + (e + 1) * s.ucr.sewBytes ≤ s.ucr.capacity)
    (v : VReg) (x a : Nat) : (s.wrElem v e x).tag a = if a / 64 = elemAt s v e / 64 then s.thr.genV else s.tag a := by
  rw [wrElem_eq he]
  refine tag_writeTagged_one _ _ _ _ _ ?_ (elem_one p v e x)
  rw [length_bytesOf]; have := sew_cases s.ucr; omega

theorem byte_wrElem {s : State} (p : Placed s) {e : Nat} (he : s.thr.roff + (e + 1) * s.ucr.sewBytes ≤ s.ucr.capacity)
    (v : VReg) (x a : Nat) (h : a / 64 ≠ elemAt s v e / 64) : (s.wrElem v e x).byte a = s.byte a := by
  rw [wrElem_eq he]
  exact (writeTagged_outside s _ _ _ _ (by rw [elem_one p v e x]; omega)).1


/-- Elements `ds` of `vd` have been written with `x` and flags `fl` raised since `s`. -/
structure Partway (s t : State) (vd : VReg) (ds : List Nat) (x : Nat → Nat) (fl : Flags) : Prop where
  frame   : t = ({ s with mem := t.mem, tags := t.tags } : State).orFlags fl
  elems   : ∀ v e, s.thr.roff + (e + 1) * s.ucr.sewBytes ≤ s.ucr.capacity →
    t.elemOrZero v e = if v = vd ∧ e ∈ ds then x e % 2 ^ s.ucr.sew else s.elemOrZero v e
  tags    : ∀ a, t.tag a = s.thr.genV ∨ t.tag a = s.tag a
  written : ∀ e ∈ ds, t.tag (elemAt s vd e) = s.thr.genV
  outside : ∀ p, (p < elemAt s vd 0 ∨ elemAt s vd 0 + s.ucr.capacity ≤ p + s.thr.roff) → t.byte p = s.byte p ∧ t.tag p = s.tag p

theorem orFlags_zero (s : State) : s.orFlags 0#5 = s := by
  simp [State.orFlags, State.mapUcr, State.mapArch, State.mapThr]

theorem orFlags_orFlags (s : State) (a b : Flags) : (s.orFlags a).orFlags b = s.orFlags (a ||| b) := by
  simp [State.orFlags, State.mapUcr, State.mapArch, State.mapThr, BitVec.or_assoc]

theorem elemOrZero_orFlags (s : State) (f : Flags) (v : VReg) (e : Nat) : (s.orFlags f).elemOrZero v e = s.elemOrZero v e := rfl

/-- Memory and tags changed, then flags raised, twice over. -/
theorem orFlags_frame {s t u : State} {fl : Flags} (h : ∃ m k, u = { t with mem := m, tags := k })
    (w : ∃ m k, t = ({ s with mem := m, tags := k } : State).orFlags fl) (f : Flags) :
    u.orFlags f = ({ s with mem := (u.orFlags f).mem, tags := (u.orFlags f).tags } : State).orFlags (fl ||| f) := by
  obtain ⟨m, k, rfl⟩ := h
  obtain ⟨m', k', rfl⟩ := w
  rw [← orFlags_orFlags]
  rfl

theorem partway_start (s : State) (vd : VReg) (x : Nat → Nat) : Partway s s vd [] x 0#5 where
  frame := by rw [orFlags_zero]
  elems := by simp
  tags := fun a => .inr rfl
  written := by simp
  outside := fun p _ => ⟨rfl, rfl⟩

theorem room_of_lt {s : State} (p : Placed s) {e : Nat} (h : e < s.ucr.elems) : s.thr.roff + (e + 1) * s.ucr.sewBytes ≤ s.ucr.capacity := by
  have := p.fits
  have := Nat.mul_le_mul_right s.ucr.sewBytes (show e + 1 ≤ s.ucr.elems from h)
  omega

theorem partway_step {s t : State} {vd : VReg} {ds : List Nat} {x : Nat → Nat} {fl : Flags} (w : Partway s t vd ds x fl)
    (p : Placed s) (h : s.poison = []) {e : Nat} (he : e < s.ucr.elems) (f : Flags) :
    Partway s ((t.wrElem vd e (x e)).orFlags f) vd (ds ++ [e]) x (fl ||| f) := by
  have pt : Placed t := by rw [w.frame]; exact ⟨p.fits, p.granule⟩
  have ht : t.poison = [] := by rw [w.frame]; exact h
  have r := wrElem_rest ht vd e (x e)
  have ea : ∀ v e, elemAt t v e = elemAt s v e := by intro v e; rw [w.frame]; rfl
  have hg : t.thr.genV = s.thr.genV := by rw [w.frame]; rfl
  have hu : t.ucr.sewBytes = s.ucr.sewBytes ∧ t.ucr.sew = s.ucr.sew ∧ t.thr.roff = s.thr.roff ∧ t.ucr.capacity = s.ucr.capacity := by
    rw [w.frame]; exact ⟨rfl, rfl, rfl, rfl⟩
  have rm := room_of_lt p he
  have rt : t.thr.roff + (e + 1) * t.ucr.sewBytes ≤ t.ucr.capacity := by rw [hu.1, hu.2.2.1, hu.2.2.2]; exact rm
  refine ⟨?_, ?_, ?_, ?_, ?_⟩
  · exact orFlags_frame ⟨_, _, r⟩ ⟨_, _, w.frame⟩ f
  · intro v e' h'
    rw [elemOrZero_orFlags, elemOrZero_wrElem pt ht vd v e e' (x e) rt (by rw [hu.1, hu.2.2.1, hu.2.2.2]; exact h'), hu.2.1,
      w.elems v e' h']
    by_cases c : v = vd <;> by_cases d : e' = e <;> simp [c, d]
  · intro a
    rw [tag_orFlags, tag_wrElem pt rt, hg]
    split
    · exact .inl rfl
    · exact w.tags a
  · intro e' h'
    rw [tag_orFlags, tag_wrElem pt rt, hg]
    split
    · rfl
    · rename_i c
      rcases List.mem_append.mp h' with d | d
      · exact w.written e' d
      · simp at d; subst d; rw [ea] at c; exact absurd rfl c
  · intro q hq
    have c : q / 64 ≠ elemAt t vd e / 64 := by
      rw [ea]
      have hm := elemBase_mod p vd
      have hc := capacity_mod s.ucr
      have hro := p.granule.2
      have hf := p.fits
      have hs := sew_cases s.ucr
      rw [elemAt_eq, Nat.zero_mul] at hq
      rw [elemAt_eq]
      rw [Nat.add_mul] at rm
      generalize windowBase + coreOf s.cur * 0x800000 + s.thr.vbase + vd.toNat * s.ucr.capacity + s.thr.roff = b at *
      generalize s.ucr.capacity = cp at *
      generalize e * s.ucr.sewBytes = z at *
      omega
    have := w.outside q hq
    constructor
    · rw [byte_orFlags, byte_wrElem pt rt vd _ q c]; exact this.1
    · rw [tag_orFlags, tag_wrElem pt rt, if_neg c]; exact this.2


/-- What an element reads as partway, where it has not been written. -/
theorem rdElem_partway {s t : State} {vd : VReg} {ds : List Nat} {x : Nat → Nat} {fl : Flags} (w : Partway s t vd ds x fl)
    (p : Placed s) (h : s.poison = []) {v : VReg} {e : Nat} (he : e < s.ucr.elems) (hd : e ∉ ds) (l : Live s v [e]) :
    rdElem v e t = .done (s.elemOrZero v e) t := by
  have ht : t.poison = [] := by rw [w.frame]; exact h
  have q := w.elems v e (room_of_lt p he)
  rw [if_neg (fun c => hd c.2)] at q
  have ea : elemAt t v e = elemAt s v e := by rw [w.frame]; rfl
  have hg : t.thr.genV = s.thr.genV := by rw [w.frame]; rfl
  have gm : t.ucr.genmode = s.ucr.genmode := by rw [w.frame]; rfl
  generalize s.elemOrZero v e = y at q ⊢
  unfold State.elemOrZero at q
  have iv : t.inVreg (e * t.ucr.sewBytes) t.ucr.sewBytes = true := by
    have := room_of_lt p he
    rw [w.frame]
    show decide (s.thr.roff + e * s.ucr.sewBytes + s.ucr.sewBytes ≤ s.ucr.capacity) = true
    rw [Nat.add_mul] at this; simp; omega
  unfold rdElem rdBytes
  rw [if_neg (by simp [iv])]
  change (if t.tag (elemAt t v e) = t.thr.genV then _ else _) = _ at q
  change (if t.tag (elemAt t v e) = t.thr.genV then (if t.poisoned (elemAt t v e) _ = true then _ else _) else _) = _
  by_cases c : t.tag (elemAt t v e) = t.thr.genV
  · rw [if_pos c] at q
    rw [if_pos c, poisoned_nil ht, ← q]; rfl
  · rw [if_neg c] at q
    rw [if_neg c, if_neg, ← q]
    rw [gm]
    rcases l with l | l
    · rw [l]; decide
    · exfalso
      have l := l e (by simp)
      rw [ea, hg] at c
      rcases w.tags (elemAt s v e) with d | d
      · exact c d
      · exact c (d.trans l)

/-- The loop over elements: where the body on an element partway writes `x` and raises `f`, the whole loop writes all of them. -/
theorem forElems_elements {s : State} (p : Placed s) (h : s.poison = []) {vd : VReg} {x : Nat → Nat} {f : Nat → Flags}
    {body : Nat → State → Res Unit} (es : List Nat) (hes : ∀ e ∈ es, e < s.ucr.elems) (nd : es.Nodup)
    (hb : ∀ ds t fl, Partway s t vd ds x fl → ∀ e ∈ es, e ∉ ds → body e t = .done () ((t.wrElem vd e (x e)).orFlags (f e))) :
    ∃ t, forElems body es s = .done () t ∧ Partway s t vd es x (es.foldl (fun acc e => acc ||| f e) 0#5) := by
  suffices H : ∀ (rest ds : List Nat) (t : State) (fl : Flags), Partway s t vd ds x fl → (∀ e ∈ rest, e ∈ es) → (ds ++ rest).Nodup →
      ∃ u, forElems body rest t = .done () u ∧ Partway s u vd (ds ++ rest) x (rest.foldl (fun acc e => acc ||| f e) fl) by
    exact H es [] s 0#5 (partway_start s vd x) (fun e he => he) nd
  intro rest
  induction rest with
  | nil => intro ds t fl w _ _; exact ⟨t, rfl, by simpa using w⟩
  | cons e rest ih =>
    intro ds t fl w hr hn
    have he : e ∈ es := hr e (by simp)
    have hd : e ∉ ds := by
      intro c
      have := (List.nodup_append.mp hn).2.2 e c e (by simp)
      exact this rfl
    have w' := partway_step w p h (hes e he) (f e)
    obtain ⟨u, hu, hw⟩ := ih (ds ++ [e]) _ _ w' (fun e' h' => hr e' (List.mem_cons_of_mem _ h')) (by simpa using hn)
    refine ⟨u, ?_, by simpa using hw⟩
    rw [forElems, hb ds t fl w e he hd]
    exact hu

theorem active_lt {s : State} {k : KReg} {e : Nat} (h : e ∈ s.active k) : e < s.ucr.elems := by
  have h : e ∈ s.activeFrom k s.ucr.vstart.toNat := by
    unfold State.active at h
    split at h
    · exact h
    · exact (List.mem_filter.mp h).1
  exact List.mem_range.mp (List.mem_filter.mp h).1

/-- Masks that hold no poison are read. -/
theorem masksOk_done {s : State} (h : MasksSound s) (ks : List KReg) : masksOk ks s = .done () s := by
  unfold masksOk
  rw [List.find?_eq_none.mpr fun k _ => by simp [h k]]

theorem unlessDone_eq {s : State} (m : MasksSound s) (ks : List KReg) (k : State → Res Unit) (h : ¬s.ucr.elems ≤ s.ucr.vstart.toNat) :
    unlessDone ks s k = endElems (k s) := by
  unfold unlessDone; rw [if_neg h, masksOk_done m, andThen_done]

theorem active_done {s : State} (k : KReg) (h : s.ucr.elems ≤ s.ucr.vstart.toNat) : s.active k = [] := by
  have z : s.activeFrom k s.ucr.vstart.toNat = [] := by
    unfold State.activeFrom
    rw [List.filter_eq_nil_iff]
    intro e he
    have := List.mem_range.mp he
    simp; omega
  unfold State.active
  split <;> simp [z]

/-- An element-wise instruction whose loop is done. -/
theorem vectorResult_of_loop {s : State} (r : Placed s) {vd : VReg} {es : List Nat} {x : Nat → Nat} {fl : Flags} {t : State}
    (w : Partway s t vd es x fl) (hes : ∀ e ∈ es, e < s.ucr.elems) :
    VectorResult s (Moved (t.setVstart 0) { (t.setVstart 0).thr.arch with trip := Fallen (t.setVstart 0).trip }) vd es x (vectorEnd s fl) where
  elems := {
    written := fun e he => by
      refine ⟨?_, w.written e he⟩
      have := w.elems vd e (room_of_lt r (hes e he))
      rw [if_pos ⟨rfl, he⟩] at this
      exact this
    kept := fun e he h => by
      have := w.elems vd e h
      rw [if_neg (fun c => he c.2)] at this
      exact this
    memory := w.outside }
  frame := by
    have := w.frame
    generalize t.mem = m at this
    generalize t.tags = k at this
    subst this
    rfl

theorem active_nodup (s : State) (k : KReg) : (s.active k).Nodup := by
  have h : (s.activeFrom k s.ucr.vstart.toNat).Nodup := (List.nodup_range).filter _
  unfold State.active
  split
  · exact h
  · exact h.filter _


theorem src2_done {s : State} (pl : Plain s) (g : VArgs) {es : List Nat} (l : SecondLive s g es) :
    src2 g s = .done (if g.s then .scalar ((s.reg (g.vb.extractLsb' 0 5)).toNat % 2 ^ s.ucr.sew) else .vector g.vb) s := by
  unfold src2
  cases h : g.s
  · rfl
  · have : Readable s (g.vb.extractLsb' 0 5) := by simpa [SecondLive, h] using l
    simp [readPosted_done pl.noReplay this]

theorem live_one {s : State} {v : VReg} {es : List Nat} (l : Live s v es) {e : Nat} (h : e ∈ es) : Live s v [e] := by
  rcases l with l | l
  · exact .inl l
  · exact .inr (by simpa using l e h)

/-- The element-wise body of two sources. -/
theorem elementBody_done {s : State} (p : Placed s) (pl : Plain s) (h : s.poison = []) (g : VArgs) (readsD : Bool)
    (op : Nat → Nat → Nat → Nat → Nat × Flags)
    (lb : SecondLive s g (s.active (kmReg g.km))) (la : Live s g.va (s.active (kmReg g.km)))
    (ld : readsD = true → Live s g.vd (s.active (kmReg g.km))) :
    let r := fun e => op s.ucr.sew (s.elemOrZero g.va e) (second s g e) (if readsD then s.elemOrZero g.vd e else 0)
    ∃ t, elementBody g readsD op s = .done () t ∧
      Partway s t g.vd (s.active (kmReg g.km)) (fun e => (r e).1) ((s.active (kmReg g.km)).foldl (fun acc e => acc ||| (r e).2) 0#5) := by
  intro r
  unfold elementBody
  rw [src2_done pl g lb, andThen_done]
  refine forElems_elements p h _ (fun e he => active_lt he) (active_nodup s _) ?_
  intro ds t fl w e he hd
  have hlt := active_lt he
  have sw : t.ucr.sew = s.ucr.sew := by rw [w.frame]; rfl
  rw [rdElem_partway w p h hlt hd (live_one la he), andThen_done]
  have h2 : rdSrc2 (if g.s then .scalar ((s.reg (g.vb.extractLsb' 0 5)).toNat % 2 ^ s.ucr.sew) else .vector g.vb) e t =
      .done (second s g e) t := by
    cases hg : g.s
    · have l : Live s g.vb (s.active (kmReg g.km)) := by simpa [SecondLive, hg] using lb
      simp only [rdSrc2, second, hg]
      exact rdElem_partway w p h hlt hd (live_one l he)
    · simp [rdSrc2, second, hg]
  rw [h2, andThen_done]
  cases readsD
  · simp only [Bool.false_eq_true, if_false, andThen_done, sw]; rfl
  · simp only [if_true]
    rw [rdElem_partway w p h hlt hd (live_one (ld rfl) he), andThen_done, sw]; rfl

theorem vregsOk_done {s : State} {i : Instr} {vs : List VReg} (h : ∀ v ∈ vs, v.toNat < s.ucr.regCount) : vregsOk i vs s = .done () s := by
  unfold vregsOk; rw [if_pos]; simpa using h

theorem vectorReady_placed {s : State} {vs : List VReg} (r : VectorReady s vs) : Placed s := ⟨r.fits, r.granule⟩

/-- An element-wise instruction past its checks. -/
theorem posted_elements {s : State} {vs : List VReg} (r : VectorReady s vs) {vd : VReg} {km : KReg} {x : Nat → Nat} {fl : Flags} (i : Instr)
    (ks : List KReg) {k : State → Res Unit} (hfl : s.active km = [] → fl = 0#5)
    (h : ∃ t, k s = .done () t ∧ Partway s t vd (s.active km) x fl) :
    ∃ t, runPosted i s (unlessDone ks s k) = .next t ∧ VectorResult s t vd (s.active km) x (vectorEnd s fl) := by
  have p := vectorReady_placed r
  by_cases c : s.ucr.elems ≤ s.ucr.vstart.toNat
  · have e := active_done km c
    unfold unlessDone
    rw [if_pos c, runPosted_done, hfl e, e]
    have pl : Plain (s.setVstart 0) := ⟨r.plain.noReplay, r.plain.noGroup, r.plain.resolved, r.plain.whole⟩
    rw [retired_plain pl]
    exact ⟨_, rfl, vectorResult_of_loop p (partway_start s vd x) (by simp)⟩
  · obtain ⟨t, ht, w⟩ := h
    rw [unlessDone_eq r.masks ks k c, endElems, ht, andThen_done, runPosted_done]
    have pl : Plain (t.setVstart 0) := by
      rw [w.frame]; exact ⟨r.plain.noReplay, r.plain.noGroup, r.plain.resolved, r.plain.whole⟩
    rw [retired_plain pl]
    exact ⟨_, rfl, vectorResult_of_loop p w fun e he => active_lt he⟩

theorem foldl_zero (es : List Nat) : es.foldl (fun acc (_ : Nat) => acc ||| 0#5) (0#5 : Flags) = 0#5 := by
  induction es with
  | nil => rfl
  | cons e es ih => simpa using ih

/-- An integer instruction of two sources. -/
theorem vint_result {s : State} (i : Instr) (g : VArgs) (readsD : Bool) (op : Nat → Nat → Nat → Nat → Nat) (r : VectorReady s (vargsRegs g))
    (lb : SecondLive s g (s.active (kmReg g.km))) (la : Live s g.va (s.active (kmReg g.km)))
    (ld : readsD = true → Live s g.vd (s.active (kmReg g.km))) :
    ∃ t, vint i g readsD op s = .next t ∧ VectorResult s t g.vd (s.active (kmReg g.km))
      (fun e => op s.ucr.sew (s.elemOrZero g.va e) (second s g e) (if readsD then s.elemOrZero g.vd e else 0)) (vectorEnd s 0#5) := by
  unfold vint
  rw [vregsOk_done r.count, andThen_done]
  have := elementBody_done (vectorReady_placed r) r.plain r.sound g readsD (fun w a b d => (op w a b d, 0#5)) lb la ld
  simp only [foldl_zero] at this
  exact posted_elements r i _ (fun _ => rfl) this

end Sys2Proof.Laws
end

