-- ==== Sys2Proof/Tests/Slice0.lean ====
section
/-!
SUPPORT. Tests: ill-formed terms that the checks refuse, words of the manual that decode to what the manual says, single steps with the
manual's results, and for every statement a state and operands that meet its hypotheses.
-/

namespace Sys2Proof.Tests

open Sys2Proof.Machine Sys2Proof.Safety

set_option maxRecDepth 100000
set_option Elab.async false

/-! ## Well-formedness: one ill-formed term for each check -/

/-- Two sources in format V, from the manual's field order. -/
def vargs (vd va vb : VReg) (s ca cb : Bool) (km : BitVec 3) : VArgs := ⟨vd, va, vb, s, ca, cb, km⟩

theorem test_wf_trap_zero : (Instr.trap 0#11).wf = false := by decide
theorem test_wf_load_width : (Instr.ld 1#5 2#5 7#4 0#12).wf = false ∧ (Instr.ldx 1#5 2#5 3#5 7#4).wf = false := by decide
theorem test_wf_store_width : (Instr.st 1#5 2#5 4#4 0#12).wf = false ∧ (Instr.stx 1#5 2#5 3#5 4#4).wf = false := by decide
theorem test_wf_atomic_scope : (Instr.amo ⟨1#5, 2#5, 3#5, false, false, 5#3, true⟩ 0#4).wf = false ∧
    (Instr.cas ⟨1#5, 2#5, 3#5, false, false, 5#3, true⟩).wf = false := by decide
theorem test_wf_atomic_operation : (Instr.amo ⟨1#5, 2#5, 3#5, false, false, 0#3, true⟩ 11#4).wf = false := by decide
theorem test_wf_dip_source : (Instr.amo ⟨1#5, 2#5, 3#5, false, false, 0#3, true⟩ 9#4).wf = false := by decide
theorem test_wf_scalar_field : (Instr.vadd (vargs 1#6 2#6 32#6 true false false 0#3)).wf = false := by decide
theorem test_wf_scalar_complement : (Instr.vfadd (vargs 1#6 2#6 3#6 true false true 0#3)).wf = false := by decide
theorem test_wf_mask_zero : (Instr.klen 0#4 1#5 0#2).wf = false ∧ (Instr.kand 0#4 1#4 2#4).wf = false ∧ (Instr.kor 0#4 1#4 2#4).wf = false ∧
    (Instr.kxor 0#4 1#4 2#4).wf = false ∧ (Instr.kandn 0#4 1#4 2#4).wf = false ∧ (Instr.knot 0#4 1#4).wf = false ∧
    (Instr.kmv 0#4 1#4).wf = false ∧ (Instr.kbrkb 0#4 1#4).wf = false ∧ (Instr.kbrka 0#4 1#4).wf = false ∧
    (Instr.kbrko 0#4 1#4).wf = false ∧ (Instr.kfromv 0#4 1#6).wf = false ∧ (Instr.kset 0#4 1#5 2#5).wf = false := by decide
theorem test_wf_compare : (Instr.vcmp 0#4 0#4 1#6 2#6 false 0#3 0#2).wf = false ∧ (Instr.vcmp 1#4 0#4 1#6 2#6 false 0#3 3#2).wf = false ∧
    (Instr.vcmp 1#4 6#4 1#6 2#6 false 0#3 0#2).wf = false ∧ (Instr.vcmp 1#4 8#4 1#6 2#6 false 0#3 2#2).wf = false ∧
    (Instr.vcmp 1#4 0#4 1#6 32#6 true 0#3 0#2).wf = false := by decide
theorem test_wf_convert : (Instr.vcvt 1#6 2#6 5#3 false 0#2 0#4 0#4).wf = false ∧ (Instr.vcvt 1#6 2#6 6#3 false 0#2 0#4 0#4).wf = false ∧
    (Instr.vcvt 1#6 2#6 0#3 false 0#2 11#4 0#4).wf = false ∧ (Instr.vcvt 1#6 2#6 0#3 false 0#2 0#4 15#4).wf = false := by decide
theorem test_wf_sign_extending : (Instr.vldSignExtending ⟨1#6, 2#5, false, false, 0#3, 3#2⟩).wf = false ∧
    (Instr.vldstrSignExtending ⟨1#6, 2#5, false, false, 0#3, 3#2⟩ 1#5).wf = false ∧
    (Instr.vldxSignExtending ⟨1#6, 2#5, false, false, 0#3, 3#2⟩ 1#6).wf = false ∧
    (Instr.vldffSignExtending ⟨1#6, 2#5, false, false, 0#3, 3#2⟩).wf = false := by decide
theorem test_wf_vector_atomic : (Instr.vamoAdd ⟨1#6, 2#5, 3#6, false, 5#3, 0#2⟩).wf = false ∧
    (Instr.vhist ⟨1#6, 2#5, 3#6, false, 7#3, 0#2⟩).wf = false := by decide
theorem test_wf_fence : (Instr.fence false false false false 0#3).wf = false ∧ (Instr.fence true false false false 5#3).wf = false ∧
    (Instr.pfence 5#5 0#5 0#3).wf = false ∧ (Instr.pfence 0#5 5#5 0#3).wf = false ∧ (Instr.pfence 0#5 0#5 5#3).wf = false := by decide
theorem test_wf_collective : (Instr.xred 1#5 2#5 3#5 11#4).wf = false ∧ (Instr.xbc 1#5 2#5 3#5 14#4).wf = false ∧
    (Instr.xag 1#5 2#5 3#5 15#4).wf = false := by decide
theorem test_wf_slot : (Instr.preempt).wf = true ∧ (Instr.watchdogExpire 288).wf = false ∧ (Instr.quantumExpire 288).wf = false ∧
    (Instr.imageWriteComplete 288).wf = false ∧ (Instr.csleepExpire 288).wf = false ∧ (Instr.monitorEvict 288).wf = false ∧
    (Instr.debugHalt 288).wf = false ∧ (Instr.debugResume 288).wf = false ∧ (Instr.shiftedLaneMismatch 288 none).wf = false ∧
    (Instr.shiftedLaneMismatch 0 (some 132)).wf = false := by decide
theorem test_wf_tables : (Instr.bindRecordWrite 512 (Vector.replicate 8 0#64)).wf = false ∧ (Instr.harrowSweepEnd 72 0).wf = false ∧
    (Instr.harrowSweepEnd 0 5).wf = false ∧ (Instr.queueCreate (4#4 ++ 0#60) 16 0 0#12 0#6).wf = false ∧
    (Instr.queueCreate (3#4 ++ 0#60) 15 0 0#12 0#6).wf = false ∧ (Instr.queueCreate (3#4 ++ 0#60) 4097 0 0#12 0#6).wf = false ∧
    (Instr.queueCreate (3#4 ++ 0#60) 16 8 0#12 0#6).wf = false ∧ (Instr.lpddr6Retraining 48).wf = false := by decide
theorem test_wf_debug : (Instr.debugRead (.scalar 0 0#5)).wf = false ∧ (Instr.debugRead (.mask 0 0#4 0)).wf = false ∧
    (Instr.debugRead (.granule 0 0x300000)).wf = false ∧ (Instr.debugRead (.granule 0 1)).wf = false ∧
    (Instr.debugRead (.barrier 288 0#3)).wf = false ∧ (Instr.debugWrite (.scalar 0 1#5) [] 0#16).wf = false ∧
    (Instr.attestationQuote []).wf = false := by decide

/-! ## One word for each instruction, from its row of the opcode table: every field holds a value of its own -/

/-- Each word decodes to the instruction beside it. -/
def reads (ws : List (BitVec 32 × Instr)) : Bool :=
  ws.all fun p => match decode p.1 with
    | .ok i => i == p.2
    | .error _ => false

/-- Each word is refused. -/
def refuses (ws : List (BitVec 32)) : Bool :=
  ws.all fun w => match decode w with
    | .ok _ => false
    | .error _ => true

theorem test_decode_system : reads [
    (0x000001B5#32, .trap 437#11), (0x00000800#32, .eret), (0x000011B5#32, .brk 437#11), (0x00001800#32, .halt),
    (0x02A0269A#32, .crd 21#5 1690#11), (0x00152E9A#32, .cwr 21#5 1690#11), (0x02BA3369#32, .crs 21#5 26#5 873#11),
    (0x02BA3B69#32, .crc 21#5 26#5 873#11), (0x00004001#32, .uloop 1#2), (0x00004805#32, .ecls 5#3), (0x00005000#32, .nop)] = true := by
  decide +kernel

theorem test_decode_alu : reads [
    (0x06BA4800#32, .add 21#5 26#5 9#5), (0x06BA4801#32, .sub 21#5 26#5 9#5), (0x06BA4802#32, .and 21#5 26#5 9#5),
    (0x06BA4803#32, .or 21#5 26#5 9#5), (0x06BA4804#32, .xor 21#5 26#5 9#5), (0x06BA4805#32, .andn 21#5 26#5 9#5),
    (0x06BA4806#32, .sll 21#5 26#5 9#5), (0x06BA4807#32, .srl 21#5 26#5 9#5), (0x06BA4808#32, .sra 21#5 26#5 9#5),
    (0x06BA4809#32, .slt 21#5 26#5 9#5), (0x06BA480A#32, .sltu 21#5 26#5 9#5), (0x06BA480B#32, .min 21#5 26#5 9#5),
    (0x06BA480C#32, .max 21#5 26#5 9#5), (0x06BA480D#32, .minu 21#5 26#5 9#5), (0x06BA480E#32, .maxu 21#5 26#5 9#5),
    (0x06BA4810#32, .mul 21#5 26#5 9#5), (0x06BA4811#32, .mulh 21#5 26#5 9#5), (0x06BA4812#32, .mulhu 21#5 26#5 9#5),
    (0x06BA4814#32, .div 21#5 26#5 9#5), (0x06BA4815#32, .divu 21#5 26#5 9#5), (0x06BA4816#32, .rem 21#5 26#5 9#5),
    (0x06BA4817#32, .remu 21#5 26#5 9#5), (0x06BA0018#32, .clz 21#5 26#5), (0x06BA0019#32, .ctz 21#5 26#5),
    (0x06BA001A#32, .popc 21#5 26#5)] = true := by
  decide +kernel

theorem test_decode_immediate : reads [
    (0x0ABA4B69#32, .addi 21#5 26#5 19305#16), (0x0EBA4B69#32, .andi 21#5 26#5 19305#16), (0x12BA4B69#32, .ori 21#5 26#5 19305#16),
    (0x16BA4B69#32, .xori 21#5 26#5 19305#16), (0x1ABA4B69#32, .slti 21#5 26#5 19305#16), (0x1EBA4B69#32, .sltiu 21#5 26#5 19305#16),
    (0x26A24B69#32, .lins 21#5 2#2 19305#16), (0x2AA0D69A#32, .addpc 21#5 54938#16), (0x2EBA54B6#32, .ld 21#5 26#5 5#4 1206#12),
    (0x32BA24B6#32, .st 21#5 26#5 2#4 1206#12)] = true := by
  decide +kernel

theorem test_decode_shift : reads [
    (0x22BA0029#32, .slli 21#5 26#5 41#6), (0x22BA4029#32, .srli 21#5 26#5 41#6), (0x22BA8029#32, .srai 21#5 26#5 41#6)] = true := by
  decide +kernel

theorem test_decode_indexed : reads [
    (0x36BA4805#32, .ldx 21#5 26#5 9#5 5#4), (0x36BA4812#32, .stx 21#5 26#5 9#5 2#4)] = true := by
  decide +kernel

theorem test_decode_atomic : reads [
    (0x3ABA4866#32, .amo ⟨21#5, 26#5, 9#5, false, false, 3#3, false⟩ 6#4),
    (0x3ABA486A#32, .cas ⟨21#5, 26#5, 9#5, false, false, 3#3, false⟩)] = true := by
  decide +kernel

theorem test_decode_wait : reads [
    (0x3EBA4800#32, .waddr 21#5 26#5 9#5), (0x3EBA4801#32, .wake 21#5 26#5 9#5)] = true := by
  decide +kernel

theorem test_decode_branch : reads [
    (0x42BAB4B6#32, .beq 21#5 26#5 true 13494#15), (0x46BAB4B6#32, .bne 21#5 26#5 true 13494#15),
    (0x4ABAB4B6#32, .blt 21#5 26#5 true 13494#15), (0x4EBAB4B6#32, .bge 21#5 26#5 true 13494#15),
    (0x52BAB4B6#32, .bltu 21#5 26#5 true 13494#15), (0x56BAB4B6#32, .bgeu 21#5 26#5 true 13494#15), (0x592D69B5#32, .j 19753397#26),
    (0x5D2D69B5#32, .jal 19753397#26)] = true := by
  decide +kernel

theorem test_decode_jump : reads [
    (0x60150000#32, .jr 21#5), (0x62BA0001#32, .jalr 21#5 26#5)] = true := by
  decide +kernel

theorem test_decode_strip : reads [
    (0x66B534DA#32, .smine 21#5 10#4 true false 13530#15), (0x6940569A#32, .ubrk 5#4 22170#15),
    (0x6D60B4B6#32, .vbx 5#4 2#2 true 13494#15), (0x715A96A0#32, .rpt 5#4 26#6 9#4 6#4 10#4)] = true := by
  decide +kernel

theorem test_decode_shape : reads [
    (0x76BA4808#32, .vshape 21#5 26#5 9#5 2#2), (0x74150001#32, .vcfg 21#5), (0x74BA0006#32, .klen 5#4 26#5 1#2)] = true := by
  decide +kernel

theorem test_decode_integer_a : reads [
    (0x7B56A930#32, .vadd ⟨53#6, 26#6, 41#6, false, false, true, 4#3⟩),
    (0x7B56A931#32, .vsub ⟨53#6, 26#6, 41#6, false, false, true, 4#3⟩),
    (0x7B56A932#32, .vrsub ⟨53#6, 26#6, 41#6, false, false, true, 4#3⟩),
    (0x7B56A933#32, .vmul ⟨53#6, 26#6, 41#6, false, false, true, 4#3⟩),
    (0x7F56A930#32, .vmulh ⟨53#6, 26#6, 41#6, false, false, true, 4#3⟩),
    (0x7F56A931#32, .vmulhu ⟨53#6, 26#6, 41#6, false, false, true, 4#3⟩),
    (0x7F56A932#32, .vdiv ⟨53#6, 26#6, 41#6, false, false, true, 4#3⟩),
    (0x7F56A933#32, .vdivu ⟨53#6, 26#6, 41#6, false, false, true, 4#3⟩),
    (0x8356A930#32, .vrem ⟨53#6, 26#6, 41#6, false, false, true, 4#3⟩),
    (0x8356A931#32, .vremu ⟨53#6, 26#6, 41#6, false, false, true, 4#3⟩),
    (0x8356A932#32, .vmin ⟨53#6, 26#6, 41#6, false, false, true, 4#3⟩),
    (0x8356A933#32, .vmax ⟨53#6, 26#6, 41#6, false, false, true, 4#3⟩),
    (0x8756A930#32, .vminu ⟨53#6, 26#6, 41#6, false, false, true, 4#3⟩),
    (0x8756A931#32, .vmaxu ⟨53#6, 26#6, 41#6, false, false, true, 4#3⟩),
    (0x8756A932#32, .vand ⟨53#6, 26#6, 41#6, false, false, true, 4#3⟩), (0x8756A933#32, .vor ⟨53#6, 26#6, 41#6, false, false, true, 4#3⟩)] = true := by
  decide +kernel

theorem test_decode_integer_b : reads [
    (0x8B56A930#32, .vxor ⟨53#6, 26#6, 41#6, false, false, true, 4#3⟩),
    (0x8B56A931#32, .vandn ⟨53#6, 26#6, 41#6, false, false, true, 4#3⟩),
    (0x8B56A932#32, .vsll ⟨53#6, 26#6, 41#6, false, false, true, 4#3⟩),
    (0x8B56A933#32, .vsrl ⟨53#6, 26#6, 41#6, false, false, true, 4#3⟩),
    (0x8F56A930#32, .vsra ⟨53#6, 26#6, 41#6, false, false, true, 4#3⟩),
    (0x8F56A931#32, .vsadd ⟨53#6, 26#6, 41#6, false, false, true, 4#3⟩),
    (0x8F56A932#32, .vssub ⟨53#6, 26#6, 41#6, false, false, true, 4#3⟩),
    (0x8F56A933#32, .vsaddu ⟨53#6, 26#6, 41#6, false, false, true, 4#3⟩),
    (0x9356A930#32, .vssubu ⟨53#6, 26#6, 41#6, false, false, true, 4#3⟩),
    (0x9356A931#32, .vmerge ⟨53#6, 26#6, 41#6, false, false, true, 4#3⟩), (0x9356805A#32, .vclz ⟨53#6, 26#6, true, 6#3⟩),
    (0x9356805B#32, .vpopc ⟨53#6, 26#6, true, 6#3⟩), (0x9756A930#32, .vmacc ⟨53#6, 26#6, 41#6, false, false, true, 4#3⟩),
    (0x9756A931#32, .vnmsac ⟨53#6, 26#6, 41#6, false, false, true, 4#3⟩),
    (0x9756A932#32, .vabsd ⟨53#6, 26#6, 41#6, false, false, true, 4#3⟩),
    (0x9756A933#32, .vmulq ⟨53#6, 26#6, 41#6, false, false, true, 4#3⟩), (0x994A9D95#32, .vcmp 5#4 2#4 41#6 54#6 false 5#3 1#2)] = true := by
  decide +kernel

theorem test_decode_float : reads [
    (0x9F56A930#32, .vfadd ⟨53#6, 26#6, 41#6, false, false, true, 4#3⟩),
    (0x9F56A931#32, .vfsub ⟨53#6, 26#6, 41#6, false, false, true, 4#3⟩),
    (0x9F56A932#32, .vfmul ⟨53#6, 26#6, 41#6, false, false, true, 4#3⟩),
    (0x9F56A933#32, .vfdiv ⟨53#6, 26#6, 41#6, false, false, true, 4#3⟩),
    (0xA356A930#32, .vfma ⟨53#6, 26#6, 41#6, false, false, true, 4#3⟩),
    (0xA356A931#32, .vfms ⟨53#6, 26#6, 41#6, false, false, true, 4#3⟩),
    (0xA356A932#32, .vfnma ⟨53#6, 26#6, 41#6, false, false, true, 4#3⟩),
    (0xA356A933#32, .vfmin ⟨53#6, 26#6, 41#6, false, false, true, 4#3⟩),
    (0xA756A930#32, .vfmax ⟨53#6, 26#6, 41#6, false, false, true, 4#3⟩),
    (0xA756A931#32, .vfsgnj ⟨53#6, 26#6, 41#6, false, false, true, 4#3⟩),
    (0xA756A932#32, .vfsgnjn ⟨53#6, 26#6, 41#6, false, false, true, 4#3⟩),
    (0xA756A933#32, .vfsgnjx ⟨53#6, 26#6, 41#6, false, false, true, 4#3⟩)] = true := by
  decide +kernel

theorem test_decode_special : reads [
    (0xAB568058#32, .vfsqrt ⟨53#6, 26#6, true, 6#3⟩), (0xAB568059#32, .vfrcp ⟨53#6, 26#6, true, 6#3⟩),
    (0xAB56805A#32, .vfrsq ⟨53#6, 26#6, true, 6#3⟩), (0xAB56805B#32, .vfexp2 ⟨53#6, 26#6, true, 6#3⟩),
    (0xAF568058#32, .vflog2 ⟨53#6, 26#6, true, 6#3⟩), (0xAF568059#32, .vfsigm ⟨53#6, 26#6, true, 6#3⟩),
    (0xAF56805A#32, .vftanh ⟨53#6, 26#6, true, 6#3⟩), (0xAF56805B#32, .vfcls ⟨53#6, 26#6, true, 6#3⟩),
    (0xB3569A59#32, .vcvt 53#6 26#6 3#3 false 2#2 5#4 9#4)] = true := by
  decide +kernel

theorem test_decode_reduction : reads [
    (0xB756A930#32, .vredsum ⟨53#6, 26#6, 41#6, false, false, true, 4#3⟩),
    (0xB756A931#32, .vredmax ⟨53#6, 26#6, 41#6, false, false, true, 4#3⟩),
    (0xB756A932#32, .vredmin ⟨53#6, 26#6, 41#6, false, false, true, 4#3⟩),
    (0xB756A933#32, .vredor ⟨53#6, 26#6, 41#6, false, false, true, 4#3⟩),
    (0xBB56A930#32, .vfredsum ⟨53#6, 26#6, 41#6, false, false, true, 4#3⟩),
    (0xBB56A931#32, .vfredmax ⟨53#6, 26#6, 41#6, false, false, true, 4#3⟩),
    (0xBB56A932#32, .vfredmin ⟨53#6, 26#6, 41#6, false, false, true, 4#3⟩),
    (0xBB56A933#32, .vredand ⟨53#6, 26#6, 41#6, false, false, true, 4#3⟩)] = true := by
  decide +kernel

theorem test_decode_permutation : reads [
    (0xBF568009#32, .vmv 53#6 26#6 9#4), (0xBF568019#32, .vmvs 53#6 26#5 9#4), (0xBD568920#32, .vmvx 21#5 26#6 9#5),
    (0xBF568936#32, .vslideup 53#6 26#6 9#5 6#4), (0xBF568946#32, .vslidedn 53#6 26#6 9#5 6#4),
    (0xBF568956#32, .vslide1up 53#6 26#6 9#5 6#4), (0xBF568966#32, .vslide1dn 53#6 26#6 9#5 6#4),
    (0xBF56A976#32, .vgather 53#6 26#6 41#6 6#4), (0xBF568089#32, .vcompress 53#6 26#6 9#4), (0xBF568099#32, .vexpand 53#6 26#6 9#4),
    (0xBF5280A9#32, .viota 53#6 10#4 9#4), (0xBF5000BA#32, .vid 53#6 10#4), (0xBF5680C9#32, .vtrans 53#6 26#6 9#4),
    (0xBF5689D6#32, .vrowbc 53#6 26#6 9#5 6#4)] = true := by
  decide +kernel

theorem test_decode_mask : reads [
    (0xC0528900#32, .kand 5#4 10#4 9#4), (0xC0528901#32, .kor 5#4 10#4 9#4), (0xC0528902#32, .kxor 5#4 10#4 9#4),
    (0xC0528903#32, .kandn 5#4 10#4 9#4), (0xC0528004#32, .knot 5#4 10#4), (0xC0528005#32, .kmv 5#4 10#4),
    (0xC1528006#32, .kpopc 21#5 10#4), (0xC1528007#32, .kfirst 21#5 10#4), (0xC0528008#32, .kbrkb 5#4 10#4),
    (0xC0528009#32, .kbrka 5#4 10#4), (0xC052800A#32, .kbrko 5#4 10#4), (0xC056800B#32, .kfromv 5#4 26#6),
    (0xC352800C#32, .ktov 53#6 10#4), (0xC056890D#32, .kset 5#4 26#5 9#5)] = true := by
  decide +kernel

theorem test_decode_load : reads [
    (0xC75D0121#32, .vld ⟨53#6, 26#5, true, false, 2#3, 1#2⟩), (0xC75D1254#32, .vldstr ⟨53#6, 26#5, false, false, 5#3, 0#2⟩ 9#5),
    (0xC75D5258#32, .vldx ⟨53#6, 26#5, false, false, 5#3, 0#2⟩ 41#6), (0xC75D012D#32, .vldff ⟨53#6, 26#5, true, false, 2#3, 1#2⟩)] = true := by
  decide +kernel

theorem test_decode_load_sign : reads [
    (0xCB5D0122#32, .vldSignExtending ⟨53#6, 26#5, true, false, 2#3, 2#2⟩),
    (0xCB5D1256#32, .vldstrSignExtending ⟨53#6, 26#5, false, false, 5#3, 2#2⟩ 9#5),
    (0xCB5D525A#32, .vldxSignExtending ⟨53#6, 26#5, false, false, 5#3, 2#2⟩ 41#6),
    (0xCB5D012E#32, .vldffSignExtending ⟨53#6, 26#5, true, false, 2#3, 2#2⟩)] = true := by
  decide +kernel

theorem test_decode_store : reads [
    (0xCF5D0121#32, .vst ⟨53#6, 26#5, true, false, 2#3, 1#2⟩), (0xCF5D1254#32, .vststr ⟨53#6, 26#5, false, false, 5#3, 0#2⟩ 9#5),
    (0xCF5D5258#32, .vstx ⟨53#6, 26#5, false, false, 5#3, 0#2⟩ 41#6)] = true := by
  decide +kernel

theorem test_decode_vector_atomic : reads [
    (0xD35D5288#32, .vamoAdd ⟨53#6, 26#5, 41#6, false, 4#3, 1#2⟩), (0xD35D5289#32, .vamoSwap ⟨53#6, 26#5, 41#6, false, 4#3, 1#2⟩),
    (0xD35D528A#32, .vamoAnd ⟨53#6, 26#5, 41#6, false, 4#3, 1#2⟩), (0xD35D528B#32, .vamoOr ⟨53#6, 26#5, 41#6, false, 4#3, 1#2⟩),
    (0xD35D528C#32, .vamoXor ⟨53#6, 26#5, 41#6, false, 4#3, 1#2⟩), (0xD35D528D#32, .vamoMin ⟨53#6, 26#5, 41#6, false, 4#3, 1#2⟩),
    (0xD35D528E#32, .vamoMax ⟨53#6, 26#5, 41#6, false, 4#3, 1#2⟩), (0xD35D528F#32, .vamoCas ⟨53#6, 26#5, 41#6, false, 4#3, 1#2⟩)] = true := by
  decide +kernel

theorem test_decode_vector_atomic2 : reads [
    (0xD75D5288#32, .vamoMinu ⟨53#6, 26#5, 41#6, false, 4#3, 1#2⟩), (0xD75D5289#32, .vamoMaxu ⟨53#6, 26#5, 41#6, false, 4#3, 1#2⟩),
    (0xD75D528A#32, .vamoFadd ⟨53#6, 26#5, 41#6, false, 4#3, 1#2⟩), (0xD75D528B#32, .vamoDip ⟨53#6, 26#5, 41#6, false, 4#3, 1#2⟩),
    (0xD75D528C#32, .vhist ⟨53#6, 26#5, 41#6, false, 4#3, 1#2⟩)] = true := by
  decide +kernel

theorem test_decode_matrix : reads [
    (0xDA000000#32, .mzero true), (0xDAD05381#32, .mop true 26#6 41#6 6#3), (0xDAD6D382#32, .mopt true 26#6 873#10 6#3),
    (0xDAD6D383#32, .mopk true 26#6 873#10 6#3), (0xDAD05384#32, .mopi true 26#6 41#6 6#3), (0xDAD00045#32, .mld true 26#5 1#3),
    (0xDAD00046#32, .mst true 26#5 1#3), (0xDAD00047#32, .mva true 26#6 1#3), (0xDAD00048#32, .mav true 26#6 1#3)] = true := by
  decide +kernel

theorem test_decode_sync : reads [
    (0xDC000530#32, .fence true false true false 3#3), (0xDC230031#32, .pfence 1#5 3#5 3#3), (0xDEA20002#32, .arrive 21#5 2#3),
    (0xDC05D003#32, .bwait 5#3 26#5), (0xDCBA0004#32, .bset 5#3 26#5), (0xDEBA4805#32, .gmember 21#5 26#5 9#5),
    (0xDEBA0006#32, .gsize 21#5 26#5), (0xDEBA0007#32, .grank 21#5 26#5), (0xDEBA0008#32, .lfork 21#5 26#5), (0xDC000009#32, .ljoin)] = true := by
  decide +kernel

theorem test_decode_copy : reads [
    (0xE2BA4800#32, .cpy 21#5 26#5 9#5 false), (0xE2BA4801#32, .cpyw 21#5 26#5 9#5), (0xE0000002#32, .cbatch),
    (0xE0150003#32, .cwait 21#5), (0xE0150004#32, .csleep 21#5), (0xE2A00005#32, .rdcnt 21#5)] = true := by
  decide +kernel

theorem test_decode_collective : reads [
    (0xE6BA48A0#32, .xred 21#5 26#5 9#5 10#4), (0xE6BA48A1#32, .xbc 21#5 26#5 9#5 10#4), (0xE6BA48A2#32, .xag 21#5 26#5 9#5 10#4),
    (0xE6A00003#32, .xwait 21#5)] = true := by
  decide +kernel

theorem test_decode_name : reads [
    (0xEABA0000#32, .nnew 21#5 26#5), (0xEABA0001#32, .nres 21#5 26#5), (0xE8150002#32, .nkill 21#5),
    (0xEABA4803#32, .ncas 21#5 26#5 9#5), (0xEABA4804#32, .tbind 21#5 26#5 9#5), (0xE8150005#32, .tunbind 21#5),
    (0xEABA0006#32, .tq 21#5 26#5), (0xE815D007#32, .orset 21#5 26#5), (0xE8150008#32, .orclr 21#5)] = true := by
  decide +kernel

theorem test_decode_vml : reads [
    (0xEF568058#32, .smerge ⟨53#6, 26#6, true, 6#3⟩), (0xEF56A931#32, .vrng ⟨53#6, 26#6, 41#6, false, false, true, 4#3⟩),
    (0xEF56A932#32, .vexpd ⟨53#6, 26#6, 41#6, false, false, true, 4#3⟩)] = true := by
  decide +kernel

theorem test_decode_sequence : reads [
    (0xF2BA4800#32, .glean 21#5 26#5 9#5), (0xF2BA4801#32, .gadv 21#5 26#5 9#5), (0xF2BA4802#32, .lenq 21#5 26#5 9#5)] = true := by
  decide +kernel

theorem test_decode_legacy : reads [
    (0xF6BA4860#32, .vfredo 21#5 26#5 9#5 6#3), (0xF6BA4B61#32, .mop8 21#5 26#5 9#5 54#7)] = true := by
  decide +kernel

/-! ## Words of the manual: Table 5.14, the refusals after it, and the listings of 04, 06, 07, 12, 13, 14, 15, 16, 18, 24 -/

theorem test_words_scalar : reads [
    (0x218D0003#32, .slli 12#5 13#5 3#6), (0x218C803F#32, .srai 12#5 12#5 63#6), (0x25821234#32, .lins 12#5 2#2 0x1234#16),
    (0x2980FFFE#32, .addpc 12#5 0xFFFE#16), (0x2DA64FF8#32, .ld 13#5 6#5 4#4 0xFF8#12), (0x35863812#32, .stx 12#5 6#5 7#5 2#4),
    (0x518D8004#32, .bltu 12#5 13#5 true 4#15), (0x60010000#32, .jr 1#5), (0x018D300A#32, .crs 12#5 13#5 0x00A#11),
    (0x058C2010#32, .mul 12#5 12#5 4#5), (0x0652B803#32, .or 18#5 18#5 23#5), (0x05CE001A#32, .popc 14#5 14#5),
    (0x12208000#32, .ori 17#5 0#5 0x8000#16), (0x1AD20004#32, .slti 22#5 18#5 4#16), (0x2FAC6000#32, .ld 29#5 12#5 6#4 0#12),
    (0x30CD3010#32, .st 6#5 13#5 3#4 16#12), (0x4CEE8003#32, .bge 7#5 14#5 true 3#15), (0x58000005#32, .j 5#26),
    (0x65837FFE#32, .smine 12#5 1#4 true false 0x7FFE#15), (0x000D2943#32, .cwr 13#5 0x143#11), (0x01A0200D#32, .crd 13#5 0x00D#11)]
    = true := by
  decide +kernel

theorem test_words_vector : reads [
    (0x758D3808#32, .vshape 12#5 13#5 7#5 2#2), (0x740C0001#32, .vcfg 12#5), (0x74A70002#32, .klen 5#4 7#5 0#2),
    (0x9440422C#32, .vmacc (vargs 4#6 1#6 2#6 false false true 3#3)), (0xA850C003#32, .vfexp2 ⟨5#6, 3#6, false, 0#3⟩),
    (0x988861C6#32, .vcmp 2#4 2#4 6#6 7#6 false 1#3 2#2), (0xB020408A#32, .vcvt 2#6 1#6 0#3 false 0#2 8#4 10#4),
    (0xB030560A#32, .vcvt 3#6 1#6 2#3 true 2#2 0#4 10#4), (0xB8A10B00#32, .vfredsum (vargs 10#6 4#6 11#6 false false false 0#3)),
    (0xB8A10B80#32, .vfredsum (vargs 10#6 4#6 11#6 true false false 0#3)), (0xBC408083#32, .vcompress 4#6 2#6 3#4),
    (0xBC504670#32, .vgather 5#6 1#6 6#6 0#4), (0xBC71CC40#32, .vslidedn 7#6 7#6 12#5 0#4), (0xBCD0CC20#32, .vmvx 13#5 3#6 12#5),
    (0xC0508300#32, .kand 5#4 2#4 3#4), (0xC0408008#32, .kbrkb 4#4 2#4), (0xC0C38007#32, .kfirst 12#5 14#4),
    (0xC413000C#32, .vldff ⟨1#6, 6#5, false, false, 0#3, 0#2⟩), (0xC8230001#32, .vldSignExtending ⟨2#6, 6#5, false, false, 0#3, 1#2⟩),
    (0xC423060A#32, .vldx ⟨2#6, 6#5, false, false, 0#3, 2#2⟩ 3#6), (0xCC431807#32, .vststr ⟨4#6, 6#5, false, false, 0#3, 3#2⟩ 12#5),
    (0xCC138010#32, .vst ⟨1#6, 7#5, false, false, 1#3, 0#2⟩), (0x6CD07FFC#32, .vbx 3#4 1#2 false 0x7FFC#15),
    (0xBC60C0A0#32, .viota 6#6 3#4 0#4), (0xBC410010#32, .vmvs 4#6 4#5 0#4)] = true := by
  decide +kernel

theorem test_words_engines : reads [
    (0xDA000000#32, .mzero true), (0xDA100681#32, .mop true 2#6 3#6 2#3), (0xD8200602#32, .mopt false 4#6 3#10 0#3),
    (0xD8200A04#32, .mopi false 4#6 5#6 0#3), (0xD8300006#32, .mst false 6#5 0#3), (0xDA380007#32, .mva true 7#6 0#3),
    (0xE9860001#32, .nres 12#5 6#5), (0xE8060002#32, .nkill 6#5), (0xE9863803#32, .ncas 12#5 6#5 7#5), (0xE9863804#32, .tbind 12#5 6#5 7#5),
    (0xE8063807#32, .orset 6#5 7#5), (0xECC20000#32, .smerge ⟨12#6, 8#6, false, 0#3⟩),
    (0xEC50CC81#32, .vrng (vargs 5#6 3#6 12#6 true false false 0#3)), (0xEC610706#32, .vexpd (vargs 6#6 4#6 7#6 false false false 1#3)),
    (0x3986383A#32, .cas ⟨12#5, 6#5, 7#5, false, false, 1#3, true⟩), (0x3D863800#32, .waddr 12#5 6#5 7#5), (0x3DA60001#32, .wake 13#5 6#5 0#5),
    (0xD0330828#32, .vamoAdd ⟨3#6, 6#5, 4#6, false, 1#3, 1#2⟩), (0xD4538C04#32, .vhist ⟨5#6, 7#5, 6#6, false, 0#3, 0#2⟩),
    (0xDC0007B0#32, .fence true true true true 3#3), (0xDC0000B0#32, .fence false false false true 3#3), (0xDC200011#32, .pfence 1#5 0#5 1#3),
    (0xDC610031#32, .pfence 3#5 1#5 3#3), (0xDD820002#32, .arrive 12#5 2#3), (0xDC026003#32, .bwait 2#3 12#5), (0xDC470004#32, .bset 2#3 7#5),
    (0xDD940008#32, .lfork 12#5 20#5), (0xDC000009#32, .ljoin), (0xE1863800#32, .cpy 12#5 6#5 7#5 false), (0xE0000002#32, .cbatch),
    (0xE00C0003#32, .cwait 12#5), (0xE1A00005#32, .rdcnt 13#5), (0xE58638A0#32, .xred 12#5 6#5 7#5 10#4), (0xF1863800#32, .glean 12#5 6#5 7#5),
    (0xF1863802#32, .lenq 12#5 6#5 7#5)] = true := by
  decide +kernel

/-- The words near these that trap ILLEGAL, as 05, 06, 07, 09 and 10 list them; the removed opcode (Table 5.17); a reserved major. -/
theorem test_words_refused : refuses [0x00000000#32, 0xFFFFFFFF#32, 0x78306C88#32, 0x69408006#32, 0x218D0043#32, 0x60210000#32,
    0x758D380B#32, 0x988861C7#32, 0xB020708A#32, 0x78304CA8#32, 0xD9300006#32, 0xDA108681#32, 0xD8000009#32, 0xE8060012#32, 0xEC000003#32,
    0x3986017B#32, 0xDC000030#32, 0xDCA10031#32, 0x3D863810#32, 0xE58638E0#32, 0xF4000002#32, 0xF8000000#32] = true := by
  decide +kernel

/-! ## States for the witnesses -/

/-- Page tables that map the lowest gigabyte onto itself for every access at user level (Tables 18.1 and 18.2), and a `nop`. -/
def tables : List Host.Cell :=
  [(0x1000, 0x01#8), (0x1001, 0x20#8), (0x2000, 0x01#8), (0x2001, 0x30#8), (0x3000, 0x7B#8), (0x10001, 0x50#8)]

/-- A strand at user level in slot 0 of core 0, as one stands right after binding, the `nop` at its PC. -/
def base : State := { State.reset with thr := loadedThread 0x10000#64 1#40 tables, mem := tables }

/-- `base` with the strand's thread, its registers or its user control registers changed. -/
def withThr (f : Thread → Thread) : State := { base with thr := f base.thr }
def withArch (f : Arch → Arch) : State := withThr fun t => { t with arch := f t.arch }
def withUcr (f : UserCR → UserCR) : State := withArch fun a => { a with ucr := f a.ucr }

/-- `base` with scalar registers set and live. -/
def regs (xs : List (Fin 32 × Word)) : State :=
  withArch fun a => xs.foldl (fun a p => { a with sreg := a.sreg.set p.1 p.2, stag := a.stag.set p.1 1#16 }) a

/-- `base` with VLEN, VROWS and VSEW. -/
def shaped (len rows : BitVec 9) (sew : BitVec 2) : State := withUcr fun u => { u with vlen := len, vrows := rows, vsew := sew }

/-- How a body ends. -/
def isDone {α : Type} : Res α → Bool
  | .done _ _ => true
  | .trap _ _ => false
  | .wait _ => false
def isTrap {α : Type} : Res α → Bool
  | .done _ _ => false
  | .trap _ _ => true
  | .wait _ => false

theorem base_plain : Plain base := ⟨rfl, rfl, rfl, rfl⟩

/-- Any register of a state without poisoned ones, under GENMODE = 0. -/
theorem free_readable {s : State} (g : s.ucr.genmode = 0#1) (b : s.thr.arch.sbad = []) (r : SReg) : Readable s r :=
  ⟨.inl g, by simp [State.regBad, b]⟩

theorem base_readable (r : SReg) : Readable base r := free_readable rfl rfl r

/-- Every statement that asks for an ordinary word and readable registers only. -/
theorem witness_ordinary_word : Plain base ∧ (∀ r, Readable base r) ∧ base.thr.bound = true := ⟨base_plain, base_readable, rfl⟩

/-! ## Witnesses: scalar instructions -/

theorem witness_AluInstructionsWriteTheirResult : Plain base ∧ Readable base 1#5 ∧ Readable base 31#5 := ⟨base_plain, ⟨.inl rfl, rfl⟩, ⟨.inl rfl, rfl⟩⟩

theorem witness_CountInstructionsCountBits :
    let s := regs [(1, 1#64), (2, 0x8000000000000000#64)]
    Plain s ∧ Readable s 1#5 ∧ s.reg 1#5 ≠ 0#64 ∧ s.reg 2#5 ≠ 0#64 ∧ s.reg 3#5 = 0#64 := by
  exact ⟨⟨rfl, rfl, rfl, rfl⟩, ⟨.inl rfl, rfl⟩, by decide +kernel, by decide +kernel, by decide +kernel⟩

theorem witness_ImmediateInstructionsWriteTheirResult : Plain base ∧ Readable base 0#5 := ⟨base_plain, ⟨.inl rfl, rfl⟩⟩

theorem witness_LinsMergesOneSlot : Plain base := base_plain

theorem witness_StaleScalarReadTraps :
    let s := withUcr fun u => { u with genmode := 1#1 }
    Plain s ∧ s.ucr.genmode = 1#1 ∧ s.regLive 1#5 = false ∧ s.regLive 31#5 = false ∧ Readable s 0#5 :=
  ⟨⟨rfl, rfl, rfl, rfl⟩, rfl, by decide +kernel, by decide +kernel, ⟨.inr (by decide +kernel), rfl⟩⟩

/-- Each condition and its opposite, at the ends of the signed and the unsigned range. -/
theorem witness_BranchesTransferOnTheirCondition :
    let s := regs [(1, 0x8000000000000000#64), (2, 0x7FFFFFFFFFFFFFFF#64), (3, 0xFFFFFFFFFFFFFFFF#64)]
    Plain s ∧ Readable s 1#5 ∧ Readable s 2#5 ∧ (s.reg 1#5).toInt < (s.reg 2#5).toInt ∧ (s.reg 2#5).toNat < (s.reg 1#5).toNat ∧
      s.reg 1#5 ≠ s.reg 2#5 ∧ (s.reg 0#5).toNat < (s.reg 3#5).toNat :=
  ⟨⟨rfl, rfl, rfl, rfl⟩, ⟨.inl rfl, rfl⟩, ⟨.inl rfl, rfl⟩, by decide +kernel, by decide +kernel, by decide +kernel, by decide +kernel⟩

theorem witness_JumpsTransferAndLink :
    let s := regs [(1, 0x20000#64), (2, 0x20003#64)]
    Plain s ∧ Readable s 1#5 ∧ Readable s 2#5 ∧ (s.reg 1#5).toNat % 4 = 0 ∧ (s.reg 2#5).toNat % 4 ≠ 0 :=
  ⟨⟨rfl, rfl, rfl, rfl⟩, ⟨.inl rfl, rfl⟩, ⟨.inl rfl, rfl⟩, by decide +kernel, by decide +kernel⟩

/-- The counter ends the loop in one state and does not in the other; pointers 0 and 3 are stepped. -/
theorem witness_SmineConsumesAGrant :
    let s := regs [(7, 5#64)]
    Plain s ∧ Readable s 7#5 ∧ (∀ i < 4, (9#4).getLsbD i → Readable s (BitVec.ofNat 5 (24 + i))) ∧
      (s.reg 7#5).toNat - s.ucr.vlen.toNat ≠ 0 ∧ (s.reg 0#5).toNat - s.ucr.vlen.toNat = 0 :=
  ⟨⟨rfl, rfl, rfl, rfl⟩, ⟨.inl rfl, rfl⟩, fun _ _ _ => free_readable rfl rfl _, by decide +kernel, by decide +kernel⟩

/-! ## Single steps with the manual's results -/

/-- The register that a step leaves; none where it does not go on. -/
def regAfter (o : Machine.Out) (r : SReg) : Option Word :=
  match o with
  | .next s => some (s.reg r)
  | .fault _ => none
  | .refused _ => none

/-- Table 6.2: division by zero gives all ones, the quotient's overflow the dividend. -/
theorem test_div_corners :
    let s := regs [(1, 0x8000000000000000#64), (2, 0xFFFFFFFFFFFFFFFF#64)]
    regAfter (exec (.div 3#5 1#5 0#5) s) 3#5 = some 0xFFFFFFFFFFFFFFFF#64 ∧
    regAfter (exec (.div 3#5 1#5 2#5) s) 3#5 = some 0x8000000000000000#64 ∧
    regAfter (exec (.rem 3#5 1#5 2#5) s) 3#5 = some 0#64 := by
  decide +kernel

theorem test_add_wraps : regAfter (exec (.add 1#5 1#5 2#5) (regs [(1, 0xFFFFFFFFFFFFFFFF#64), (2, 2#64)])) 1#5 = some 1#64 := by
  decide +kernel

theorem test_zero_discards : regAfter (exec (.addi 0#5 1#5 7#16) base) 0#5 = some 0#64 := by decide +kernel

/-- 06: the link of `jalr` is the address after its two delay slots. -/
theorem test_link : regAfter (exec (.jal 16#26) base) 1#5 = some 0x1000C#64 := by decide +kernel

/-! ## Witnesses: vector instructions -/

/-- VLEN 4, VROWS 1, SEW e32. -/
def vec : State := shaped 4#9 1#9 2#2

/-- The capacity of a register in eight of a whole share (R43). -/
theorem capacity_whole (u : UserCR) (h : u.vcfg = 0#4) : u.capacity = 65536 := by simp [UserCR.capacity, UserCR.regCount, h]

/-- No mask register of a strand as it stands after binding holds poison. -/
theorem masks_sound {s : State} (h : s.thr.arch.mask = Vector.replicate 16 MaskReg.reset) : MasksSound s := by
  intro k
  simp only [State.maskBad, State.maskReg, h]
  simp [Vector.get, MaskReg.reset]

/-- A state of a shape in which registers 1 to 7 can be named: eight registers (VCFG 0). -/
theorem shaped_ready (len rows : BitVec 9) (sew : BitVec 2) (vs : List VReg) (hv : ∀ v ∈ vs, v.toNat < 8)
    (hf : (shaped len rows sew).ucr.elems * (shaped len rows sew).ucr.sewBytes ≤ 65536) : VectorReady (shaped len rows sew) vs :=
  { plain := ⟨rfl, rfl, rfl, rfl⟩
    count := hv
    fits := by
      rw [capacity_whole _ (show (shaped len rows sew).ucr.vcfg = 0#4 from rfl), show (shaped len rows sew).thr.roff = 0 from rfl]
      omega
    granule := ⟨rfl, rfl⟩
    sound := rfl
    masks := masks_sound rfl }

/-- Registers 0 and 7, the first and the last (R47). -/
theorem vec_ready : VectorReady vec [7#6, 0#6, 1#6] := shaped_ready _ _ _ _ (by decide) (by decide)

/-- Both forms of the second source, at unmasked elements and under a mask. -/
theorem witness_VectorIntegersComputeEachElement :
    let g := vargs 7#6 0#6 1#6 false false false 0#3
    let h := vargs 7#6 0#6 1#6 true false false 0#3
    VectorReady vec (vargsRegs g) ∧ VectorReady vec (vargsRegs h) ∧ vec.active (kmReg 0#3) = [0, 1, 2, 3] ∧
      SecondLive vec g [0, 1, 2, 3] ∧ SecondLive vec h [0, 1, 2, 3] ∧ Live vec 0#6 [0, 1, 2, 3] ∧
      VectorReady vec [(7 : VReg), 0#6] :=
  ⟨vec_ready, shaped_ready _ _ _ _ (by decide) (by decide), by decide +kernel, .inl rfl, ⟨.inl rfl, rfl⟩, .inl rfl,
    shaped_ready _ _ _ _ (by decide) (by decide)⟩

/-- The three formats in force. -/
theorem witness_VectorFloatsComputeEachElement :
    VectorReady vec (vargsRegs (vargs 7#6 0#6 1#6 false false false 0#3)) ∧ FloatShape vec .f32 ∧ RM.ofCode vec.ucr.frm = some .rne ∧
      FloatShape (shaped 4#9 1#9 1#2) .f16 ∧ FloatShape (withUcr fun u => { u with vsew := 1#2, vfmt := 1#1 }) .w16 :=
  ⟨vec_ready, .inl ⟨rfl, rfl⟩, rfl, .inr (.inl ⟨rfl, rfl, rfl⟩), .inr (.inr ⟨rfl, rfl, rfl⟩)⟩

/-- SEW e8, e64; and a rounding code that is reserved, at e16 and e32. -/
theorem witness_FloatOperationsRoundOnceOrTrap :
    (∀ v ∈ vargsRegs (vargs 7#6 0#6 1#6 false false false 0#3), v.toNat < base.ucr.regCount) ∧
    (shaped 4#9 1#9 0#2).ucr.vsew = 0#2 ∧ (shaped 4#9 1#9 3#2).ucr.vsew = 3#2 ∧
    let s := withUcr fun u => { u with vsew := 1#2, frm := 5#3 }
    Plain s ∧ s.ucr.vsew = 1#2 ∧ 5 ≤ s.ucr.frm.toNat :=
  ⟨by decide +kernel, rfl, rfl, ⟨rfl, rfl, rfl, rfl⟩, rfl, by decide⟩

/-- The same statement's other clauses. Each kind of encoding, a quiet and a signalling NaN, both zeros, infinities of both signs, a one, the top
exponent of F8A with and without a value; a sum that is zero and one that is not; numbers below and at each other. -/
theorem witness_FloatOperationsRoundOnceOrTrap_values :
    FFmt.f32.decode 0x3F800000 = .fin false (2 ^ 23) (-23) ∧ FFmt.f16.decode 0xBC00 = .fin true 1024 (-10) ∧
      FFmt.f16.decode 0 = .fin false 0 (-24) ∧ FFmt.f16.decode 0x8000 = .fin true 0 (-24) ∧ FFmt.f32.decode 0x7F800000 = .inf false ∧
      FFmt.f32.decode 0xFF800000 = .inf true ∧ FFmt.f32.decode 0x7F800001 = .nan true ∧ FFmt.f32.decode 0x7FC00000 = .nan false ∧
      (FFmt.f32.decode 0x7F800001).isNan = true ∧ (FFmt.f32.decode 0x3F800000).isNan = false ∧
      (0x7E / 2 ^ FFmt.f8a.fb % 2 ^ FFmt.f8a.eb = 2 ^ FFmt.f8a.eb - 1 ∧ 0x7E % 2 ^ FFmt.f8a.fb ≠ 7) ∧ FFmt.f8a.decode 0x7F = .nan false ∧
      (1 * (8 : Int) + -1 * (8 : Nat) = 0 ∧ 1 * (8 : Int) + 1 * (8 : Nat) ≠ 0) ∧ (RM.rup = .rup ∧ RM.rdn ≠ .rup) := by
  decide +kernel

/-- A power whose exponent is an integer, a fraction, and beyond 512 on either side; a logarithm of one, of two and of three; the logistic
function far below zero, below it and above it. -/
theorem witness_SpecialFunctionsRoundTheExactValue :
    (FFmt.f32 ≠ .f8a ∧ FFmt.f16 ≠ .f8a) ∧ (Safety.signed true (3 * 2 ^ (0 : Int).toNat) = -3 * ((2 ^ (-(0 : Int)).toNat : Nat) : Int) ∧ ¬Less 512 0 3 0) ∧
      ((∀ i : Int, Safety.signed true (1 * 2 ^ (-1 : Int).toNat) ≠ i * ((2 ^ (-(-1 : Int)).toNat : Nat) : Int)) ∧ ¬Less 512 0 1 (-1)) ∧ Less 512 0 513 0 ∧
      (FFmt.f32.decode 0x3F800000 = .fin false (2 ^ 23) (-23) ∧ (-23 : Int) + (23 : Nat) = 0) ∧
      (FFmt.f32.decode 0x40000000 = .fin false (2 ^ 23) (-22) ∧ (-22 : Int) + (23 : Nat) ≠ 0) ∧
      (FFmt.f32.decode 0x40400000 = .fin false (3 * 2 ^ 22) (-22) ∧ 2 ^ 23 ≤ 3 * 2 ^ 22 ∧ 3 * 2 ^ 22 < 2 ^ (23 + 1) ∧ 3 * 2 ^ 22 ≠ 2 ^ 23) ∧
      (FFmt.f32.decode 0xC3808000 = .fin true (257 * 2 ^ 15) (-15) ∧ Less 256 0 (257 * 2 ^ 15) (-15)) ∧
      (FFmt.f32.decode 0xBF800000 = .fin true (2 ^ 23) (-23) ∧ ¬Less 256 0 (2 ^ 23) (-23)) := by
  unfold Less
  refine ⟨by decide, by decide +kernel, ⟨fun i => ?_, by decide +kernel⟩, by decide +kernel⟩
  show (-1 : Int) ≠ i * 2
  omega

/-- A signalling NaN beside a number, a quiet one beside an infinity, numbers, infinities, and one of each. -/
theorem witness_VectorCompareWritesItsMask_values :
    ((FFmt.f32.decode 0x7F800001).sig = true ∧ (FFmt.f16.decode 0x7E00).isNan = true ∧ (FFmt.f16.decode 0x7E00).sig = false) ∧
      FFmt.f32.decode 0x3F800000 = .fin false (2 ^ 23) (-23) ∧ FFmt.f32.decode 0xBF800000 = .fin true (2 ^ 23) (-23) ∧
      FFmt.f32.decode 0x7F800000 = .inf false ∧ FFmt.f32.decode 0xFF800000 = .inf true ∧ 7 < 8 := by
  decide +kernel

/-- Both kinds of integer format; a NaN, an infinity, a number within the range of i8 and one past each end of it; an integer that is zero and
one that is not; the same format and another one, F8A among them. -/
theorem witness_ConversionsWriteEachElement_values :
    ((Fmt.int true 8 = .int true 8 ∧ 8 ∈ [8, 16, 32, 64]) ∧ 8 ≤ 32) ∧ (Fmt.planar = .planar ∧ true = true ∧ 8 = 8) ∧
      FFmt.f32.decode (0x7FC00000 % 2 ^ 32) = .nan false ∧ FFmt.f32.decode (0xFF800000 % 2 ^ 32) = .inf true ∧
      FFmt.f32.decode (0x3FC00000 % 2 ^ 32) = .fin false (3 * 2 ^ 22) (-23) ∧ FFmt.f32.decode (0xC3808000 % 2 ^ 32) = .fin true (257 * 2 ^ 15) (-15) ∧
      FFmt.f32.decode (0x43808000 % 2 ^ 32) = .fin false (257 * 2 ^ 15) (-15) ∧ (BitVec.ofNat 8 0x80).toInt ≠ 0 ∧ (BitVec.ofNat 8 0x100).toInt = 0 ∧
      FFmt.f32 ≠ .f16 ∧ FFmt.f8a ≠ .f32 ∧ FFmt.f32.decode (0x80000000 % 2 ^ 32) = .fin true 0 (-149) := by
  decide +kernel

/-- k1 and k15 as destinations, integer and float codes at the ends of their range; e8 for the trap. -/
theorem witness_VectorCompareWritesItsMask :
    let g := vargs 0#6 0#6 1#6 false false false 0#3
    (1#4 : KReg) ≠ 0#4 ∧ (15#4 : KReg) ≠ 0#4 ∧ (0#4).toNat < 8 ∧ (7#4).toNat < 8 ∧ VectorReady vec (vargsRegs g) ∧
      SecondLive vec g [0, 1, 2, 3] ∧ Live vec 0#6 [0, 1, 2, 3] ∧ FloatShape vec .f32 ∧ (shaped 4#9 1#9 0#2).ucr.vsew = 0#2 ∧
      VectorReady (shaped 4#9 1#9 0#2) (vargsRegs g) :=
  ⟨by decide, by decide, by decide, by decide, shaped_ready _ _ _ _ (by decide) (by decide), .inl rfl, .inl rfl, .inl ⟨rfl, rfl⟩, rfl,
    shaped_ready _ _ _ _ (by decide) (by decide)⟩

/-- i8 to f32 at e32 and to i32; at e8 the f32 does not fit; reserved codes; integer widths at both ends. -/
theorem witness_ConversionsWriteEachElement :
    (∃ fs fd, Fmt.ofCode 0#4 = some fs ∧ Fmt.ofCode 10#4 = some fd ∧ fs.width ≤ vec.ucr.sew ∧ fd.width ≤ vec.ucr.sew ∧
      (shaped 4#9 1#9 0#2).ucr.sew < fd.width) ∧
    RM.ofCode (if (7#3 : BitVec 3) = 7#3 then vec.ucr.frm else 7#3) = some .rne ∧ VectorReady vec [(7 : VReg), 0#6] ∧
    VectorReady (shaped 4#9 1#9 0#2) [(7 : VReg), 0#6] ∧ Live vec 0#6 [0, 1, 2, 3] ∧
    ((11#4 : BitVec 4) = 11#4 ∨ (0#4 : BitVec 4) = 15#4) ∧ 8 ∈ [8, 16, 32, 64] ∧ 64 ∈ [8, 16, 32, 64] :=
  ⟨⟨_, _, rfl, rfl, by decide, by decide, by decide⟩, rfl, shaped_ready _ _ _ _ (by decide) (by decide),
    shaped_ready _ _ _ _ (by decide) (by decide), .inl rfl, .inl rfl, by decide, by decide⟩

/-- The whole form and the per-row form, no active element among them; a rounding mode with RMODE bit 0 set and clear. -/
theorem witness_ReductionsWriteTheirResult :
    VectorReady vec [(7 : VReg), 0#6, 1#6] ∧ VectorReady (shaped 4#9 2#9 2#2) [(7 : VReg), 0#6, 1#6] ∧ Live vec 1#6 [0] ∧
      (∀ row ∈ [0], Live vec 0#6 (reduced vec (vargs 7#6 0#6 1#6 false false false 0#3) row)) ∧ FloatShape vec .f32 ∧
      vec.ucr.rmode.getLsbD 0 = false ∧ RM.ofCode vec.ucr.frm = some .rne ∧
      (withUcr fun u => { u with rmode := 1#2 }).ucr.rmode.getLsbD 0 = true ∧
      (∀ p ∈ [(0, 1), (31, 2), (63, 3)], p.1 < 32 * 2) ∧ ([(0, 1), (31, 2), (63, 3)].Pairwise fun p q => p.1 < q.1) :=
  ⟨vec_ready, shaped_ready _ _ _ _ (by decide) (by decide), .inl rfl, fun _ _ => .inl rfl, .inl ⟨rfl, rfl⟩, rfl, rfl, rfl, by decide, by decide⟩

/-- A square and an oblong shape; a slide by 0 and by VLEN. -/
theorem witness_PermutationsMoveElements :
    VectorReady vec [(7 : VReg), 0#6, 1#6] ∧ (∀ e ∈ vec.active 0#4, Live vec 0#6 [e]) ∧ Readable vec 1#5 ∧ Live vec 1#6 [0, 1, 2, 3] ∧
      vec.ucr.vlen ≠ vec.ucr.vrows ∧ VectorReady (shaped 4#9 4#9 2#2) [(7 : VReg), 0#6] ∧
      (shaped 4#9 4#9 2#2).ucr.vlen = (shaped 4#9 4#9 2#2).ucr.vrows :=
  ⟨vec_ready, fun _ _ => .inl rfl, ⟨.inl rfl, rfl⟩, .inl rfl, by decide, shaped_ready _ _ _ _ (by decide) (by decide), rfl⟩

/-- An index below, at and above VLEN × VROWS; a stale element under GENMODE = 1. -/
theorem witness_VmvxReadsOneElement :
    VectorReady vec [7#6] ∧ Readable vec 1#5 ∧ (vec.reg 1#5).toNat < vec.ucr.elems ∧ Live vec 7#6 [0] ∧
    VectorReady base [7#6] ∧ base.ucr.elems ≤ (base.reg 1#5).toNat ∧
    let s := withUcr fun u => { u with vlen := 4#9, genmode := 1#1 }
    VectorReady s [7#6] ∧ Readable s 0#5 ∧ (s.reg 0#5).toNat < s.ucr.elems ∧ ¬Live s 7#6 [0] := by
  refine ⟨shaped_ready _ _ _ _ (by decide) (by decide), ⟨.inl rfl, rfl⟩, by decide +kernel, .inl rfl,
    { plain := ⟨rfl, rfl, rfl, rfl⟩, count := by decide, fits := by decide +kernel, granule := ⟨rfl, rfl⟩, sound := rfl, masks := masks_sound rfl },
    by decide +kernel,
    { plain := ⟨rfl, rfl, rfl, rfl⟩, count := by decide, fits := by decide +kernel, granule := ⟨rfl, rfl⟩, sound := rfl, masks := masks_sound rfl },
    ⟨.inr (by decide +kernel), rfl⟩, by decide +kernel, ?_⟩
  rintro (h | h)
  · exact absurd h (by decide)
  · exact absurd (h 0 (by simp)) (by decide +kernel)

theorem witness_MaskInstructionsWriteTheirRow :
    Plain vec ∧ MasksSound vec ∧ (15#4 : KReg) ≠ 0#4 ∧ Readable vec 1#5 ∧ VectorReady vec [7#6] ∧ Live vec 7#6 (List.range vec.ucr.elems) :=
  ⟨⟨rfl, rfl, rfl, rfl⟩, masks_sound rfl, by decide, ⟨.inl rfl, rfl⟩, shaped_ready _ _ _ _ (by decide) (by decide), .inl rfl⟩

/-- Each width: two that run, two that trap. -/
theorem witness_VrngMixesCounterAndKey :
    let g := vargs 7#6 0#6 1#6 false false false 0#3
    VectorReady vec (vargsRegs g) ∧ vec.ucr.vsew = 2#2 ∧ (shaped 4#9 1#9 3#2).ucr.vsew = 3#2 ∧ SecondLive vec g [0, 1, 2, 3] ∧
      Live vec 0#6 [0, 1, 2, 3] ∧ (shaped 4#9 1#9 0#2).ucr.vsew = 0#2 ∧ (shaped 4#9 1#9 1#2).ucr.vsew = 1#2 :=
  ⟨vec_ready, rfl, rfl, .inl rfl, .inl rfl, rfl, rfl⟩

/-- Register 8 of eight; a stale element 0 under GENMODE = 1. -/
theorem witness_VectorOperandsTrap :
    (∃ v ∈ vargsRegs (vargs 8#6 0#6 1#6 false false false 0#3), base.ucr.regCount ≤ v.toNat) ∧
    let g := vargs 7#6 0#6 1#6 false false false 0#3
    let s := withUcr fun u => { u with vlen := 4#9, genmode := 1#1 }
    VectorReady s (vargsRegs g) ∧ s.ucr.genmode = 1#1 ∧ (g.s = true → Readable s (g.vb.extractLsb' 0 5)) ∧
      s.active (kmReg g.km) = [0, 1, 2, 3] ∧ s.tag (elemAt s g.va 0) ≠ s.thr.genV ∧ FloatShape s .f32 ∧ RM.ofCode s.ucr.frm = some .rne := by
  refine ⟨⟨8#6, by decide, by decide⟩, ?_, rfl, fun h => absurd h (by decide), by decide +kernel, by decide +kernel, .inl ⟨rfl, rfl⟩, rfl⟩
  exact { plain := ⟨rfl, rfl, rfl, rfl⟩, count := by decide, fits := by decide +kernel, granule := ⟨rfl, rfl⟩, sound := rfl, masks := masks_sound rfl }

/-- A request of nothing and one above every bound; the first and the last register count; a code that is none; a fork child's core. -/
theorem witness_ShapeInstructionsSetTheShape :
    let s := regs [(1, 8#64), (2, 64#64), (3, 0xFFFFFFFFFFFFFFFF#64)]
    Plain s ∧ Readable s 1#5 ∧ (s.reg 0#5).toNat = 0 ∧ s.reg 1#5 = BitVec.ofNat 64 (8 * 2 ^ (0#2).toNat) ∧
      s.reg 2#5 = BitVec.ofNat 64 (8 * 2 ^ (3#2).toNat) ∧ (∀ c : BitVec 2, s.reg 3#5 ≠ BitVec.ofNat 64 (8 * 2 ^ c.toNat)) ∧
      (s.thr.parent = none ∧ ∀ f ∈ s.thr.forks, f.ended = true) ∧ (s.allocGen (coreOf s.cur) 1).1 = some 1#16 ∧
      (withThr fun t => { t with parent := some 1 }).thr.parent ≠ none :=
  ⟨⟨rfl, rfl, rfl, rfl⟩, ⟨.inl rfl, rfl⟩, by decide +kernel, by decide +kernel, by decide +kernel, by decide +kernel, ⟨rfl, by decide +kernel⟩,
    by decide +kernel, by decide⟩

/-- Table 6.10's first pass, 06 section 6.6: a grant of 256 leaves 344 and steps p0 by 4 × 256. -/
theorem test_smine_example :
    let r := regs [(7, 600#64), (24, 0x00100000#64)]
    let s : State := { r with thr := { r.thr with arch := { r.thr.arch with
      qrows := 1#64, qlen := 600#64, ucr := { r.ucr with vcfg := 0b1010#4, vlen := 256#9, vrows := 1#9, pstep := 0x00000404#32 } } } }
    let o := exec (.smine 7#5 3#4 false false (BitVec.ofInt 15 (-5))) s
    regAfter o 7#5 = some 344#64 ∧ regAfter o 24#5 = some 0x00100400#64 := by
  decide +kernel

/-! ## Witnesses: memory -/

/-- `base` with scalar registers set and live and its user control registers changed. -/
def both (xs : List (Fin 32 × Word)) (f : UserCR → UserCR) : State :=
  { regs xs with thr := { (regs xs).thr with arch := { (regs xs).thr.arch with ucr := f (regs xs).ucr } } }

/-- Other page tables: the lowest gigabyte mapped without permission to read; mapped onto the core windows; and, at 0x4000_0000, one page
of the lowest level mapped. -/
def noRead : List Host.Cell := [(0x1000, 0x01#8), (0x1001, 0x20#8), (0x2000, 0x01#8), (0x2001, 0x30#8), (0x3000, 0x73#8)]
def windows : List Host.Cell :=
  [(0x1000, 0x01#8), (0x1001, 0x20#8), (0x2000, 0x01#8), (0x2001, 0x30#8), (0x3000, 0x7B#8), (0x3004, 0xD0#8)]
def fiveLevels (leaf : Byte) : List Host.Cell :=
  [(0x1000, 0x01#8), (0x1001, 0x20#8), (0x2000, 0x01#8), (0x2001, 0x30#8), (0x3008, 0x01#8), (0x3009, 0x40#8), (0x4000, 0x01#8),
   (0x4001, 0x50#8), (0x5000, leaf), (0x5002, 0x01#8)]

/-- A store of `base`'s strand to 0x10008 that no other observer has seen. -/
def lateStore (p : Path) : Late :=
  { uid := 1, core := 0, launch := 0, way := p.plain, pa := 0x10008, old := [0x11#8], gen := 0#16, perf := [], seen := [] }

/-! ## Walks of `tables` from whatever state an instruction has reached -/

/-- The one leaf of `tables`: the lowest gigabyte onto itself. -/
def gigabyte : WalkEntry :=
  { asid := 0#12, page := 0, pages := 262144, frame := 0, leaf := 0x7B#64, frames := [0x3000, 0x2000, 0x1000] }

/-- A strand whose context walks `tables`, with nothing cached, nothing held or late, and no poison. -/
structure Mapped (s : State) : Prop where
  asid   : s.thr.asid = 0#12
  root   : s.thr.root = 1#40
  user   : s.thr.level = false
  walks  : s.walks = []
  names  : s.nameCache = []
  late   : s.late = []
  held   : s.thr.held = []
  clean  : s.poison = [] ∧ s.badFrames = []
  loose  : s.ucr.genmode = 0#1
  bytes  : ∀ t ∈ [0x1000, 0x2000, 0x3000], s.bytes t 8 = (List.range 8).map fun i => Sparse.get memDefault tables (t + i)

theorem region_low (s : State) {a : Nat} (h : a < 2 ^ 30) : s.region a = .lpddr := by
  have h1 : a < 0x00C000000000 := by omega
  have h2 : a < 0x006000000000 := by omega
  simp [State.region, homeDie, State.dieReached, h1, h2]

/-- A state on the way from a mapped one reads the tables, and whatever else it has not written, as that one does. -/
structure Onway (s u : State) (out : Nat → Prop) : Prop where
  varied : Varied s u out
  low    : ∀ t ∈ [0x1000, 0x2000, 0x3000], ∀ i < 8, out (t + i)

theorem bytes_kept {s u : State} {out : Nat → Prop} (v : Varied s u out) {a n : Nat} (h : ∀ i < n, out (a + i)) : u.bytes a n = s.bytes a n := by
  unfold State.bytes
  exact List.map_congr_left fun i hi => (v.memory _ (h i (List.mem_range.mp hi))).1

theorem pte_low {s u : State} {out : Nat → Prop} (m : Mapped s) (v : Onway s u out) {t : Nat} (h : t ∈ [0x1000, 0x2000, 0x3000]) :
    u.readPte t = (BitVec.ofNat 64 (numOf ((List.range 8).map fun i => Sparse.get memDefault tables (t + i))), false) := by
  have p : u.poison = [] := by rw [v.varied.frame]; exact m.clean.1
  unfold State.readPte
  rw [region_low u (show t < 2 ^ 30 by simp at h; omega), bytes_kept v.varied (v.low t h), m.bytes t h]
  simp [State.poisoned, p]

theorem walk_low {s u : State} {out : Nat → Prop} (m : Mapped s) (v : Onway s u out) {a : Nat} (h : a < 2 ^ 30) :
    u.walk s.thr.asid s.thr.root a = .leaf gigabyte := by
  have b : u.badFrames = [] := by rw [v.varied.frame]; exact m.clean.2
  have e4 : u.readPte 0x1000 = (0x2001#64, false) := by rw [pte_low m v (by simp)]; rfl
  have e3 : u.readPte 0x2000 = (0x3001#64, false) := by rw [pte_low m v (by simp)]; rfl
  have e2 : u.readPte 0x3000 = (0x7B#64, false) := by rw [pte_low m v (by simp)]; rfl
  have i4 : walkIndex a 4 = 0 := by simp [walkIndex, pageBits]; omega
  have i3 : walkIndex a 3 = 0 := by simp [walkIndex, pageBits]; omega
  have i2 : walkIndex a 2 = 0 := by simp [walkIndex, pageBits]; omega
  have ok : ∀ t < 2 ^ 30, u.tableOk t = true := fun t ht => by unfold State.tableOk; rw [region_low u ht]
  unfold State.walk
  rw [m.asid, m.root, show (1#40 : BitVec 40).toNat * 4096 = 0x1000 from rfl, ok _ (by omega)]
  have w : u.walkFrom 0#12 a 4 0x1000 [] = .leaf gigabyte := by
    rw [State.walkFrom, i4, e4]; simp only [b, List.contains_nil]
    rw [show ptePpn 0x2001#64 = 0x2000 from rfl, ok _ (by omega), State.walkFrom, i3, e3]; simp only [b, List.contains_nil]
    rw [show ptePpn 0x3001#64 = 0x3000 from rfl, ok _ (by omega), State.walkFrom, i2, e2]; simp only [b, List.contains_nil]
    have l : leafAt 0#12 a 2 0x7B#64 [0x3000, 0x2000, 0x1000] = gigabyte := by
      have : a / 2 ^ (12 + 9 * 2) = 0 := by omega
      simp [leafAt, pageBits, this, gigabyte, ptePpn] <;> omega
    rw [l]; rfl
  rw [w]
  have : gigabyte.addr a = a := by simp [WalkEntry.addr, gigabyte]
  simp only [State.checked, this, region_low u h]
  rfl

/-- Every walk that is noted on the way is that of the one leaf. -/
theorem mapped_walks {s u : State} {out : Nat → Prop} {as : List Word} (m : Mapped s)
    (low : ∀ t ∈ [0x1000, 0x2000, 0x3000], ∀ i < 8, out (t + i)) (ws : ∀ w ∈ u.walks, w ∈ s.walks ∨ ∃ x a, Varied s x out ∧ a ∈ as ∧
      x.walk s.thr.asid s.thr.root a.toNat = .leaf w) (las : ∀ a ∈ as, a.toNat < 2 ^ 30) : ∀ w ∈ u.walks, w = gigabyte := fun w hw => by
  rcases ws w hw with h' | ⟨x, a, vx, ha, hx⟩
  · rw [m.walks] at h'; exact absurd h' (by simp)
  · rw [walk_low m ⟨vx, low⟩ (las a ha)] at hx; exact (Walk.leaf.inj hx).symm

/-- So is every translation. -/
theorem mapped_reaches {s u : State} {out : Nat → Prop} {as : List Word} (m : Mapped s) (v : Varied s u out)
    (low : ∀ t ∈ [0x1000, 0x2000, 0x3000], ∀ i < 8, out (t + i)) (ws : ∀ w ∈ u.walks, w ∈ s.walks ∨ ∃ x a, Varied s x out ∧ a ∈ as ∧
      x.walk s.thr.asid s.thr.root a.toNat = .leaf w) (las : ∀ a ∈ as, a.toNat < 2 ^ 30) {va : Word} (h : va.toNat < 2 ^ 30) (k : Access) :
    Reaches u va k ⟨va.toNat, 0#2⟩ := by
  have g := mapped_walks m low ws las
  have thr : u.thr = s.thr := by rw [v.frame]
  have fresh := walk_low m ⟨v, low⟩ h
  have addr : gigabyte.addr va.toNat = va.toNat := by simp [WalkEntry.addr, gigabyte]
  have choose : u.chooseWalk u.thr.asid u.thr.root va.toNat = (.leaf gigabyte, u) := by
    unfold State.chooseWalk
    rw [thr, fresh]
    have : ((u.walks.filter fun e => e.covers s.thr.asid va.toNat).map fun c => u.checked va.toNat (.leaf c)).filter (fun w => w ≠ .leaf gigabyte) = [] := by
      rw [List.filter_eq_nil_iff]
      intro w hw
      obtain ⟨c, hc, rfl⟩ := List.mem_map.mp hw
      rw [g c (List.mem_filter.mp hc).1]
      simp only [State.checked, addr, region_low u h]; simp
    simp only [this]
  have high : va.extractLsb' 56 8 = 0#8 := by
    apply BitVec.eq_of_toNat_eq; simp [BitVec.extractLsb'_toNat]; omega
  have t : u.translate u.thr.asid u.thr.root u.thr.level va k = (.ok va.toNat 0#2, u.noteWalk gigabyte) := by
    unfold State.translate
    rw [if_neg (by simpa using high), choose]
    have : permits gigabyte.leaf u.thr.level k = true := by cases k <;> simp_all [permits, gigabyte]
    simp only [this, if_true, addr]; rfl
  refine ⟨by rw [t], ?_⟩
  unfold translated State.regionRefuses
  rw [region_low _ h]

/-- Plain memory that the instruction has not written reads as it stood, whole, for the strand. -/
theorem mapped_read {s u : State} {out : Nat → Prop} {as : List Word} (m : Mapped s) (v : Midway s u out as) (q : Path) {pa n : Nat}
    (h : pa < 2 ^ 30) (ho : ∀ i < n, out (pa + i)) : Loose u pa ∧ Sees u q pa n ∧ readBytes u pa n = s.bytes pa n := by
  have late : u.late = [] := by
    have := v.late.1; rw [m.late] at this; exact List.eq_nil_of_length_eq_zero this
  have held : u.thr.held = [] := by rw [v.varied.frame]; exact m.held
  refine ⟨⟨by rw [v.varied.frame]; exact m.clean.1, .inl (by rw [v.varied.frame]; exact m.loose)⟩, by intro e he; rw [late] at he; exact absurd he (by simp), ?_⟩
  unfold readBytes
  rw [region_low u h]
  simp only [State.forward, held, if_true]
  exact bytes_kept v.varied ho

/-! ## Tables of names, tensors and records from such a state -/

theorem word_kept {s u : State} {out : Nat → Prop} (v : Varied s u out) {a : Nat} (h : ∀ p < 2 ^ 30, out p) (l : a + 8 ≤ 2 ^ 30) :
    u.word a = s.word a := by
  unfold State.word; rw [bytes_kept v fun i hi => h _ (by omega)]

theorem wordsAt_kept {s u : State} {out : Nat → Prop} (v : Varied s u out) {a n : Nat} (h : ∀ p < 2 ^ 30, out p) (l : a + 8 * n ≤ 2 ^ 30) :
    u.wordsAt a n = s.wordsAt a n := by
  unfold State.wordsAt
  exact congrArg Vector.ofFn (funext fun i => word_kept v h (by omega))

theorem tensor_kept {s u : State} {out : Nat → Prop} (v : Varied s u out) (h : ∀ p < 2 ^ 30, out p) {asid : BitVec 12} {t : Nat}
    (c : s.ctxAddr asid + 8 ≤ 2 ^ 30) (l : s.tensorAddr asid t + 64 ≤ 2 ^ 30) : u.tensor asid t = s.tensor asid t := by
  have cu : u.ctxAddr asid = s.ctxAddr asid := by rw [v.frame]; rfl
  have : u.tensorAddr asid t = s.tensorAddr asid t := by unfold State.tensorAddr; rw [cu, word_kept v h c]
  unfold State.tensor; rw [this]; exact wordsAt_kept v h (by omega)

theorem record_kept {s u : State} {out : Nat → Prop} (v : Varied s u out) (h : ∀ p < 2 ^ 30, out p) {asid : BitVec 12} {t : Nat}
    (c : s.ctxAddr asid + 16 ≤ 2 ^ 30) (l : s.recordAddr asid t + 32 ≤ 2 ^ 30) : u.record asid t = s.record asid t := by
  have cu : u.ctxAddr asid = s.ctxAddr asid := by rw [v.frame]; rfl
  have : u.recordAddr asid t = s.recordAddr asid t := by unfold State.recordAddr; rw [cu, word_kept v h (by omega)]
  unfold State.record; rw [this]; exact wordsAt_kept v h (by omega)

/-- A name that a state resolves to an entry of the context's own, all probed entries lying low. -/
structure Owned (s : State) (asid : BitVec 12) (x : Word) (i : Nat) : Prop where
  low   : ∀ j ∈ s.probes x, s.ntAddr j + 32 ≤ 2 ^ 30
  found : s.lookup x = some i
  mine  : s.ntOwner i = asid
  probe : i ∈ s.probes x
  live  : (s.resolveTable asid x).st = 0#2

theorem lookupIn_kept {s u : State} {out : Nat → Prop} (v : Varied s u out) (h : ∀ p < 2 ^ 30, out p) (x : Word) :
    ∀ is : List Nat, (∀ j ∈ is, s.ntAddr j + 32 ≤ 2 ^ 30) → u.lookupIn x is = s.lookupIn x is
  | [], _ => rfl
  | i :: is, l => by
    have a : u.ntAddr i = s.ntAddr i := by rw [v.frame]; rfl
    have := l i (.head _)
    unfold State.lookupIn State.ntState
    rw [a, word_kept v h (by omega), word_kept v h (by omega), lookupIn_kept v h x is fun j hj => l j (.tail _ hj)]

theorem table_kept {s u : State} {out : Nat → Prop} (v : Varied s u out) (h : ∀ p < 2 ^ 30, out p) {asid : BitVec 12} {x : Word} {i : Nat}
    (o : Owned s asid x i) : u.resolveTable asid x = s.resolveTable asid x := by
  have m : u.mod = s.mod := by rw [v.frame]
  have pr : u.probes x = s.probes x := by unfold State.probes; rw [m]
  have lk : u.lookup x = some i := by unfold State.lookup; rw [pr, lookupIn_kept v h x _ o.low]; exact o.found
  have a : u.ntAddr i = s.ntAddr i := by unfold State.ntAddr; rw [m]
  have := o.low i o.probe
  have w : ∀ k ∈ [0, 8, 16, 24], u.word (s.ntAddr i + k) = s.word (s.ntAddr i + k) := fun k hk => word_kept v h (by simp at hk; omega)
  have g : s.granted i asid = true := by unfold State.granted; rw [o.mine]; simp
  have gu : u.granted i asid = true := by
    unfold State.granted State.ntOwner; rw [a, w 24 (by simp)]
    have := o.mine; unfold State.ntOwner at this; rw [this]; simp
  unfold State.resolveTable
  rw [m, lk, o.found]
  simp only [g, gu, State.ntState, State.ntLoc, State.ntSize, State.ntVersion, a, w 8 (by simp), w 16 (by simp), w 24 (by simp)]

/-- What is known of the names noted on the way. -/
def Named (s u : State) (out : Nat → Prop) : Prop :=
  Varied s u out ∧ ∀ e ∈ u.nameCache, e ∈ s.nameCache ∨ ∃ x, Varied s x out ∧ e.result = x.resolveTable e.asid e.name

theorem roomForName_sub {free c : Nat} {es : List NameEntry} {e : NameEntry} (h : e ∈ roomForName free c es) : e ∈ es := by
  unfold roomForName at h
  simp only at h
  split at h
  · exact h
  · split at h
    · exact (List.mem_filter.mp h).1
    · exact h

theorem resolve_kept {s u : State} {out : Nat → Prop} (m : Mapped s) (n : Named s u out) (h : ∀ p < 2 ^ 30, out p) {asid : BitVec 12}
    {x : Word} {i : Nat} (o : Owned s asid x i) (c : Nat) :
    (u.resolve c asid x).1 = s.resolveTable asid x ∧ Named s (u.resolve c asid x).2 out := by
  have t := table_kept n.1 h o
  have note : ∀ r, r = u.resolveTable asid x → Named s (u.noteName c asid x r) out := by
    rintro _ rfl
    have live : (u.resolveTable asid x).st = Nstat.live := by rw [t]; exact o.live
    unfold State.noteName
    rw [if_pos (.inl live)]
    refine ⟨⟨n.1.memory, by rw [n.1.frame]⟩, fun e he => ?_⟩
    rcases List.mem_cons.mp he with rfl | he
    · refine .inr ⟨u, n.1, ?_⟩
      simp only [NameEntry.result, live, beq_self_eq_true, if_true]
      rw [← live]
    · exact n.2 e (List.mem_filter.mp (roomForName_sub he)).1
  unfold State.resolve
  split
  · rename_i e he
    have hc := List.mem_of_find?_eq_some he
    have hp := List.find?_some he
    simp only [Bool.and_eq_true, beq_iff_eq] at hp
    have : e.result = u.resolveTable asid x := by
      rcases n.2 e hc with h' | ⟨y, vy, hy⟩
      · rw [m.names] at h'; exact absurd h' (by simp)
      · rw [hy, hp.1.2, hp.2, table_kept vy h o, t]
    simp only [this]
    simp only [ne_eq, not_true, decide_false, Bool.and_false]
    exact ⟨t, note _ rfl⟩
  · exact ⟨t, note _ rfl⟩

/-- The facts of a record that passes its check in a state. -/
structure Passes (s : State) (idx i j : Nat) : Prop where
  index  : idx < 1024
  ctx    : s.ctxAddr s.thr.asid + 16 ≤ 2 ^ 30
  lowR   : s.recordAddr s.thr.asid idx + 32 ≤ 2 ^ 30
  lowT   : s.tensorAddr s.thr.asid (s.record s.thr.asid idx).tid + 64 ≤ 2 ^ 30
  live   : (s.tensor s.thr.asid (s.record s.thr.asid idx).tid).live = true
  tensor : Owned s s.thr.asid (s.tensor s.thr.asid (s.record s.thr.asid idx).tid).name i
  name   : Owned s s.thr.asid (s.record s.thr.asid idx).name j
  rest   : (s.record s.thr.asid idx).state = 1#2 ∧ (s.record s.thr.asid idx).asid = s.thr.asid ∧
    ¬(s.record s.thr.asid idx).rowCount ≤ s.ucr.mrow.toNat ∧
    combination s.ucr.fmtA (s.tensor s.thr.asid (s.record s.thr.asid idx).tid).fmt s.ucr.fmtC = true

theorem tableOk_clean {s : State} (h : s.poison = []) (pa n : Nat) : tableOk pa n s = .done () s := by
  unfold tableOk State.poisoned; rw [h]; rfl
theorem nameTablesOk_clean {s : State} (h : s.poison = []) (x : Word) : nameTablesOk x s = .done () s := by
  unfold nameTablesOk; rw [if_pos (.inl h)]

theorem record_passes {s u : State} {out : Nat → Prop} (m : Mapped s) (n : Named s u out) (h : ∀ p < 2 ^ 30, out p) {idx i j : Nat}
    (p : Passes s idx i j) : ∃ w, recordCheck idx u = .done none w := by
  have thr : u.thr = s.thr := by rw [n.1.frame]
  have r := record_kept n.1 h (t := idx) p.ctx p.lowR
  have t := tensor_kept n.1 h (by have := p.ctx; omega) p.lowT
  have a := resolve_kept m n h p.tensor u.cluster
  have thr' : (u.resolve u.cluster s.thr.asid (s.tensor s.thr.asid (s.record s.thr.asid idx).tid).name).2.thr = s.thr := by rw [a.2.1.frame]
  have b := resolve_kept m a.2 h p.name (u.resolve u.cluster s.thr.asid (s.tensor s.thr.asid (s.record s.thr.asid idx).tid).name).2.cluster
  have thr'' := congrArg State.thr b.2.1.frame
  simp only at thr''
  have clean : u.poison = [] := by rw [n.1.frame]; exact m.clean.1
  have clean' : (u.resolve u.cluster s.thr.asid (s.tensor s.thr.asid (s.record s.thr.asid idx).tid).name).2.poison = [] := by
    rw [a.2.1.frame]; exact m.clean.1
  unfold recordCheck useTensor State.tensorUsable
  rw [if_neg (by have := p.index; omega)]
  simp only [tableOk_clean clean, nameTablesOk_clean clean, Res.andThen, thr, r, t, p.live, if_true]
  rw [a.1, p.tensor.live]
  simp only [p.rest.1, p.rest.2.1, thr', nameTablesOk_clean clean', b.1, p.name.live, State.ucr, thr'']
  have := p.rest.2.2
  simp only [State.ucr] at this
  simp [this.1, this.2, Nstat.live]

/-- The lowest gigabyte is no part of a register or of an accumulator. -/
theorem outsideReg_low (s : State) (v : VReg) : ∀ p < 2 ^ 30, outsideReg s v p := by
  intro p h; left; unfold elemAt windowAddr windowBase; omega
theorem outsideTile_low (s : State) (ac : Bool) : ∀ p < 2 ^ 30, outsideTile s ac p := by
  intro p h; left; unfold windowAddr windowBase; omega

/-- Addresses that lie low, each within what the instruction does not write. -/
theorem reads_low {s : State} {out : Nat → Prop} {as : List Word} (m : Mapped s) (h : ∀ p < 2 ^ 30, out p) (las : ∀ a ∈ as, a.toNat < 2 ^ 30)
    {u : State} (v : Midway s u out as) (q : Path) {va : Word} {n : Nat} (l : va.toNat + n < 2 ^ 30) :
    Reaches u va .load ⟨va.toNat, 0#2⟩ ∧ Loose u va.toNat ∧ Sees u q va.toNat n ∧ readBytes u va.toNat n = s.bytes va.toNat n :=
  ⟨mapped_reaches m v.varied (fun t ht i hi => h _ (by simp at ht; omega)) v.walks las (by omega) .load,
    mapped_read m v q (by omega) fun i hi => h _ (by omega)⟩

/-! ## Witnesses of the memory instructions -/

/-- A byte and a doubleword load at aligned addresses of plain memory, through a register and through two, over a late store of the strand's
own; and the strand's own window, the first offset of vector storage. -/
theorem witness_ScalarLoadsReadTheirBytes :
    let s : State := { regs [(1, 0x10000#64), (2, 7#64)] with late := [lateStore .scalar] }
    Plain s ∧ Readable s 1#5 ∧ Readable s 2#5 ∧
      (s.reg 1#5 + (8#12).signExtend 64).toNat % 8 = 0 ∧ Reaches s (s.reg 1#5 + (8#12).signExtend 64) .load ⟨0x10008, 0#2⟩ ∧ Loose s 0x10008 ∧
      (s.reg 1#5 + s.reg 2#5).toNat % 1 = 0 ∧ Reaches s (s.reg 1#5 + s.reg 2#5) .load ⟨0x10007, 0#2⟩ ∧
      Reaches { s with mem := windows } 0#64 .load ⟨windowAddr 0 0, 0#2⟩ ∧ Loose { s with mem := windows } (windowAddr 0 0) ∧
      Sees s .scalar 0x10008 8 ∧ Sees s .scalar 0x10007 1 ∧ Sees { s with mem := windows } .scalar (windowAddr 0 0) 8 := by
  refine ⟨⟨rfl, rfl, rfl, rfl⟩, ⟨.inl rfl, rfl⟩, ⟨.inl rfl, rfl⟩, by decide +kernel, ⟨by decide +kernel, by decide +kernel⟩, ⟨rfl, .inl rfl⟩, by decide +kernel,
    ⟨by decide +kernel, by decide +kernel⟩, ⟨by decide +kernel, by decide +kernel⟩, ⟨rfl, .inl rfl⟩, ?_, ?_, ?_⟩ <;>
    · unfold Sees; decide +kernel

/-- Plain memory; the strand's own window, and a granule that no strand holds (the write is dropped). -/
theorem witness_ScalarStoresWriteTheirBytes :
    let s := regs [(1, 0x10000#64), (2, 7#64), (3, 0x0123456789ABCDEF#64)]
    Plain s ∧ Readable s 1#5 ∧ Readable s 2#5 ∧ Readable s 3#5 ∧
      (s.reg 1#5 + (8#12).signExtend 64).toNat % 8 = 0 ∧ Reaches s (s.reg 1#5 + (8#12).signExtend 64) .store ⟨0x10008, 0#2⟩ ∧
      Reaches s (s.reg 1#5 + s.reg 2#5) .store ⟨0x10007, 0#2⟩ ∧
      Reaches { s with mem := windows } 0#64 .store ⟨windowAddr 0 0, 0#2⟩ ∧ storeGen s 0 0 = some 1#16 ∧
      Reaches { s with mem := windows } 0x2FFFF8#64 .store ⟨windowAddr 0 0x2FFFF8, 0#2⟩ ∧ storeGen s 0 0x2FFFF8 = none := by
  refine ⟨⟨rfl, rfl, rfl, rfl⟩, ⟨.inl rfl, rfl⟩, ⟨.inl rfl, rfl⟩, ⟨.inl rfl, rfl⟩, by decide +kernel, ⟨by decide +kernel, by decide +kernel⟩,
    ⟨by decide +kernel, by decide +kernel⟩, ⟨by decide +kernel, by decide +kernel⟩, by decide +kernel, ⟨by decide +kernel, by decide +kernel⟩,
    by decide +kernel⟩

/-- One byte past a multiple, and one before; both widths of an atomic. -/
theorem witness_MisalignedAccessesTrapAlign :
    let s := regs [(1, 0x10001#64), (2, 0#64), (3, 0x10007#64)]
    Plain s ∧ (∀ r, Readable s r) ∧ (s.reg 1#5 + (0#12).signExtend 64).toNat % 2 ≠ 0 ∧ (s.reg 3#5 + s.reg 2#5).toNat % 8 ≠ 0 ∧
      (s.reg 3#5).toNat % 8 ≠ 0 ∧ (s.reg 1#5).toNat % 4 ≠ 0 :=
  ⟨⟨rfl, rfl, rfl, rfl⟩, fun _ => free_readable rfl rfl _, by decide +kernel, by decide +kernel, by decide +kernel, by decide +kernel⟩

/-- Each outcome: bits above 56; no entry (PAGE); no permission (PROT); a reserved window offset, the first; window storage and a host address
that an atomic may not reach. -/
theorem witness_FailedTranslationsTrap :
    let s := regs [(1, 0x0100000000000000#64), (2, 0x40000000#64), (3, 0x10000#64), (4, 0x304000#64)]
    let t : State := { s with mem := windows }
    Plain s ∧ (∀ r, Readable s r) ∧ (s.reg 1#5 + (0#12).signExtend 64).extractLsb' 56 8 ≠ 0#8 ∧
      (s.translate s.thr.asid s.thr.root s.thr.level (s.reg 2#5) .load).1 = .fault 0#8 2 ∧
      ({ s with mem := noRead }.translate s.thr.asid s.thr.root s.thr.level (s.reg 3#5) .load).1 = .fault 3#8 0 ∧
      ((t.translate s.thr.asid s.thr.root s.thr.level (s.reg 4#5) .store).1 = .ok (windowAddr 0 0x304000) 0#2 ∧
       (translated t (s.reg 4#5) .store).regionRefuses (windowAddr 0 0x304000) .store = true) ∧
      ((t.translate s.thr.asid s.thr.root s.thr.level (s.reg 3#5) .atomic).1 = .ok (windowAddr 0 0x10000) 0#2 ∧
       (translated t (s.reg 3#5) .atomic).atomicRefuses (windowAddr 0 0x10000) true = true) ∧
      t.atomicRefuses 0x1000000000000 (0#4 == 3#4) = true ∧ (s.reg 3#5).toNat % 8 = 0 :=
  ⟨⟨rfl, rfl, rfl, rfl⟩, fun _ => free_readable rfl rfl _, by decide +kernel, by decide +kernel, by decide +kernel,
    ⟨by decide +kernel, by decide +kernel⟩, ⟨by decide +kernel, by decide +kernel⟩, by decide +kernel, by decide +kernel⟩

/-- A walk of five levels to a page that permits all, to one that permits no read, and to a page that is not memory. -/
theorem witness_TranslationWalksTheTables :
    let s : State := { base with mem := fiveLevels 0x7B#8 }
    let va : Word := 0x40000123#64
    s.walks = [] ∧ s.badFrames = [] ∧ s.poison = [] ∧ va.toNat < 2 ^ 56 ∧ s.tableOk 0x1000 = true ∧
    (s.readPte (0x1000 + 8 * (va.toNat / 2 ^ 48 % 256))).1 = 0x2001#64 ∧ Points s 0x2001#64 4 ∧
    (s.readPte (0x2000 + 8 * (va.toNat / 2 ^ 39 % 512))).1 = 0x3001#64 ∧ Points s 0x3001#64 3 ∧
    (s.readPte (0x3000 + 8 * (va.toNat / 2 ^ 30 % 512))).1 = 0x4001#64 ∧ Points s 0x4001#64 2 ∧
    (s.readPte (0x4000 + 8 * (va.toNat / 2 ^ 21 % 512))).1 = 0x5001#64 ∧ Points s 0x5001#64 1 ∧
    (s.readPte (0x5000 + 8 * (va.toNat / 2 ^ 12 % 512))).1 = 0x1007B#64 ∧ (0x1007B#64).getLsbD 0 = true ∧
    pteMalformed 0x1007B#64 0 = false ∧ s.region (0x10000 + 0x123) = .lpddr ∧
    (∀ i < 16, (s.readPte (0x5000 + 8 * (va.toNat / 2 ^ 16 % 32 * 16 + i))).1.getLsbD 61 = false) ∧
    (({ base with mem := fiveLevels 0x73#8 } : State).readPte 0x5000).1 = 0x10073#64 ∧ pteMalformed 0x10073#64 0 = false ∧
    s.region 0x00E000001000 = .notMemory ∧ pteMalformed 0x00E00000107B#64 0 = false := by
  simp only [Points]
  decide +kernel

/-- A whole register loaded; a base that is not mapped; a memory width above SEW; an element of each mode. -/
theorem witness_VectorLoadsFillTheirElements :
    let f : MArgs := ⟨7#6, 1#5, false, false, 0#3, 2#2⟩
    let s := both [(1, 0x10000#64), (2, 0x40000000#64), (3, 4#64)] fun u => { u with vlen := 4#9, vsew := 2#2 }
    Plain s ∧ MasksSound s ∧ (∀ v ∈ f.v :: VMode.unit.regs, v.toNat < s.ucr.regCount) ∧ BaseReadable s f .unit ∧
      s.active (kmReg 0#3) = [0, 1, 2, 3] ∧ isDone (forElems (loadElem f .unit false (s.reg 1#5) 0#64) [0, 1, 2, 3] s) = true ∧
      isTrap (forElems (loadElem f .unit false (s.reg 2#5) 0#64) [0, 1, 2, 3] s) = true ∧ 8 * 2 ^ f.w.toNat ≤ s.ucr.sew ∧
      s.ucr.sew < 8 * 2 ^ (3#2).toNat ∧ VectorReady s (f.v :: (VMode.indexed 6#6).regs) ∧ 3 < s.ucr.elems ∧
      (∀ v ∈ (VMode.indexed 6#6).regs, Live s v [3]) ∧
      (0x10000#64 + BitVec.ofNat 64 3 * s.reg 3#5).toNat % 4 = 0 ∧ Reaches s (0x10000#64 + BitVec.ofNat 64 3 * s.reg 3#5) .load ⟨0x1000C, 0#2⟩ ∧
      Loose s 0x1000C ∧ Sees s .vector 0x1000C 4 := by
  refine ⟨⟨rfl, rfl, rfl, rfl⟩, masks_sound rfl, by decide, ⟨⟨.inl rfl, rfl⟩, fun _ _ => free_readable rfl rfl _⟩, by decide +kernel, by decide +kernel, by decide +kernel, by decide, by decide,
    ?_, by decide +kernel, fun _ _ => .inl rfl, by decide +kernel, ⟨by decide +kernel, by decide +kernel⟩, ⟨rfl, .inl rfl⟩, fun _ h => nomatch h⟩
  exact { plain := ⟨rfl, rfl, rfl, rfl⟩, count := by decide, fits := by decide +kernel, granule := ⟨rfl, rfl⟩, sound := rfl, masks := masks_sound rfl }

/-- How many elements a first-fault load keeps. -/
def trimmedAt (r : Res (Option Nat)) : Option Nat :=
  match r with
  | .done k _ => k
  | .trap _ _ => none
  | .wait _ => none

/-- How a load of one element ends: the cause of its trap. -/
def causeOf {α : Type} (r : Res α) : Option (BitVec 8) :=
  match r with
  | .done _ _ => none
  | .trap t _ => some t.cause
  | .wait _ => none

/-- No active element; all loaded; trimmed at the first unmapped element; a trap at the first; two rows. One element that loads, one that meets
PAGE, one PROT and one ALIGN; a place that is refused. -/
theorem witness_FirstFaultLoadsTrim :
    let f : MArgs := ⟨7#6, 1#5, false, false, 0#3, 2#2⟩
    let s := both [(1, 0x3FFFFFF8#64), (2, 0x40000000#64), (3, 0x10001#64), (4, 0x304000#64)] fun u => { u with vlen := 4#9, vsew := 2#2 }
    let one (b : Word) := loadElem f .unit false b 0#64
    Plain s ∧ MasksSound s ∧ f.v.toNat < s.ucr.regCount ∧ Readable s f.sb ∧ 8 * 2 ^ f.w.toNat ≤ s.ucr.sew ∧ s.ucr.vrows = 1#9 ∧
      (s.active (kmReg f.km) = 0 :: [1, 2, 3] ∧ base.active (kmReg f.km) = [] ∧ isDone (one (s.reg 1#5) 0 s) = true ∧
      causeOf (one (s.reg 2#5) 0 s) = some 5#8 ∧ causeOf (one (s.reg 3#5) 0 s) = some 4#8 ∧
      causeOf (one (s.reg 1#5) 0 { s with mem := noRead }) = some 6#8 ∧
      trimmedAt (trimElems (one (s.reg 1#5)) [1, 2, 3] s) = some 2 ∧ isDone (trimElems (one (s.reg 1#5)) [1] s) = true ∧
      trimmedAt (trimElems (one (s.reg 1#5)) [1] s) = none ∧ isTrap (trimElems (one (s.reg 3#5)) [1] s) = true) ∧
      (shaped 4#9 2#9 2#2).ucr.vrows ≠ 1#9 ∧ (∀ vi, VMode.unit ≠ .indexed vi) ∧
      (s.peekAddr .unit (s.reg 3#5) 0#64 4 0).toNat % 4 ≠ 0 ∧ (s.peekAddr .unit (s.reg 2#5) 0#64 4 0).toNat % 4 = 0 ∧
      (let t : State := { s with mem := windows }
       (t.translate s.thr.asid s.thr.root s.thr.level (s.reg 4#5) .load).1 = .ok (windowAddr 0 0x304000) 0#2 ∧
       (translated t (s.reg 4#5) .load).regionRefuses (windowAddr 0 0x304000) .load = true) := by
  exact ⟨⟨rfl, rfl, rfl, rfl⟩, masks_sound rfl, by decide, ⟨.inl rfl, rfl⟩, by decide, rfl, by decide +kernel, by decide, fun _ h => (nomatch h),
    by decide +kernel⟩

/-- A first-fault load of four words, all of them mapped. -/
theorem witness_FirstFaultLoadsTrim_completes :
    let f : MArgs := ⟨7#6, 1#5, false, false, 0#3, 2#2⟩
    let s := both [(1, 0x10000#64)] fun u => { u with vlen := 4#9, vsew := 2#2 }
    let n := 2 ^ f.w.toNat
    let es := s.active (kmReg f.km)
    let addr := fun (e : Nat) => s.reg f.sb + BitVec.ofNat 64 (e * n)
    VectorReady s [f.v] ∧ Readable s f.sb ∧ s.ucr.vrows = 1#9 ∧ 8 * n ≤ s.ucr.sew ∧ es = [0, 1, 2, 3] ∧
      ∀ e ∈ es, (addr e).toNat % n = 0 ∧ ∀ u, Midway s u (outsideReg s f.v) (es.map addr) →
        ∃ p, Reaches u (addr e) .load p ∧ Loose u p.pa ∧ Sees u (memPath f) p.pa n ∧ readBytes u p.pa n = s.bytes (0x10000 + 4 * e) 4 := by
  intro f s n es addr
  have m : Mapped s := ⟨rfl, rfl, rfl, rfl, rfl, rfl, rfl, ⟨rfl, rfl⟩, rfl, by decide +kernel⟩
  have he : es = [0, 1, 2, 3] := by decide +kernel
  have ha : ∀ e ∈ [0, 1, 2, 3], (addr e).toNat = 0x10000 + 4 * e := by decide +kernel
  refine ⟨{ plain := ⟨rfl, rfl, rfl, rfl⟩, count := by decide, fits := by decide +kernel, granule := ⟨rfl, rfl⟩, sound := rfl, masks := masks_sound rfl }, free_readable rfl rfl _, rfl, by decide, he, fun e h => ?_⟩
  rw [he] at h ⊢
  have a := ha e h
  have low : ∀ x ∈ List.map addr [0, 1, 2, 3], x.toNat < 2 ^ 30 := by
    intro x hx; obtain ⟨i, hi, rfl⟩ := List.mem_map.mp hx; rw [ha i hi]; simp at hi; omega
  have le : e < 4 := by simp at h; omega
  refine ⟨by rw [a]; show _ % 4 = 0; omega, fun u v => ⟨⟨(addr e).toNat, 0#2⟩, ?_⟩⟩
  rw [← a]
  exact reads_low m (outsideReg_low _ _) low v _ (by rw [a]; show _ + 4 < _; omega)

/-- `tables` with the gigabyte's pages of another type: UO, SO. -/
def typed (attr : Byte) : List Host.Cell := tables.flatMap fun c => if c.1 = 0x3000 then [c, (0x3007, attr)] else [c]

/-- Stores that reach memory in order and out of order, that trap in either, on pages of each type; one element. -/
theorem witness_VectorStoresWriteTheirElements :
    let f : MArgs := ⟨7#6, 1#5, false, false, 0#3, 2#2⟩
    let s := both [(1, 0x10000#64), (2, 0x3FFFFFF8#64)] fun u => { u with vlen := 4#9, vsew := 2#2 }
    let uo : State := { s with mem := typed 0x80#8 }
    let so : State := { s with mem := typed 0x40#8 }
    let es := [0, 1, 2, 3]
    let w : Way := { path := memPath f, inst := s.free, ord := false, so := false }
    let one := fun (w : Way) (b : Word) => storeElem w f .unit b 0#64
    let addr := s.peekAddr .unit (s.reg 1#5) 0#64 4
    Plain s ∧ MasksSound s ∧ (∀ v ∈ f.v :: VMode.unit.regs, v.toNat < s.ucr.regCount) ∧ BaseReadable s f .unit ∧ s.active (kmReg 0#3) = es ∧
      w.path = memPath f ∧ w.inst = s.free ∧ w.so = false ∧ f.o = false ∧
      ((∀ e ∈ es, s.peek (addr e) .store = some ⟨0x10000 + 4 * e, 0#2⟩ ∧ uo.peek (addr e) .store = some ⟨0x10000 + 4 * e, 2#2⟩ ∧
        so.peek (addr e) .store = some ⟨0x10000 + 4 * e, 1#2⟩) ∧
      (∀ o, isDone (forElems (one { w with ord := o } (s.reg 1#5)) es s) = true ∧ isTrap (forElems (one { w with ord := o } (s.reg 2#5)) es s) = true) ∧
      isDone (checkedPlaces (storePlace f .unit (s.reg 1#5) 0#64) es uo).2 = true ∧
      isTrap (checkedPlaces (storePlace f .unit (s.reg 2#5) 0#64) es uo).2 = true ∧
      isDone (storePlace f .unit (s.reg 1#5) 0#64 0 uo) = true ∧ isTrap (storePlace f .unit (s.reg 2#5) 0#64 2 uo) = true ∧
      isDone (storeTo w (⟨0x10000, 2#2⟩, [1#8, 2#8, 3#8, 4#8]) uo) = true) ∧
      (shaped 4#9 1#9 1#2).ucr.sew < 8 * 2 ^ f.w.toNat ∧
      VectorReady s [f.v] ∧ (∀ v ∈ [f.v], Live s v [3]) ∧ (s.peekAddr .unit (s.reg 1#5) 0#64 4 3).toNat % 4 = 0 ∧
      Reaches s (s.peekAddr .unit (s.reg 1#5) 0#64 4 3) .store ⟨0x1000C, 0#2⟩ := by
  refine ⟨⟨rfl, rfl, rfl, rfl⟩, masks_sound rfl, by decide, ⟨free_readable rfl rfl _, fun _ _ => free_readable rfl rfl _⟩, by decide +kernel,
    rfl, rfl, rfl, rfl, by decide +kernel, by decide,
    { plain := ⟨rfl, rfl, rfl, rfl⟩, count := by decide, fits := by decide +kernel, granule := ⟨rfl, rfl⟩, sound := rfl, masks := masks_sound rfl },
    fun _ _ => .inl rfl, by decide +kernel, ⟨by decide +kernel, by decide +kernel⟩⟩

/-- Both widths; operation 9 with an empty counter; a compare that fails and one that holds. -/
theorem witness_ScalarAtomicsUpdateTheirHome :
    let s := regs [(1, 0x10000#64), (2, 5#64), (3, 0x5000#64)]
    Plain s ∧ (∀ r, Readable s r) ∧ (s.reg 1#5).toNat % 8 = 0 ∧ Reaches s (s.reg 1#5) .atomic ⟨0x10000, 0#2⟩ ∧
      s.atomicRefuses 0x10000 true = false ∧ s.atomicRefuses 0x10000 false = false ∧ Loose s 0x10000 ∧
      s.atomicRead 0x10000 4 = (s.reg 3#5).toNat ∧ s.atomicRead 0x10000 4 ≠ (s.reg 2#5).toNat ∧ (9#4 : BitVec 4).toNat < 10 :=
  ⟨⟨rfl, rfl, rfl, rfl⟩, fun _ => free_readable rfl rfl _, by decide +kernel, ⟨by decide +kernel, by decide +kernel⟩, by decide +kernel, by decide +kernel,
    ⟨rfl, .inl rfl⟩, by decide +kernel, by decide +kernel, by decide⟩

/-- The first and the last operation of the list; checks that pass and a check that traps; no element left; a shape without e32; elements
on one place, and none. -/
theorem witness_VectorAtomicsCheckAllThenPerform :
    let f : AVArgs := ⟨5#6, 1#5, 7#6, false, 0#3, 0#2⟩
    let s := both [(1, 0x10000#64), (2, 0x40000000#64)] fun u => { u with vlen := 2#9, vsew := 2#2 }
    Plain s ∧ MasksSound s ∧ f.v.toNat + 1 < s.ucr.regCount ∧ f.vx.toNat < s.ucr.regCount ∧ s.ucr.sew = 32 ∧ base.ucr.elems ≤ base.ucr.vstart.toNat ∧
      s.ucr.vstart.toNat < s.ucr.elems ∧ Readable s f.sb ∧
      isDone (checkAtoms (checkAtom f true true (s.reg 1#5)) (s.active 0#4) s) = true ∧
      isTrap (checkAtoms (checkAtom f false true (s.reg 2#5)) (s.active 0#4) s) = true ∧
      isDone (checkAtoms (checkBin f (s.reg 1#5)) (s.active 0#4) s) = true ∧ isTrap (checkAtoms (checkBin f (s.reg 2#5)) (s.active 0#4) s) = true ∧
      (shaped 2#9 1#9 0#2).ucr.sew = 8 ∧ sharesPlace [⟨0, ⟨0, 0#2⟩, 0#64, 0, 0⟩, ⟨1, ⟨0, 0#2⟩, 0#64, 0, 0⟩] = true ∧
      sharesPlace [⟨0, ⟨0, 0#2⟩, 0#64, 0, 0⟩, ⟨1, ⟨4, 0#2⟩, 4#64, 0, 0⟩] = false :=
  ⟨⟨rfl, rfl, rfl, rfl⟩, masks_sound rfl, by decide, by decide, by decide, by decide +kernel, by decide, ⟨.inl rfl, rfl⟩, by decide +kernel, by decide +kernel, by decide +kernel,
    by decide +kernel, by decide, by decide, by decide⟩

theorem atoms_low {s : State} (m : Mapped s) (es : List Nat) (addr : Nat → Word) (n sc : Nat) (b : Bool) (al : ∀ e ∈ es, (addr e).toNat % n = 0)
    (l : ∀ e ∈ es, (addr e).toNat < 2 ^ 30) : AtomPlaces s es addr (fun e => ⟨(addr e).toNat, 0#2⟩) n sc b := by
  intro e h
  have low : ∀ x ∈ es.map addr, x.toNat < 2 ^ 30 := by intro x hx; obtain ⟨i, hi, rfl⟩ := List.mem_map.mp hx; exact l i hi
  refine ⟨al e h, by unfold State.atomicRefuses; rw [region_low s (l e h)], fun _ => ⟨m.clean.1, .inl m.loose⟩, fun u v => ?_⟩
  exact mapped_reaches m v.varied (fun _ _ _ _ => trivial) v.walks low (l e h) .atomic

/-- Elements on one place and on two, the home within the scope and outside it; both address rules. -/
theorem witness_VectorAtomicsCheckAllThenPerform_completes :
    let f : AVArgs := ⟨5#6, 1#5, 7#6, false, 3#3, 0#2⟩
    let s := both [(1, 0x10000#64)] fun u => { u with vlen := 2#9, vsew := 2#2 }
    let es := s.active (kmReg f.km)
    let addr := fun e => s.reg f.sb + BitVec.ofInt 64 (BitVec.ofNat s.ucr.sew (s.elemOrZero f.vx e)).toInt
    let bins := fun e => s.reg f.sb + BitVec.ofNat 64 (4 * s.elemOrZero f.vx e)
    VectorReady s [f.v, f.v + 1#6, f.vx] ∧ VectorReady s [f.v, f.vx] ∧ f.v.toNat < 63 ∧ Readable s f.sb ∧ s.ucr.vstart.toNat < s.ucr.elems ∧
      s.ucr.sew = 32 ∧ es = [0, 1] ∧ (∀ v, Live s v es) ∧ (∀ b, AtomPlaces s es addr (fun e => ⟨(addr e).toNat, 0#2⟩) s.ucr.sewBytes 3 b) ∧
      AtomPlaces s es bins (fun e => ⟨(bins e).toNat, 0#2⟩) 4 3 true ∧ s.homeScope 0x10000 ≤ (3#3).toNat ∧ (0#3).toNat < s.homeScope 0x10000 ∧
      s.thr.vbase + s.ucr.regCount * s.ucr.capacity ≤ 0x80000 ∧ s.atomicRefuses 0x10000 true = false := by
  intro f s es addr bins
  have m : Mapped s := ⟨rfl, rfl, rfl, rfl, rfl, rfl, rfl, ⟨rfl, rfl⟩, rfl, by decide +kernel⟩
  have he : es = [0, 1] := by decide +kernel
  have ready : ∀ vs : List VReg, (∀ v ∈ vs, v.toNat < 8) → VectorReady s vs := fun vs h =>
    { plain := ⟨rfl, rfl, rfl, rfl⟩, count := h, fits := by decide +kernel, granule := ⟨rfl, rfl⟩, sound := rfl, masks := masks_sound rfl }
  have ha : ∀ e ∈ [0, 1], (addr e).toNat = 0x10000 ∧ (bins e).toNat = 0x10000 := by decide +kernel
  refine ⟨ready _ (by decide), ready _ (by decide), by decide, free_readable rfl rfl _, by decide, by decide, he, fun _ => .inl rfl, fun b => ?_, ?_,
    by decide +kernel, by decide +kernel, by decide +kernel, by decide +kernel⟩
  · exact atoms_low m es addr _ _ b (fun e h => by rw [he] at h; rw [(ha e h).1]; decide) fun e h => by rw [he] at h; rw [(ha e h).1]; decide
  · exact atoms_low m es bins _ _ true (fun e h => by rw [he] at h; rw [(ha e h).2]) fun e h => by rw [he] at h; rw [(ha e h).2]; decide

/-- A free monitor entry and a full table of 64; a value that agrees and one that does not; a wait armed, and one that has ended. -/
theorem witness_WaitAndWakePairUp :
    let s := regs [(1, 0x10000#64), (2, 0x5000#64), (3, 0#64)]
    Plain s ∧ (∀ r, Readable s r) ∧ (s.reg 1#5).toNat % 8 = 0 ∧ Reaches s (s.reg 1#5) .atomic ⟨0x10000, 0#2⟩ ∧
      s.atomicRefuses 0x10000 false = false ∧ s.thr.wa = .none ∧ (s.monitors.filter fun m => m.cluster == s.cluster).length < 64 ∧
      64 ≤ ((({ s with monitors := List.replicate 64 ⟨0, 4, 0⟩ } : State).monitors).filter fun m => m.cluster == s.cluster).length ∧
      Loose s 0x10000 ∧ s.atomicRead 0x10000 8 = (s.reg 2#5).toNat ∧ s.atomicRead 0x10000 8 ≠ (s.reg 3#5).toNat ∧
      (withThr fun t => { t with wa := .done 1#5 0#3 }).thr.wa = .done 1#5 0#3 ∧ (withThr fun t => { t with wa := .armed 1#5 }).thr.wa = .armed 1#5 :=
  ⟨⟨rfl, rfl, rfl, rfl⟩, fun _ => free_readable rfl rfl _, by decide +kernel, ⟨by decide +kernel, by decide +kernel⟩, by decide +kernel, rfl, by decide +kernel,
    by decide +kernel, ⟨rfl, .inl rfl⟩, by decide +kernel, by decide +kernel, rfl, rfl⟩

/-- R142: a signed byte is sign-extended, an unsigned one is not (Table 6.6); R64: a store into stale storage zeroes the rest of its granule. -/
theorem test_load_extends :
    let s : State := { regs [(1, 0x10000#64)] with mem := tables ++ [(0x10002, 0x80#8)] }
    regAfter (exec (.ld 2#5 1#5 0#4 2#12) s) 2#5 = some 0xFFFFFFFFFFFFFF80#64 ∧ regAfter (exec (.ld 2#5 1#5 4#4 2#12) s) 2#5 = some 0x80#64 := by
  decide +kernel

/-- Table 11.16 and R279: another path's load may miss the strand's own scalar store until a `pfence` from path S to it; path S sees it. -/
theorem test_pfence_orders_paths :
    let seenAfter := fun (o : Machine.Out) (q : Path) =>
      match o with
      | .next t => t.late.map fun e => !t.hides (t.reader q) e
      | .fault _ => []
      | .refused _ => []
    let s := regs [(1, 0x10000#64)]
    let t : State := { s with late := [lateStore .scalar] }
    seenAfter (exec (.st 2#5 1#5 3#4 0#12) s) .scalar = [true] ∧ seenAfter (exec (.st 2#5 1#5 3#4 0#12) s) .vector = [false] ∧
      seenAfter (exec (.pfence 0#5 1#5 0#3) t) .vector = [true] ∧ seenAfter (exec (.pfence 0#5 1#5 0#3) t) .copy = [false] ∧
      seenAfter (exec (.pfence 0#5 3#5 1#3) t) .copy = [true] := by
  decide +kernel

/-- R242: a fence performs the strand's earlier store for the observers in its scope, and for none outside it. -/
theorem test_fence_performs_in_scope :
    let seenBy := fun (sc : BitVec 3) (core : Nat) =>
      match exec (.fence false false false true sc) { base with late := [lateStore .scalar] } with
      | .next t => t.late.map fun e => !t.hides { uid := 2, core := core, path := .scalar, inst := 0 } e
      | .fault _ => []
      | .refused _ => []
    seenBy 0#3 0 = [true] ∧ seenBy 0#3 1 = [false] ∧ seenBy 1#3 1 = [true] ∧ seenBy 1#3 40 = [false] ∧ seenBy 3#3 40 = [true] := by
  decide +kernel

theorem test_dip_stops_at_zero :
    regAfter (exec (.amo ⟨2#5, 1#5, 0#5, false, false, 3#3, true⟩ 9#4) (regs [(1, 0x10008#64)])) 2#5 = some 0#64 := by
  decide +kernel


/-! ## Witnesses: fences, groups, barriers, forks, loops -/

/-- A store of the strand's on each path that a fence names, one whose bytes it has read; a reader for whom the store is performed, one who has
seen it, a path that a `pfence` ordered, the strand's own paths and one operation of an engine; a store that a release carries; a read of other
bytes, of a store that it sees, of one that it may miss, and of one that brings an older one with it. -/
theorem witness_FencesOrderStoresAndHintsMove :
    let e := lateStore .scalar
    let m := lateStore .matrix
    let s : State := { base with late := [e, lateStore .vectorLoose] }
    let r : Reader := { uid := 2, core := 0, path := .vector, inst := 0 }
    let own := s.reader .vector
    let told : Late := { e with seen := [(2, .vector, none)] }
    let row : Late := { lateStore .copy with way := { path := .copy, inst := 3, ord := false, so := false } }
    let pair : State := { base with late := [{ m with seen := [(2, .vector, none)] }, m] }
    (Plain s ∧ e.uid = s.thr.uid ∧ (lateStore .vectorLoose).way.path ∈ [Path.scalar, .vector, .vectorLoose] ∧ e.way.path.base = Path.ofCode 0 ∧
      (Path.ofCode 3).place ≤ 1 ∧ (s.thr.uid, Path.ofCode 3, none) ∉ e.seen ∧ ((e.noted (s.reader .scalar)).seen.any fun k =>
        k.1 == s.thr.uid && k.2.1 == Path.ofCode 0 && k.2.2.isSome) = true) ∧
      (¬(r.path ≠ .outside ∧ e.way.path ≠ .outside ∧ r.uid = e.uid) ∧ s.reach 0 r ≤ 0 ∧ s.reach 0 .outside ≤ 4 ∧
        (r.uid, r.path.base, none) ∈ told.seen ∧ (own.path ≠ .outside ∧ e.way.path ≠ .outside ∧ own.uid = e.uid) ∧
        (e.way.path, (s.reader .scalar).path) ∈ [(Path.scalar, Path.scalar), (.vector, .vector), (.vectorLoose, .vector), (.matrix, .matrix), (.vector, .scalar)] ∧
        (let k : Reader := { s.reader .copy with inst := 3 }; k.inst ≠ 0 ∧ row.way.inst = k.inst ∧ row.way.path = k.path ∧ k.uid = row.uid) ∧
        (e.way.path, own.path) ∈ [(Path.scalar, Path.vector), (.scalar, .matrix), (.scalar, .copy), (.vector, .matrix), (.vector, .copy),
          (.vectorLoose, .scalar), (.matrix, .scalar), (.matrix, .vector), (.copy, .scalar), (.copy, .vector), (.copy, .copy)] ∧
        own.inst = 0 ∧ e.seen = []) ∧
      (Carried s .scalar e ∧ e ∈ s.late ∧ s.performedFor (e.performed 0 0) (s.reader .scalar) = true ∧ e.way.path ≠ .outside) ∧
      ((∀ x ∈ s.late, x.touches 0#16 0x20000 1 = false) ∧
        (∀ x ∈ ({ base with late := [told] } : State).late, x.touches 0#16 0x10008 1 = true → base.hides r x = false) ∧
        ({ base with late := [e] } : State).late = [e] ∧ e.touches 0#16 0x10008 1 = true ∧ base.hides r e = true) ∧
      (∃ u, pair.late = [u, m] ∧ u.touches 0#16 0x10008 1 = true ∧ pair.hides r u = false ∧ u.settledFor r = false ∧ pair.follows r u m = true) ∧
      (m.uid = e.uid ∧ m.way.path ≠ .outside ∧ m.way.path = .matrix ∧ e.way.so = false ∧ e.way.path ∈ [Path.scalar, .vector] ∧ r.uid ≠ e.uid ∧
        s.reach e.core r = 0 ∧ ({ row.way with ord := true } : Way).ord = true) := by
  refine ⟨⟨⟨rfl, rfl, rfl, rfl⟩, rfl, by decide, rfl, by decide, by decide, by decide +kernel⟩,
    ⟨by decide, by decide +kernel, by decide +kernel, by decide, by decide, by decide, by decide, by decide, rfl, rfl⟩, ⟨.inl ⟨rfl, by decide, by decide⟩, .head _, by decide +kernel, by decide⟩,
    ⟨by decide +kernel, by decide +kernel, rfl, by decide +kernel, by decide +kernel⟩, ⟨_, rfl, by decide +kernel⟩, by decide +kernel⟩

/-- A launch of three strands, of which `base`'s is the one of index 0; group 1 has two members, group 2 has one that is not `base`'s. -/
def launched : Launch :=
  { id := 0, queue := 0x3000000000000001#64, owner := 0#12, root := 1#40, record := Vector.replicate 16 0#64, accepted := true,
    groups := [[0, 1, 2], [0, 2], [1]], scopes := [], bound := 3, finished := 0, ended := 0, err := none, codeBase := 0#64, version := 0#32 }

/-- A member, no member, a group without members and the first group ID beyond the range; a member below and at the count. -/
theorem witness_GroupQueriesReadTheTable :
    let s : State := { regs [(1, 1#64), (2, 2#64), (3, 255#64), (4, 256#64)] with launches := [launched] }
    Plain s ∧ (∀ r, Readable s r) ∧ s.isMember 1 = true ∧ s.isMember 2 = false ∧ (s.members 255).length ≤ (s.reg 0#5).toNat ∧
      (s.reg 3#5).toNat < 256 ∧ 256 ≤ (s.reg 4#5).toNat ∧ (s.members 1)[(s.reg 1#5).toNat]? = some 2 ∧ (s.members 1)[(s.reg 0#5).toNat]? = some 0 ∧
      (s.members 1).length ≤ (s.reg 2#5).toNat :=
  ⟨⟨rfl, rfl, rfl, rfl⟩, fun _ => free_readable rfl rfl _, by decide +kernel⟩

/-- A state with a barrier register bound to group 1. -/
def boundTo (s : State) (b : Fin 8) (n : Nat) : State :=
  let regs := s.thr.arch.breg.set b.val { bound := true, group := 1#8, target := n, tag := 1#16, bad := false }
  { s with thr := { s.thr with arch := { s.thr.arch with breg := regs } } }

/-- Group 255 and 256; a register bound to the current phase and to the one two ahead; an unbound one; both parities. -/
theorem witness_BarriersCountArrivals :
    let r : State := { regs [(1, 1#64), (2, 256#64)] with launches := [launched] }
    let at_ (n : Nat) : State := boundTo r 7 n
    Plain r ∧ (∀ x, Readable r x) ∧ r.isMember (r.reg 1#5).toNat = true ∧ 256 ≤ (r.reg 2#5).toNat ∧ r.isMember (r.reg 0#5).toNat = true ∧
      r.isMember 2 = false ∧
      (∀ n, Plain (at_ n) ∧ ((at_ n).thr.arch.breg.get (7#3 : BReg).toFin).bound = true ∧
        ((at_ n).thr.arch.breg.get (7#3 : BReg).toFin).tag = (at_ n).thr.genS ∧ ((at_ n).thr.arch.breg.get (7#3 : BReg).toFin).target = n) ∧
      ((at_ 0).barrier 1 7).phi = 0 ∧ ((at_ 0).reg 0#5).toNat % 2 = 0 ∧ ((at_ 0).reg 1#5).toNat % 2 = 1 ∧
      (r.thr.arch.breg.get (7#3 : BReg).toFin).bound = false := by
  refine ⟨⟨rfl, rfl, rfl, rfl⟩, fun _ => free_readable rfl rfl _, by decide +kernel, by decide +kernel, by decide +kernel, by decide +kernel,
    fun n => ⟨⟨rfl, rfl, rfl, rfl⟩, rfl, rfl, rfl⟩, by decide +kernel, by decide +kernel, by decide +kernel, by decide +kernel⟩

/-- `base` under a bind record that permits forks in slot 3, the shape 16 by 3 at e32, the second row of register 1 live. -/
def forking : State :=
  { both [(1, 0x20000#64), (2, 0x20002#64)] (fun u => { u with vlen := 16#9, vrows := 3#9 }) with
    binds := [(0, #v[0#64, 0#64, 0x200800#64, 0#64, 0#64, 0#64, 0#64, 0#64])]
    tags := [(windowAddr 0 (65536 + 64) / 64, 1#16)] }

/-- A free slot and four generations, whole granules at the cut; a live element in the child's rows; no slot; one row; a cut inside a granule; a
misaligned entry. -/
theorem witness_ForksSplitTheRows :
    Plain forking ∧ (∀ x, Readable forking x) ∧ forking.thr.bound = true ∧ ((forking.reg 1#5).toNat % 4 = 0 ∧ forking.forkSlot = some 3 ∧
      2 ≤ forking.ucr.vrows.toNat ∧ forking.ucr.vrows.toNat / 2 * forking.ucr.vlen.toNat * forking.ucr.sewBytes % 64 = 0 ∧
      none ∉ ([0, 1, 2, 3].map fun q => (forking.allocGen (coreOf forking.cur) q).1) ∧ forking.ucr.elems ≤ 65536) ∧ Canonical forking ∧
      forking.thr.vbase % 64 = 0 ∧ forking.thr.roff % 64 = 0 ∧
      forking.thr.roff + forking.ucr.elems * forking.ucr.sewBytes ≤ forking.ucr.capacity ∧ (1#6 : VReg).toNat < forking.ucr.regCount ∧
      0 < (3 - 3 / 2) * forking.ucr.vlen.toNat ∧ forking.tag (elemAt forking 1#6 16) = forking.thr.genV ∧ base.forkSlot = none ∧
      base.ucr.vrows.toNat < 2 ∧ (shaped 4#9 2#9 2#2).ucr.vrows.toNat / 2 * (shaped 4#9 2#9 2#2).ucr.vlen.toNat * (shaped 4#9 2#9 2#2).ucr.sewBytes % 64 ≠ 0 ∧
      (forking.reg 2#5).toNat % 4 ≠ 0 := by
  refine ⟨⟨rfl, rfl, rfl, rfl⟩, fun _ => free_readable rfl rfl _, rfl, by decide +kernel, ⟨by decide +kernel, by decide +kernel⟩, by decide +kernel⟩

/-- A child that is live; one that has ended; none; a child's own join with its parent's record of it, an element of its rows live; a fork
that has lost its rows and one that has not. -/
theorem witness_JoinsReturnTheRows :
    let f : ForkRec := { child := 3, vlen := 16#9, vrows := 3#9, vsew := 2#2, qrows := 3#64, qlen := 16#64, ended := false, returned := false }
    let live := withThr fun t => { t with forks := [f] }
    let ended := withThr fun t => { t with forks := [{ f with ended := true }] }
    let child : State := { withThr (fun t => { t with parent := some 1 }) with
      others := [(1, { base.thr with forks := [{ f with child := 0 }] })], tags := [(windowAddr 0 65536 / 64, 1#16)] }
    let wide := { child with thr := { child.thr with arch := { child.thr.arch with ucr := { child.ucr with vlen := 16#9, vrows := 2#9, vsew := 2#2 } } } }
    (Plain live ∧ ∃ f ∈ live.thr.forks, f.ended = false) ∧ (Plain ended ∧ (∀ f ∈ ended.thr.forks, f.ended = true) ∧ ended.thr.parent = none) ∧
      (base.thr.parent = none ∧ base.thr.forks = []) ∧
      (Plain wide ∧ (∀ f ∈ wide.thr.forks, f.ended = true) ∧ wide.thr.parent = some 1 ∧ 1 ≠ wide.cur ∧ 1 < 288 ∧
        (wide.getThr 1).forks = [{ f with child := 0 }] ∧ ({ f with child := 0 } : ForkRec).child = wide.cur ∧ wide.thr.forks = [] ∧
        f.first + f.count ≤ 65536 ∧ (f.first ≤ 16 ∧ 16 < f.first + f.count) ∧ 0 < f.first) ∧
      (Canonical wide ∧ wide.thr.vbase % 64 = 0 ∧ wide.thr.roff % 64 = 0 ∧ wide.thr.roff + wide.ucr.elems * wide.ucr.sewBytes ≤ wide.ucr.capacity ∧
        0 < wide.ucr.elems ∧ wide.tag (elemAt wide 1#6 0) = wide.thr.genV) ∧
      ((∀ g ∈ (withThr fun t => { t with forks := [{ f with returned := true }] }).thr.forks, g.returned = true) ∧
        live.thr.forks = [f] ∧ f.returned = false) :=
  ⟨⟨⟨rfl, rfl, rfl, rfl⟩, _, .head _, rfl⟩, ⟨⟨rfl, rfl, rfl, rfl⟩, by decide +kernel, rfl⟩, ⟨rfl, rfl⟩,
    ⟨⟨rfl, rfl, rfl, rfl⟩, by decide +kernel, rfl, by decide, by decide, by decide +kernel, rfl, rfl, by decide, by decide, by decide⟩,
    ⟨⟨by decide +kernel, by decide +kernel⟩, by decide +kernel⟩, by decide +kernel, rfl, rfl⟩

/-- No loop open and one open; a break with a set element and one without, a canonical memory before it and an address on either side of the
strand's storage; all four conditions at an empty mask; a store within one granule of plain memory, and one to the strand's own vector
storage under a checkpoint. -/
theorem witness_LoopInstructionsOpenAndCloseStrips :
    let s := vec
    let looped := withThr fun t => { t with loop := some { horizon := 3#2, next := 7#32 } }
    let u : Unresolved := { strip := 0#32, mask := 1#4, older := 0, hit := none, exit := 0x20000#64, arch := base.thr.arch, cells := [], tags := [], bad := [] }
    let waiting (hit : Option Nat) : State := { withThr (fun t => { t with unres := [{ u with hit := hit }] }) with tags := [(windowAddr 0 0 / 64, 1#16)] }
    Plain s ∧ s.thr.loop = none ∧ ((List.range s.ucr.elems).filter (s.maskBitAt 1#4 0)).length = 0 ∧
      ((List.range s.ucr.elems).filter (s.maskBitAt 0#4 0)).length = s.ucr.elems ∧ 0 < s.ucr.elems ∧
      (looped.thr.replaying = false ∧ looped.thr.rpt = none ∧ looped.thr.loop = some { horizon := 3#2, next := 7#32 }) ∧
      (∀ hit, (waiting hit).thr.unres = [{ u with hit := hit }]) ∧ (withThr fun t => { t with unres := [{ u with older := 1 }] }).thr.unres = [{ u with older := 1 }] ∧
      (Canonical (waiting (some 0)) ∧ Memory.wf u.cells = true ∧ (waiting (some 0)).ownVector (windowAddr 0 0) = true ∧
        (waiting (some 0)).ownVector 0 = false) ∧
      ((∀ core off, s.region 0x20000 = .window core off → s.owns core off = true) ∧ [5#8, 6#8] ≠ [] ∧ 0x20000 % 64 + [5#8, 6#8].length ≤ 64) ∧
      ((waiting none).region (windowAddr 0 0) = .window 0 0 ∧ (waiting none).owns 0 0 = true ∧ (waiting none).vectorSide (windowAddr 0 0) = true ∧
        (waiting none).vectorSide 0x20000 = false) :=
  ⟨⟨rfl, rfl, rfl, rfl⟩, rfl, by decide +kernel, by decide +kernel, by decide +kernel, ⟨rfl, rfl, rfl⟩, fun _ => rfl, rfl,
    ⟨⟨by decide +kernel, by decide +kernel⟩, by decide +kernel⟩, ⟨fun c o h => absurd (h.symm.trans (region_low _ (by decide))) (by simp), by decide, by decide⟩,
    by decide +kernel⟩

/-- The instruction word at an address, where it can be fetched. -/
def wordAt (a : Word) (s : State) : Option (BitVec 32) :=
  match fetchWord a s with
  | .done w _ => some w
  | .trap _ _ => none
  | .wait _ => none

theorem fetched {a : Word} {s : State} {w : BitVec 32} (h : wordAt a s = some w) : ∃ u, fetchWord a s = .done w u := by
  unfold wordAt at h
  split at h
  · exact ⟨_, by rw [‹fetchWord a s = _›, Option.some.inj h]⟩
  · exact absurd h (by simp)
  · exact absurd h (by simp)

theorem unfetched {a : Word} {s : State} (h : wordAt a s = none) (w : BitVec 32) (u : State) : fetchWord a s ≠ .done w u := by
  intro e; simp [wordAt, e] at h

/-- `base` with a word of Table 6.11 at 0x10004 and one of its majors that no instruction has at 0x10008. -/
def captive : List Host.Cell :=
  tables ++ [(0x10005, 0x85#8), (0x10006, 0x71#8), (0x10007, 0x78#8), (0x10008, 0xFF#8), (0x10009, 0xFF#8), (0x1000A, 0xFF#8), (0x1000B, 0x7B#8)]
def captives : State := { base with mem := captive, thr := loadedThread 0x10000#64 1#40 captive }

/-- The first pass and a later one, a register file of 8 and of 64, a vector and a scalar second source; within, at the end of a pass and
at the end of the group; a word that is captured, one of another major, one that is no instruction, one that cannot be fetched, an annulled one. -/
theorem witness_RptStagesItsGroup :
    let g : RptGroup := { start := Triple.start 0x10000#64, words := [(.vadd (vargs 7#6 6#6 5#6 false false false 0#3), 0x10004#64),
      (.vadd (vargs 7#6 6#6 5#6 true false false 0#3), 0x10008#64)], reps := 3, sd := 1, sa := 2, sb := 3, pass := 0, word := 0 }
    (Plain base ∧ base.thr.rptResume = none) ∧ g.word + 1 < g.words.length ∧
      g.words.length ≤ { g with word := 1 }.word + 1 ∧ { g with word := 1 }.pass + 1 < g.reps ∧ g.reps ≤ { g with pass := 2 }.pass + 1 ∧
      (.vadd ∈ capturedV ∧ g.words[0]? = some (.vadd (vargs 7#6 6#6 5#6 false false false 0#3), 0x10004#64) ∧
        g.words[1]? = some (.vadd (vargs 7#6 6#6 5#6 true false false 0#3), 0x10008#64)) ∧ 0 < { g with pass := 2 }.pass ∧ 0 < 8 ∧ 64 ≤ 64 ∧
      (.vclz ∈ captured1 ∧ ({ g with words := [(.vclz ⟨7#6, 6#6, false, 0#3⟩, 0x10004#64)] } : RptGroup).words[g.word]? =
        some (.vclz ⟨7#6, 6#6, false, 0#3⟩, 0x10004#64)) ∧
      ({ g with words := [(.vcvt 7#6 6#6 0#3 false 0#2 0#4 0#4, 0x10004#64)] } : RptGroup).words[g.word]? =
        some (.vcvt 7#6 6#6 0#3 false 0#2 0#4 0#4, 0x10004#64) ∧
      ({ Triple.start 0x10000#64 with a0 := true } : Triple).a0 = true ∧ (∀ w u, fetchWord 0x40000000#64 captives ≠ .done w u) ∧
      (∃ u, fetchWord 0x10004#64 captives = .done 0x78718500#32 u) ∧
      (0x1E ≤ (0x78718500#32).toNat / 2 ^ 26 ∧ (0x78718500#32).toNat / 2 ^ 26 ≤ 0x2E ∧ (0x78718500#32).toNat / 2 ^ 26 ≠ 0x26) ∧
      reads [(0x78718500#32, .vadd (vargs 7#6 6#6 5#6 false false false 0#3))] = true ∧
      (∃ u, fetchWord 0x10008#64 captives = .done 0x7BFFFFFF#32 u) ∧ (∃ e, decode 0x7BFFFFFF#32 = .error e) ∧
      (∃ u, fetchWord 0x10000#64 captives = .done 0x00005000#32 u) ∧ ¬0x1E ≤ (0x00005000#32).toNat / 2 ^ 26 :=
  ⟨⟨base_plain, rfl⟩, by decide, by decide, by decide, by decide, ⟨.head _, rfl, rfl⟩, by decide, by decide, by decide, ⟨.head _, rfl⟩, rfl, rfl,
    unfetched (by decide +kernel), fetched (by decide +kernel), by decide, by decide +kernel, fetched (by decide +kernel), ⟨_, rfl⟩,
    fetched (by decide +kernel), by decide⟩

/-- R244: of two members the first to arrive leaves the phase, the second ends it. -/
theorem test_barrier_phase :
    let r : State := { base with launches := [launched] }
    let s : State := boundTo r 0 0
    let phase (s : State) := match exec (.arrive 1#5 0#3) s with
      | .next t => some ((t.barrier 1 0).phi, (t.barrier 1 0).cur)
      | .fault _ => none
      | .refused _ => none
    phase s = some (0, 1) ∧ phase { s with barriers := [⟨0, 1, 0, 0, 1, 0⟩] } = some (1, 0) := by
  decide +kernel

/-! ## Witnesses: the matrix array, copies, collectives -/

/-- `base` with VLEN 4 at e32, both accumulators granted, and the tables of its context: name 0x1000_0000_0000_0005 at 0x40000, live; tensor
0, of 4 columns and 2 rows of i8, live, and tensor 1, not bound; operand record 0, over both rows of tensor 0. -/
def tabled : State :=
  let s := both [(1, 0x10000#64), (2, 0x40000000#64)] fun u => { u with vlen := 4#9, vsew := 2#2 }
  { s with
    thr := { s.thr with acc := 3#2 }
    mem := tables ++ [(0x20001, 0x08#8), (0x20009, 0x00#8), (0x2000A, 0x04#8), (0x20010, 0x05#8), (0x20017, 0x10#8), (0x20018, 0x01#8),
      (0x2001C, 0x01#8), (0x20020, 0x04#8), (0x20024, 0x02#8),
      (0x30000, 0x05#8), (0x30007, 0x10#8), (0x3000B, 0x10#8), (0x30014, 0x02#8), (0x40000, 0xFF#8), (0x40001, 0x02#8),
      (0x50000, 0x05#8), (0x50007, 0x10#8), (0x5000A, 0x04#8), (0x50013, 0x40#8), (0x5001B, 0x40#8), (0x5001C, 0x01#8),
      (0x60000, 0x01#8), (0x60002, 0x02#8), (0x6000A, 0x03#8)]
    mod := { s.mod with ntBase := 0x50#40, ntEn := true, ctxTab := 0x60#40, nserial := 6#60, nblkEnd := 8#60 } }

theorem tiles_ready {s : State} (ac : Bool) (a : s.thr.acc = 3#2) (v : s.ucr.vlen.toNat ≤ 256)
    (r : s.thr.roff + s.ucr.vlen.toNat * s.ucr.sewBytes ≤ s.ucr.capacity) (k : s.thr.arch.mask = Vector.replicate 16 MaskReg.reset) :
    TileReady s ac := ⟨by rw [a]; cases ac <;> rfl, v, r, masks_sound k⟩

theorem tabled_ready (ac : Bool) : TileReady tabled ac := tiles_ready ac rfl (by decide) (by decide) rfl

theorem tabled_mapped : Mapped tabled := ⟨rfl, rfl, rfl, rfl, rfl, rfl, rfl, ⟨rfl, rfl⟩, rfl, by decide +kernel⟩

/-- i8 by i8 into integers; a pair of formats that is no combination; formats wider than SEW; an accumulator that is not granted. -/
theorem witness_MatrixProductsAccumulate :
    let s := tabled
    let u := s.ucr
    Plain s ∧ (∀ v ∈ [(6 : VReg), 7#6], v.toNat < u.regCount) ∧ (∀ ac, TileReady s ac) ∧
      combination u.fmtA u.fmtB u.fmtC = true ∧ fmtWidth u.fmtA ≤ u.sew ∧ fmtWidth u.fmtB ≤ u.sew ∧ s.poison = [] ∧
      (∀ v ∈ [(6 : VReg), 7#6], Live s v (List.range u.vlen.toNat)) ∧ vec.thr.acc.getLsbD 0 = false ∧ combination 0#4 8#4 true = false ∧
      combination 10#4 10#4 true = true ∧ 8 < fmtWidth 10#4 ∧ (0xFFFFFFFF : Nat) < 2 ^ 32 :=
  ⟨⟨rfl, rfl, rfl, rfl⟩, by decide, tabled_ready, by decide +kernel, by decide +kernel, by decide +kernel, rfl,
    fun _ _ => .inl rfl, by decide, by decide, by decide, by decide, by decide⟩

/-- What a check or a step answers. -/
def answerOf {α : Type} (r : Res α) : Option α :=
  match r with
  | .done g _ => some g
  | .trap _ _ => none
  | .wait _ => none

/-- A live tensor and a gone one; row 1, the last, and 2, beyond it; a record that qualifies and an index that names none. -/
theorem witness_TensorProductsReadTheirRows :
    let s := tabled
    let u := s.ucr
    let step (tid : BitVec 10) (r : Nat) := tensorStep (.mopt false 7#6 tid 0#3) false 7#6 tid 0#3 0 r s
    Plain s ∧ TileReady s false ∧ (fmtWidth u.fmtA ≤ u.sew ∧ (s.tensor s.thr.asid 0).live = true ∧ (s.tensor s.thr.asid 1).live = false ∧
      combination u.fmtA (s.tensor s.thr.asid 0).fmt u.fmtC = true ∧ (s.tensor s.thr.asid 0).dim1 = 2 ∧
      answerOf (step 0#10 1) = some false ∧ isTrap (step 0#10 2) = true ∧ answerOf (step 1#10 1) = some true ∧
      answerOf (mopkSteps (.mopk false 7#6 0#10 0#3) false 7#6 0#10 0#3 u.mrow.toNat [0] (s.mapThr fun h => h)) = some false ∧
      isTrap (mopkSteps (.mopk false 7#6 0#10 0#3) false 7#6 0#10 0#3 2 [0] (s.mapThr fun h => h)) = true) ∧
      s.poison = [] ∧ u.vlen.toNat ≤ 256 ∧ MasksSound s ∧ Live s 7#6 ((List.range u.vlen.toNat).map fun j => 0 * u.vlen.toNat + j) ∧
      s.thr.roff + (0 + 1) * u.vlen.toNat * u.sewBytes ≤ u.capacity ∧
      (s.record s.thr.asid 0).state = 1#2 ∧ (s.record s.thr.asid 0).asid = s.thr.asid ∧ (s.record s.thr.asid 1).state ≠ 1#2 ∧
      (s.resolve s.cluster s.thr.asid (s.tensor s.thr.asid 0).name).1.st = 0#2 ∧ answerOf (recordCheck 0 s) = some none ∧
      answerOf (recordCheck 1024 s) = some (some 0#2) ∧ answerOf (recordCheck 1 s) = some (some 1#2) ∧
      (s.tensor s.thr.asid 0).fmt ≠ 14#4 ∧ 0 < 4 := by
  refine ⟨⟨rfl, rfl, rfl, rfl⟩, tabled_ready _, by decide +kernel, rfl, by decide +kernel, masks_sound rfl, .inl rfl,
    by decide +kernel⟩

theorem midway_named {s u : State} {out : Nat → Prop} {as : List Word} (v : Midway s u out as) : Named s u out := ⟨v.varied, v.names⟩

/-- Pieces of rows that lie low. -/
theorem pieces_low {s : State} (m : Mapped s) (ac : Bool) {ps : List (Word × Nat)} (l : ∀ x ∈ ps, x.1.toNat + x.2 < 2 ^ 30) :
    PiecesRead s ac ps (fun k => ⟨4096 * k, 0#2⟩) (fun a n => s.bytes a.toNat n) := by
  intro x h u v
  have low : ∀ a ∈ ps.map (·.1), a.toNat < 2 ^ 30 := by
    intro a ha; obtain ⟨y, hy, rfl⟩ := List.mem_map.mp ha; have := l y hy; omega
  have e : 4096 * (x.1.toNat / 4096) + x.1.toNat % 4096 = x.1.toNat := Nat.div_add_mod _ _
  simp only [e]
  have r := reads_low m (outsideTile_low s ac) low v .matrix (l x h)
  have g := mapped_walks m (fun t ht i hi => outsideTile_low s ac _ (by simp at ht; omega)) v.walks low
  refine ⟨r.1, r.2.1, r.2.2.1, r.2.2.2, fun e he _ => ?_⟩
  rw [g e he]
  exact ⟨by simp [WalkEntry.addr, gigabyte], rfl⟩

theorem tabled_name : Owned tabled 0#12 0x1000000000000005#64 0 := ⟨by decide +kernel, by decide +kernel, by decide +kernel, by decide +kernel, by decide +kernel⟩

/-- `mopt` and `mopk` at tensor 0, `mopi` at record 0: one row of A on row 0 of B. -/
theorem witness_TensorProductsReadTheirRows_completes :
    let s := tabled
    let u := s.ucr
    let n := u.vlen.toNat
    let t := s.tensor s.thr.asid 0
    let ps := rowPieces t 0 (min n t.dim0)
    let P := fun k => (⟨4096 * k, 0#2⟩ : Phys)
    let bs := fun (a : Word) (n : Nat) => s.bytes a.toNat n
    Plain s ∧ s.thr.held = [] ∧ (7#6 : VReg).toNat < u.regCount ∧ s.thr.vbase + u.regCount * u.capacity ≤ 0x80000 ∧ TileReady s false ∧
      fmtWidth u.fmtA ≤ u.sew ∧ s.poison = [] ∧ t.live = true ∧ combination u.fmtA t.fmt u.fmtC = true ∧ s.thr.goneStep = false ∧
      ((List.range u.vrows.toNat).filter fun k => decide (u.vstart.toNat ≤ k)) = [0] ∧
      (u.mrow.toNat + 0 < t.dim1 ∧ Live s 7#6 ((List.range n).map fun j => 0 * n + j) ∧ s.thr.roff + (0 + 1) * n * u.sewBytes ≤ u.capacity) ∧
      (∀ v, Midway s v (outsideTile s false) (ps.map (·.1)) →
        v.tensor s.thr.asid 0 = t ∧ (v.resolve s.cluster s.thr.asid t.name).1.st = 0#2) ∧
      PiecesRead s false ps P bs ∧
      someCombination u.fmtA u.fmtC = true ∧ Live s 6#6 (List.range ((n + 15) / 16)) ∧ List.range ((n + 15) / 16) = [0] ∧ s.elemOrZero 6#6 0 = 0 ∧
      (s.record s.thr.asid 0).tid = 0 ∧ (s.record s.thr.asid 0).rowBase + u.mrow.toNat = 0 ∧
      ∀ v, Midway s v (outsideTile s false) (ps.map (·.1)) → ∃ w, recordCheck 0 v = .done none w := by
  intro s u n t ps P bs
  have m := tabled_mapped
  have name : t.name = 0x1000000000000005#64 := by decide +kernel
  have own : Owned s s.thr.asid t.name 0 := by rw [name]; exact tabled_name
  refine ⟨⟨rfl, rfl, rfl, rfl⟩, rfl, by decide, by decide, tabled_ready _, by decide, rfl, by decide +kernel, by decide +kernel, rfl, by decide +kernel,
    ⟨by decide +kernel, .inl rfl, by decide +kernel⟩, fun v h => ?_, pieces_low m false (by decide +kernel), by decide +kernel, .inl rfl, by decide +kernel,
    by decide +kernel, by decide +kernel, by decide +kernel, fun v h => ?_⟩
  · refine ⟨tensor_kept h.varied (outsideTile_low _ _) (by decide +kernel) (by decide +kernel), ?_⟩
    rw [(resolve_kept m (midway_named h) (outsideTile_low _ _) own s.cluster).1]
    exact own.live
  · have z : (s.record s.thr.asid 0).tid = 0 := by decide +kernel
    have own' : Owned s s.thr.asid (s.record s.thr.asid 0).name 0 := by
      rw [show (s.record s.thr.asid 0).name = 0x1000000000000005#64 by decide +kernel]; exact tabled_name
    have own'' : Owned s s.thr.asid (s.tensor s.thr.asid (s.record s.thr.asid 0).tid).name 0 := by rw [z]; exact own
    exact record_passes m (midway_named h) (outsideTile_low _ _)
      { index := by decide, ctx := by decide +kernel, lowR := by decide +kernel, lowT := by decide +kernel, live := by decide +kernel,
        tensor := own'', name := own', rest := by decide +kernel }

/-- MROW + VROWS at 256 and above; SEW 32 and another; memory that is mapped and memory that is not. -/
theorem witness_TileTransfersMoveBits :
    let s := tabled
    let at_ (row : BitVec 16) (sew : BitVec 2) : State :=
      { s with thr := { s.thr with arch := { s.thr.arch with ucr := { s.ucr with mrow := row, vsew := sew } } } }
    let first (b : Word) := forElems (fun e t => (aligned (b + BitVec.ofNat 64 (4 * e)) 4 .load t).andThen fun _ t =>
      (load .matrix (b + BitVec.ofNat 64 (4 * e)) 4 t).andThen fun bs t => .done () (t.tileWrite false 255 e (numOf bs)))
    let last (b : Word) := forElems (fun e t => (checksumOk false 255 e t).andThen fun _ t =>
      (tileSource false 255 e t).andThen fun x t => (aligned (b + BitVec.ofNat 64 (4 * e)) 4 .store t).andThen fun _ t => store Path.matrix.plain (b + BitVec.ofNat 64 (4 * e)) (bytesOf 4 x) t)
    VectorReady (at_ 255#16 2#2) [(7 : VReg)] ∧ TileReady (at_ 255#16 2#2) true ∧
      (at_ 255#16 2#2).ucr.mrow.toNat + (at_ 255#16 2#2).ucr.vrows.toNat ≤ 256 ∧ (at_ 255#16 2#2).ucr.sew = 32 ∧
      (at_ 255#16 2#2).thr.vbase + (at_ 255#16 2#2).ucr.regCount * (at_ 255#16 2#2).ucr.capacity ≤ 0x80000 ∧
      Live (at_ 255#16 2#2) 7#6 [0, 1, 2, 3] ∧ Readable (at_ 255#16 2#2) 1#5 ∧
      ¬(at_ 256#16 2#2).ucr.mrow.toNat + (at_ 256#16 2#2).ucr.vrows.toNat ≤ 256 ∧ (at_ 0#16 1#2).ucr.sew ≠ 32 ∧
      vec.thr.acc.getLsbD 0 = false ∧
      isDone (first (s.reg 1#5) [0, 1, 2, 3] (at_ 255#16 2#2)) = true ∧ isTrap (first (s.reg 2#5) [0, 1, 2, 3] (at_ 255#16 2#2)) = true ∧
      isDone (last (s.reg 1#5) [0, 1, 2, 3] (at_ 255#16 2#2)) = true ∧ isTrap (last (s.reg 2#5) [0, 1, 2, 3] (at_ 255#16 2#2)) = true := by
  refine ⟨{ plain := ⟨rfl, rfl, rfl, rfl⟩, count := by decide, fits := by decide +kernel, granule := ⟨rfl, rfl⟩, sound := rfl, masks := masks_sound rfl },
    tiles_ready _ rfl (by decide) (by decide) rfl,
    by decide +kernel, by decide +kernel, by decide +kernel, .inl rfl, free_readable rfl rfl _, by decide +kernel, by decide +kernel, by decide,
    by decide +kernel, by decide +kernel, by decide +kernel, by decide +kernel⟩

/-- A row of the tile, loaded and stored whole; checksum words that agree and one that does not. -/
theorem witness_TileTransfersMoveBits_completes :
    let s : State := { tabled with thr := { tabled.thr with arch := { tabled.thr.arch with ucr := { tabled.ucr with mrow := 255#16 } } } }
    let es := s.active (kmReg 0#3)
    let addr := fun (e : Nat) => s.reg 1#5 + BitVec.ofNat 64 (e / s.ucr.vlen.toNat) * BitVec.ofNat 64 (4 * s.ucr.vlen.toNat) +
      BitVec.ofNat 64 (4 * (e % s.ucr.vlen.toNat))
    let P := fun (e : Nat) => (⟨(addr e).toNat, 0#2⟩ : Phys)
    let cells := es.flatMap fun e => (List.range 4).map fun i => (P e).pa + i
    Plain s ∧ MasksSound s ∧ Readable s 1#5 ∧ s.ucr.vrstr = 0#64 ∧ s.thr.acc.getLsbD 0 = true ∧ s.ucr.mrow.toNat + s.ucr.vrows.toNat ≤ 256 ∧
      TileReady s false ∧ s.poison = [] ∧ (∀ e ∈ es, (addr e).toNat % 4 = 0) ∧
      (∀ e ∈ es, ∀ w, Midway s w (outsideTile s false) (es.map addr) →
        Reaches w (addr e) .load (P e) ∧ Loose w (P e).pa ∧ Sees w .matrix (P e).pa 4 ∧ readBytes w (P e).pa 4 = s.bytes (P e).pa 4) ∧
      (∀ row, Sparse.get 0#32 s.sums (sumKey (coreOf s.cur) false row) = 0#32) ∧ s.ucr.genmode = 0#1 ∧ (∀ e ∈ es, s.region (P e).pa = .lpddr) ∧
      cells.Nodup ∧
      (∀ e ∈ es, ∀ w, Varied s w (fun q => q ∉ cells) →
        (∀ x ∈ w.walks, x ∈ s.walks ∨ ∃ y a, Varied s y (fun q => q ∉ cells) ∧ a ∈ es.map addr ∧ y.walk s.thr.asid s.thr.root a.toNat = .leaf x) →
        Reaches w (addr e) .store (P e)) ∧
      Sparse.get 0#32 ({ s with sums := [(sumKey 0 false 7, 1#32)] } : State).sums (sumKey (coreOf s.cur) false 7) ≠ 0#32 ∧ s.thr.deferLog = false := by
  intro s es addr P cells
  have m : Mapped s := ⟨rfl, rfl, rfl, rfl, rfl, rfl, rfl, ⟨rfl, rfl⟩, rfl, by decide +kernel⟩
  have he : es = [0, 1, 2, 3] := by decide +kernel
  have ha : ∀ e ∈ es, (addr e).toNat % 4 = 0 ∧ (addr e).toNat + 4 < 2 ^ 30 := by rw [he]; decide +kernel
  have low : ∀ a ∈ es.map addr, a.toNat < 2 ^ 30 := by
    intro a h; obtain ⟨e, k, rfl⟩ := List.mem_map.mp h; have := ha e k; omega
  refine ⟨⟨rfl, rfl, rfl, rfl⟩, masks_sound rfl, free_readable rfl rfl _, rfl, by decide, by decide, tiles_ready _ rfl (by decide) (by decide) rfl, rfl,
    fun e h => (ha e h).1, fun e h w v => reads_low m (outsideTile_low _ _) low v .matrix (ha e h).2, fun _ => rfl, rfl,
    fun e h => region_low s (by have := ha e h; simp only [P]; omega), by decide +kernel, fun e h w v ws => ?_, by decide +kernel, rfl⟩
  exact mapped_reaches m v (by decide +kernel) ws low (by have := ha e h; omega) .store

/-- A copy of `base`'s strand, in its first batch. -/
def pending (st : CopyState) : Copy := { Copy.fresh 0x20000#64 0x30000#64 64 1 0 0 none with id := 1, uid := 1, promise := 5#64, state := st }

/-- No bytes, 2^32 bytes and one more; a destination in a window; free and full descriptors; a window length at and past the end; a batch to
close and a sixteenth one; a counter that has and has not come; a copy that has stopped. -/
theorem witness_CopiesAreIssuedAndAwaited :
    let s := regs [(1, 0x10000#64), (2, 0x100000000#64), (3, 0x100000001#64), (4, 0x00300000#64), (5, 0x00300001#64), (6, 5#64)]
    let full : State := { s with copies := List.replicate 128 (pending .running) }
    let one : State := { s with copies := [pending (.stopped 6#8 1#8 0x20000#64 true)] }
    let crowded : State := { s with
      copies := (List.range 17).map fun i => { pending .running with batch := i }
      thr := { s.thr with batch := 16 } }
    Plain s ∧ (∀ r, Readable s r) ∧ (s.reg 0#5).toNat = 0 ∧ (s.reg 2#5).toNat = 2 ^ 32 ∧ 2 ^ 32 < (s.reg 3#5).toNat ∧
      (s.translate s.thr.asid s.thr.root s.thr.level (s.reg 1#5) .store).1 = .ok 0x10000 0#2 ∧ s.region 0x10000 = .lpddr ∧
      (({ s with mem := windows } : State).translate s.thr.asid s.thr.root s.thr.level (s.reg 1#5) .store).1 = .ok (windowAddr 0 0x10000) 0#2 ∧
      s.region (windowAddr 0 0x10000) = .window 0 0x10000 ∧
      (s.copies.filter fun c => c.cluster == s.cluster && c.inUse).length < 128 ∧
      128 ≤ (full.copies.filter fun c => c.cluster == s.cluster && c.inUse).length ∧
      (s.reg 4#5).toNat / 2 ^ 55 = 0 ∧ (s.reg 4#5).toNat / 2 ^ 32 % 2 ^ 23 + (s.reg 4#5).toNat % 2 ^ 32 ≤ 0x300000 ∧
      0x300000 < (s.reg 5#5).toNat / 2 ^ 32 % 2 ^ 23 + (s.reg 5#5).toNat % 2 ^ 32 ∧
      (s.copies.any fun c => c.uid == s.thr.uid && c.batch == s.thr.batch) = false ∧
      (crowded.copies.any fun c => c.uid == crowded.thr.uid && c.batch == crowded.thr.batch) = true ∧ crowded.closedBatches.length = 16 ∧
      (s.reg 0#5).toNat < crowded.closedBatches.length ∧ s.closedBatches.length ≤ (s.reg 0#5).toNat ∧
      (s.counter s.cluster).toNat < (s.reg 6#5).toNat ∧ (s.reg 0#5).toNat ≤ (s.counter s.cluster).toNat ∧
      (one.copies = [] ++ pending (.stopped 6#8 1#8 0x20000#64 true) :: [] ∧ (pending (.stopped 6#8 1#8 0x20000#64 true)).uid = one.thr.uid ∧
        (pending (.stopped 6#8 1#8 0x20000#64 true)).reported = false ∧ (pending (.stopped 6#8 1#8 0x20000#64 true)).batch < one.thr.batch + 1) ∧
      (let u : State := { one with counters := Vector.replicate 18 5#64 }
       (u.reg 6#5).toNat ≤ (u.counter u.cluster).toNat ∧ (5#64 : Word).toNat ≤ (u.reg 6#5).toNat) :=
  ⟨⟨rfl, rfl, rfl, rfl⟩, fun _ => free_readable rfl rfl _, by decide +kernel⟩

/-- A part of a collective of `base`'s strand. -/
def part : Contribution :=
  { uid := 1, core := 0, rank := 0, op := 1#2, fmt := 0#4, n := 4, src := 0x10000#64, dst := 0x20000#64, rank1 := false, asid := 0#12, root := 1#40, level := false }

/-- A member with none and with eight outstanding; no member; too many bytes; a range in a window; a collective that another part opened; one
that is awaited, one that has ended, none. -/
theorem witness_CollectivesJoinByIssueOrder :
    let s : State := { regs [(1, 0x10FFF#64), (2, 0x20000#64), (3, 4#64), (4, 0x40000001#64)] with launches := [launched] }
    let c (i : Nat) (st : Option (BitVec 2)) : Collective := { id := i, launch := 0, group := 0, ticket := i, parts := [part], status := st }
    let other : State := { s with launches := [{ launched with groups := [[]] }] }
    Plain s ∧ (∀ r, Readable s r) ∧ s.isMember s.ucr.xgrp.toNat = true ∧ other.isMember other.ucr.xgrp.toNat = false ∧
      (s.reg 3#5).toNat * (fmtWidth 10#4 / 8) ≤ 2 ^ 32 ∧ 2 ^ 32 < (s.reg 4#5).toNat * (fmtWidth 10#4 / 8) ∧
      isDone (noWindow .load true (rangePages (s.reg 1#5) 16) s) = true ∧ isDone (noWindow .store true (rangePages (s.reg 2#5) 48) s) = true ∧
      isTrap (noWindow .load false (rangePages (s.reg 1#5) 16) ({ s with mem := windows } : State)) = true ∧
      isTrap (noWindow .load true (rangePages (s.reg 1#5) 16) ({ s with mem := noRead } : State)) = true ∧
      s.outstanding < 8 ∧ 8 ≤ ({ s with colls := (List.range 8).map fun i => c i none } : State).outstanding ∧
      (∃ x ∈ [c 0 none], x.launch = s.thr.launch ∧ x.group = s.ucr.xgrp.toNat ∧ x.ticket = Sparse.get 0 s.thr.tickets s.ucr.xgrp.toNat) ∧
      (∃ p ∈ (c 0 none).parts, p.uid = s.thr.uid) ∧ (c 0 none).status = none ∧ (c 0 (some 2#2)).status = some (BitVec.ofNat 2 2) ∧
      (({ s with mem := windows } : State).translate s.thr.asid s.thr.root s.thr.level (s.reg 2#5) .load).1 = .ok (windowAddr 0 0x20000) 0#2 ∧
      s.region (windowAddr 0 0x20000) = .window 0 0x20000 ∧
      (({ s with mem := noRead } : State).translate s.thr.asid s.thr.root s.thr.level (s.reg 2#5) .load).1 = .fault 3#8 0 ∧
      (s.translate s.thr.asid s.thr.root s.thr.level (s.reg 2#5) .load).1 = .ok 0x20000 0#2 ∧ s.region 0x20000 = .lpddr ∧ s.mod.xdtab = 0#40 :=
  ⟨⟨rfl, rfl, rfl, rfl⟩, fun _ => free_readable rfl rfl _, by decide +kernel⟩

/-- Registers 5 to 7, the last three, and 6 to 8, which are not; both widths; rows that merge and rows that trap on a stale element. -/
theorem witness_SmergeMergesRows :
    let f : V1Args := ⟨5#6, 2#6, false, 0#3⟩
    let s := vec
    let stale : State := { vec with thr := { vec.thr with arch := { vec.thr.arch with ucr := { vec.ucr with genmode := 1#1 } } } }
    let vs : List VReg := [5#6, 5#6 + 1#6, 5#6 + 2#6, 2#6, 2#6 + 1#6, 2#6 + 2#6]
    Plain s ∧ f.vd.toNat + 2 < s.ucr.regCount ∧ f.va.toNat + 2 < s.ucr.regCount ∧ ¬(6#6 : VReg).toNat + 2 < s.ucr.regCount ∧ s.ucr.sew = 32 ∧
      (shaped 4#9 1#9 1#2).ucr.sew ≠ 32 ∧ isDone (forElems (mergeOne f.vd f.va) [0] s) = true ∧
      isTrap (forElems (mergeOne f.vd f.va) [0] stale) = true ∧ VectorReady s vs ∧ 0 < s.ucr.vrows.toNat ∧ 0 < s.ucr.vlen.toNat ∧
      (∀ v ∈ vs, Live s v [0]) ∧ MasksSound s ∧
      (∀ v ∈ [f.vd, f.va], Live s v ((List.range s.ucr.vlen.toNat).map fun c => 0 * s.ucr.vlen.toNat + c)) :=
  ⟨⟨rfl, rfl, rfl, rfl⟩, by decide, by decide, by decide, by decide, by decide, by decide +kernel, by decide +kernel,
    shaped_ready _ _ _ _ (by decide) (by decide), by decide, by decide, fun _ _ => .inl rfl, masks_sound rfl, fun _ _ => .inl rfl⟩

/-- 09 section 9.1: with an A element of 3, the row −1, 2 adds −3 and 6 to the tile's row 0; MROW moves on, NSTAT is 0. -/
theorem test_mopt_step :
    let pa := elemAt tabled 7#6 0
    let s : State := { tabled with mem := tabled.mem ++ [(pa, 3#8)], tags := [(pa / 64, 1#16)] }
    (match exec (.mopt false 7#6 0#10 0#3) s with
     | .next t => some (tileSeen t false 0 0, tileSeen t false 0 1, tileSeen t false 1 0, t.ucr.mrow, t.ucr.nstat)
     | .fault _ => none
     | .refused _ => none) = some (0xFFFFFFFD, 6, 0, 1#16, 0#2) := by
  decide +kernel

/-! ## Witnesses: names, tensors, records, rows, launches from the device -/

/-- `tabled` with blocks in memory from 0x70000 on and scalar registers set. -/
def blocks (xs : List (Fin 32 × Word)) (cells : List Host.Cell) : State :=
  let r := regs xs
  { tabled with
    mem := tabled.mem ++ cells
    thr := { tabled.thr with arch := { tabled.thr.arch with sreg := r.thr.arch.sreg, stag := r.thr.arch.stag } } }

/-- What a block read gives. -/
def readOf (r : Res (List Word)) : Option (List Word) :=
  match r with
  | .done ws _ => some ws
  | .trap _ _ => none
  | .wait _ => none

/-- The owner's name and another's; a version that differs, that is the stored one, that is above 32 bits; every kind of class; a free
entry and none, no table, a serial block that is used up, and the last one; each state of a name; a tensor and a record of it, and one that is
not; a name of another context. -/
theorem witness_NamesAreIssuedResolvedKilled :
    let s := blocks [(1, 0x1000000000000005#64), (2, 0x70000#64), (3, 0x70010#64), (4, 0x70020#64), (5, 0x70030#64), (6, 0x70038#64), (7, 0x70040#64)]
      [(0x70018, 0x01#8), (0x7002C, 0x01#8), (0x70040, 0x04#8), (0x70048, 0x06#8), (0x70050, 0x07#8)]
    let dead : State := { s with mem := (s.mem.filter fun c => c.1 < 0x5001B) ++ [(0x5001B, 0x80#8), (0x5001C, 0x01#8)] }
    let wide : State := { s with mod := { s.mod with ntLogn := 1#5 } }
    let spent : State := { s with mod := { s.mod with nblkEnd := 6#60 } }
    let last : State := { spent with mod := { spent.mod with flashBlock := 0xFFFFFF#24 } }
    Plain s ∧ s.poison = [] ∧ (∀ r, Readable s r) ∧ s.ownedName (s.reg 1#5) = .inl 0 ∧ dead.ownedName (s.reg 1#5) = .inr 1#2 ∧
      s.ownedName 0x1000000000000004#64 = .inr 1#2 ∧ s.ownedName 0x1000000000000006#64 = .inr 3#2 ∧
      readOf (loadBlock (s.reg 2#5) 8 2 s) = some [0#64, 0#64] ∧ readOf (loadBlock (s.reg 3#5) 8 2 s) = some [0#64, 1#64] ∧
      s.ntVersion 0 = (1#64 : Word).setWidth 32 ∧ s.ntVersion 0 ≠ (0#64 : Word).setWidth 32 ∧
      readOf (loadBlock (s.reg 4#5) 8 2 s) = some [0#64, 0x100000000#64] ∧ readOf (loadBlock (s.reg 4#5) 8 3 s) = some [0#64, 0x100000000#64, 0#64] ∧
      readOf (loadBlock (s.reg 5#5) 8 3 s) = some [0#64, 0#64, 4#64] ∧ readOf (loadBlock (s.reg 6#5) 8 3 s) = some [0#64, 4#64, 6#64] ∧
      readOf (loadBlock (s.reg 7#5) 8 3 s) = some [4#64, 6#64, 7#64] ∧ s.thr.level = false ∧ s.mod.ntEn = true ∧
      s.mod.nserial ≠ s.mod.nblkEnd ∧ (wide.insertSlot 0x6000000000000006#64).isSome = true ∧ s.insertSlot 0x6000000000000006#64 = none ∧
      spent.mod.nserial = spent.mod.nblkEnd ∧ spent.mod.flashBlock ≠ 0xFFFFFF#24 ∧ last.mod.flashBlock = 0xFFFFFF#24 ∧ s.nameCache = [] ∧
      s.lookup (s.reg 1#5) = some 0 ∧ s.ntState 0 = 1 ∧ s.granted 0 0#12 = true ∧ s.granted 0 1#12 = false ∧ dead.ntState 0 = 2 ∧
      s.lookup 0x1000000000000006#64 = none ∧ s.tensorAddr 0#12 0 + 65536 ≤ s.ctxAddr 0#12 ∧ (s.tensor 0#12 0).live = true ∧
      (s.tensor 0#12 0).name = s.reg 1#5 ∧ (s.tensor 0#12 1).live = false ∧
      (s.recordAddr 0#12 0 + 32768 ≤ s.ctxAddr 0#12 + 8 ∧ (s.record 0#12 0).state = 1#2 ∧ (s.record 0#12 0).name = s.reg 1#5 ∧
        (s.record 0#12 1).state ≠ 1#2 ∧ s.byte (s.ctxAddr 0#12 + 0) ≠ memDefault ∧
        ({ s with thr := { s.thr with asid := 1#12 } } : State).ownedName (s.reg 1#5) = .inr 2#2) := by
  exact ⟨⟨rfl, rfl, rfl, rfl⟩, rfl, fun _ => free_readable rfl rfl _, by decide +kernel⟩

/-- The words of tensor images: i8, planar with 4 planes, and a width of which no row is, of the live name. -/
def image (w0 stride : Word) : Tensor := #v[w0, 0x40000#64, 0x1000000000000005#64, stride <<< 32, 0x200000010#64, 0#64, 0#64, 0#64]

/-- TIDs and indices 1023 and 1024; a valid image and an invalid one, of a live name and of none; a record that ends with its tensor and one
that ends past it; addresses that are misaligned. -/
theorem witness_TensorsAndRecordsAreBound :
    let s := blocks [(1, 0x70000#64), (2, 1023#64), (3, 1024#64), (4, 0x70080#64), (5, 0x70001#64), (6, 0x20000#64)]
      [(0x70012, 0x01#8), (0x70080, 0x05#8), (0x70087, 0x20#8), (0x70094, 0x02#8)]
    Plain s ∧ s.poison = [] ∧ (∀ r, Readable s r) ∧ (s.reg 2#5).toNat < 1024 ∧ 1024 ≤ (s.reg 3#5).toNat ∧ (s.reg 5#5).toNat % 64 ≠ 0 ∧ (s.reg 5#5).toNat % 32 ≠ 0 ∧
      isDone (loadBlock (s.reg 1#5) 64 8 s) = true ∧ isDone (loadBlock (s.reg 4#5) 32 4 s) = true ∧ isDone (loadBlock (s.reg 6#5) 64 8 s) = true ∧
      readOf (loadBlock (s.reg 4#5) 32 4 s) = some [0x2000000000000005#64, 0#64, 0x200000000#64, 0#64] ∧
      (s.resolve s.cluster s.thr.asid 0x1000000000000005#64).1.st = 0#2 ∧ (s.resolve s.cluster s.thr.asid 0x1000000000000007#64).1.st ≠ 0#2 ∧
      (image 0#64 1#64).valid = true ∧ (image 0x4E#64 9#64).valid = true ∧ (image 0x4E#64 8#64).valid = false ∧ (image 0x1E#64 9#64).valid = false ∧
      (image 11#64 1#64).valid = false ∧ (s.tensor s.thr.asid 0).live = true ∧ (s.tensor s.thr.asid 0).dim1 = 2 ∧ (s.tensor s.thr.asid 1).live = false := by
  exact ⟨⟨rfl, rfl, rfl, rfl⟩, rfl, fun _ => free_readable rfl rfl _, by decide +kernel⟩

/-- A block of eight words, all of them mapped, and one of three words whose alignment is less than its length. -/
theorem witness_TensorsAndRecordsAreBound_completes :
    let s := tabled
    let addr := fun (i : Nat) => 0x20000#64 + BitVec.ofNat 64 (8 * i)
    ((0x20000#64 : Word).toNat % 64 = 0 ∧ 8 * 8 ≤ 64 ∧ Reaches s 0x20000#64 .load ⟨0x20000, 0#2⟩ ∧ Loose s 0x20000 ∧ Sees s .scalar 0x20000 (8 * 8)) ∧
    (0x20000#64 : Word).toNat % 8 = 0 ∧ 8 < 8 * 3 ∧ ∀ i, i < 3 → ∀ u, Midway s u (fun _ => True) ((List.range 3).map addr) →
      Reaches u (addr i) .load ⟨(addr i).toNat, 0#2⟩ ∧ Loose u (addr i).toNat ∧ Sees u .scalar (addr i).toNat 8 ∧
        readBytes u (addr i).toNat 8 = s.bytes (addr i).toNat 8 := by
  have start := mapped_reaches (out := fun _ => True) tabled_mapped ⟨fun _ _ => ⟨rfl, rfl⟩, rfl⟩ (as := []) (fun _ _ _ _ => trivial) (fun _ h => nomatch h) (fun _ h => nomatch h)
    (va := 0x20000#64) (by decide) .load
  refine ⟨⟨by decide, by decide, start, ⟨rfl, .inl rfl⟩, fun _ h => nomatch h⟩, by decide, by decide, fun i h u v => ?_⟩
  have ha : ∀ i < 3, (0x20000#64 + BitVec.ofNat 64 (8 * i)).toNat + 8 < 2 ^ 30 := by decide
  refine reads_low tabled_mapped (fun _ _ => trivial) (fun a hm => ?_) v .scalar (ha i h)
  obtain ⟨j, k, rfl⟩ := List.mem_map.mp hm
  have := ha j (List.mem_range.mp k); omega

/-- Where a search for a row ends. -/
def rowOf (r : Res (Option (Nat × Nat × Nat))) : Option (Option Nat) :=
  match r with
  | .done x _ => some (x.map (·.1))
  | .trap _ _ => none
  | .wait _ => none

/-- FSM states 127 and 128; a name that is live and one that is not; rows of which one is free, of which none is, and that are not mapped; a
claim that the strand holds and one it does not; each answer of `lenq`. -/
theorem witness_RowsAreClaimedAndAdvanced :
    let s := blocks [(1, 0x5000000000000005#64), (2, 127#64), (3, 128#64), (4, 0x70000#64), (5, 0x3000000000000005#64)]
      [(0x70088, 0x01#8)]
    let named (x : Byte) : State := { s with mem := s.mem.map fun c => if c.1 = 0x50007 then (c.1, x) else c }
    let rows := named 0x50#8
    let held : State := { rows with
      mem := (tabled.mem.map fun c => if c.1 = 0x50007 then (c.1, 0x50#8) else if c.1 = 0x40000 then (c.1, 0x85#8) else if c.1 = 0x40001 then (0x4000A, 0x01#8) else c)
      thr := { rows.thr with claims := [(0x5000000000000005#64, 0)] } }
    let q : Queue := { name := 0x3000000000000005#64, depth := 1, prio := 0, owner := 0#12, page := 0#6, waiting := [], seq := 0#32, reason := 0#8, result := 0#8, record := Vector.replicate 16 0#64 }
    let queued (q : Queue) : State := { named 0x30#8 with queues := [q] }
    Plain rows ∧ rows.poison = [] ∧ (∀ r, Readable rows r) ∧ (s.reg 2#5).toNat < 128 ∧ 128 ≤ (s.reg 3#5).toNat ∧ nameClass (rows.reg 1#5) = 5 ∧
      (rows.resolve rows.cluster rows.thr.asid (rows.reg 1#5)).1.st = 0#2 ∧ (rows.resolve rows.cluster rows.thr.asid (rows.reg 1#5)).1.size / 64 = 1 ∧
      (s.resolve s.cluster s.thr.asid 0x5000000000000007#64).1.st ≠ 0#2 ∧ rows.thr.claims.length < 8 ∧
      8 ≤ (List.replicate 8 (rows.reg 1#5, 0)).length ∧
      rowOf (findRow (rows.reg 1#5) 0x40000#64 0xFF 1 0 rows) = some (some 0) ∧ rowOf (findRow (rows.reg 1#5) 0x40000#64 5 1 0 rows) = some none ∧
      rowOf (findRow (rows.reg 1#5) 0x40000000#64 5 1 0 rows) = none ∧
      isDone (locateAtomic 0x40000#64 false held) = true ∧ isDone (atomicCheck ⟨0x40000, 0#2⟩ 0x40000#64 12 held) = true ∧
      (held.translate held.thr.asid held.thr.root held.thr.level 0x40000#64 .atomic).1 = .ok 0x40000 0#2 ∧
      (translated held 0x40000#64 .atomic).regionRefuses 0x40000 .atomic = false ∧ held.atomicRefuses 0x40000 false = false ∧ held.ucr.genmode = 0#1 ∧
      ([{ launched with accepted := true }].find? fun l => l.id == 0) = some launched ∧ launched.accepted = true ∧
      128 ≤ held.atomicRead 0x40000 12 % 256 ∧ BitVec.ofNat 32 (held.atomicRead 0x40000 12 / 2 ^ 64) = tokenOf held.cur held.thr ∧
      (rows.reg 1#5, 0) ∈ held.thr.claims ∧ (rows.reg 1#5, 0) ∉ rows.thr.claims ∧
      isDone (loadBlock (s.reg 4#5) 128 16 s) = true ∧ nameClass (s.reg 5#5) = 3 ∧
      ((named 0x30#8).resolve s.cluster s.thr.asid (s.reg 5#5)).1.st = 0#2 ∧ (named 0x30#8).queues = [] ∧
      (queued q).queues.find? (fun q => q.name == s.reg 5#5) = some q ∧ q.owner = s.thr.asid ∧ (3#12 : BitVec 12) ≠ s.thr.asid ∧
      q.waiting.length < q.depth ∧ (queued q).ctxState q.owner = 1 := by
  exact ⟨⟨rfl, rfl, rfl, rfl⟩, rfl, fun _ => free_readable rfl rfl _, by decide +kernel⟩

/-- R401: `tq` packs the version above STATE and the low bits of the entry's first word. -/
theorem test_tq : regAfter (exec (.tq 3#5 0#5) tabled) 3#5 = some 0x100000800#64 := by decide +kernel

/-- R219: a live name answers its location, NSTAT 0. -/
theorem test_nres :
    regAfter (exec (.nres 3#5 1#5) (blocks [(1, 0x1000000000000005#64)] [])) 3#5 = some 0x40000#64 := by decide +kernel

/-! ## Witnesses: control registers, traps, returns, ends -/

/-- User registers at user level, the last system register at both levels, the number past it, a number that is none. -/
theorem witness_ControlRegistersReadAndWrite :
    let sys := withThr fun t => { t with level := true }
    Plain base ∧ Readable base 1#5 ∧ (base.ucr.read 0x00).isSome = true ∧ (0x00 : Nat) < 0x100 ∧
      (sys.sysRead 0x209).isSome = true ∧ sys.thr.level = true ∧ ¬((0x100#11 : BitVec 11).toNat < 0x100 ∨ base.thr.level = true) ∧
      0x21F < (0x220#11 : BitVec 11).toNat ∧ base.ucr.read 0xFF = none := by
  exact ⟨base_plain, base_readable _, by decide +kernel, by decide, by decide +kernel, rfl, by decide, by decide, by decide +kernel⟩

/-- A system handler that is active; a user handler; a system handler that is free; none; a group that runs. -/
theorem witness_TrapsEnterTheirHandler :
    let active := withThr fun t => { t with sys := { t.sys with sta := true } }
    let user := withUcr fun u => { u with utvec := 0x20000#56 }
    let system := withThr fun t => { t with sys := { t.sys with stvec := 0x30000#64 } }
    let group := withThr fun t => { t with
      sys := { t.sys with stvec := 0x30000#64 }
      rpt := some { start := t.arch.trip, words := [], reps := 64, sd := 0, sa := 0, sb := 0, pass := 63, word := 15 } }
    Plain base ∧ active.thr.sys.sta = true ∧
      (user.thr.sys.sta = false ∧ user.thr.rpt = none ∧ user.thr.rptResume = none ∧ (14#8 : BitVec 8) ∈ [7#8, 8#8, 14#8, 15#8] ∧
        user.thr.level = false ∧ user.thr.handler = false ∧ user.ucr.utvec ≠ 0#56 ∧ user.ucr.utvec.toNat % 4 = 0) ∧
      (system.thr.sys.sta = false ∧ system.thr.sys.stvec ≠ 0#64 ∧ system.thr.sys.stvec.toNat % 4 = 0 ∧ system.ucr.utvec = 0#56) ∧
      (group.thr.rpt.map (·.pass) = some 63 ∧ group.thr.rpt.map (·.word) = some 15 ∧ group.thr.sys.stvec ≠ 0#64) ∧
      (base.thr.sys.sta = false ∧ base.ucr.utvec = 0#56 ∧ base.thr.sys.stvec = 0#64) :=
  ⟨base_plain, rfl, ⟨rfl, rfl, rfl, by decide, rfl, rfl, by decide, by decide⟩, ⟨rfl, by decide, by decide, rfl⟩, ⟨rfl, rfl, by decide⟩,
    ⟨rfl, rfl, rfl⟩⟩

/-- Both levels, no group to resume and one, a fork that lives and none. -/
theorem witness_ReturnsRestoreAndHaltsEnd :
    let sys (srpt : BitVec 11) := withThr fun t => { t with level := true, sys := { t.sys with srpt := srpt } }
    let live := withThr fun t => { t with forks := [⟨3, 16#9, 3#9, 2#2, 3#64, 16#64, false, false⟩] }
    (Plain base ∧ base.thr.level = false ∧ base.thr.forks = []) ∧
      (Plain (sys 1024#11) ∧ (sys 1024#11).thr.level = true ∧ 1024 ≤ (sys 1024#11).thr.sys.srpt.toNat ∧ ¬1024 ≤ (sys 1023#11).thr.sys.srpt.toNat) ∧
      (Plain live ∧ ∃ f ∈ live.thr.forks, f.ended = false) :=
  ⟨⟨base_plain, rfl, rfl⟩, ⟨⟨rfl, rfl, rfl, rfl⟩, rfl, by decide, by decide⟩, ⟨rfl, rfl, rfl, rfl⟩, _, .head _, rfl⟩

/-- R58: a bit of XERR is cleared by writing 1 to it; VLEN is read-only. -/
theorem test_control_registers :
    let s := both [(1, 0x3#64)] fun u => { u with mxerr := 0x7#19, vlen := 4#9 }
    (match exec (.cwr 1#5 0x0A#11) s with
     | .next t => some t.ucr.mxerr
     | .fault _ => none
     | .refused _ => none) = some 4#19 ∧
    regAfter (exec (.crd 2#5 0x00#11) s) 2#5 = some 4#64 ∧
    (match exec (.cwr 1#5 0x00#11) s with
     | .next t => some t.ucr.vlen
     | .fault _ => none
     | .refused _ => none) = some 4#9 := by
  decide +kernel

/-! ## Witnesses: events -/

/-- The state that follows, where one does. -/
def nextOf : Machine.Out → Option State
  | .next t => some t
  | .fault _ => none
  | .refused _ => none

/-- A word posted to the vector unit, with the operands it had. -/
def post (i : Instr) : Replay :=
  { instr := i, addr := 0x10000#64, sreg := base.thr.arch.sreg, live := Vector.replicate 32 true, bad := [], vfmt := 0#1, stop := 0#16, gone := false }

/-- A break that is unresolved behind `n` posted instructions. -/
def broken (n : Nat) : Unresolved :=
  { strip := 0#32, mask := 1#4, older := n, hit := none, exit := 0x20000#64, arch := base.thr.arch, cells := [], tags := [], bad := [] }

/-- A wait armed and one that has ended; each event that pends; a group that runs; a `ubrk` that is unresolved, with and without posted
instructions before it; a strand that sleeps, whose counter has come; a quantum that is not due. -/
theorem witness_BoundaryEventsActOnTheStrand :
    let g : RptGroup := { start := base.trip, words := [], reps := 2, sd := 1, sa := 2, sb := 3, pass := 0, word := 0 }
    (withThr fun t => { t with ptrap := some ⟨2#8, 0#8, 0#64, post .nop⟩ }).thr.ptrap = some ⟨2#8, 0#8, 0#64, post .nop⟩ ∧
      (base.thr.wa = .none ∧ base.thr.unres = [] ∧ base.thr.errunc = none ∧ base.thr.rpt = none ∧ base.thr.replaying = false) ∧
      (withThr fun t => { t with rpt := some g }).thr.rpt = some g ∧
      (withThr fun t => { t with errunc := some (1#8, 0#64) }).thr.errunc = some (1#8, 0#64) ∧ (withThr fun t => { t with wdPend := true }).thr.wdPend = true ∧
      (∀ n, (withThr fun t => { t with unres := [broken n] }).thr.unres = broken n :: []) ∧
      (withThr fun t => { t with wa := .armed 1#5 }).thr.wa = .armed 1#5 ∧ (withThr fun t => { t with wa := .done 1#5 3#3 }).thr.wa = .done 1#5 3#3 ∧
      (Canonical (withThr fun t => { t with unres := [broken 0] }) ∧ Memory.wf (broken 0).cells = true ∧ Sparse.wf 0#16 (broken 0).tags = true) ∧
      (base.getThr 0 = base.thr ∧ base.thr.bound = true) ∧
      (((withThr fun t => { t with sleep := some 0#64 }).getThr 0).sleep = some 0#64 ∧
        (0#64 : Word).toNat ≤ (base.counters.toList.getD (base.clusterOf (coreOf 0)) 0#64).toNat ∧ base.turnDue 0 = false) :=
  ⟨rfl, ⟨rfl, rfl, rfl, rfl, rfl⟩, rfl, rfl, rfl, fun _ => rfl, rfl, rfl, ⟨⟨by decide +kernel, by decide +kernel⟩, rfl, rfl⟩, ⟨rfl, rfl⟩, by decide +kernel⟩

/-- A strand whose watchdog counts, at a word that posts its instruction: it retires later. -/
def posting : State :=
  { captives with thr := { captives.thr with
    arch := { captives.thr.arch with trip := Triple.start 0x10004#64, ucr := { captives.ucr with vlen := 4#9 } }
    sys := { captives.thr.sys with swdlim := 1#64 } } }

/-- The same strand at a `nop`, behind a posted addition that has not retired. -/
def posted : State :=
  { posting with thr := { posting.thr with
    arch := { posting.thr.arch with trip := Triple.start 0x10000#64 }, replaying := true
    replay := [post (.vadd (vargs 7#6 6#6 5#6 false false false 0#3))] } }

/-- A posted instruction that retires later, one that stops at its second element and one that traps before it, and a `nop` that passes it, as
the free values have it; each case of a strand's step. -/
theorem witness_BoundaryEventsActOnTheStrand_late :
    let i : Instr := .vadd (vargs 7#6 6#6 5#6 false false false 0#3)
    let stale : State := { posted with thr := { posted.thr with arch := { posted.thr.arch with ucr := { posted.ucr with genmode := 1#1 } } } }
    let behind : State := { posted with thr := { posted.thr with unres := [broken 1] } }
    ((posting.postNext false).isSome = true ∧ (Config.postsLate posted.free = true → posted.passing.isSome = true)) ∧
      (posted.thr.stopAt = none ∧ posted.thr.unres = [] ∧ posted.postNext true = none ∧ posted.thr.mustResolve = false ∧
        posted.thr.replay.head? = some (post i) ∧ posted.thr.replaying = true) ∧
      ((Config.stopsAt posted.free = 2 → posted.stopElement i = some 2) ∧ (Config.stopsAt posted.free = 0 → posted.stopElement i = none)) ∧
      ((nextOf (posted.reissue i (some 2))).map (fun t => t.thr.ptrap.isNone && !t.thr.waiting) = some true ∧
        (nextOf (stale.reissue i (some 2))).map (fun t => t.thr.ptrap.isNone) = some false) ∧
      ((withThr fun t => { t with arch := { t.arch with trip := { t.arch.trip with a0 := true } } }).trip.a0 = true ∧
        (withThr fun t => { t with preempt := true }).parkedRoom = true ∧ base.trip.a0 = false ∧ base.thr.ptrap = none ∧ base.thr.wdPend = false ∧
        base.thr.preempt = false ∧ (withThr fun t => { t with unres := [broken 0] }).thr.mustResolve = true ∧
        behind.thr.mustResolve = true ∧ behind.thr.unres.head? = some (broken 1)) := by
  refine ⟨⟨by decide +kernel, fun h => ?_⟩, ⟨rfl, rfl, ?_, rfl, rfl, rfl⟩, ⟨fun h => ?_, fun h => ?_⟩, by decide +kernel, by decide +kernel⟩
  · unfold State.passing; simp only [h]; decide +kernel
  · exact Option.not_isSome_iff_eq_none.mp (by decide +kernel)
  · unfold State.stopElement; simp only [h]; decide +kernel
  · unfold State.stopElement; simp only [h]; decide +kernel

/-- A launch of two strands of the kernel 0x4000_0000_0000_0004, in one group, with its completion region at 0x80000. -/
def request : LaunchRec :=
  #v[0x4000000000000004#64, 2#64, 0#64, 0x80000#64, 0x01000000#64, 0#64, 0x80000#64, 1#64, 0#64, 0#64, 0#64, 0#64, 0#64, 0#64, 0#64, 0#64]

/-- The queue of `dispatch`. -/
def queue : Queue :=
  { name := 0x3000000000000005#64, depth := 1, prio := 0, owner := 0#12, page := 0#6, waiting := [7], seq := 0#32, reason := 0#8, result := 0#8, record := request }

/-- The launch of a record. -/
def asked (accepted : Bool) : Launch :=
  { launched with id := 7, record := request, accepted := accepted, groups := [[0, 1]], bound := 0, queue := queue.name }

/-- A bind record for context 0 and the queue: core 0, the slots of a mask, a PRIO, the root of `tables`. -/
def permit (smask : BitVec 4) (prio : BitVec 3) : BindRec :=
  #v[queue.name, 1#64, (prio.setWidth 64 <<< 24) ||| (smask.setWidth 64 <<< 8), 0x100000000#64, 0x1000#64, 0#64, 0#64, 0#64]

/-- A module at service level 3 with no strand bound, a queue with a launch, a record that permits slot 1, the kernel's code object at
0x70000 with this device's stamp. -/
def dispatch (accepted : Bool) : State :=
  { tabled with
    thr := Thread.reset
    mem := tables ++ [(0x50000, 0x05#8), (0x50007, 0x30#8), (0x5000A, 0x04#8), (0x50013, 0x40#8), (0x5001B, 0x40#8), (0x5001C, 0x01#8),
      (0x50020, 0x04#8), (0x50027, 0x40#8), (0x5002A, 0x07#8), (0x50033, 0x40#8), (0x5003B, 0x40#8), (0x5003C, 0x01#8),
      (0x60000, 0x01#8), (0x60002, 0x02#8), (0x6000A, 0x03#8),
      (0x70000, 0x55#8), (0x70001, 0x4D#8), (0x70002, 0x58#8), (0x70003, 0x43#8), (0x70004, 0x01#8), (0x70008, 0x40#8), (0x7000C, 0x08#8),
      (0x70010, 0x28#8), (0x70011, 0xC3#8), (0x70012, 0x60#8), (0x70014, 0x9A#8), (0x70015, 0x4C#8), (0x70016, 0x56#8), (0x70017, 0xF9#8),
      (0x70018, 0xE0#8), (0x70019, 0xA9#8), (0x7001A, 0xB0#8), (0x7001B, 0x52#8), (0x7001C, 0xAE#8), (0x7001D, 0xAF#8), (0x7001E, 0x07#8), (0x7001F, 0x40#8)]
    mod := { tabled.mod with ntLogn := 1#5, svclvl := 3#2, stepping := 0#16 }
    binds := [(0, permit 2#4 0#3)], queues := [queue], launches := [asked accepted] }

/-- `dispatch` with a strand of PRIO 0 bound in the one slot that a record of PRIO 1 permits. -/
def occupied : State := { dispatch true with thr := base.thr, binds := [(0, permit 1#4 1#3)] }

/-- A saved strand whose image's header stands at 0x90000, with its checksum; the bitmap of its scalar registers stands behind it. -/
def kept : Saved :=
  { uid := 1, family := 1, thread := { loadedThread 0x10000#64 1#40 tables with queue := queue.name, launch := 7, stopping := true, bound := false },
    core := 0, slot := 1, vector := ⟨[], [], []⟩, acc := ⟨[], [], []⟩, scratch := ⟨[], [], []⟩, header := 0x90000 }
def stored : State :=
  { dispatch true with
    saved := [kept]
    mem := (dispatch true).mem ++ [(0x90000, 0x01#8), (0x90041, 0x01#8), (0x900F8, 0xFD#8), (0x900F9, 0x52#8), (0x900FA, 0xF4#8), (0x900FB, 0x70#8), (0x90100, 0x08#8)] }

/-- A strand whose quantum is over while one of its PRIO waits for its slot. -/
theorem witness_BoundaryEventsActOnTheStrand_quantum :
    ({ occupied with thr := { occupied.thr with bindCycles := 5 },
                     binds := [(0, (permit 1#4 0#3).set 3 0x500000000#64)] } : State).turnDue 0 = true := by
  decide +kernel

/-- Whether a value that may fail was given. -/
def isOk {ε α : Type} (x : Except ε α) : Bool :=
  match x with
  | .ok _ => true
  | .error _ => false

/-- Records: a full and an empty queue, a refused record, one that is accepted. Acceptance: a context that is not live, a kernel that is no
name, one that is. Binding: a place, none but a victim. -/
theorem witness_LaunchesBindRunAndComplete :
    let s := dispatch false
    let l := asked false
    let t := dispatch true
    let m := asked true
    ((∀ q ∈ ({ s with queues := [] } : State).queues, q.name ≠ queue.name) ∧ (∀ q ∈ s.queues, q.name ≠ 0#64 ∧ (q.page = 1#6 → s.ctxFunc q.owner ≠ 0#8)) ∧
      (s.queues.filter fun q => q.owner == 0#12).length < 64 ∧ s.queues.length < 8192 ∧ s.lookup queue.name = some 0 ∧ s.mod.ntEn = true ∧ s.ntState 0 = 1) ∧
      (s.linkFails = false ∧ ({ s with upsets := [(.pcie, false)] } : State).linkFails = true ∧ s.mod.svclvl ≠ 0#2 ∧ 0x080 ≤ 0x084 ∧ 0x084 < 0x088 ∧
        s.pageQueue 0#8 0#6 = some queue ∧ s.pageQueue 1#8 0#6 = none ∧ State.reset.mod.svclvl = 0#2 ∧ 0x110 % 8 = 0 ∧ 2 ≤ s.mod.svclvl.toNat ∧ s.ctxState queue.owner = 1 ∧ request.refusal = none ∧
        queue.depth ≤ queue.waiting.length ∧ LaunchRec.refusal (Vector.replicate 16 0#64) = some 1#8) ∧
      (s.queue? queue.name = some queue ∧ s.headToAccept queue = some l ∧ (s.contextRecord queue.owner).map BindRec.root = some 1#40 ∧
        s.ctxState l.owner = 1 ∧ s.ctxState 9#12 ≠ 1 ∧ isOk (s.acceptKernel l 1#40).1 = true ∧
        isOk (s.acceptKernel { l with record := l.record.set 0 0#64 } 1#40).1 = false ∧ isOk (s.strandGroups l 1#40).1 = true ∧
        isOk (s.preload l 1#40 (l.record.get 8) 0 ((l.record.get 9).toNat % 2048)).1 = true) ∧
      (t.queue? queue.name = some queue ∧ t.want queue = some (.fresh m) ∧ firstPlace (t.places m.need nobody) = some ⟨0, 0#3, 1⟩ ∧
        (t.allocGens 0 [0, 1, 2, 3, 4]).1 = some [1#16, 1#16, 1#16, 1#16, 1#16] ∧
        (t.readArgs 0#12 1#40 (m.record.get 3) ((m.record.get 4).toNat % 65536 / 8)
          (max 6 ((m.record.get 4).toNat % 65536 / 8))).2.1 = none) ∧
      (firstPlace (occupied.places m.need nobody) = none ∧ occupied.displaced m.need = some 0) := by
  exact ⟨⟨fun _ h => (nomatch h), by decide +kernel⟩, by decide +kernel⟩

/-- The same statement's other clauses. A family that has stopped; a saved strand that can come back, and one of a context that is not live; a
launch whose strands are done; a record that changes under a bound strand; a sweep. -/
theorem witness_LaunchesBindRunAndComplete_saved :
    let s := stored
    let hurt : State := { s with poison := [0x90000] }
    let done : State := { dispatch true with launches := [{ asked true with finished := 2 }] }
    let swept : State := { base with cores := [(0, { Core.reset with sweeps := Vector.replicate 5 (some ⟨[1]⟩) })] }
    (∀ k ∈ ({ base with thr := { base.thr with stopping := true } } : State).familyOf 0,
      (({ base with thr := { base.thr with stopping := true } } : State).getThr k).stopping = true) ∧
      (s.saved.find? (fun x => x.uid == kept.uid && x.thread.parentSlot.isNone) = some kept ∧ s.saved.find? (fun x => x.uid == kept.uid) = some kept ∧
        s.ctxState kept.thread.asid = 1 ∧ (∀ x ∈ (s.savedFamily kept).map s.loaded, s.brokenAt x = none) ∧
        (((hurt.savedFamily kept).map hurt.loaded).find? (fun x => (hurt.brokenAt x).isSome)).bind hurt.brokenAt = some 0x90000 ∧
        hurt.imageFails (hurt.loaded kept) (s.bindRec 0) = true ∧
        firstPlace ((s.places kept.thread.need nobody).filter fun p => decide ((s.savedFamily kept).length ≤ (s.familySlots p).length)) = some ⟨0, 0#3, 1⟩ ∧
        s.savedFamily kept = [kept] ∧ s.imageFails (s.loaded kept) (s.bindRec 0) = false ∧
        (dispatch true).imageFails ((dispatch true).loaded kept) (s.bindRec 0) = true ∧
        s.genStalls 0 4 = false ∧ (s.familyGens 0 1).1 = some [[1#16, 1#16, 1#16, 1#16]] ∧
        ((s.familyGens 0 1).2.allocGens 0 [4]).1 = some [1#16] ∧ s.parked = [] ∧
        (s.loaded kept).thread.arch.stag.get 3 = (s.loaded kept).thread.genS ∧ ({ s with mem := [] } : State).ctxState kept.thread.asid ≠ 1) ∧
      (∃ l, done.launchOf 7 = some l ∧ l.accepted = true ∧ l.finished = l.count) ∧
      (occupied.thr.bound = true ∧ occupied.thr.bindNo = 0 ∧
        ({ occupied with binds := Sparse.put BindRec.empty occupied.binds 0 (BindRec.stored (permit 0#4 1#3)) } : State).stillQualifies 0 = false) ∧
      (Sparse.wf 0#16 swept.tags = true ∧ (swept.getCore 0).sweeps.toList.getD 4 none = some ⟨[1]⟩) := by
  exact ⟨by decide +kernel, by decide +kernel, ⟨_, rfl, rfl, by decide +kernel⟩, by decide +kernel⟩

/-- A copy that runs, with a place for each byte, with a place refused, with no translation; a collective that is alone, one whose members
disagree, one that was abandoned; a link with a domain on it; each outcome of a command. -/
theorem witness_EnginesAndCommandsAct :
    let c := pending .running
    let s : State := { base with copies := [c] }
    let x : Collective := { id := 1, launch := 0, group := 0, ticket := 0, parts := [part], status := none }
    let one : State := { base with launches := [{ launched with groups := [[0]], bound := 1 }], colls := [x] }
    let gone : State := { one with launches := [{ launched with groups := [[0, 2]], bound := 3 }] }
    let split : Collective := { x with parts := [part, { part with uid := 2, rank := 1, n := 5 }] }
    let d := dispatch true
    (s.runningCopy c.id = some c ∧ c.toToken = none ∧ c.rows = 1 ∧
      s.poison = [] ∧ (s.engineReads (some c.reader) c.asid 1#40 c.level true c.src c.len).1.2 = none ∧
      (s.enginePlaces c.asid 1#40 c.level true c.dst c.len).1.2 = none ∧
      (s.enginePlaces c.asid 1#40 c.level true c.dst 9).1.1 = [(0x20000, 8), (0x20008, 1)] ∧ sameUnits c.dst c.src = true ∧
      Apart [(0x20000, 8), (0x20008, 1)] ∧
      (({ s with mem := windows } : State).enginePlaces c.asid 1#40 c.level true c.dst 2).1.2 = some Stop.refused ∧
      (({ s with mem := noRead } : State).engineReads (some c.reader) c.asid 1#40 c.level true c.src 2).1.2 = some Stop.denied ∧
      (s.engineReads (some c.reader) c.asid 1#40 c.level true 0x40000000#64 2).1.2 = some (Stop.translation 0#8)) ∧
    (one.colls.find? (fun y => y.id == x.id && y.status.isNone) = some x ∧ one.abandoned x = false ∧ (one.collMembers x).length ≤ 1 ∧
      (one.modules 0#12) = (1, 0) ∧ fmtWidth part.fmt % 8 = 0 ∧ part.op = 1#2 ∧
      (one.engineReads (some (part.reader 1)) 0#12 1#40 false true part.src 4).1.2 = none ∧
      (one.enginePlaces 0#12 1#40 false true part.dst 4).1.2 = none ∧ Apart (one.enginePlaces 0#12 1#40 false true part.dst 4).1.1 ∧
      (({ one with mem := noRead } : State).engineReads (some (part.reader 1)) 0#12 1#40 false true part.src 4).1.2 = some Stop.denied ∧ gone.abandoned x = true ∧ split.mismatched = true) ∧
    (d.ctxState 0#12 ≠ 0 ∧ d.ctxState 1#12 = 0 ∧ d.ctxState 1#12 ≠ 1 ∧ d.ctxState 0#12 = 1 ∧ occupied.asidInUse 0#12 = true ∧
      d.asidInUse 0#12 = false ∧
      d.lookup queue.name = some 0 ∧ d.lookup 0x3000000000000000#64 = none ∧ d.ntState 0 = 1) := by
  unfold Apart
  decide +kernel

/-- What an attempt at a copy comes to, where it completes: whether the copy is GONE. -/
def goneAt (x : Attempt) : Option Bool :=
  match x with
  | .complete gone _ => some gone
  | .stop _ _ _ _ _ => none
  | .waits _ => none

/-- The same statement's other clauses. A copy of two rows; a copy into the window of a strand, and one to a token of none; a collective of two
members, their parts in the order of their issue, with places for both. -/
theorem witness_EnginesAndCommandsAct_rows_and_members :
    let c : Copy := { pending .running with root := 1#40, rows := 2, dstr := 0x100, sstr := 64 }
    let s : State := { base with copies := [c] }
    let w : Copy := { pending .running with root := 1#40, toToken := some (tokenOf 0 base.thr), dst := 0x100#64 }
    let t : State := { base with copies := [w] }
    let q : Contribution := { part with op := 0#2, rank1 := true, dst := 0x30000#64 }
    let r : Contribution := { q with uid := 2, rank := 1, src := 0x10004#64, dst := 0x30040#64 }
    let x : Collective := { id := 1, launch := 0, group := 0, ticket := 0, parts := [r, q], status := none }
    let v : State := { base with launches := [{ launched with groups := [[0, 1]], bound := 2 }], colls := [x] }
    let whole := fun (a : Word) => q.op != 0#2 && [q, r].any fun p => sameUnits p.dst a
    let own := (v.readParts 1 1 whole [q, r]).1.1
    let places := v.placeParts ([q, r].map fun p => (p, collectiveResult 0#2 0#4 4 v.free own p))
    (s.runningCopy c.id = some c ∧ c.toToken = none ∧ goneAt (s.copyRows c (List.range c.rows) s) = some false ∧ base.poison = [] ∧
      (base.engineReads (some c.reader) c.asid c.root c.level true (c.src + BitVec.ofInt 64 (1 * 64)) c.len).1.2 = none ∧
      (base.enginePlaces c.asid c.root c.level true (c.dst + BitVec.ofInt 64 (1 * 0x100)) c.len).1.2 = none ∧
      Apart (base.enginePlaces c.asid c.root c.level true (c.dst + BitVec.ofInt 64 (1 * 0x100)) c.len).1.1) ∧
    (t.runningCopy w.id = some w ∧ w.toToken = some (tokenOf 0 base.thr) ∧ t.poison = [] ∧
      (t.engineReads (some w.reader) w.asid w.root w.level (sameUnits w.dst w.src) w.src w.len).1.2 = none ∧
      t.liveToken (tokenOf 0 base.thr) = some 0 ∧ (t.getThr 0).asid = w.asid ∧ t.offline (coreOf 0) = false ∧ t.liveToken 0#32 = none ∧
      w.len ≠ 0 ∧ w.dst.toNat + w.len ≤ 0x300000) ∧
    (v.colls.find? (fun y => y.id == x.id && y.status.isNone) = some x ∧ v.abandoned x = false ∧ (v.collMembers x).length ≤ x.parts.length ∧
      x.mismatched = false ∧ x.parts.head? = some r ∧ (v.modules r.asid).1 = 1 ∧ [q, r].Perm x.parts ∧
      [q, r].Pairwise (fun a b => a.rank < b.rank) ∧ (v.readParts 1 1 whole [q, r]).1.2 = none ∧ places.1.2 = none ∧
      Apart ((places.1.1.flatMap (·.2)).flatMap (·.1)) ∧ q.rank1 = true) ∧
    ((v.engineReads (some (q.reader 1)) q.asid q.root q.level (whole q.src) q.src 4).1.2 = none ∧
      (v.enginePlaces q.asid q.root q.level false q.dst 4).1.2 = none ∧ (v.placeBlocks q []).1.2 = none) := by
  unfold Apart
  decide +kernel

/-- Flash that has and has not a block left; a lane that is in and is not charged, and the fifth of a core; a dead entry, a grant that is held
and one that is not; a function with a context and one without; addresses that a peer may and may not reach; limits of power. -/
theorem witness_ModuleAndHostEventsAct :
    let d := dispatch true
    let dead : State := { d with
      mod := { d.mod with ntLogn := 0#5 }
      mem := (d.mem.filter fun c => c.1 < 0x5001B) ++ [(0x5001B, 0x80#8), (0x5001C, 0x01#8)] }
    let shared : State := { d with
      mod := { d.mod with ntLogn := 0#5, gntBase := 0x51#40 }
      mem := (d.mem.filter fun c => c.1 < 0x50010) ++ [(0x50010, 0x01#8), (0x5001B, 0x40#8), (0x5001C, 0x01#8), (0x51040, 0x02#8), (0x51041, 0x80#8)] }
    let hosted : State := { d with
      mod := { d.mod with hftab := 0x52#40 }
      mem := d.mem.filter (fun c => c.1 < 0x52000) ++ [(0x52007, 0x80#8)] ++ d.mem.filter fun c => 0x52007 < c.1 }
    (d.mod.flashBlock ≠ 0xFFFFFF#24 ∧ ({ d.mod with svclvl := 2#2 } : Module).svclvl = 2#2 ∧ State.reset.mod.nserial = State.reset.mod.nblkEnd ∧
      131 < 128 + [1, 2, 3, 4].length ∧ 131 ∉ [1, 2, 3, 4] ∧ 0 < 128 + (base.getCore 0).retired.length ∧ 0 ∉ (base.getCore 0).retired ∧
      4 ≤ [1, 2, 3, 4].length ∧ (base.getThr 0).bound = true) ∧
    (dead.lookup queue.name = some 0 ∧ dead.ntState 0 = 2 ∧ shared.lookup queue.name = some 0 ∧
      shared.grantBlocks 0x1000000 (shared.ntGrant 0) = [1] ∧ shared.grant 1 0 = (0x8#4 ++ 2#12) ∧ (List.range 30).all (fun j => !grantsTo (shared.grant 1 j) 3#12) = true ∧
      shared.openGrant [1] = some 0x51042) ∧
    (hosted.linkFails = false ∧ ({ hosted with upsets := [(.pcie, true)] } : State).linkFails = true ∧ hosted.mod.svclvl ≠ 0#2 ∧
      ({ hosted.mod with svclvl := 1#2 } : Module).svclvl = 1#2 ∧ 2 ≤ hosted.mod.svclvl.toNat ∧
      (({ hosted with poison := [0x70000] } : State).readAll (some .outside) 0#12 1#40 false [(0x70000#64, 8)]).1.2 = some (Stop.error 0x70000) ∧
      State.reset.mod.svclvl = 0#2 ∧ hosted.hostContext 0#8 = some (0#12, 1#40) ∧ hosted.hostContext 1#8 = none ∧
      (hosted.readAll (some .outside) 0#12 1#40 false [(0x70000#64, 8)]).1.2 = none ∧
      (hosted.readAll (some .outside) 0#12 1#40 false [(0x40000000#64, 8)]).1.2 = some (Stop.translation 0#8) ∧
      (hosted.hostPlaces 0#12 1#40 [(0x80000#64, 8)]).1 = ([(0x80000, 8)], none) ∧ Apart [(0x80000, 8)] ∧
      (hosted.hostPlaces 0#12 1#40 [(0x40000000#64, 8)]).1.2 = some (Stop.translation 0#8) ∧
      hosted.region 0x80000 = .lpddr ∧ d.region (windowAddr 0 0) = .window 0 0) ∧
    ((List.replicate 64 0#8).length = 64 ∧ 2 ≤ d.mod.svclvl.toNat ∧ d.mod.plim.toNat < 2 * 951 ∧ 0 < d.ncore ∧ d.dieOf 0 = 0 ∧
      32 < (d.getCore 0).plen.toNat ∧ Sparse.wf Energy.reset d.energies = true ∧ d.scrubUnits 0 ≠ 0 ∧ d.region (scrubUnit 0 0) = .lpddr ∧
      scrubUnit 0 0 < 0x00D000000000 ∧ (base.mod.svclvl.toNat < 2 ∧ d.poison = [] ∧ d.late = []) ∧ 0 < 64 ∧ 64 % 64 = 0 ∧
      ∀ r ∈ [(70, 0)], 2 ^ ((r.1 - 70) / 10) * (16 + r.2) < 65536) := by
  unfold Apart
  exact ⟨by decide +kernel, by decide +kernel, by decide +kernel, by decide +kernel⟩

/-! ## Witnesses: the machine as a whole -/

/-- A canonical state from which a step goes on. -/
theorem witness_EveryStepKeepsMemoryCanonical : Canonical base ∧ goesOn (step base) = true :=
  ⟨⟨by decide +kernel, by decide +kernel⟩, by decide +kernel⟩

/-- An instruction of each operand format at the end of its operands' ranges, and a word that decodes. -/
theorem witness_DecodeInvertsEncode :
    (Instr.vfma ⟨63#6, 63#6, 63#6, false, true, true, 7#3⟩).wf = true ∧ (encode (.vfma ⟨63#6, 63#6, 63#6, false, true, true, 7#3⟩)).isSome = true ∧
      (decode 0xA0818744#32).toOption = some (.vfma ⟨8#6, 6#6, 7#6, false, true, false, 1#3⟩) :=
  ⟨rfl, rfl, by decide +kernel⟩

/-- An event that is due; a strand whose word runs, is no instruction, stands at a misaligned address, waits for energy. -/
theorem witness_StepRunsTheFetchedInstruction :
    let bad : State := { base with mem := tables.filter fun c => c.1 ≠ 0x10001, thr := loadedThread 0x10000#64 1#40 (tables.filter fun c => c.1 ≠ 0x10001) }
    let odd : State := { base with thr := loadedThread 0x10002#64 1#40 tables }
    let poor : State := { base with thr := { base.thr with ecl := true, eclass := 7#3 }, energies := [(0, { ebud := 0#32, ebcap := 5#31 })] }
    let holds := withThr fun t => { t with held := [⟨0#32, Path.vector.plain, 0x20000, [1#8]⟩] }
    let imaged : State := { base with
      images := [{ asid := 0#12, name := base.thr.kernel, version := base.thr.kver, base := 0x10000#64, bytes := [0x00#8, 0x50#8, 0x00#8, 0x00#8].map some, bad := [] }] }
    let ends (s : State) := match payEnergy (translated s s.trip.pc .fetch) with
      | .done _ _ => true
      | .trap _ _ => false
      | .wait _ => false
    (({ State.reset with due := [.energyRefill] } : State).due = Instr.energyRefill :: [] ∧ Instr.energyRefill.wf = true ∧
      State.reset.blocked .energyRefill = false ∧ holds.blocked (.wholeAsid 0#12) = true) ∧
    ((imaged.image?.bind fun c => c.word imaged.trip.pc) = some ([0x00#8, 0x50#8, 0x00#8, 0x00#8].map some, false) ∧
      decode (BitVec.ofNat 32 (numOf [0x00#8, 0x50#8, 0x00#8, 0x00#8])) = .ok .nop) ∧
    (∀ s ∈ [base, bad, odd, poor], s.due = [] ∧ s.deviceEvents = [] ∧ s.nextStrand s.waitsOn = some 0 ∧ s.switchTo 0 = s ∧ s.trip.a0 = false ∧
      s.thr.ptrap = none ∧ s.thr.errunc = none ∧ s.thr.wdPend = false ∧ s.thr.preempt = false ∧ s.poison = [] ∧ (s.postNext false).isNone = true) ∧
    ((posting.postNext false).isSome = true ∧ posting.due = [] ∧ posting.deviceEvents = [] ∧ posting.nextStrand posting.waitsOn = some 0 ∧ posting.switchTo 0 = posting) ∧
    Plain base ∧ Plain bad ∧ Plain odd ∧ Plain poor ∧ odd.trip.pc.toNat % 4 ≠ 0 ∧ base.trip.pc.toNat % 4 = 0 ∧
    Reaches base base.trip.pc .fetch ⟨0x10000, 0#2⟩ ∧ Reaches bad bad.trip.pc .fetch ⟨0x10000, 0#2⟩ ∧ base.region 0x10000 = .lpddr ∧
    (base.image?.bind fun c => c.word base.trip.pc) = none ∧ (decode (BitVec.ofNat 32 (numOf (base.bytes 0x10000 4)))).toOption = some .nop ∧
    (decode (BitVec.ofNat 32 (numOf (bad.bytes 0x10000 4)))).toOption = none ∧
    (∀ m ∈ base.thr.codeMem, ∀ i, i < 4 → Sparse.get memDefault m (0x10000 + i) = base.byte (0x10000 + i)) ∧ ends base = true ∧ ends poor = false := by
  refine ⟨⟨rfl, rfl, by decide +kernel⟩, ⟨by decide +kernel, rfl⟩, by decide +kernel, by decide +kernel, base_plain, ⟨rfl, rfl, rfl, rfl⟩, ⟨rfl, rfl, rfl, rfl⟩,
    ⟨rfl, rfl, rfl, rfl⟩, by decide +kernel, by decide +kernel, ⟨by decide +kernel, by decide +kernel⟩, ⟨by decide +kernel, by decide +kernel⟩, by decide +kernel⟩

/-- From reset with a word placed, the next step runs it. -/
theorem test_first_step_runs_the_word :
    (match step (State.reset.withFetchWord 32 0x00005000) with
     | .next t => some t.trip.pc
     | .fault _ => none
     | .refused _ => none) = some 0x10004#64 := by
  decide +kernel

end Sys2Proof.Tests
end

/-!
PROOF. The decoder against the encoder (05): every instruction's word decodes to it, and whatever a word decodes to has a word.
-/

namespace Sys2Proof.Laws

/-- Decoding the word of any instruction gives it back: the family `Encoding`, taken together. -/
theorem encoding_statement (i : Instr) : Encoding.Statement i := by
  cases i with
  | trap code => exact Encoding.trap code
  | eret => exact Encoding.eret
  | brk code => exact Encoding.brk code
  | halt => exact Encoding.halt
  | crd rd cr => exact Encoding.crd rd cr
  | cwr ra cr => exact Encoding.cwr ra cr
  | crs rd ra cr => exact Encoding.crs rd ra cr
  | crc rd ra cr => exact Encoding.crc rd ra cr
  | uloop h => exact Encoding.uloop h
  | ecls n => exact Encoding.ecls n
  | nop => exact Encoding.nop
  | add rd ra rb => exact Encoding.add rd ra rb
  | sub rd ra rb => exact Encoding.sub rd ra rb
  | and rd ra rb => exact Encoding.and rd ra rb
  | or rd ra rb => exact Encoding.or rd ra rb
  | xor rd ra rb => exact Encoding.xor rd ra rb
  | andn rd ra rb => exact Encoding.andn rd ra rb
  | sll rd ra rb => exact Encoding.sll rd ra rb
  | srl rd ra rb => exact Encoding.srl rd ra rb
  | sra rd ra rb => exact Encoding.sra rd ra rb
  | slt rd ra rb => exact Encoding.slt rd ra rb
  | sltu rd ra rb => exact Encoding.sltu rd ra rb
  | min rd ra rb => exact Encoding.min rd ra rb
  | max rd ra rb => exact Encoding.max rd ra rb
  | minu rd ra rb => exact Encoding.minu rd ra rb
  | maxu rd ra rb => exact Encoding.maxu rd ra rb
  | mul rd ra rb => exact Encoding.mul rd ra rb
  | mulh rd ra rb => exact Encoding.mulh rd ra rb
  | mulhu rd ra rb => exact Encoding.mulhu rd ra rb
  | div rd ra rb => exact Encoding.div rd ra rb
  | divu rd ra rb => exact Encoding.divu rd ra rb
  | rem rd ra rb => exact Encoding.rem rd ra rb
  | remu rd ra rb => exact Encoding.remu rd ra rb
  | clz rd ra => exact Encoding.clz rd ra
  | ctz rd ra => exact Encoding.ctz rd ra
  | popc rd ra => exact Encoding.popc rd ra
  | addi rd ra imm => exact Encoding.addi rd ra imm
  | andi rd ra imm => exact Encoding.andi rd ra imm
  | ori rd ra imm => exact Encoding.ori rd ra imm
  | xori rd ra imm => exact Encoding.xori rd ra imm
  | slti rd ra imm => exact Encoding.slti rd ra imm
  | sltiu rd ra imm => exact Encoding.sltiu rd ra imm
  | slli rd ra n => exact Encoding.slli rd ra n
  | srli rd ra n => exact Encoding.srli rd ra n
  | srai rd ra n => exact Encoding.srai rd ra n
  | lins rd slot imm => exact Encoding.lins rd slot imm
  | addpc rd imm => exact Encoding.addpc rd imm
  | ld rd ra w off => exact Encoding.ld rd ra w off
  | st rd ra w off => exact Encoding.st rd ra w off
  | ldx rd ra rb w => exact Encoding.ldx rd ra rb w
  | stx rd ra rb w => exact Encoding.stx rd ra rb w
  | amo f op => exact Encoding.amo f op
  | cas f => exact Encoding.cas f
  | waddr rd ra rb => exact Encoding.waddr rd ra rb
  | wake rd ra rb => exact Encoding.wake rd ra rb
  | beq ra rb n off => exact Encoding.beq ra rb n off
  | bne ra rb n off => exact Encoding.bne ra rb n off
  | blt ra rb n off => exact Encoding.blt ra rb n off
  | bge ra rb n off => exact Encoding.bge ra rb n off
  | bltu ra rb n off => exact Encoding.bltu ra rb n off
  | bgeu ra rb n off => exact Encoding.bgeu ra rb n off
  | j off => exact Encoding.j off
  | jal off => exact Encoding.jal off
  | jr ra => exact Encoding.jr ra
  | jalr rd ra => exact Encoding.jalr rd ra
  | smine rc pm row n off => exact Encoding.smine rc pm row n off
  | ubrk k off => exact Encoding.ubrk k off
  | vbx k c n off => exact Encoding.vbx k c n off
  | rpt cnt reps sd sa sb => exact Encoding.rpt cnt reps sd sa sb
  | vshape rd ra rb ew => exact Encoding.vshape rd ra rb ew
  | vcfg ra => exact Encoding.vcfg ra
  | klen kd ra ew => exact Encoding.klen kd ra ew
  | vadd f => exact Encoding.vadd f
  | vsub f => exact Encoding.vsub f
  | vrsub f => exact Encoding.vrsub f
  | vmul f => exact Encoding.vmul f
  | vmulh f => exact Encoding.vmulh f
  | vmulhu f => exact Encoding.vmulhu f
  | vdiv f => exact Encoding.vdiv f
  | vdivu f => exact Encoding.vdivu f
  | vrem f => exact Encoding.vrem f
  | vremu f => exact Encoding.vremu f
  | vmin f => exact Encoding.vmin f
  | vmax f => exact Encoding.vmax f
  | vminu f => exact Encoding.vminu f
  | vmaxu f => exact Encoding.vmaxu f
  | vand f => exact Encoding.vand f
  | vor f => exact Encoding.vor f
  | vxor f => exact Encoding.vxor f
  | vandn f => exact Encoding.vandn f
  | vsll f => exact Encoding.vsll f
  | vsrl f => exact Encoding.vsrl f
  | vsra f => exact Encoding.vsra f
  | vsadd f => exact Encoding.vsadd f
  | vssub f => exact Encoding.vssub f
  | vsaddu f => exact Encoding.vsaddu f
  | vssubu f => exact Encoding.vssubu f
  | vmerge f => exact Encoding.vmerge f
  | vclz f => exact Encoding.vclz f
  | vpopc f => exact Encoding.vpopc f
  | vmacc f => exact Encoding.vmacc f
  | vnmsac f => exact Encoding.vnmsac f
  | vabsd f => exact Encoding.vabsd f
  | vmulq f => exact Encoding.vmulq f
  | vcmp kd cc va vb s km ty => exact Encoding.vcmp kd cc va vb s km ty
  | vfadd f => exact Encoding.vfadd f
  | vfsub f => exact Encoding.vfsub f
  | vfmul f => exact Encoding.vfmul f
  | vfdiv f => exact Encoding.vfdiv f
  | vfma f => exact Encoding.vfma f
  | vfms f => exact Encoding.vfms f
  | vfnma f => exact Encoding.vfnma f
  | vfmin f => exact Encoding.vfmin f
  | vfmax f => exact Encoding.vfmax f
  | vfsgnj f => exact Encoding.vfsgnj f
  | vfsgnjn f => exact Encoding.vfsgnjn f
  | vfsgnjx f => exact Encoding.vfsgnjx f
  | vfsqrt f => exact Encoding.vfsqrt f
  | vfrcp f => exact Encoding.vfrcp f
  | vfrsq f => exact Encoding.vfrsq f
  | vfexp2 f => exact Encoding.vfexp2 f
  | vflog2 f => exact Encoding.vflog2 f
  | vfsigm f => exact Encoding.vfsigm f
  | vftanh f => exact Encoding.vftanh f
  | vfcls f => exact Encoding.vfcls f
  | vcvt vd va rm sat km dst src => exact Encoding.vcvt vd va rm sat km dst src
  | vredsum f => exact Encoding.vredsum f
  | vredmax f => exact Encoding.vredmax f
  | vredmin f => exact Encoding.vredmin f
  | vredor f => exact Encoding.vredor f
  | vfredsum f => exact Encoding.vfredsum f
  | vfredmax f => exact Encoding.vfredmax f
  | vfredmin f => exact Encoding.vfredmin f
  | vredand f => exact Encoding.vredand f
  | vmv vd va k => exact Encoding.vmv vd va k
  | vmvs vd ra k => exact Encoding.vmvs vd ra k
  | vmvx rd va rb => exact Encoding.vmvx rd va rb
  | vslideup vd va rb k => exact Encoding.vslideup vd va rb k
  | vslidedn vd va rb k => exact Encoding.vslidedn vd va rb k
  | vslide1up vd va rb k => exact Encoding.vslide1up vd va rb k
  | vslide1dn vd va rb k => exact Encoding.vslide1dn vd va rb k
  | vgather vd va vb k => exact Encoding.vgather vd va vb k
  | vcompress vd va k => exact Encoding.vcompress vd va k
  | vexpand vd va k => exact Encoding.vexpand vd va k
  | viota vd ka k => exact Encoding.viota vd ka k
  | vid vd k => exact Encoding.vid vd k
  | vtrans vd va k => exact Encoding.vtrans vd va k
  | vrowbc vd va rb k => exact Encoding.vrowbc vd va rb k
  | kand kd ka kb => exact Encoding.kand kd ka kb
  | kor kd ka kb => exact Encoding.kor kd ka kb
  | kxor kd ka kb => exact Encoding.kxor kd ka kb
  | kandn kd ka kb => exact Encoding.kandn kd ka kb
  | knot kd ka => exact Encoding.knot kd ka
  | kmv kd ka => exact Encoding.kmv kd ka
  | kpopc rd ka => exact Encoding.kpopc rd ka
  | kfirst rd ka => exact Encoding.kfirst rd ka
  | kbrkb kd ka => exact Encoding.kbrkb kd ka
  | kbrka kd ka => exact Encoding.kbrka kd ka
  | kbrko kd ka => exact Encoding.kbrko kd ka
  | kfromv kd va => exact Encoding.kfromv kd va
  | ktov vd ka => exact Encoding.ktov vd ka
  | kset kd ra rb => exact Encoding.kset kd ra rb
  | vld f => exact Encoding.vld f
  | vldstr f st => exact Encoding.vldstr f st
  | vldx f vi => exact Encoding.vldx f vi
  | vldff f => exact Encoding.vldff f
  | vldSignExtending f => exact Encoding.vldSignExtending f
  | vldstrSignExtending f st => exact Encoding.vldstrSignExtending f st
  | vldxSignExtending f vi => exact Encoding.vldxSignExtending f vi
  | vldffSignExtending f => exact Encoding.vldffSignExtending f
  | vst f => exact Encoding.vst f
  | vststr f st => exact Encoding.vststr f st
  | vstx f vi => exact Encoding.vstx f vi
  | vamoAdd f => exact Encoding.vamoAdd f
  | vamoSwap f => exact Encoding.vamoSwap f
  | vamoAnd f => exact Encoding.vamoAnd f
  | vamoOr f => exact Encoding.vamoOr f
  | vamoXor f => exact Encoding.vamoXor f
  | vamoMin f => exact Encoding.vamoMin f
  | vamoMax f => exact Encoding.vamoMax f
  | vamoCas f => exact Encoding.vamoCas f
  | vamoMinu f => exact Encoding.vamoMinu f
  | vamoMaxu f => exact Encoding.vamoMaxu f
  | vamoFadd f => exact Encoding.vamoFadd f
  | vamoDip f => exact Encoding.vamoDip f
  | vhist f => exact Encoding.vhist f
  | mzero ac => exact Encoding.mzero ac
  | mop ac va vb km => exact Encoding.mop ac va vb km
  | mopt ac va tid km => exact Encoding.mopt ac va tid km
  | mopk ac va tid km => exact Encoding.mopk ac va tid km
  | mopi ac va vb km => exact Encoding.mopi ac va vb km
  | mld ac sb km => exact Encoding.mld ac sb km
  | mst ac sb km => exact Encoding.mst ac sb km
  | mva ac vd km => exact Encoding.mva ac vd km
  | mav ac va km => exact Encoding.mav ac va km
  | fence ll ls sl ss sc => exact Encoding.fence ll ls sl ss sc
  | pfence p q sc => exact Encoding.pfence p q sc
  | arrive rd b => exact Encoding.arrive rd b
  | bwait b rb => exact Encoding.bwait b rb
  | bset b ra => exact Encoding.bset b ra
  | gmember rd ra rb => exact Encoding.gmember rd ra rb
  | gsize rd ra => exact Encoding.gsize rd ra
  | grank rd ra => exact Encoding.grank rd ra
  | lfork rd ra => exact Encoding.lfork rd ra
  | ljoin => exact Encoding.ljoin
  | cpy rd ra rb twoD => exact Encoding.cpy rd ra rb twoD
  | cpyw rd ra rb => exact Encoding.cpyw rd ra rb
  | cbatch => exact Encoding.cbatch
  | cwait ra => exact Encoding.cwait ra
  | csleep ra => exact Encoding.csleep ra
  | rdcnt rd => exact Encoding.rdcnt rd
  | xred rd ra rb fmt => exact Encoding.xred rd ra rb fmt
  | xbc rd ra rb fmt => exact Encoding.xbc rd ra rb fmt
  | xag rd ra rb fmt => exact Encoding.xag rd ra rb fmt
  | xwait rd => exact Encoding.xwait rd
  | nnew rd ra => exact Encoding.nnew rd ra
  | nres rd ra => exact Encoding.nres rd ra
  | nkill ra => exact Encoding.nkill ra
  | ncas rd ra rb => exact Encoding.ncas rd ra rb
  | tbind rd ra rb => exact Encoding.tbind rd ra rb
  | tunbind ra => exact Encoding.tunbind ra
  | tq rd ra => exact Encoding.tq rd ra
  | orset ra rb => exact Encoding.orset ra rb
  | orclr ra => exact Encoding.orclr ra
  | smerge f => exact Encoding.smerge f
  | vrng f => exact Encoding.vrng f
  | vexpd f => exact Encoding.vexpd f
  | glean rd ra rb => exact Encoding.glean rd ra rb
  | gadv rd ra rb => exact Encoding.gadv rd ra rb
  | lenq rd ra rb => exact Encoding.lenq rd ra rb
  | vfredo vd va vb km => exact Encoding.vfredo vd va vb km
  | mop8 rd ra rb fn => exact Encoding.mop8 rd ra rb fn
  | _ => exact encoding_of_event rfl

/-- What a word's major and selector name has a word; a rejected word names nothing. -/
def namesEncodable : Except Reject Instr → Bool
  | .ok i => (encode i).isSome
  | .error _ => true

/-- No row of Tables 5.2 to 5.12 names an event. -/
theorem pick_namesEncodable (w : BitVec 32) : namesEncodable (pick w) = true := by
  unfold pick pickSys pickAlu pickShift pickIndexed pickAtomic pickWait pickJump pickShape pickVi0 pickVi1 pickVi2 pickVi3 pickVi4 pickVi5
    pickVi6 pickVi7 pickVf0 pickVf1 pickVf2 pickVf3 pickVf4 pickVred0 pickVred1 pickPerm pickMask pickLoadZ pickLoadS pickStore pickVamo
    pickVamo2 pickMatrix pickSync pickCopy pickColl pickName pickVml pickSeq pickLegacy zeros
  repeat' split
  all_goals rfl

/-- A word decodes just to what it names, where the codes in its fields pass (R123). -/
theorem decode_ok_iff (w : BitVec 32) (i : Instr) : decode w = .ok i ↔ pick w = .ok i ∧ i.wf = true := by
  unfold decode
  cases h : pick w with
  | error e => simp
  | ok j =>
    by_cases hj : j.wf = true
    · simp only [hj, if_true, Except.ok.injEq]
      exact ⟨fun e => ⟨e, e ▸ hj⟩, fun e => e.1⟩
    · simp only [hj, Bool.false_eq_true, if_false, reduceCtorEq, Except.ok.injEq, false_iff, not_and]
      rintro rfl
      exact hj

/-- Settles O58: the family `Encoding` for the one direction, the rows of the opcode map for the other. -/
theorem decodeInvertsEncode : Obligations.DecodeInvertsEncode := by
  unfold Obligations.DecodeInvertsEncode
  refine ⟨fun i w hwf hw => encoding_statement i w hw hwf, fun i w hd => ?_⟩
  obtain ⟨hpick, hwf⟩ := (decode_ok_iff w i).1 hd
  have hword := pick_namesEncodable w
  rw [hpick] at hword
  exact ⟨hwf, hword⟩

end Sys2Proof.Laws

/-!
PROOF. A collective into poisoned memory (10, 22). An engine that writes a poisoned unit whole leaves it poisoned no more (R374). What
`EnginesAndCommandsAct` says of a collective of any number of members keeps the poison as it stood, and does not ask, as its other clauses do,
that there be none.
-/

namespace Sys2Proof.Laws

open Sys2Proof.Machine Sys2Proof.Safety

/-- A broadcast of 32 bytes from one place to another by the only member of its group. -/
def soleBroadcast : Contribution :=
  { uid := 1, core := 0, rank := 0, op := 1#2, fmt := 0#4, n := 32, src := 0x4000#64, dst := 0x5000#64, rank1 := false, asid := 0#12,
    root := 1#40, level := false }

/-- The collective that the broadcast makes, whose parts have all arrived. -/
def soleCollective : Collective := { id := 1, launch := 0, group := 0, ticket := 0, parts := [soleBroadcast], status := none }

/-- The state after reset, with three page tables that map the low addresses onto themselves, the collective outstanding, and the 32-byte unit
at its destination poisoned. -/
def poisonedDestination : State :=
  { State.reset with
    mem := [(0x1000, 0x01#8), (0x1001, 0x20#8), (0x2000, 0x01#8), (0x2001, 0x30#8), (0x3000, 0x5B#8)]
    poison := [0x5000], colls := [soleCollective] }

/-- What the engine reads for the broadcast. -/
def broadcastRead : (List Leaf × Option Stop) × State :=
  poisonedDestination.readParts 1 1 (fun a => soleBroadcast.op != 0#2 && [soleBroadcast].any fun q => sameUnits q.dst a) [soleBroadcast]

/-- Where the engine then writes it. -/
def broadcastPlaced : (List (Contribution × List (List (Nat × Nat) × List Byte)) × Option Stop) × State :=
  broadcastRead.2.placeParts [(soleBroadcast, collectiveResult 1#2 0#4 32 broadcastRead.2.free broadcastRead.1.1 soleBroadcast)]

/-- The poison of the state that an outcome goes on to. -/
def poisonAfter : Out → Option (List Nat)
  | .next t => some t.poison
  | .fault _ => none
  | .refused _ => none

/-- An engine's answer that nothing stops, taken apart. -/
theorem answer_of_unstopped {α : Type} {r : (α × Option Stop) × State} (h : r.1.2 = none) : r = ((r.1.1, none), r.2) := by
  rw [← h]

theorem broadcast_read : broadcastRead.1.2 = none := by decide +kernel

theorem broadcast_placed : broadcastPlaced.1.2 = none := by decide +kernel

/-- Finding the places of the destination leaves its poison where it stands. -/
theorem broadcastPlaced_poison : broadcastPlaced.2.poison = [0x5000] := by decide +kernel

/-- The collective completes, and the unit that it has written whole is poisoned no more (R374). -/
theorem broadcast_clears_poison : poisonAfter (exec (.collectiveComplete 1) poisonedDestination) = some [] := by decide +kernel

/-- What an engine is said to have written leaves the poison of the state in which it found its places. -/
theorem engineWrote_poison {s v t : State} {ps : List (Nat × Nat)} {bs : List Byte} (w : EngineWrote s v t ps bs) : t.poison = v.poison := by
  obtain ⟨-, -, frame⟩ := w
  rw [frame]

/-- Refutes O53, in its clause on a collective of any number of members: it does not ask for a state free of poison, and its frame keeps the
poison as it stood. A broadcast of 32 bytes onto a poisoned unit completes and clears that unit's poison (R374). -/
theorem not_enginesAndCommandsAct : ¬ Obligations.EnginesAndCommandsAct := by
  unfold Obligations.EnginesAndCommandsAct
  rintro ⟨-, -, -, -, members, -⟩
  obtain ⟨t, run, wrote, -⟩ := members poisonedDestination broadcastRead.2 broadcastPlaced.2 soleCollective soleBroadcast [soleBroadcast]
    broadcastRead.1.1 broadcastPlaced.1.1 (by decide +kernel) (by decide +kernel) (by decide +kernel) rfl rfl (by decide +kernel)
    (.refl _) (List.pairwise_singleton _ _) (answer_of_unstopped broadcast_read) (answer_of_unstopped broadcast_placed)
    (by unfold Apart; decide +kernel)
  have kept : t.poison = [0x5000] := (engineWrote_poison wrote).trans broadcastPlaced_poison
  have cleared : some t.poison = some [] := (congrArg poisonAfter run).symm.trans broadcast_clears_poison
  rw [kept] at cleared
  exact absurd cleared (by decide)

end Sys2Proof.Laws

/-!
PROOF. Uncounted loops (01 section 1.7, 08 section 8.5): what opens a loop, ends a strip, goes on or exits, and where a held store is performed.
-/

namespace Sys2Proof.Laws

open Sys2Proof.Machine Sys2Proof.Safety

/-! ## Opening a loop, branching on a mask (R193, R197) -/

theorem exec_uloop (h : BitVec 2) (s : State) : exec (.uloop h) s = execUloop h s := rfl

theorem exec_vbx (k : KReg) (c : BitVec 2) (n : Bool) (off : BitVec 15) (s : State) :
    exec (.vbx k c n off) s = execVbx k c n off s := rfl

theorem exec_ubrk (k : KReg) (off : BitVec 15) (s : State) : exec (.ubrk k off) s = execUbrk k off s := rfl

theorem exec_ubrkResolve (s : State) : exec .ubrkResolve s = execUbrkResolve s := rfl

/-- A word offset from an address, on integers. -/
theorem target_eq_ofInt (pc : Word) (off : BitVec 15) : target pc off = BitVec.ofInt 64 (pc.toNat + off.toInt * 4) := by
  rw [BitVec.ofInt_add, BitVec.ofInt_mul, BitVec.ofInt_natCast, BitVec.ofNat_toNat, BitVec.setWidth_eq]
  rfl

/-- A word that belongs to no replay and no group falls through, whatever `ubrk`s are unresolved. -/
theorem retired_ordinary {s : State} (noReplay : s.thr.replaying = false) (noGroup : s.thr.rpt = none) :
    s.retired = Moved s { s.thr.arch with trip := Fallen s.trip } := by
  simp only [State.retired, noReplay, noGroup, Bool.false_eq_true, if_false, fall_eq]
  rfl

/-- A control-thread body that is done and falls through, of such a word. -/
theorem fallsThrough_of_done {i : Instr} {s u : State} (noReplay : u.thr.replaying = false) (noGroup : u.thr.rpt = none)
    (h : exec i s = runControl s (.done .fall u)) : FallsThrough i s u :=
  h.trans (congrArg _ (retired_ordinary noReplay noGroup))

/-- Whether the condition of a `vbx` holds of the number of set bits of its mask among `n` (Table 8.7). -/
def VbxHolds (c : BitVec 2) (set n : Nat) : Prop :=
  match c.toNat with
  | 0 => 0 < set
  | 1 => set = 0
  | 2 => set = n
  | _ => set < n

theorem vbxTaken_iff (c : BitVec 2) (set n : Nat) : vbxTaken c set n = true ↔ VbxHolds c set n := by
  have codes : c = 0#2 ∨ c = 1#2 ∨ c = 2#2 ∨ c = 3#2 := by revert c; decide
  rcases codes with rfl | rfl | rfl | rfl <;> exact decide_eq_true_iff

theorem uloop_opens {s : State} (p : Plain s) (h : BitVec 2) :
    FallsThrough (.uloop h) s { s with thr := { s.thr with loop := some { horizon := h, next := 0#32 } } } :=
  fallsThrough_of_done p.noReplay p.noGroup (by rw [exec_uloop, execUloop, whenResolved_plain p]; rfl)

theorem vbx_completes {s : State} (p : Plain s) (k : KReg) (c : BitVec 2) (n : Bool) (off : BitVec 15) :
    exec (.vbx k c n off) s = .next (s.completed
      (if vbxTaken c (s.maskSetAt k 0).length s.ucr.elems then .taken (target s.trip.pc off) else .notTaken n)) := by
  rw [exec_vbx, execVbx, whenResolved_plain p, runControl_done]

theorem vbx_taken {s : State} (p : Plain s) {k : KReg} {c : BitVec 2} (n : Bool) (off : BitVec 15)
    (h : VbxHolds c (s.maskSetAt k 0).length s.ucr.elems) :
    OnlyMoves (.vbx k c n off) s (Safety.Taken s.trip (BitVec.ofInt 64 (s.trip.pc.toNat + off.toInt * 4))) := by
  unfold OnlyMoves
  rw [vbx_completes p, if_pos ((vbxTaken_iff ..).mpr h), completed_taken, target_eq_ofInt]

theorem vbx_notTaken {s : State} (p : Plain s) {k : KReg} {c : BitVec 2} (n : Bool) (off : BitVec 15)
    (h : ¬VbxHolds c (s.maskSetAt k 0).length s.ucr.elems) :
    OnlyMoves (.vbx k c n off) s (Safety.NotTaken s.trip n) := by
  unfold OnlyMoves
  rw [vbx_completes p, if_neg fun taken => h ((vbxTaken_iff ..).mp taken), completed_notTaken]

/-! ## The end of a strip (R194) -/

theorem ubrk_outside_loop {s : State} (p : Plain s) (k : KReg) (off : BitVec 15) (h : s.thr.loop = none) :
    TrapsHere (.ubrk k off) s s ⟨Cause.vstate, 3#8, wordValue (.ubrk k off)⟩ := by
  unfold TrapsHere
  rw [exec_ubrk, execUbrk, h]
  exact runControl_trap p.resolved _

/-- In an open loop a `ubrk` notes its checkpoint behind the older ones and falls through. -/
theorem ubrk_ends_strip {s : State} (k : KReg) (off : BitVec 15) {l : ULoop} (noReplay : s.thr.replaying = false)
    (noGroup : s.thr.rpt = none) (h : s.thr.loop = some l) :
    FallsThrough (.ubrk k off) s { s with thr := { s.thr with
      loop := some { l with next := l.next + 1#32 }
      unres := s.thr.unres ++ [s.checkpoint k (target s.trip.pc off) l.next] } } :=
  fallsThrough_of_done noReplay noGroup (by rw [exec_ubrk, execUbrk, h]; rfl)

/-! ## A resolution (R37, R195) -/

/-- A `ubrk` does not resolve while posted instructions ahead of it have not retired. -/
theorem ubrkResolve_older {s : State} {u : Unresolved} {us : List Unresolved} (h : s.thr.unres = u :: us) (older : u.older ≠ 0) :
    exec .ubrkResolve s = .next s := by
  simp only [exec_ubrkResolve, execUbrkResolve, h, if_pos older]

theorem ubrkResolve_goesOn {s : State} {u : Unresolved} {us : List Unresolved} (h : s.thr.unres = u :: us) (older : u.older = 0)
    (hit : u.hit = none) : exec .ubrkResolve s = .next (s.goOn u us) := by
  simp only [exec_ubrkResolve, execUbrkResolve, h, hit, if_neg (fun n : u.older ≠ 0 => n older)]

theorem ubrkResolve_exits {s : State} {u : Unresolved} {us : List Unresolved} {e : Nat} (h : s.thr.unres = u :: us) (older : u.older = 0)
    (hit : u.hit = some e) : exec .ubrkResolve s = .next (s.exitLoop u e) := by
  simp only [exec_ubrkResolve, execUbrkResolve, h, hit, if_neg (fun n : u.older ≠ 0 => n older)]

/-- A mark that the last unresolved `ubrk` drops. -/
theorem and_not_isEmpty (b : Bool) (us : List Unresolved) : (b && !us.isEmpty) = if us = [] then false else b := by
  cases us <;> simp

/-- Cells of a canonical list written over a map: the list's value where it has one, the map's elsewhere. -/
theorem get_foldl_put {α : Type} [DecidableEq α] {d : α} {cs : Sparse α} {lo : Nat} (w : Sparse.wfFrom d lo cs = true) (m : Sparse α)
    (a : Nat) : Sparse.get d (cs.foldl (fun m c => Sparse.put d m c.1 c.2) m) a =
      if Sparse.get d cs a = d then Sparse.get d m a else Sparse.get d cs a := by
  induction cs generalizing m lo with
  | nil => exact (if_pos rfl).symm
  | cons c cs ih =>
    obtain ⟨k, v⟩ := c
    obtain ⟨⟨-, nonzero⟩, w⟩ := wfFrom_cons.mp w
    rw [List.foldl_cons, ih w, get_put, Sparse.get]
    by_cases here : k = a
    · subst here
      rw [if_pos (get_eq_default w (Nat.lt_succ_self k)), if_pos rfl, if_pos rfl, if_neg nonzero]
    · rw [if_neg (Ne.symm here), if_neg here]

/-- A checkpoint given back: the strand's own vector side holds the checkpoint's bytes, every other byte stands (R38). -/
theorem byte_restoreVector (s : State) {u : Unresolved} (w : Memory.wf u.cells = true) (a : Nat) :
    (s.restoreVector u).byte a = if s.ownVector a = true then Sparse.get memDefault u.cells a else s.byte a := by
  unfold State.byte State.restoreVector
  rw [get_foldl_put (wf_filter w), get_filter, get_filter memDefault fun k => !s.ownVector k]
  cases s.ownVector a
  · rfl
  · by_cases unlisted : Sparse.get memDefault u.cells a = memDefault <;> simp [unlisted]

theorem maskReg_setMask (s : State) (k j : KReg) (p : Nat → Bool) : (s.setMask k p).maskReg j =
    if j = k then { form := .explicit ((List.range s.ucr.elems).filter p), tags := Vector.replicate 128 s.thr.genM, bad := [] }
    else s.maskReg j := by
  show (s.thr.arch.mask.set k.toNat _ k.isLt).get j.toFin = _
  rw [get_set]
  by_cases same : j = k
  · subst same; exact (if_pos rfl).trans (if_pos rfl).symm
  · rw [if_neg same, if_neg fun c => same (BitVec.eq_of_toNat_eq c.symm)]; rfl

theorem byte_exitLoop (s : State) {u : Unresolved} (e : Nat) (w : Memory.wf u.cells = true) (a : Nat) :
    (s.exitLoop u e).byte a = if s.ownVector a = true then Sparse.get memDefault u.cells a else s.byte a :=
  byte_restoreVector s w a

/-! ## A held store is performed (R34, R37) -/

theorem byte_writeTagged_inside (s : State) {pa : Nat} {bs : List Byte} (gen : Gen) {a : Nat} (lo : pa ≤ a) (hi : a < pa + bs.length) :
    (s.writeTagged pa bs gen).byte a = bs.getD (a - pa) 0#8 := by
  unfold State.writeTagged
  rw [if_neg (List.ne_nil_of_length_pos (by omega)), byte_putBytes, if_pos ⟨lo, hi⟩]

/-- The strand's store to its own tagged storage: a tagged write, which may be late. -/
theorem perform_window {s : State} {pa core off : Nat} (place : s.region pa = .window core off) (own : s.owns core off = true) (w : Way)
    (bs : List Byte) : ∃ late, s.perform w pa bs = { s.writeTagged pa bs (s.thr.genAt off) with late := late } := by
  simp only [State.perform, place, own, if_true]
  by_cases vector : off < 0x100000
  · exact ⟨_, by rw [if_pos vector]⟩
  · exact ⟨_, by rw [if_neg vector]; rfl⟩

/-- A store outside the windows: its bytes are put where they stand, and may be late. -/
theorem perform_plain {s : State} {pa : Nat} (place : ∀ core off, s.region pa ≠ .window core off) (w : Way) (bs : List Byte) :
    ∃ late, s.perform w pa bs = { s.putBytes pa bs with late := late } := by
  unfold State.perform
  split
  · exact absurd ‹_› (place _ _)
  · exact ⟨_, rfl⟩

theorem perform_thr (s : State) (w : Way) (pa : Nat) (bs : List Byte) : (s.perform w pa bs).thr = s.thr := by
  by_cases window : ∃ core off, s.region pa = .window core off
  · obtain ⟨core, off, place⟩ := window
    by_cases own : s.owns core off = true
    · obtain ⟨late, e⟩ := perform_window place own w bs
      rw [e, writeTagged_rest]
    · simp only [State.perform, place, if_neg own]
  · obtain ⟨late, e⟩ := perform_plain (fun core off place => window ⟨core, off, place⟩) w bs
    rw [e, putBytes_rest]

/-- A store that the strand may perform leaves its bytes at its place. -/
theorem byte_perform {s : State} {pa : Nat} {bs : List Byte} (own : ∀ core off, s.region pa = .window core off → s.owns core off = true)
    (w : Way) {a : Nat} (lo : pa ≤ a) (hi : a < pa + bs.length) : (s.perform w pa bs).byte a = bs.getD (a - pa) 0#8 := by
  by_cases window : ∃ core off, s.region pa = .window core off
  · obtain ⟨core, off, place⟩ := window
    obtain ⟨late, e⟩ := perform_window place (own _ _ place) w bs
    rw [e]
    exact byte_writeTagged_inside s _ lo hi
  · obtain ⟨late, e⟩ := perform_plain (fun core off place => window ⟨core, off, place⟩) w bs
    rw [e]
    exact (byte_putBytes s pa bs a).trans (if_pos ⟨lo, hi⟩)

/-- What `StoredTo` says of a place outside the windows. -/
theorem storedTo_plain {s t : State} {pa : Nat} {bs : List Byte} (place : ∀ core off, s.region pa ≠ .window core off)
    (tags : ∀ a, t.tag a = s.tag a) (bytes : ∀ a, t.byte a = if pa ≤ a ∧ a < pa + bs.length then bs.getD (a - pa) 0#8 else s.byte a) :
    StoredTo s t pa bs := by
  unfold StoredTo
  split
  · exact absurd ‹_› (place _ _)
  · exact ⟨tags, bytes⟩

/-- A tagged write within one granule stores its bytes there and no other. -/
theorem storedTo_writeTagged {s t : State} {pa core off : Nat} {bs : List Byte} (place : s.region pa = .window core off)
    (own : s.owns core off = true) (stores : bs ≠ []) (one : pa % 64 + bs.length ≤ 64)
    (mem : t.mem = (s.writeTagged pa bs (s.thr.genAt off)).mem) (tags : t.tags = (s.writeTagged pa bs (s.thr.genAt off)).tags) :
    StoredTo s t pa bs := by
  have full : 0 < bs.length := List.length_pos_iff.mpr stores
  have byte : ∀ a, t.byte a = (s.writeTagged pa bs (s.thr.genAt off)).byte a := fun a => by unfold State.byte; rw [mem]
  have tag : ∀ a, t.tag a = (s.writeTagged pa bs (s.thr.genAt off)).tag a := fun a => by unfold State.tag; rw [tags]
  have last : (pa + bs.length - 1) / 64 = pa / 64 := by omega
  simp only [StoredTo, place, storeGen, own, if_true]
  refine ⟨?_, fun a _ => ?_, fun a apart => ?_⟩
  · rw [tag, tag_writeTagged_one s pa bs _ pa full last, if_pos rfl]
  · rw [← seen_writeTagged]
    unfold Seen
    rw [byte, tag]
  · rw [byte, tag]
    exact writeTagged_outside s pa bs _ a (by omega)

theorem storedTo_perform {s : State} {pa : Nat} {bs : List Byte} (own : ∀ core off, s.region pa = .window core off → s.owns core off = true)
    (stores : bs ≠ []) (one : pa % 64 + bs.length ≤ 64) (w : Way) : StoredTo s (s.perform w pa bs) pa bs := by
  by_cases window : ∃ core off, s.region pa = .window core off
  · obtain ⟨core, off, place⟩ := window
    obtain ⟨late, e⟩ := perform_window place (own _ _ place) w bs
    rw [e]
    exact storedTo_writeTagged place (own _ _ place) stores one rfl rfl
  · have plain := fun core off place => window ⟨core, off, place⟩
    obtain ⟨late, e⟩ := perform_plain plain w bs
    rw [e]
    exact storedTo_plain plain (tag_putBytes s pa bs) (byte_putBytes s pa bs)

/-- A younger checkpoint after a held store: patched where the store goes to the strand's own vector side. -/
def patchedPast (s : State) (h : HeldStore) (u : Unresolved) : Unresolved :=
  let off := (h.pa - windowBase) % 0x800000
  if s.vectorSide h.pa && s.owns (coreOf s.cur) off then u.patched s h.pa h.data (s.thr.genAt off) else u

/-- A held store is a store of the strand, and then it stands in the younger checkpoints. -/
theorem performPast_eq (s : State) (h : HeldStore) :
    s.performPast h = (s.perform h.way h.pa h.data).mapThr fun t => { t with unres := s.thr.unres.map (patchedPast s h) } := by
  unfold State.performPast patchedPast
  dsimp only
  split
  · rfl
  · rw [List.map_id']

theorem performPast_thr (s : State) (h : HeldStore) :
    (s.performPast h).thr = { s.thr with unres := s.thr.unres.map (patchedPast s h) } := by
  rw [performPast_eq, mapThr_thr, perform_thr]

/-- A patch changes what a checkpoint holds of storage, and that only for a store to the strand's vector side. -/
theorem patchedPast_rest (s : State) (h : HeldStore) (u : Unresolved) :
    patchedPast s h u = { u with cells := (patchedPast s h u).cells, tags := (patchedPast s h u).tags, bad := (patchedPast s h u).bad } := by
  unfold patchedPast
  dsimp only
  split <;> rfl

theorem patchedPast_of_not_vectorSide {s : State} {h : HeldStore} (away : s.vectorSide h.pa = false) (u : Unresolved) :
    patchedPast s h u = u := by
  simp [patchedPast, away]

/-- The offset of a window place is its distance from the windows' base. -/
theorem offset_of_window {s : State} {pa core off : Nat} (place : s.region pa = .window core off) :
    (pa - windowBase) % 0x800000 = off := by
  unfold State.region at place
  dsimp only at place
  repeat' split at place
  all_goals cases place
  rfl

/-- The patched checkpoint has the stored bytes at the store's place. -/
theorem get_patchedPast {s : State} {h : HeldStore} {off : Nat} (side : s.vectorSide h.pa = true)
    (place : s.region h.pa = .window (coreOf s.cur) off) (own : s.owns (coreOf s.cur) off = true) (u : Unresolved) {a : Nat}
    (lo : h.pa ≤ a) (hi : a < h.pa + h.data.length) : Sparse.get memDefault (patchedPast s h u).cells a = h.data.getD (a - h.pa) 0#8 := by
  have patched : patchedPast s h u = u.patched s h.pa h.data (s.thr.genAt off) := by
    simp [patchedPast, offset_of_window place, side, own]
  rw [patched]
  exact byte_writeTagged_inside { s with mem := u.cells, tags := u.tags, poison := u.bad } _ lo hi

/-- Settles O37, clause by clause: each instruction's own lemma, and for a held store what it leaves in memory and in the checkpoints. -/
theorem loopInstructionsOpenAndCloseStrips : Obligations.LoopInstructionsOpenAndCloseStrips := by
  unfold Obligations.LoopInstructionsOpenAndCloseStrips
  refine ⟨fun s h c k n off p => ?branches, fun s k off l noReplay noGroup loop => ?strip, fun s u us unres => ?resolution,
    fun s h hs last => ?order, fun s h own stores one _ => ?held⟩
  case branches =>
    exact ⟨uloop_opens p h, vbx_taken p n off, vbx_notTaken p n off, ubrk_outside_loop p k off⟩
  case strip =>
    exact ⟨s.checkpoint k (target s.trip.pc off) l.next, rfl, rfl, rfl, rfl, target_eq_ofInt _ _, rfl,
      ubrk_ends_strip k off noReplay noGroup loop⟩
  case resolution =>
    refine ⟨ubrkResolve_older unres, fun older hit => ?_, fun e older hit => ?_⟩
    · rw [ubrkResolve_goesOn unres older hit, State.goOn]
      simp only [and_not_isEmpty]
      rfl
    · refine ⟨s.exitLoop u e, ubrkResolve_exits unres older hit, rfl, rfl, rfl, rfl, rfl, rfl, rfl, rfl, ?_, fun k other => ?_,
        rfl, rfl, rfl, fun _ cells a => byte_exitLoop s e cells a⟩
      · exact (maskReg_setMask _ _ _ _).trans (if_pos rfl)
      · exact (maskReg_setMask _ _ _ _).trans (if_neg other)
  case order =>
    refine ⟨rfl, ?_⟩
    have same : (last = h.way.inst ∧ last ≠ 0) = (last = h.way.inst ∧ h.way.inst ≠ 0) := by
      apply propext
      constructor <;> rintro ⟨rfl, n⟩ <;> exact ⟨rfl, n⟩
    simp only [performHeld, same]
  case held =>
    have bytes : ∀ a, (s.performPast h).byte a = (s.perform h.way h.pa h.data).byte a := fun a => by rw [performPast_eq]; rfl
    refine ⟨by rw [performPast_eq]; exact storedTo_perform own stores one h.way, by rw [performPast_thr],
      by rw [performPast_thr]; exact List.length_map _, fun i u at_ => ?_⟩
    refine ⟨patchedPast s h u, by rw [performPast_thr, List.getElem?_map, at_]; rfl, patchedPast_rest s h u,
      fun away => patchedPast_of_not_vectorSide away u, fun off side place _ a lo hi => ?_⟩
    rw [get_patchedPast side place (own _ _ place) u lo hi, bytes, byte_perform own h.way lo hi]

end Sys2Proof.Laws

/-!
PROOF. Forks and joins under generation 0 (01 section 1.5, 20). A granule that nothing has written carries tag 0, and the state lists no such
tag. A strand whose vector generation is 0 therefore counts unwritten storage as its live elements, and a fork or a join restamps only what is
listed. No allocation gives generation 0 (R342), but `ForksSplitTheRows` and `JoinsReturnTheRows` speak of every state and do not ask that the
strand's generation be another.
-/

namespace Sys2Proof.Laws

open Sys2Proof.Machine Sys2Proof.Safety

/-- The shape 16 by `rows` at e32, with which every row fills one granule. -/
def rowsOfSixteen (rows : BitVec 9) : Arch := { Arch.reset with ucr := { UserCR.atBinding 0#4 0#2 with vlen := 16#9, vrows := rows } }

/-- The tag of a place, and the vector generation that a slot's strand has, in the state that an outcome goes on to. -/
def tagAndGen (pa key : Nat) : Out → Option (Gen × Gen)
  | .next t => some (t.tag pa, (t.getThr key).genV)
  | .fault _ => none
  | .refused _ => none

/-! ## A fork -/

/-- A strand of two rows and generation 0 under a bind record that permits forks in slot 3, in storage that nothing has written. -/
def forkerOfGeneration0 : State :=
  { State.reset with
    thr := { Thread.reset with bound := true, arch := rowsOfSixteen 2#9 }
    binds := [(0, #v[0#64, 0#64, 0x200800#64, 0#64, 0#64, 0#64, 0#64, 0#64])] }

theorem forkerOfGeneration0_plain : Plain forkerOfGeneration0 := ⟨rfl, rfl, rfl, rfl⟩

theorem forkerOfGeneration0_readable : Readable forkerOfGeneration0 2#5 := ⟨.inl rfl, by decide +kernel⟩

/-- The second row of register 0 keeps tag 0 at a fork, and the child has generation 1. -/
theorem fork_leaves_unwritten_row :
    tagAndGen (elemAt forkerOfGeneration0 0#6 16) 3 (exec (.lfork 1#5 2#5) forkerOfGeneration0) = some (0#16, 1#16) := by decide +kernel

/-- Refutes O35, in its clause on the child's live elements: an element of generation 0 in storage that nothing has written is live, and the
fork does not stamp it with the child's generation. -/
theorem not_forksSplitTheRows : ¬ Obligations.ForksSplitTheRows := by
  unfold Obligations.ForksSplitTheRows
  intro h
  obtain ⟨t, run, -, -, -, -, -, -, -, -, -, -, -, -, -, -, -, -, -, -, -, -, -, vectors⟩ :=
    (h forkerOfGeneration0 1#5 2#5 forkerOfGeneration0_plain rfl forkerOfGeneration0_readable).1 (by decide +kernel) 3 (by decide +kernel)
      (by decide +kernel) (by decide +kernel) (by decide +kernel)
  obtain ⟨child, -⟩ := vectors ⟨by decide +kernel, by decide +kernel⟩ rfl rfl (by decide +kernel) 0#6 (by decide +kernel)
  have stamped : t.tag (elemAt forkerOfGeneration0 0#6 16) = (t.getThr 3).genV := (child 0 (by decide +kernel) (by decide +kernel)).2
  have kept := fork_leaves_unwritten_row
  rw [run, tagAndGen, stamped, Option.some.injEq, Prod.mk.injEq] at kept
  exact absurd (kept.1.symm.trans kept.2) (by decide)

/-! ## A join -/

/-- The parent's record of the child in slot 0, to which it gave the second of two rows. -/
def forkOfSlot0 : ForkRec :=
  { child := 0, vlen := 16#9, vrows := 2#9, vsew := 2#2, qrows := 2#64, qlen := 16#64, ended := false, returned := false }

/-- A child of one row and generation 0 in slot 0, in storage that nothing has written; its parent stands in slot 1 and has generation 1. -/
def joinerOfGeneration0 : State :=
  { State.reset with
    thr := { Thread.reset with bound := true, arch := rowsOfSixteen 1#9, roff := 64, parent := some 1 }
    others := [(1, { Thread.reset with bound := true, genV := 1#16, arch := rowsOfSixteen 1#9, forks := [forkOfSlot0] })] }

theorem joinerOfGeneration0_plain : Plain joinerOfGeneration0 := ⟨rfl, rfl, rfl, rfl⟩

/-- The child's row of register 0 keeps tag 0 at its join, and the parent has generation 1. -/
theorem join_leaves_unwritten_row :
    tagAndGen (elemAt joinerOfGeneration0 0#6 0) 1 (exec .ljoin joinerOfGeneration0) = some (0#16, 1#16) := by decide +kernel

/-- Refutes O36, in its clause on the elements that a child returns: an element of generation 0 in storage that nothing has written is live,
and the join does not stamp it with the parent's generation. -/
theorem not_joinsReturnTheRows : ¬ Obligations.JoinsReturnTheRows := by
  unfold Obligations.JoinsReturnTheRows
  rintro ⟨joins, -⟩
  obtain ⟨-, -, child⟩ := (joins joinerOfGeneration0 joinerOfGeneration0_plain).2 (by decide +kernel)
  obtain ⟨t, run, -, -, -, -, -, returns⟩ := child 1 rfl (by decide +kernel) (by decide +kernel)
  obtain ⟨-, -, vectors⟩ := returns forkOfSlot0 rfl rfl rfl rfl
  obtain ⟨live, -⟩ := vectors ⟨by decide +kernel, by decide +kernel⟩ rfl rfl (by decide +kernel)
  have stamped : t.tag (elemAt joinerOfGeneration0 0#6 0) = 1#16 := live 0#6 (by decide +kernel) 0 (by decide +kernel) (by decide +kernel)
  have kept := join_leaves_unwritten_row
  rw [run, tagAndGen, stamped, Option.some.injEq, Prod.mk.injEq] at kept
  exact absurd kept.1 (by decide)

end Sys2Proof.Laws

/-!
PROOF. Barriers (02 section 2.5, 10 section 10.6): what `bset` binds, what an arrival counts, and when `bwait` goes on.
-/

namespace Sys2Proof.Laws

open Sys2Proof.Machine Sys2Proof.Safety

/-! ## Outcomes of a control-thread instruction -/

/-- A body that traps, of an ordinary word. -/
theorem trapsHere_of_body {i : Instr} {s u : State} {t : Trap} (resolved : u.thr.unres = []) (h : exec i s = runControl s (.trap t u)) :
    TrapsHere i s u t := h.trans (runControl_trap resolved t)

theorem waits_of_body {i : Instr} {s u : State} (h : exec i s = runControl s (.wait u)) : Waits i s u := h

/-! ## Reading the operands (R54, R247) -/

theorem groupId_done {x : Word} (h : x.toNat < 256) (i : Instr) (s : State) : groupId i x s = .done x.toNat s := if_pos h

theorem groupId_trap {x : Word} (h : 256 ≤ x.toNat) (i : Instr) (s : State) : groupId i x s = wordTrap Cause.shape 0#8 i s :=
  if_neg (Nat.not_lt.mpr h)

/-- A barrier register is bound just where it was written under the strand's generation. -/
theorem bregBound_iff (s : State) (b : BReg) : s.bregBound b = true ↔ (s.breg b).bound = true ∧ (s.breg b).tag = s.thr.genS := by
  rw [State.bregBound, Bool.and_eq_true, beq_iff_eq]

theorem readBreg_done {s : State} {b : BReg} (bound : s.bregBound b = true) (clean : (s.breg b).bad = false)
    (i : Instr) : readBreg i b s = .done (s.breg b) s := by
  simp [readBreg, bound, clean]

theorem readBreg_unbound {s : State} {b : BReg} (unbound : s.bregBound b = false) (i : Instr) :
    readBreg i b s = wordTrap Cause.vstate 2#8 i s := by
  simp [readBreg, unbound]

/-! ## `bset` (R244) -/

theorem bset_binds {s : State} (p : Plain s) (b : BReg) {ra : SReg} (r : Readable s ra) (id : (s.reg ra).toNat < 256)
    (member : s.isMember (s.reg ra).toNat = true) :
    FallsThrough (.bset b ra) s (s.setBreg b
      { bound := true, group := BitVec.ofNat 8 (s.reg ra).toNat, target := (s.barrier (s.reg ra).toNat b.toNat).phi, tag := s.thr.genS
        bad := false }) := by
  refine fallsThrough_of_done p.noReplay p.noGroup ?_
  show execBset b ra s = _
  rw [execBset, readReg_done r, andThen_done, groupId_done id, andThen_done, if_pos member]

theorem bset_refuses {s : State} (p : Plain s) (b : BReg) {ra : SReg} (r : Readable s ra)
    (h : 256 ≤ (s.reg ra).toNat ∨ s.isMember (s.reg ra).toNat = false) :
    TrapsHere (.bset b ra) s s ⟨Cause.shape, 0#8, wordValue (.bset b ra)⟩ := by
  refine trapsHere_of_body p.resolved ?_
  show execBset b ra s = _
  rw [execBset, readReg_done r, andThen_done]
  by_cases id : (s.reg ra).toNat < 256
  · have stranger := h.resolve_left (Nat.not_le.mpr id)
    rw [groupId_done id, andThen_done, if_neg (by rw [stranger]; decide)]
    rfl
  · rw [groupId_trap (Nat.le_of_not_lt id)]
    rfl

/-! ## `arrive` (R245) -/

/-- One arrival for the current phase or for the next, and the turn of the phase with the last. -/
theorem barrier_arrive_eq (x : Barrier) (target n : Nat) : x.arrive target n =
    (let cur := if target = x.phi then x.cur + 1 else x.cur
     let nxt := if target = x.phi then x.nxt else x.nxt + 1
     if cur = n then { x with phi := x.phi + 1, cur := nxt, nxt := 0 } else { x with cur := cur, nxt := nxt }) := by
  unfold Barrier.arrive
  by_cases now : target = x.phi <;> simp only [now, if_true, if_false]

theorem arrive_counts {s : State} (p : Plain s) (rd : SReg) {b : BReg} (bound : s.bregBound b = true)
    (clean : (s.breg b).bad = false) (near : (s.breg b).target ≠ (s.barrier (s.breg b).group.toNat b.toNat).phi + 2) :
    FallsThrough (.arrive rd b) s
      ((((s.release [.scalar, .vector] (s.groupScope (s.breg b).group.toNat)).setBarrier
        ((s.barrier (s.breg b).group.toNat b.toNat).arrive (s.breg b).target (s.members (s.breg b).group.toNat).length)).setBreg b
          { s.breg b with target := (s.breg b).target + 1 }).setReg rd (BitVec.ofNat 64 ((s.breg b).target % 2))) := by
  refine fallsThrough_of_done ?_ ?_ ?_
  · rw [setReg_rest]; exact p.noReplay
  · rw [setReg_rest]; exact p.noGroup
  · show execArrive rd b s = _
    rw [execArrive, whenResolved_plain p, readBreg_done bound clean, andThen_done]
    simp only [if_neg near]
    rfl

theorem arrive_waits {s : State} (p : Plain s) (rd : SReg) {b : BReg} (bound : s.bregBound b = true)
    (clean : (s.breg b).bad = false) (far : (s.breg b).target = (s.barrier (s.breg b).group.toNat b.toNat).phi + 2) :
    Waits (.arrive rd b) s s := by
  refine waits_of_body ?_
  show execArrive rd b s = _
  rw [execArrive, whenResolved_plain p, readBreg_done bound clean, andThen_done]
  simp only [if_pos far]

theorem arrive_unbound {s : State} (p : Plain s) (rd : SReg) {b : BReg}
    (unbound : s.bregBound b = false) :
    TrapsHere (.arrive rd b) s s ⟨Cause.vstate, 2#8, wordValue (.arrive rd b)⟩ := by
  refine trapsHere_of_body p.resolved ?_
  show execArrive rd b s = _
  rw [execArrive, whenResolved_plain p, readBreg_unbound unbound]
  rfl

/-! ## `bwait` (R246) -/

theorem bwait_goesOn {s : State} (p : Plain s) {b : BReg} {rb : SReg} (r : Readable s rb)
    (bound : s.bregBound b = true) (clean : (s.breg b).bad = false)
    (turned : (s.barrier (s.breg b).group.toNat b.toNat).phi % 2 ≠ (s.reg rb).toNat % 2) : FallsThrough (.bwait b rb) s s.acquireBoth := by
  refine fallsThrough_of_done p.noReplay p.noGroup ?_
  show execBwait b rb s = _
  rw [execBwait, readReg_done r, andThen_done, readBreg_done bound clean, andThen_done, if_neg turned]

theorem bwait_waits {s : State} {b : BReg} {rb : SReg} (r : Readable s rb)
    (bound : s.bregBound b = true) (clean : (s.breg b).bad = false)
    (same : (s.barrier (s.breg b).group.toNat b.toNat).phi % 2 = (s.reg rb).toNat % 2) : Waits (.bwait b rb) s s := by
  refine waits_of_body ?_
  show execBwait b rb s = _
  rw [execBwait, readReg_done r, andThen_done, readBreg_done bound clean, andThen_done, if_pos same]

theorem bwait_unbound {s : State} (p : Plain s) {b : BReg} {rb : SReg} (r : Readable s rb)
    (unbound : s.bregBound b = false) :
    TrapsHere (.bwait b rb) s s ⟨Cause.vstate, 2#8, wordValue (.bwait b rb)⟩ := by
  refine trapsHere_of_body p.resolved ?_
  show execBwait b rb s = _
  rw [execBwait, readReg_done r, andThen_done, readBreg_unbound unbound]
  rfl

/-- Settles O34, instruction by instruction. -/
theorem barriersCountArrivals : Obligations.BarriersCountArrivals := by
  unfold Obligations.BarriersCountArrivals
  refine ⟨fun s b ra p r => ⟨bset_binds p b r, bset_refuses p b r⟩, fun s rd rb b p r => ?_⟩
  intro reg x n cur nxt y bound
  have boundIff : s.bregBound b = true ↔ bound := bregBound_iff s b
  refine ⟨fun h clean near => ?_, fun h clean far => ?_, fun h clean => ?_, fun h => ?_⟩
  · have counted := arrive_counts p rd (boundIff.mpr h) clean near
    rw [barrier_arrive_eq] at counted
    exact counted
  · exact arrive_waits p rd (boundIff.mpr h) clean far
  · exact ⟨bwait_goesOn p r (boundIff.mpr h) clean, bwait_waits r (boundIff.mpr h) clean⟩
  · have unbound := eq_false_of_ne_true fun c => h (boundIff.mp c)
    rw [List.forall_mem_cons, List.forall_mem_singleton]
    exact ⟨arrive_unbound p rd unbound, bwait_unbound p r unbound⟩

end Sys2Proof.Laws

/-!
PROOF. Traps (06 section 6.10, 17 section 17.1): which handler a trap enters, with which frame, and what the end of a strand leaves.
-/

namespace Sys2Proof.Laws

open Sys2Proof.Machine Sys2Proof.Safety

/-! ## Which handlers are valid, which causes are the user's (R60, R287, Table 17.5) -/

/-- Bits 1:0 of a word are zero just where it is a multiple of 4. -/
theorem low2_beq_zero_iff {w : Nat} (x : BitVec w) : (x.extractLsb' 0 2 == 0#2) = true ↔ x.toNat % 4 = 0 := by
  rw [beq_iff_eq, ← BitVec.toNat_inj, BitVec.extractLsb'_toNat]
  rfl

theorem userHandlerValid_iff (u : UserCR) : u.handlerValid = true ↔ u.utvec ≠ 0#56 ∧ u.utvec.toNat % 4 = 0 := by
  rw [UserCR.handlerValid, Bool.and_eq_true, bne_iff_ne, low2_beq_zero_iff]

theorem systemHandlerValid_iff (c : SysCR) : c.handlerValid = true ↔ c.stvec ≠ 0#64 ∧ c.stvec.toNat % 4 = 0 := by
  rw [SysCR.handlerValid, Bool.and_eq_true, bne_iff_ne, low2_beq_zero_iff]

theorem isUser_iff (c : BitVec 8) : Cause.isUser c = true ↔ c ∈ [7#8, 8#8, 14#8, 15#8] := by
  simp [Cause.isUser, Cause.gentrap, Cause.promise, Cause.brk, Cause.trap, or_assoc]

theorem userDelivers_iff (s : State) (t : Trap) (inGroup : Bool) : s.userDelivers t inGroup = true ↔
    (t.cause ∈ [7#8, 8#8, 14#8, 15#8] ∧ s.thr.level = false ∧ s.thr.handler = false ∧ s.ucr.utvec ≠ 0#56 ∧ s.ucr.utvec.toNat % 4 = 0) ∧
      inGroup = false := by
  simp only [State.userDelivers, Bool.and_eq_true, isUser_iff, userHandlerValid_iff, Bool.not_eq_true']
  constructor
  · rintro ⟨⟨⟨⟨cause, level⟩, valid⟩, handler⟩, group⟩
    exact ⟨⟨cause, level, handler, valid⟩, group⟩
  · rintro ⟨⟨cause, level, handler, valid⟩, group⟩
    exact ⟨⟨⟨⟨cause, level⟩, valid⟩, handler⟩, group⟩

/-! ## The frame of a stop (R151, R287) -/

theorem frameAt_outside {t : Thread} (noGroup : t.rpt = none) (noResume : t.rptResume = none) : t.frameAt = (t.arch.trip, 0#11, false) := by
  rw [Thread.frameAt, noGroup, noResume]

theorem frameAt_group {t : Thread} {g : RptGroup} (group : t.rpt = some g) : t.frameAt = (g.start, srptOf g.pass g.word, true) := by
  rw [Thread.frameAt, group]

/-- A frame is taken outside every group just where none runs and none is yet to be resumed. -/
theorem frameAt_inGroup_iff (t : Thread) : t.frameAt.2.2 = false ↔ t.rpt = none ∧ t.rptResume = none := by
  unfold Thread.frameAt
  split <;> simp [*]

/-- SRPT of a pass and a word (Table 17.4). -/
theorem srptOf_toNat {pass word : Nat} (hp : pass < 64) (hw : word < 16) : (srptOf pass word).toNat = 1024 + 16 * pass + word := by
  simp only [srptOf, BitVec.toNat_append, BitVec.toNat_ofNat]
  rw [Nat.mod_eq_of_lt hw, Nat.mod_eq_of_lt hp, ← Nat.shiftLeft_add_eq_or_of_lt hw, ← Nat.shiftLeft_add_eq_or_of_lt hp]
  simp only [Nat.shiftLeft_eq]
  omega

/-! ## The handlers entered (R154, R287) -/

theorem enterUser_eq (s : State) (f : Triple) (t : Trap) : s.enterUser f t = inUserHandler s f t.cause t.value := rfl

theorem enterSystem_eq (s : State) (f : Triple) (t : Trap) (sxpc : Word) (srpt : BitVec 11) :
    s.enterSystem f t sxpc srpt = inSystemHandler s f t sxpc srpt := by
  simp only [State.enterSystem, inSystemHandler, isUser_iff]
  rfl

/-! ## The end of the stepping strand (R288, R331) -/

theorem setThr_cur (s : State) (t : Thread) : s.setThr s.cur t = { s with thr := t } := if_pos rfl

/-- A slot's content replaced: nothing but the slots differs. -/
theorem setThr_rest (s : State) (k : Nat) (t : Thread) : ∃ thr others, s.setThr k t = { s with thr := thr, others := others } := by
  unfold State.setThr
  split
  · exact ⟨t, s.others, rfl⟩
  · exact ⟨s.thr, _, rfl⟩

/-- The slot of the stepping strand given up: fallow, its registers as they stood, its monitor entries freed; memory, tags and launches stand. -/
theorem freeSlot_cur (s : State) : ∃ others, s.freeSlot s.cur =
    { s with thr := s.thr.freed, others := others, monitors := s.monitors.filter fun m => m.key ≠ s.cur } := by
  have own : s.getThr s.cur = s.thr := if_pos rfl
  unfold State.freeSlot
  dsimp only
  rw [own]
  split
  · rename_i parent _
    obtain ⟨thr, others, told⟩ := setThr_rest
      { s with monitors := s.monitors.filter fun m => m.key ≠ s.cur, thr := s.thr.orphan s.cur,
               others := s.others.map fun q : Nat × Thread => (q.1, q.2.orphan s.cur) } parent _
    rw [told]
    exact ⟨others, setThr_cur _ _⟩
  · exact ⟨_, if_pos rfl⟩

theorem strandDone_eq (l : Launch) (index : Nat) (err : Option (BitVec 8 × BitVec 8)) (parent : Option Nat) :
    l.strandDone index err parent.isNone =
      { l with
        finished := if parent = none then l.finished + 1 else l.finished
        ended := if err = none then l.ended else l.ended + 1
        err := match l.err, err with
          | none, some (c, d) => some (index, c, d)
          | e, _ => e } := by
  cases parent <;> cases err <;> rfl

theorem endStrand_cur_ended (s : State) (err : Option (BitVec 8 × BitVec 8)) : Ended s (s.endStrand s.cur err) err := by
  obtain ⟨others, freed⟩ := freeSlot_cur s
  have own : s.getThr s.cur = s.thr := if_pos rfl
  unfold State.endStrand
  rw [own, freed]
  refine ⟨rfl, rfl, fun a => ⟨rfl, rfl⟩, rfl, fun r => rfl, ?_⟩
  exact List.map_congr_left fun l _ =>
    congrArg (fun x => if l.id = s.thr.launch then x else l) (strandDone_eq l s.thr.index err s.thr.parent)

/-! ## A delivery (R286 to R288) -/

theorem deliver_doubleTrap {s : State} (sta : s.thr.sys.sta = true) (f : Triple) (t : Trap) (sxpc : Word) (srpt : BitVec 11) (inGroup : Bool) :
    s.deliver f t sxpc srpt inGroup = s.endStrand s.cur (some (t.cause, t.detail)) := if_pos sta

theorem deliver_user {s : State} (sta : s.thr.sys.sta = false) {t : Trap} {inGroup : Bool} (user : s.userDelivers t inGroup = true)
    (f : Triple) (sxpc : Word) (srpt : BitVec 11) :
    s.deliver f t sxpc srpt inGroup = inUserHandler s f t.cause t.value := by
  simp only [State.deliver, sta, user, Bool.false_eq_true, if_false, if_true, enterUser_eq]

theorem deliver_system {s : State} (sta : s.thr.sys.sta = false) {t : Trap} {inGroup : Bool} (user : s.userDelivers t inGroup = false)
    (system : s.thr.sys.handlerValid = true) (f : Triple) (sxpc : Word) (srpt : BitVec 11) :
    s.deliver f t sxpc srpt inGroup = inSystemHandler s f t sxpc srpt := by
  simp only [State.deliver, sta, user, system, Bool.false_eq_true, if_false, if_true, enterSystem_eq]

theorem deliver_noHandler {s : State} (sta : s.thr.sys.sta = false) {t : Trap} {inGroup : Bool} (user : s.userDelivers t inGroup = false)
    (system : s.thr.sys.handlerValid = false) (f : Triple) (sxpc : Word) (srpt : BitVec 11) :
    s.deliver f t sxpc srpt inGroup = s.endStrand s.cur (some (t.cause, t.detail)) := by
  simp only [State.deliver, sta, user, system, Bool.false_eq_true, if_false]

/-! ## Traps on purpose, the retired opcode (R131, R132, R154, R155) -/

theorem trap_raises {s : State} (p : Plain s) (code : BitVec 11) : TrapsHere (.trap code) s s ⟨15#8, 0#8, code.setWidth 64⟩ :=
  trapsHere_of_body p.resolved (congrArg (runControl s) (whenResolved_plain p _))

theorem brk_raises {s : State} (p : Plain s) (code : BitVec 11) : TrapsHere (.brk code) s s ⟨14#8, 0#8, code.setWidth 64⟩ :=
  trapsHere_of_body p.resolved (congrArg (runControl s) (whenResolved_plain p _))

/-- `mop8` counts its execution and then traps. -/
theorem mop8_raises {s : State} (p : Plain s) (rd ra rb : SReg) (fn : BitVec 7) :
    TrapsHere (.mop8 rd ra rb fn) s (s.countRetired.mapMod fun m => { m with rcMop8 := m.rcMop8 + 1#64 })
      ⟨2#8, 0#8, wordValue (.mop8 rd ra rb fn)⟩ :=
  trapsHere_of_body (u := s.countRetired.mapMod fun m => { m with rcMop8 := m.rcMop8 + 1#64 }) p.resolved rfl

/-- Settles O49: the traps' own bodies, then the order in which a delivery asks for SSTATUS.STA, the user's handler and the system's. -/
theorem trapsEnterTheirHandler : Obligations.TrapsEnterTheirHandler := by
  unfold Obligations.TrapsEnterTheirHandler
  refine ⟨fun s code rd ra rb fn p => ⟨trap_raises p code, brk_raises p code, mop8_raises p rd ra rb fn⟩, fun s t sxpc => ?_⟩
  intro user system outside
  have userIff : s.userDelivers t s.thr.frameAt.2.2 = true ↔ user ∧ outside := by
    rw [userDelivers_iff, frameAt_inGroup_iff]
  have systemIff : s.thr.sys.handlerValid = true ↔ system := systemHandlerValid_iff _
  refine ⟨fun sta => ?_, fun sta => ⟨fun out u => ?_, fun out noUser sys => ?_, fun g group hp hw sys => ?_, fun noUser noSystem => ?_⟩⟩
  · rw [State.deliverHere, deliver_doubleTrap sta]
    exact endStrand_cur_ended s _
  · rw [State.deliverHere, deliver_user sta (userIff.mpr ⟨u, out⟩), frameAt_outside out.1 out.2]
    rfl
  · have refused := eq_false_of_ne_true (fun h => noUser (userIff.mp h).1)
    rw [State.deliverHere, deliver_system sta refused (systemIff.mpr sys), frameAt_outside out.1 out.2]
    rfl
  · have refused := eq_false_of_ne_true (fun h => absurd (group.symm.trans (userIff.mp h).2.1) (by simp))
    refine ⟨srptOf g.pass g.word, srptOf_toNat hp hw, ?_⟩
    rw [State.deliverHere, deliver_system sta refused (systemIff.mpr sys), frameAt_group group]
  · have refused := eq_false_of_ne_true (fun h => noUser (userIff.mp h).symm)
    rw [State.deliverHere, deliver_noHandler sta refused (eq_false_of_ne_true fun h => noSystem (systemIff.mp h))]
    exact endStrand_cur_ended s _

end Sys2Proof.Laws

/-!
PROOF. Traps of vector operands (02 section 2.3, 07 section 7.1): a register number at or above the count is the first thing an instruction
checks, and a stale element of va is met before anything of that element is read or written.
-/

namespace Sys2Proof.Laws

open Sys2Proof.Machine Sys2Proof.Safety

/-- A body that traps, of a posted instruction at an ordinary word: what it did before leaves the word an ordinary one and the triple as it
stood. -/
theorem postsTrap_of_body {i : Instr} {s u : State} {t : Trap} (p : Plain u) (trip : u.trip = s.trip)
    (h : exec i s = runPosted i s (.trap t u)) : PostsTrap i s u t := by
  unfold PostsTrap
  rw [h, runPosted, takePostedTrap, if_neg fun held => held p.resolved, if_neg (by rw [p.noReplay]; decide), p.noGroup, ← trip, ← fall_eq]
  rfl

/-! ## Register numbers at or above the count (R47) -/

/-- An instruction that checks the numbers of the registers `vs` before anything else. -/
def ChecksRegisters (i : Instr) (vs : List VReg) : Prop :=
  ∀ s, ∃ rest, exec i s = runPosted i s ((vregsOk i vs s).andThen rest)

theorem vregOk_eq_vregsOk (i : Instr) (v : VReg) (s : State) : vregOk i v s = vregsOk i [v] s := by
  simp [vregOk, vregsOk]

theorem checksRegisters_of_vregOk {i : Instr} {v : VReg} (h : ∀ s, ∃ rest, exec i s = runPosted i s ((vregOk i v s).andThen rest)) :
    ChecksRegisters i [v] := fun s => by
  obtain ⟨rest, run⟩ := h s
  exact ⟨rest, by rw [run, vregOk_eq_vregsOk]⟩

theorem vregsOk_trap {i : Instr} {vs : List VReg} {s : State} (bad : ∃ v ∈ vs, s.ucr.regCount ≤ v.toNat) :
    vregsOk i vs s = wordTrap Cause.vstate 0#8 i s := by
  unfold vregsOk
  rw [if_neg]
  simpa using bad

theorem postsTrap_of_badRegister {i : Instr} {vs : List VReg} (c : ChecksRegisters i vs) {s : State} (p : Plain s)
    (bad : ∃ v ∈ vs, s.ucr.regCount ≤ v.toNat) : PostsTrap i s s ⟨Cause.vstate, 0#8, wordValue i⟩ := by
  obtain ⟨rest, run⟩ := c s
  refine postsTrap_of_body p rfl ?_
  rw [run, vregsOk_trap bad]
  rfl

/-- The integer and float families, `vexpd` and `vrng`. -/
theorem checksRegisters_formatV (g : VArgs) :
    ∀ i ∈ [Instr.vadd g, .vsub g, .vrsub g, .vmul g, .vmulh g, .vmulhu g, .vdiv g, .vdivu g, .vrem g, .vremu g, .vmin g, .vmax g,
      .vminu g, .vmaxu g, .vand g, .vor g, .vxor g, .vandn g, .vsll g, .vsrl g, .vsra g, .vsadd g, .vssub g, .vsaddu g, .vssubu g,
      .vmerge g, .vmacc g, .vnmsac g, .vabsd g, .vmulq g, .vfadd g, .vfsub g, .vfmul g, .vfdiv g, .vfma g, .vfms g, .vfnma g,
      .vfmin g, .vfmax g, .vfsgnj g, .vfsgnjn g, .vfsgnjx g, .vexpd g, .vrng g], ChecksRegisters i (vargsRegs g) := by
  simp only [List.forall_mem_cons, List.not_mem_nil, false_implies, implies_true, and_true]
  and_intros <;> exact fun s => ⟨_, rfl⟩

theorem checksRegisters_reduction (g : VArgs) :
    ∀ i ∈ [Instr.vredsum g, .vredmax g, .vredmin g, .vredor g, .vredand g, .vfredsum g, .vfredmax g, .vfredmin g],
      ChecksRegisters i [g.vd, g.va, g.vb] := by
  simp only [List.forall_mem_cons, List.not_mem_nil, false_implies, implies_true, and_true]
  and_intros <;> exact fun s => ⟨_, rfl⟩

/-- The families of one source, and the permutations with a source. -/
theorem checksRegisters_oneSource (h : V1Args) (r : SReg) (k : KReg) :
    ∀ i ∈ [Instr.vclz h, .vpopc h, .vfsqrt h, .vfrcp h, .vfrsq h, .vfexp2 h, .vflog2 h, .vfsigm h, .vftanh h, .vfcls h, .vmv h.vd h.va k,
      .vslideup h.vd h.va r k, .vslidedn h.vd h.va r k, .vslide1up h.vd h.va r k, .vslide1dn h.vd h.va r k, .vcompress h.vd h.va k,
      .vexpand h.vd h.va k, .vtrans h.vd h.va k, .vrowbc h.vd h.va r k], ChecksRegisters i [h.vd, h.va] := by
  simp only [List.forall_mem_cons, List.not_mem_nil, false_implies, implies_true, and_true]
  and_intros <;> exact fun s => ⟨_, rfl⟩

/-- Those that write a register and read none. -/
theorem checksRegisters_destination (v : VReg) (r : SReg) (ka k : KReg) :
    ∀ i ∈ [Instr.vmvs v r k, .viota v ka k, .vid v k, .ktov v ka], ChecksRegisters i [v] := by
  simp only [List.forall_mem_cons, List.not_mem_nil, false_implies, implies_true, and_true]
  exact ⟨checksRegisters_of_vregOk fun s => ⟨_, rfl⟩, fun s => ⟨_, rfl⟩, checksRegisters_of_vregOk fun s => ⟨_, rfl⟩,
    checksRegisters_of_vregOk fun s => ⟨_, rfl⟩⟩

/-- Those that read a register and write none. -/
theorem checksRegisters_source (v : VReg) (rd r : SReg) (k : KReg) :
    ∀ i ∈ [Instr.kfromv k v, .vmvx rd v r], ChecksRegisters i [v] := by
  simp only [List.forall_mem_cons, List.not_mem_nil, false_implies, implies_true, and_true]
  exact ⟨checksRegisters_of_vregOk fun s => ⟨_, rfl⟩, checksRegisters_of_vregOk fun s => ⟨_, rfl⟩⟩

/-! ## A stale element of va (R63, R166) -/

/-- A read of an element in a stale granule traps under GENMODE = 1, with its window offset. -/
theorem rdElem_stale {s : State} {v : VReg} {e : Nat} (room : s.thr.roff + (e + 1) * s.ucr.sewBytes ≤ s.ucr.capacity)
    (gen : s.ucr.genmode = 1#1) (stale : s.tag (elemAt s v e) ≠ s.thr.genV) :
    rdElem v e s = .trap ⟨Cause.gentrap, 0#8, BitVec.ofNat 64 (s.vregOff v (e * s.ucr.sewBytes))⟩ s := by
  have inside : s.inVreg (e * s.ucr.sewBytes) s.ucr.sewBytes = true := by
    rw [Nat.add_mul] at room
    exact decide_eq_true (by omega)
  unfold rdElem rdBytes
  rw [if_neg (by rw [inside]; decide)]
  exact (if_neg stale).trans (if_pos gen)

/-- What a state has of a format V instruction whose first active element of va is stale. -/
structure FirstStale (s : State) (g : VArgs) (e : Nat) : Prop where
  ready  : VectorReady s (vargsRegs g)
  gen    : s.ucr.genmode = 1#1
  second : g.s = true → Readable s (g.vb.extractLsb' 0 5)
  first  : ∃ es, s.active (kmReg g.km) = e :: es
  stale  : s.tag (elemAt s g.va e) ≠ s.thr.genV

/-- The trap of a stale element of va. -/
def staleTrap (s : State) (g : VArgs) (e : Nat) : Trap := ⟨Cause.gentrap, 0#8, BitVec.ofNat 64 (s.vregOff g.va (e * s.ucr.sewBytes))⟩

/-- The element-wise body stops at the first active element with nothing written. -/
theorem elementBody_stale {s : State} {g : VArgs} {e : Nat} (f : FirstStale s g e) (readsD : Bool)
    (op : Nat → Nat → Nat → Nat → Nat × Flags) : elementBody g readsD op s = .trap (staleTrap s g e) (s.setVstart e) := by
  obtain ⟨es, first⟩ := f.first
  have named : SecondLive s g [] := by
    unfold SecondLive
    split
    · exact f.second ‹_›
    · exact .inr (by simp)
  have room := room_of_lt (vectorReady_placed f.ready) (active_lt (first ▸ List.mem_cons_self))
  unfold elementBody
  rw [src2_done f.ready.plain g named, andThen_done, first, forElems, rdElem_stale room f.gen f.stale]
  rfl

/-- A format V instruction past its checks, at a stale element of va. -/
theorem postsTrap_of_stale {s : State} {g : VArgs} {e : Nat} (f : FirstStale s g e) {i : Instr} {readsD : Bool}
    {op : Nat → Nat → Nat → Nat → Nat × Flags}
    (h : exec i s = runPosted i s (unlessDone [kmReg g.km] s (elementBody g readsD op))) :
    PostsTrap i s (s.setVstart e) (staleTrap s g e) := by
  have pl := f.ready.plain
  obtain ⟨es, first⟩ := f.first
  have begun : ¬s.ucr.elems ≤ s.ucr.vstart.toNat := fun done => by
    rw [active_done _ done] at first
    exact List.cons_ne_nil _ _ first.symm
  refine postsTrap_of_body ⟨pl.noReplay, pl.noGroup, pl.resolved, pl.whole⟩ rfl ?_
  rw [h, unlessDone_eq f.ready.masks _ _ begun, elementBody_stale f]
  rfl

/-- The integer families. -/
theorem vint_stale {s : State} {g : VArgs} {e : Nat} (f : FirstStale s g e) {i : Instr} {readsD : Bool}
    {op : Nat → Nat → Nat → Nat → Nat} (h : exec i s = vint i g readsD op s) : PostsTrap i s (s.setVstart e) (staleTrap s g e) :=
  postsTrap_of_stale f (h.trans (by rw [vint, vregsOk_done f.ready.count, andThen_done]))

theorem floatFormat_done {s : State} (p : Plain s) {fmt : FFmt} (shape : FloatShape s fmt) (i : Instr) : floatFormat i s = .done fmt s := by
  have own : s.vfmt = s.ucr.vfmt := by rw [State.vfmt, if_neg (by rw [p.noReplay]; decide)]
  unfold floatFormat
  obtain ⟨sew, rfl⟩ | ⟨sew, vfmt, rfl⟩ | ⟨sew, vfmt, rfl⟩ := shape
  · rw [if_pos sew]
  · rw [sew, own, vfmt]; rfl
  · rw [sew, own, vfmt]; rfl

theorem roundingMode_done {s : State} {rm : RM} (named : RM.ofCode s.ucr.frm = some rm) (i : Instr) : roundingMode i s = .done rm s := by
  rw [roundingMode, named]

theorem vfadd_stale {s : State} {g : VArgs} {e : Nat} (f : FirstStale s g e) {fmt : FFmt} {rm : RM} (shape : FloatShape s fmt)
    (named : RM.ofCode s.ucr.frm = some rm) : PostsTrap (.vfadd g) s (s.setVstart e) (staleTrap s g e) := by
  refine postsTrap_of_stale f (readsD := false) (op := fun _ a b _ => ((fmt.add rm a b).bits, (fmt.add rm a b).flags)) ?_
  show vfloat (.vfadd g) g false (fun fmt rm a b _ => fmt.add rm a b) s = _
  rw [vfloat, vregsOk_done f.ready.count, andThen_done, floatFormat_done f.ready.plain shape, andThen_done, roundingMode_done named,
    andThen_done]

/-- Settles O19: the check of the register numbers, family by family, and the first element that an element-wise body reads. -/
theorem vectorOperandsTrap : Obligations.VectorOperandsTrap := by
  unfold Obligations.VectorOperandsTrap
  refine ⟨fun s g h r rd ka k p => ?_, fun s g e es ready gen second first stale => ?_⟩
  · intro posts bad
    refine ⟨fun named i hi => ?_, fun named i hi => ?_, fun named i hi => ?_, fun named i hi => ?_, fun named i hi => ?_⟩
    · exact postsTrap_of_badRegister (checksRegisters_formatV g i hi) p named
    · exact postsTrap_of_badRegister (checksRegisters_reduction g i hi) p named
    · exact postsTrap_of_badRegister (checksRegisters_oneSource h r k i hi) p (by simpa using named)
    · exact postsTrap_of_badRegister (checksRegisters_destination h.vd r ka k i hi) p ⟨h.vd, List.mem_singleton.mpr rfl, named⟩
    · exact postsTrap_of_badRegister (checksRegisters_source h.va rd r ka i hi) p ⟨h.va, List.mem_singleton.mpr rfl, named⟩
  · have f : FirstStale s g e := ⟨ready, gen, second, ⟨es, first⟩, stale⟩
    refine ⟨?_, fun fmt rm shape named => vfadd_stale f shape named⟩
    simp only [List.forall_mem_cons, List.not_mem_nil, false_implies, implies_true, and_true]
    and_intros <;> exact vint_stale f rfl

end Sys2Proof.Laws

/-!
PROOF. A row of an accumulator whose checksum word disagrees (09 section 9.1, 22 section 22.3): the accumulator is poisoned whole, granule by
granule. What `TileTransfersMoveBits` says of the poison that results keeps every mark that stood before, also one within the accumulator that
begins no granule.
-/

namespace Sys2Proof.Laws

open Sys2Proof.Machine Sys2Proof.Safety

/-- The marks after an accumulator is poisoned whole: those outside it that stood, and its 4,096 granules. -/
theorem mem_poisonTile (s : State) (core : Nat) (ac : Bool) (p : Nat) :
    p ∈ (s.poisonTile core ac).poison ↔
      (p ∈ s.poison ∧ ¬(windowAddr core (tileOff ac 0 0) ≤ p ∧ p < windowAddr core (tileOff ac 0 0) + 262144)) ∨
        ∃ k, k < 4096 ∧ p = windowAddr core (tileOff ac 0 0) + 64 * k := by
  simp only [State.poisonTile, List.mem_append, List.mem_filter, List.mem_map, List.mem_range, Bool.not_eq_true', decide_eq_false_iff_not,
    eq_comm (a := p)]

/-- The error log holds no poison. -/
theorem poison_logError (s : State) (src core : BitVec 8) (kind : BitVec 2) (b : Word) (estat : BitVec 4) :
    (s.logError src core kind b estat).poison = s.poison := by
  unfold State.logError
  dsimp only
  split <;> rfl

/-- A row that differs from its checksum word traps ERRUNC, the accumulator poisoned whole. -/
theorem checksumOk_differs {s : State} {ac : Bool} {i : Nat} (differs : Sparse.get 0#32 s.sums (sumKey (coreOf s.cur) ac i) ≠ 0#32) (j : Nat) :
    ∃ u, checksumOk ac i j s = .trap ⟨Cause.errunc, 0#8, BitVec.ofNat 64 (tileOff ac i j)⟩ u ∧
      u.poison = (s.poisonTile (coreOf s.cur) ac).poison := by
  unfold checksumOk
  rw [if_neg differs]
  refine ⟨_, rfl, ?_⟩
  split
  · rfl
  · exact poison_logError _ _ _ _ _ _

/-- The state after reset, with a poison mark one byte past the start of the first accumulator of core 0, and its row 0 off its checksum word. -/
def strayMark : State :=
  { State.reset with poison := [windowAddr 0 (tileOff false 0 0) + 1], sums := [(sumKey 0 false 0, 1#32)] }

/-- Refutes O41, in its clause on a row whose checksum word disagrees: a mark within the accumulator that begins no granule is none of the
marks that stand once the accumulator is poisoned whole. -/
theorem not_tileTransfersMoveBits : ¬ Obligations.TileTransfersMoveBits := by
  unfold Obligations.TileTransfersMoveBits
  intro h
  obtain ⟨-, -, -, checksum, -⟩ := h strayMark false 0#6 0#5 0#3
  obtain ⟨q, marks, claimed⟩ := (checksum 0 0).2 (by decide) rfl
  obtain ⟨u, traps, poisoned⟩ := checksumOk_differs (s := strayMark) (ac := false) (i := 0) (by decide) 0
  have same : u.poison = q := by
    rw [(Res.trap.inj (traps.symm.trans claimed)).2, poison_logError]
  have kept : windowAddr 0 (tileOff false 0 0) + 1 ∈ (strayMark.poisonTile 0 false).poison := by
    rw [show (strayMark.poisonTile 0 false).poison = q from poisoned.symm.trans same]
    exact (marks _).mpr (.inl (List.mem_singleton.mpr rfl))
  rcases (mem_poisonTile ..).mp kept with ⟨-, outside⟩ | ⟨k, -, granule⟩
  · omega
  · omega

end Sys2Proof.Laws

/-!
PROOF. The words that the spec takes apart or lists (05, Tables 5.13 and 5.14): each is the word that the encoder gives for its instruction,
and the decoder inverts the encoder.
-/

namespace Sys2Proof.Laws

/-- The word of a well-formed instruction decodes to it. -/
theorem decode_of_encode {i : Instr} {w : BitVec 32} (word : encode i = some w) (wf : i.wf = true) : decode w = .ok i :=
  decodeInvertsEncode.1 i w wf word

theorem decode_of_rejected {w : BitVec 32} {e : Reject} (rejected : pick w = .error e) : decode w = .error e := by
  rw [decode, rejected]

/-- A word that names an instruction with a code out of range in a field is refused (R123). -/
theorem decode_of_illFormed {w : BitVec 32} {i : Instr} (named : pick w = .ok i) (bad : i.wf = false) : decode w = .error .badField := by
  simp only [decode, named, bad, Bool.false_eq_true, if_false]

/-- Settles O59. A listed word is the encoding of its instruction. Of the refused words 0x0000_0000 is `trap` with code 0 and 0xFFFF_FFFF has a
reserved major; 0x7830_6C88 is a `vadd` whose scalar operand is numbered 44, and 0x6940_8006 a `ubrk` with n = 1. -/
theorem specWordsDecodeAsTheSpecSays : Obligations.SpecWordsDecodeAsTheSpecSays := by
  unfold Obligations.SpecWordsDecodeAsTheSpecSays
  refine ⟨?_, ?_, ?_, ?_, ?_, ?_, ?_, ?_, ?_, ?_, ?_, ?_, ?_, ?_, ?_, ?_, ?_, ?_, ?_, ?_, ?_, ?_, ?_, ?_,
    ⟨_, decode_of_illFormed (i := .trap 0#11) rfl rfl⟩, ⟨.reservedMajor, decode_of_rejected rfl⟩,
    ⟨_, decode_of_illFormed (i := .vadd ⟨3#6, 1#6, 44#6, true, false, false, 2#3⟩) rfl rfl⟩, ⟨.nonzeroField, decode_of_rejected rfl⟩⟩
  all_goals exact decode_of_encode rfl rfl

end Sys2Proof.Laws

/-!
PROOF. `halt` and the late stores that carry the strand's number (06 section 6.10, 11). The strand's stores are performed for every observer
when it ends (R157); a store of the host or a peer module is none of the strand's and stays late. What `ReturnsRestoreAndHaltsEnd` says of the
late stores of a strand that has ended leaves out those of copies and collectives, and not those from outside.
-/

namespace Sys2Proof.Laws

open Sys2Proof.Machine Sys2Proof.Safety

/-- A store from outside the module that no observer need have seen yet. -/
def outsideStore : Late :=
  { uid := Reader.outside.uid, core := 0, launch := 0, way := Path.outside.plain, pa := 0x10000, old := [0#8], gen := 0#16, perf := [], seen := [] }

/-- A strand without children, numbered as the accesses from outside are, and the store. -/
def haltsBesideOutsideStore : State := { State.reset with thr := { Thread.reset with bound := true }, late := [outsideStore] }

theorem haltsBesideOutsideStore_plain : Plain haltsBesideOutsideStore := ⟨rfl, rfl, rfl, rfl⟩

/-- The late stores of the state that an outcome goes on to. -/
def lateAfter : Out → Option (List Late)
  | .next t => some t.late
  | .fault _ => none
  | .refused _ => none

/-- The strand ends, and the store stays as it was. -/
theorem halt_leaves_outsideStore : lateAfter (exec .halt haltsBesideOutsideStore) = some [outsideStore] := by decide +kernel

/-- Refutes O50, in its clause on the late stores of a strand that `halt` has ended: a store from outside with the strand's number is no store
of the strand, and `halt` does not perform it. -/
theorem not_returnsRestoreAndHaltsEnd : ¬ Obligations.ReturnsRestoreAndHaltsEnd := by
  unfold Obligations.ReturnsRestoreAndHaltsEnd
  intro h
  obtain ⟨-, -, -, ends⟩ := h haltsBesideOutsideStore haltsBesideOutsideStore_plain
  obtain ⟨t, run, -, performed⟩ := ends (List.forall_mem_nil _)
  have kept := halt_leaves_outsideStore
  rw [run, lateAfter, Option.some.injEq] at kept
  have seen : (0, 5) ∈ outsideStore.perf := performed outsideStore (kept ▸ List.mem_singleton.mpr rfl) rfl (by decide) (by decide)
  exact List.not_mem_nil seen

end Sys2Proof.Laws

/-!
PROOF. The fetch of an instruction (05 section 5.1, 18, 21): what a fetch that succeeds has read, and what it leaves as it stood.
-/

namespace Sys2Proof.Laws

open Sys2Proof.Machine Sys2Proof.Safety

/-! ## Bodies -/

theorem andThen_eq_done {α β : Type} {r : Res α} {f : α → State → Res β} {b : β} {t : State} :
    r.andThen f = .done b t ↔ ∃ a s, r = .done a s ∧ f a s = .done b t := by
  cases r with
  | done a s => exact ⟨fun h => ⟨a, s, rfl, h⟩, fun ⟨_, _, same, h⟩ => by cases same; exact h⟩
  | trap t s => exact ⟨fun h => (by cases h), fun ⟨_, _, same, _⟩ => by cases same⟩
  | wait s => exact ⟨fun h => (by cases h), fun ⟨_, _, same, _⟩ => by cases same⟩

theorem whenResolved_done {s : State} {α : Type} {k : State → Res α} {a : α} {t : State} (h : whenResolved s k = .done a t) :
    k s = .done a t := by
  unfold whenResolved at h
  split at h
  · exact h
  · cases h

/-! ## Translation (R308 to R316) -/

/-- The walk of an access takes a free value at most. -/
theorem chooseWalk_rest (s : State) (asid : BitVec 12) (root : BitVec 40) (va : Nat) :
    (s.chooseWalk asid root va).2 = { s with free := (s.chooseWalk asid root va).2.free } := by
  unfold State.chooseWalk
  dsimp only
  split <;> rfl

theorem noteWalk_rest (s : State) (e : WalkEntry) : s.noteWalk e = { s with walks := (s.noteWalk e).walks } := by
  unfold State.noteWalk
  split <;> rfl

/-- What a translation that succeeds, and so a fetch, leaves behind: a free value is taken, a walk noted, an image filled; nothing else
differs. -/
def Fetched (s u : State) : Prop := u = { s with free := u.free, walks := u.walks, images := u.images }

theorem Fetched.trans {s u v : State} (a : Fetched s u) (b : Fetched u v) : Fetched s v := by
  unfold Fetched at *
  rw [b, a]

/-- A translation that succeeds changes no image either. -/
theorem translate_ok_rest {s : State} {asid : BitVec 12} {root : BitVec 40} {system : Bool} {va : Word} {k : Access} {pa : Nat}
    {attr : BitVec 2} (ok : (s.translate asid root system va k).1 = .ok pa attr) : (s.translate asid root system va k).2 =
      { s with free := (s.translate asid root system va k).2.free, walks := (s.translate asid root system va k).2.walks } := by
  have rest := chooseWalk_rest s asid root va.toNat
  unfold State.translate at ok ⊢
  generalize s.chooseWalk asid root va.toNat = walked at rest ok ⊢
  obtain ⟨w, u⟩ := walked
  split
  · rfl
  · rw [if_neg ‹_›] at ok
    cases w with
    | fault r l => exact absurd ok (by simp)
    | poison f l e => exact absurd ok (by simp)
    | leaf e =>
      dsimp only at rest ⊢
      rw [rest]
      split <;> rw [noteWalk_rest]

theorem translated_rest {s : State} {va : Word} {k : Access} {p : Phys} (reaches : Reaches s va k p) :
    translated s va k = { s with free := (translated s va k).free, walks := (translated s va k).walks } :=
  translate_ok_rest reaches.1

/-- An access is located just where it reaches a place, and leaves the state as its translation does. -/
theorem locate_done_iff {s u : State} {va : Word} {k : Access} {p : Phys} :
    locate va k s = .done p u ↔ Reaches s va k p ∧ u = translated s va k := by
  unfold locate Reaches translated
  generalize s.translate s.thr.asid s.thr.root s.thr.level va k = r
  obtain ⟨x, v⟩ := r
  cases x with
  | fault reason level => simp
  | ok pa attr =>
    obtain ⟨pa', attr'⟩ := p
    simp only [Xlat.ok.injEq]
    constructor
    · intro h
      split at h
      · cases h
      · cases h; exact ⟨⟨⟨rfl, rfl⟩, eq_false_of_ne_true ‹_›⟩, rfl⟩
    · rintro ⟨⟨⟨rfl, rfl⟩, passes⟩, rfl⟩
      rw [passes]; rfl

/-! ## What a fetch leaves (R371, R404) -/

theorem aligned_done {s u : State} {va : Word} {w : Nat} {k : Access} {a : Unit} (h : aligned va w k s = .done a u) : u = s := by
  unfold aligned at h
  split at h <;> cases h
  rfl

theorem soGuard_done {s u : State} {p : Phys} {a : Unit} (h : soGuard p s = .done a u) : u = s := by
  unfold soGuard at h
  split at h
  · cases whenResolved_done h; rfl
  · cases h; rfl

theorem consume_ne_done {α : Type} {pa : Nat} {va : Word} {s u : State} {a : α} : consume pa va s ≠ .done a u := by
  simp [consume]

theorem fetchBytes_fetched (s : State) (pa : Nat) : Fetched s (s.fetchBytes pa).2 := by
  unfold State.fetchBytes
  dsimp only
  split <;> rfl

theorem fetchPlace_fetched {p : Phys} {va : Word} {s u : State} {bs : List Byte} (h : fetchPlace p va s = .done bs u) : Fetched s u := by
  unfold fetchPlace at h
  split at h
  · split at h
    · cases h; rfl
    · split at h
      · exact absurd h consume_ne_done
      · cases h; rfl
  · cases h; rfl
  · split at h
    · exact absurd h consume_ne_done
    · cases h; exact fetchBytes_fetched s p.pa

theorem fetchAt_fetched {p : Phys} {va : Word} {s u : State} {bs : List Byte} (h : fetchAt p va s = .done bs u) : Fetched s u := by
  unfold fetchAt at h
  split at h
  · split at h
    · exact absurd h consume_ne_done
    · split at h
      · cases h; rfl
      · obtain ⟨now, v, read, filled⟩ := andThen_eq_done.mp h
        cases filled
        exact (fetchPlace_fetched read).trans rfl
  · exact fetchPlace_fetched h

theorem fetchWord_fetched {va : Word} {s u : State} {w : BitVec 32} (h : fetchWord va s = .done w u) : Fetched s u := by
  obtain ⟨_, s₁, even, located⟩ := andThen_eq_done.mp h
  obtain rfl := aligned_done even
  obtain ⟨p, s₂, found, guarded⟩ := andThen_eq_done.mp located
  obtain ⟨reaches, rfl⟩ := locate_done_iff.mp found
  obtain ⟨_, s₃, guard, fetched⟩ := andThen_eq_done.mp guarded
  obtain rfl := soGuard_done guard
  obtain ⟨bs, s₄, read, gives⟩ := andThen_eq_done.mp fetched
  cases gives
  have noted : Fetched s₁ (translated s₁ va .fetch) := by
    unfold Fetched
    rw [translated_rest reaches]
  exact noted.trans (fetchAt_fetched read)

theorem fetchInstr_fetched {va : Word} {s u : State} {i : Instr} (h : fetchInstr va s = .done i u) : Fetched s u := by
  obtain ⟨w, v, word, decoded⟩ := andThen_eq_done.mp h
  split at decoded <;> cases decoded
  exact fetchWord_fetched word

/-! ## What a fetch reads -/

/-- Memory that has not changed since the strand's binding is what a fetch returns (R404). -/
theorem fetchBytes_unchanged {s : State} {pa : Nat}
    (same : ∀ m ∈ s.thr.codeMem, ∀ i, i < 4 → Sparse.get memDefault m (pa + i) = s.byte (pa + i)) :
    s.fetchBytes pa = (s.bytes pa 4, s) := by
  have none_old : ((s.thr.codeMem.map fun m => (List.range 4).map fun i => Sparse.get memDefault m (pa + i)).filter
      fun bs => bs ≠ s.bytes pa 4) = [] := by
    rw [List.filter_eq_nil_iff]
    intro bs old
    obtain ⟨m, hm, rfl⟩ := List.mem_map.mp old
    have : (List.range 4).map (fun i => Sparse.get memDefault m (pa + i)) = s.bytes pa 4 :=
      List.map_congr_left fun i hi => same m hm i (List.mem_range.mp hi)
    simp [this]
  unfold State.fetchBytes
  dsimp only
  rw [none_old]

/-- A word of an image whose bytes are all known, none of them read from a poisoned unit (R371). -/
theorem fetchAt_image {s : State} {va : Word} {bs : List Byte} (image : (s.image?.bind fun c => c.word va) = some (bs.map some, false))
    (p : Phys) : fetchAt p va s = .done bs s := by
  have known : (bs.map some).all Option.isSome = true := by
    rw [List.all_map]
    exact List.all_eq_true.mpr fun _ _ => rfl
  have values : (bs.map some).map (fun b => b.getD 0#8) = bs := by
    rw [List.map_map]
    exact List.map_id bs
  unfold fetchAt
  rw [image]
  dsimp only
  rw [if_neg Bool.false_ne_true, if_pos known, values]

/-- A word outside the image, in LPDDR6 or a slice that holds no poison, read as memory stands. -/
theorem fetchAt_memory {s : State} {va : Word} {p : Phys} (image : (s.image?.bind fun c => c.word va) = none)
    (place : s.region p.pa = .lpddr ∨ ∃ n, s.region p.pa = .slice n) (sound : s.poison = [])
    (same : ∀ m ∈ s.thr.codeMem, ∀ i, i < 4 → Sparse.get memDefault m (p.pa + i) = s.byte (p.pa + i)) :
    fetchAt p va s = .done (s.bytes p.pa 4) s := by
  unfold fetchAt fetchPlace
  rw [image]
  obtain place | ⟨n, place⟩ := place <;> simp [place, sound, fetchBytes_unchanged same]

theorem fetchInstr_misaligned {s : State} {va : Word} (odd : va.toNat % 4 ≠ 0) :
    fetchInstr va s = .trap ⟨Cause.align, 2#8, va⟩ s := by
  unfold fetchInstr fetchWord aligned
  rw [if_neg odd]
  rfl

/-- The word at an address that reaches a place, of a strand with every `ubrk` resolved, given what stands there. -/
theorem fetchWord_done {s : State} {va : Word} {p : Phys} {bs : List Byte} (resolved : s.thr.unres = []) (even : va.toNat % 4 = 0)
    (reaches : Reaches s va .fetch p) (read : fetchAt p va (translated s va .fetch) = .done bs (translated s va .fetch)) :
    fetchWord va s = .done (BitVec.ofNat 32 (numOf bs)) (translated s va .fetch) := by
  have still : (translated s va .fetch).thr.unres = [] := by rw [translated_rest reaches]; exact resolved
  have guard : soGuard p (translated s va .fetch) = .done () (translated s va .fetch) := by simp [soGuard, whenResolved, still]
  unfold fetchWord aligned
  rw [if_pos even, andThen_done, locate_done_iff.mpr ⟨reaches, rfl⟩, andThen_done, guard, andThen_done, read, andThen_done]

end Sys2Proof.Laws

/-!
PROOF. One step (01 section 1.6, 05 section 5.1): the event that comes first, else the word at the strand's PC fetched, decoded, paid for and
run.
-/

namespace Sys2Proof.Laws

open Sys2Proof.Machine Sys2Proof.Safety

/-! ## What a step does first (R328) -/

theorem step_due {s : State} {e : Instr} {es : List Instr} (due : s.due = e :: es) :
    step s = if s.blocked e then s.turn else afterStep ({ s with due := es }.runDue e) := by
  rw [step, due]

/-- With no event due and none of the device possible, the next strand steps. -/
theorem step_strand {s : State} {k : Nat} (due : s.due = []) (events : s.deviceEvents = []) (next : s.nextStrand s.waitsOn = some k) :
    step s = afterStep (s.switchTo k).strandStep := by
  simp only [step, due, State.turn, events, next]

/-! ## An ordinary word at the boundary (R295) -/

theorem mustResolve_resolved {t : Thread} (resolved : t.unres = []) : t.mustResolve = false := by simp [Thread.mustResolve, resolved]

theorem ubrkReady_resolved {t : Thread} (resolved : t.unres = []) : t.ubrkReady = true := by simp [Thread.ubrkReady, resolved]

/-- A strand with no annulled word, no event and no unresolved `ubrk` at its boundary issues. -/
theorem strandStep_issues {s : State} (runs : s.trip.a0 = false) (noTrap : s.thr.ptrap = none) (noError : s.thr.errunc = none)
    (noWatchdog : s.thr.wdPend = false) (noPreempt : s.thr.preempt = false) (resolved : s.thr.unres = []) : s.strandStep = s.issue := by
  have runs : s.thr.arch.trip.a0 = false := runs
  simp [State.strandStep, runs, noTrap, noError, noWatchdog, noPreempt, ubrkReady_resolved resolved, mustResolve_resolved resolved, resolved]

theorem passing_none {s : State} (noReplay : s.thr.replaying = false) : s.passing = none := by simp [State.passing, noReplay]

theorem issue_posts {s t : State} (late : ((s.postNext false).filter fun _ => Config.postsLate s.free) = some t) : s.issue = .next t := by
  rw [State.issue, late]

theorem issue_fetches {s : State} (late : ((s.postNext false).filter fun _ => Config.postsLate s.free) = none)
    (noReplay : s.thr.replaying = false) (noGroup : s.thr.rpt = none) : s.issue = s.fetchStep := by
  rw [State.issue, late, passing_none noReplay, noReplay, noGroup]

/-! ## The word fetched (R112, R123, R391) -/

theorem takeTrap_resolved {s0 s : State} {t : Trap} (resolved : s.thr.unres = []) : takeTrap s0 t s = s.deliverHere t 0#64 :=
  if_neg (not_not_intro resolved)

theorem fetchStep_misaligned {s : State} (resolved : s.thr.unres = []) (odd : s.trip.pc.toNat % 4 ≠ 0) :
    s.fetchStep = .next (s.deliverHere ⟨Cause.align, 2#8, s.trip.pc⟩ 0#64) := by
  rw [State.fetchStep, fetchInstr_misaligned odd]
  dsimp only
  rw [takeTrap_resolved resolved]

theorem fetchStep_runs {s v : State} {w : BitVec 32} {i : Instr} (word : fetchWord s.trip.pc s = .done w v) (decodes : decode w = .ok i) :
    s.fetchStep = v.runWord i := by
  rw [State.fetchStep, fetchInstr, word, andThen_done, decodes]

theorem fetchStep_illegal {s v : State} {w : BitVec 32} {e : Reject} (resolved : v.thr.unres = [])
    (word : fetchWord s.trip.pc s = .done w v) (refused : decode w = .error e) :
    s.fetchStep = .next (v.deliverHere ⟨Cause.illegal, 0#8, w.setWidth 64⟩ 0#64) := by
  rw [State.fetchStep, fetchInstr, word, andThen_done, refused]
  dsimp only
  rw [takeTrap_resolved resolved]

theorem runWord_paid {s u : State} {a : Unit} (pays : payEnergy s = .done a u) (i : Instr) : s.runWord i = exec i u := by
  rw [State.runWord, pays]

theorem runWord_waits {s u : State} (waits : payEnergy s = .wait u) (i : Instr) :
    s.runWord i = .next { u with thr := { u.thr with waiting := true } } := by
  rw [State.runWord, waits]
  rfl

/-- The word that stands at the PC: the launch image's, or else the four bytes of memory. -/
theorem fetchWord_stands {s : State} {p : Phys} {w : BitVec 32} (resolved : s.thr.unres = []) (even : s.trip.pc.toNat % 4 = 0)
    (reaches : Reaches s s.trip.pc .fetch p) (place : s.region p.pa = .lpddr ∨ ∃ n, s.region p.pa = .slice n) (sound : s.poison = [])
    (ofImage : ∀ x, (s.image?.bind fun c => c.word s.trip.pc) = some x →
      x.2 = false ∧ ∃ bs, x.1 = bs.map some ∧ w = BitVec.ofNat 32 (numOf bs))
    (ofMemory : (s.image?.bind fun c => c.word s.trip.pc) = none → w = BitVec.ofNat 32 (numOf (s.bytes p.pa 4)) ∧
      ∀ m ∈ s.thr.codeMem, ∀ i, i < 4 → Sparse.get memDefault m (p.pa + i) = s.byte (p.pa + i)) :
    fetchWord s.trip.pc s = .done w (translated s s.trip.pc .fetch) := by
  have rest := translated_rest reaches
  generalize reached : translated s s.trip.pc .fetch = v at rest
  have image : v.image? = s.image? := by rw [rest]; rfl
  have read : ∃ bs, w = BitVec.ofNat 32 (numOf bs) ∧ fetchAt p s.trip.pc v = .done bs v := by
    cases stands : s.image?.bind fun c => c.word s.trip.pc with
    | some x =>
      obtain ⟨clean, bs, known, word⟩ := ofImage x stands
      exact ⟨bs, word, fetchAt_image (by rw [image, stands, ← known, ← clean]) p⟩
    | none =>
      obtain ⟨word, same⟩ := ofMemory stands
      have bytes : v.bytes p.pa 4 = s.bytes p.pa 4 := by rw [rest]; rfl
      refine ⟨_, word, bytes ▸ fetchAt_memory (image ▸ stands) ?_ ?_ ?_⟩ <;> rw [rest]
      · exact place
      · exact sound
      · exact same
  obtain ⟨bs, rfl, read⟩ := read
  subst reached
  exact fetchWord_done resolved even reaches read

/-- Settles O60: what comes first, then a strand's ordinary word by how its fetch, its decoding and its energy check come out. -/
theorem stepRunsTheFetchedInstruction : Obligations.StepRunsTheFetchedInstruction := by
  unfold Obligations.StepRunsTheFetchedInstruction
  refine ⟨fun s e es due => ⟨fun blocked => ?_, fun free wf => ?_⟩, fun s k due events next => ?_⟩
  · rw [step_due due, if_pos blocked]
  · rw [step_due due, if_neg (by rw [free]; decide), State.runDue, if_pos wf]
  intro u pc plain runs noTrap noError noWatchdog noPreempt late
  have issues : step s = afterStep u.issue := by
    rw [step_strand due events next]
    exact congrArg afterStep (strandStep_issues runs noTrap noError noWatchdog noPreempt plain.resolved)
  refine ⟨fun t posts => ?_, fun whole odd => ?_, fun p w whole even reaches place sound ofImage ofMemory => ?_⟩
  · rw [issues, issue_posts posts]; rfl
  · rw [issues, issue_fetches whole plain.noReplay plain.noGroup, fetchStep_misaligned plain.resolved odd]; rfl
  have word := fetchWord_stands plain.resolved even reaches place sound ofImage ofMemory
  have still : (translated u pc .fetch).thr.unres = [] := by rw [translated_rest reaches]; exact plain.resolved
  rw [issues, issue_fetches whole plain.noReplay plain.noGroup]
  refine ⟨fun i x decodes pays => ?_, fun i x decodes waits => ?_, fun e refused => ?_⟩
  · rw [fetchStep_runs word decodes, runWord_paid pays]
  · rw [fetchStep_runs word decodes, runWord_waits waits]; rfl
  · rw [fetchStep_illegal still word refused]; rfl

end Sys2Proof.Laws

/-!
PROOF. A strand contained (17 section 17.3, R292): where it stands with an unresolved `ubrk`, and the events that are then taken.
-/

namespace Sys2Proof.Laws

open Sys2Proof.Machine Sys2Proof.Safety

/-! ## Containment (R292) -/

theorem contained_resolved {s : State} (resolved : s.thr.unres = []) : s.contained = s := by
  rw [State.contained, resolved]

/-- The strand at the oldest `ubrk`'s checkpoint: every younger effect undone, the posted instructions before the `ubrk` still pending, the strip
to be run again. -/
theorem contained_thr {s : State} {u : Unresolved} {us : List Unresolved} (unres : s.thr.unres = u :: us) :
    let kept := if s.thr.replaying then s.thr.replay.take u.older else s.thr.replay
    s.contained.thr = { s.thr with
      arch := u.resume s.thr.arch, unres := [], held := [], defer := false, deferLog := false, rpt := none, rptResume := none, waiting := false
      loop := s.thr.loop.map fun l => { l with next := u.strip }
      replay := kept, replaying := s.thr.replaying && !kept.isEmpty } := by
  rw [State.contained, unres]
  dsimp only
  split <;> rfl

/-- With posted instructions older than the `ubrk` unretired, nothing has run on the vector side since. -/
theorem contained_memory {s : State} {u : Unresolved} {us : List Unresolved} (unres : s.thr.unres = u :: us) (older : u.older ≠ 0) (a : Nat) :
    s.contained.byte a = s.byte a ∧ s.contained.tag a = s.tag a := by
  rw [State.contained, unres]
  dsimp only
  rw [if_neg older]
  exact ⟨rfl, rfl⟩

theorem contained_byte {s : State} {u : Unresolved} {us : List Unresolved} (unres : s.thr.unres = u :: us) (older : u.older = 0)
    (cells : Memory.wf u.cells = true) (a : Nat) :
    s.contained.byte a = if s.ownVector a = true then Sparse.get memDefault u.cells a else s.byte a := by
  rw [State.contained, unres]
  dsimp only
  rw [if_pos older]
  exact byte_restoreVector s cells a

/-! ## A wait on an address abandoned (R297, R305) -/

theorem abandonWait_none {s : State} (noWait : s.thr.wa = .none) : s.abandonWait = s := by
  rw [State.abandonWait, noWait]

/-- A triple past the annulled words at which it stands (R127). -/
theorem passed_eq (t : Triple) : t.passed = if t.a0 = true then (if t.a1 = true then Fallen (Fallen t) else Fallen t) else t := by
  simp only [Triple.passed, fall_eq, Fallen]

/-- A wait that is armed gives up with 4; one that has ended keeps its status (log entry 45). -/
def Abandons (w : WaitAddr) (rd : SReg) (x : BitVec 3) : Prop := w = .armed rd ∧ x = 4#3 ∨ w = .done rd x

/-- The state whose monitor entry is freed and whose register holds the status of the wait. -/
def waitEnded (s : State) (rd : SReg) (x : BitVec 3) : State :=
  ({ s with monitors := s.monitors.filter fun m => m.key ≠ s.cur, thr := { s.thr with wa := .none } } : State).setReg rd (x.setWidth 64)

theorem waitEnded_thr (s : State) (rd : SReg) (x : BitVec 3) :
    ∃ a : Arch, a.trip = s.trip ∧ (waitEnded s rd x).thr = { s.thr with wa := .none, arch := a } :=
  ⟨(waitEnded s rd x).thr.arch, by unfold waitEnded; rw [setReg_rest]; rfl, by unfold waitEnded; rw [setReg_rest]⟩

/-- The strand then stands behind the `waddr`, and behind the words there that are annulled. -/
theorem abandonWait_waits {s : State} {rd : SReg} {x : BitVec 3} (wait : Abandons s.thr.wa rd x) (noReplay : s.thr.replaying = false)
    (noGroup : s.thr.rpt = none) : s.abandonWait =
      Moved (waitEnded s rd x) { (waitEnded s rd x).thr.arch with trip := (Fallen s.trip).passed } := by
  have done : s.abandonWait = (waitEnded s rd x).retired.setTrip (waitEnded s rd x).retired.trip.passed := by
    unfold State.abandonWait
    obtain ⟨armed, rfl⟩ | ended := wait
    · rw [armed]; rfl
    · rw [ended]; rfl
  obtain ⟨a, trip, thr⟩ := waitEnded_thr s rd x
  rw [done, retired_ordinary (by rw [thr]; exact noReplay) (by rw [thr]; exact noGroup)]
  have stands : (waitEnded s rd x).trip = s.trip := by unfold State.trip; rw [thr]; exact trip
  rw [← stands]
  rfl

/-! ## The events taken (R289, R295, R296) -/

theorem annulledStep_steps (s : State) :
    exec .annulledStep s = .next { s with thr := { s.thr with arch := { s.thr.arch with trip := Fallen s.trip }, rptResume := none } } := by
  show execAnnulledStep s = _
  rw [execAnnulledStep, State.mapThr, fall_eq]
  rfl

theorem postedTrap_delivered {s : State} {p : PostedTrap} (pends : s.thr.ptrap = some p) :
    exec .postedTrapDelivery s = .next (s.contained.deliverHere ⟨p.cause, p.detail, p.value⟩ p.entry.addr) := by
  show execPostedTrapDelivery s = _
  rw [execPostedTrapDelivery, pends]

theorem errunc_taken {s : State} {d : BitVec 8} {va : Word} (noWait : s.thr.wa = .none) (resolved : s.thr.unres = [])
    (pends : s.thr.errunc = some (d, va)) : exec .asyncEventTake s =
      .next (State.deliverHere { s with thr := { s.thr with errunc := none } } ⟨12#8, d, va⟩ 0#64) := by
  show execAsyncEventTake s = _
  rw [execAsyncEventTake, pends]
  dsimp only
  rw [abandonWait_none noWait, contained_resolved resolved]
  rfl

theorem watchdog_taken {s : State} (noWait : s.thr.wa = .none) (resolved : s.thr.unres = []) (noError : s.thr.errunc = none)
    (pends : s.thr.wdPend = true) : exec .asyncEventTake s =
      .next (State.deliverHere { s with thr := { s.thr with wdPend := false } } ⟨9#8, 0#8, 0#64⟩ 0#64) := by
  show execAsyncEventTake s = _
  rw [execAsyncEventTake, noError]
  dsimp only
  rw [if_pos pends, abandonWait_none noWait, contained_resolved resolved]
  rfl

/-- A strand that stands without issuing (R296), in a group at its `rpt` word with the position kept (R151). -/
def stood (t : Thread) : Thread :=
  { t with
    preempt := false, stopping := true, waiting := false, sleep := none, debited := false, rpt := none
    arch := { t.arch with trip := t.frameAt.1 }
    rptResume := match t.rpt with
      | some g => some (g.pass, g.word)
      | none => t.rptResume }

theorem preempt_stands (s : State) : exec .preempt s = .next (s.abandonWait.contained.mapThr stood) := rfl

theorem stood_outside {t : Thread} (noGroup : t.rpt = none) :
    stood t = { t with preempt := false, stopping := true, waiting := false, sleep := none, debited := false } := by
  have frame : t.frameAt.1 = t.arch.trip := by
    cases resume : t.rptResume with
    | none => rw [frameAt_outside noGroup resume]
    | some position => rw [Thread.frameAt, noGroup, resume]
  rw [stood, noGroup, frame]

theorem stood_group {t : Thread} {g : RptGroup} (group : t.rpt = some g) :
    stood t = { t with
      preempt := false, stopping := true, waiting := false, sleep := none, debited := false, rpt := none
      arch := { t.arch with trip := g.start }, rptResume := some (g.pass, g.word) } := by
  rw [stood, frameAt_group group, group]

/-- A preemption without a wait in progress and with every `ubrk` resolved. -/
theorem preempt_still {s : State} (noWait : s.thr.wa = .none) (resolved : s.thr.unres = []) :
    exec .preempt s = .next { s with thr := stood s.thr } := by
  rw [preempt_stands, abandonWait_none noWait, contained_resolved resolved]
  rfl

/-- A preemption with an unresolved `ubrk`: the strand stands where it is contained. -/
theorem preempt_contained {s : State} {u : Unresolved} {us : List Unresolved} (noWait : s.thr.wa = .none) (unres : s.thr.unres = u :: us) :
    exec .preempt s = .next { s.contained with thr := { s.contained.thr with
      preempt := false, stopping := true, waiting := false, sleep := none, debited := false } } := by
  rw [preempt_stands, abandonWait_none noWait, State.mapThr, stood_outside (by rw [contained_thr unres])]

/-- A preemption that abandons a wait. -/
theorem preempt_abandons {s : State} {rd : SReg} {x : BitVec 3} (wait : Abandons s.thr.wa rd x) (noReplay : s.thr.replaying = false)
    (noGroup : s.thr.rpt = none) (resolved : s.thr.unres = []) :
    let v := Moved (waitEnded s rd x) { (waitEnded s rd x).thr.arch with trip := (Fallen s.trip).passed }
    exec .preempt s = .next { v with thr := { v.thr with
      preempt := false, stopping := true, waiting := false, sleep := none, debited := false } } := by
  intro v
  obtain ⟨a, -, thr⟩ := waitEnded_thr s rd x
  have group : v.thr.rpt = none := by
    show (waitEnded s rd x).thr.rpt = none
    rw [thr]; exact noGroup
  have unres : v.thr.unres = [] := by
    show (waitEnded s rd x).thr.unres = []
    rw [thr]; exact resolved
  rw [preempt_stands, abandonWait_waits wait noReplay noGroup, contained_resolved unres, State.mapThr, stood_outside group]

end Sys2Proof.Laws

/-!
PROOF. Posted instructions that retire late (17 section 17.3, R11, R290, R292): one left unretired, one that is reissued to its end or stops at an
element, an instruction of the control thread that runs past them.
-/

namespace Sys2Proof.Laws

open Sys2Proof.Machine Sys2Proof.Safety

/-! ## Reissue (R290, R292) -/

theorem rejoined_nil (s : State) (n : Nat) : s.rejoined [] n = s := by
  simp only [State.rejoined, State.mapThr, List.map_nil, List.append_nil]

/-- With every `ubrk` resolved a reissued instruction runs from the strand as it stands, but for the element at which it is to stop. -/
theorem reissueFrom_resolved {s : State} (resolved : s.thr.unres = []) (stop : Option Nat) :
    (s.mapThr fun t => { t with unres := t.unres.filter (fun u => u.older = 0), stopAt := stop }) =
      { s with thr := { s.thr with stopAt := stop } } := by
  have older : s.thr.unres.filter (fun u => u.older = 0) = s.thr.unres := by rw [resolved]; rfl
  rw [State.mapThr, older]

theorem reissue_whole {s t : State} {i : Instr} (whole : s.thr.stopAt = none) (resolved : s.thr.unres = []) (runs : exec i s = .next t) :
    s.reissue i none = .next t := by
  have same : ({ s with thr := { s.thr with stopAt := none } } : State) = s := by rw [← whole]
  rw [State.reissue, reissueFrom_resolved resolved, same, runs, resolved]
  exact congrArg _ (rejoined_nil t _)

theorem reissue_stops {s t : State} {i : Instr} {n : Nat} (resolved : s.thr.unres = [])
    (runs : exec i { s with thr := { s.thr with stopAt := some n } } = .next t) : s.reissue i (some n) = .next (t.stoppedAt s n) := by
  rw [State.reissue, reissueFrom_resolved resolved, runs, resolved]
  exact congrArg _ (rejoined_nil _ _)

/-- The instruction heads the replay, to be resumed at element `n`, and what it has stored is performed. -/
theorem stoppedAt_ran {s t : State} (noTrap : t.thr.ptrap = none) (noWait : t.thr.waiting = false) (n : Nat) :
    t.stoppedAt s n = State.performSince { t with thr := { t.thr with
      stopAt := none, goneStep := false, replaying := true
      replay := s.thr.replay.head?.toList.map (fun e => { e with stop := BitVec.ofNat 16 n, gone := t.thr.goneStep }) ++ s.thr.replay.tail
      arch := { t.thr.arch with ucr := { t.ucr with vstart := BitVec.ofNat 16 n } } } } s.free := by
  rw [State.stoppedAt, if_pos (by rw [noTrap, noWait]; rfl)]
  cases replay : s.thr.replay <;> rfl

theorem stoppedAt_held {s t : State} (held : t.thr.ptrap ≠ none ∨ t.thr.waiting = true) (n : Nat) :
    t.stoppedAt s n = { t with thr := { t.thr with stopAt := none } } := by
  rw [State.stoppedAt, if_neg]
  · rfl
  · rw [Bool.and_eq_true, Option.isNone_iff_eq_none, Bool.not_eq_true']
    rintro ⟨noTrap, noWait⟩
    rcases held with trap | wait
    · exact trap noTrap
    · rw [noWait] at wait; cases wait

/-! ## Where a posted instruction stops (R292) -/

/-- A stop lies between VSTART and the end of what the instruction goes through. -/
theorem stopElement_bounds {s : State} {i : Instr} {n : Nat} (stops : s.stopElement i = some n) :
    ∃ m, s.stopBound i = some m ∧ s.ucr.vstart.toNat < n ∧ n < m := by
  obtain ⟨m, bound, within⟩ := Option.bind_eq_some_iff.mp stops
  split at within <;> cases within
  exact ⟨m, bound, ‹_›⟩

theorem stopBound_mopk (s : State) (ac : Bool) (va : VReg) (tid : BitVec 10) (km : BitVec 3) :
    s.stopBound (.mopk ac va tid km) = some s.ucr.vrows.toNat := rfl

theorem stopBound_other {s : State} {i : Instr} (other : ∀ ac va tid km, i ≠ .mopk ac va tid km) :
    s.stopBound i = if isResumable i then some s.ucr.elems else none := by
  unfold State.stopBound
  split
  · exact absurd rfl (other _ _ _ _)
  · rfl

/-- The elements before the stop are those that the instruction would perform. -/
theorem mem_active_stopped {s : State} (whole : s.thr.stopAt = none) (n : Nat) (k : KReg) (e : Nat) :
    e ∈ ({ s with thr := { s.thr with stopAt := some n } } : State).active k ↔ e ∈ s.active k ∧ e < n := by
  have all : s.active k = s.activeFrom k s.ucr.vstart.toNat := by rw [State.active, whole]
  rw [all, ← decide_eq_true_iff (p := e < n)]
  exact List.mem_filter

/-! ## What a stopped instruction has stored (R280) -/

theorem performed_rest (e : Late) (core sc : Nat) : e.performed core sc = { e with perf := (e.performed core sc).perf } := by
  unfold Late.performed
  split <;> rfl

theorem mem_perf_performed (e : Late) (core sc : Nat) : (core, sc + 1) ∈ (e.performed core sc).perf := by
  unfold Late.performed
  split
  · exact List.contains_iff_mem.mp ‹_›
  · exact List.mem_cons_self

/-- A late store after those of the strand's vector instructions from number `n` on have been performed. -/
theorem performSince_late (s : State) (n : Nat) : (s.performSince n).late = s.late.map fun e =>
    if s.owner e && decide (n ≤ e.way.inst) && e.way.path.base == .vector then e.performed e.core 4 else e := rfl

theorem performSince_performs {s : State} {n : Nat} {l : Late} (late : l ∈ (s.performSince n).late) (own : l.uid = s.thr.uid)
    (path : l.way.path = .vector ∨ l.way.path = .vectorLoose) (since : n ≤ l.way.inst) : (l.core, 5) ∈ l.perf := by
  rw [performSince_late] at late
  obtain ⟨e, -, rfl⟩ := List.mem_map.mp late
  split
  · rw [performed_rest]
    exact mem_perf_performed e e.core 4
  · rename_i left
    rw [if_neg left] at own path since
    refine absurd ?_ left
    rcases path with path | path <;> simp [State.owner, own, path, since, Path.base]

theorem performSince_keeps {s : State} {n i : Nat} {l : Late} (late : s.late[i]? = some l) (other : l.uid ≠ s.thr.uid ∨ l.way.inst < n) :
    (s.performSince n).late[i]? = some l := by
  rw [performSince_late, List.getElem?_map, late, Option.map_some, if_neg]
  rcases other with stranger | before
  · simp [State.owner, stranger]
  · simp [Nat.not_le.mpr before]

/-! ## An instruction left unretired (R11, R12) -/

theorem payEnergy_done_rest {s u : State} {a : Unit} (pays : payEnergy s = .done a u) :
    u = { s with energies := u.energies, thr := { s.thr with debited := u.thr.debited } } := by
  unfold payEnergy at pays
  dsimp only at pays
  split at pays
  · cases pays; rfl
  · split at pays <;> cases pays
    rfl

/-- The strand after it has posted an instruction. -/
def postedBehind (t : Thread) (e : Replay) : Thread :=
  { t with
    replay := t.replay ++ [e], replaying := true, rptResume := none, waiting := false, debited := false
    arch := { t.arch with trip := Fallen t.arch.trip } }

theorem postNext_some {s t : State} {stops : Bool} (posts : s.postNext stops = some t) :
    ∃ i u v, fetchInstr s.trip.pc s = .done i u ∧ payEnergy u = .done () v ∧ isPosted i = true ∧ (isLeased i = true → stops = true) ∧
      s.thr.replay.length < 64 ∧ t = { v with thr := postedBehind v.thr (s.captured i s.trip.pc) } := by
  unfold State.postNext at posts
  split at posts
  · rename_i may
    split at posts
    · rename_i i u fetched
      split at posts
      · rename_i kind
        split at posts <;> cases posts
        rename_i v paid
        simp only [Bool.and_eq_true, decide_eq_true_iff] at may kind
        refine ⟨i, u, v, fetched, paid, kind.1, fun leased => ?_, may.2, ?_⟩
        · simpa [leased] using kind.2
        · simp only [postedBehind, State.mapThr, fall_eq]
      · cases posts
    · cases posts
  · cases posts

/-- A fetched and paid instruction leaves the strand's registers and memory as they stood. -/
theorem paid_rest {s u v : State} {va : Word} {i : Instr} {a : Unit} (fetched : fetchInstr va s = .done i u) (paid : payEnergy u = .done a v) :
    v.thr = { s.thr with debited := v.thr.debited } ∧ v.mem = s.mem ∧ v.tags = s.tags := by
  have fetch := fetchInstr_fetched fetched
  unfold Fetched at fetch
  rw [payEnergy_done_rest paid, fetch]
  exact ⟨rfl, rfl, rfl⟩

/-! ## An instruction that runs past the posted ones (R11) -/

/-- A strand whose instruction has run to its end has no new trap and waits for nothing. -/
theorem ranFrom_keeps {t h : Thread} (ran : t.ranFrom h = true) : t.ptrap = h.ptrap ∧ t.waiting = h.waiting := by
  have same := of_decide_eq_true ran
  have ptrap := congrArg Thread.ptrap same
  have waiting := congrArg Thread.waiting same
  exact ⟨ptrap, waiting⟩

theorem passing_some {s t : State} (passes : s.passing = some t) :
    let h : State := { s with thr := { s.thr with replay := [], replaying := false, waiting := false } }
    ∃ i u v, fetchInstr s.trip.pc h = .done i u ∧ passesPosts i s.thr.replay = true ∧ u.runWord i = .next v ∧ v.thr.ranFrom h.thr = true ∧
      t = v.behindPosts s := by
  unfold State.passing at passes
  dsimp only at passes
  split at passes
  · split at passes
    · rename_i i u fetched
      split at passes
      · split at passes
        · split at passes <;> cases passes
          exact ⟨i, u, _, fetched, ‹_›, ‹_›, ‹_›, rfl⟩
        · cases passes
      · cases passes
    · cases passes
  · cases passes

theorem behindPosts_rest (t s : State) : t.behindPosts s =
    { t with thr := { t.thr with replay := s.thr.replay, replaying := true, unres := (t.behindPosts s).thr.unres } } := rfl

/-- The `ubrk`s older than the posts stand as the instruction left them. -/
theorem behindPosts_older (t s : State) :
    (t.behindPosts s).thr.unres.take s.thr.unres.length = t.thr.unres.take s.thr.unres.length := by
  show (t.thr.unres.take s.thr.unres.length ++ _).take s.thr.unres.length = _
  rw [List.take_append, List.take_take, Nat.min_self, List.length_take]
  by_cases long : s.thr.unres.length ≤ t.thr.unres.length
  · rw [Nat.min_eq_left long, Nat.sub_self, List.take_zero, List.append_nil]
  · rw [List.drop_eq_nil_of_le (Nat.le_of_not_le long), List.map_nil, List.take_nil, List.append_nil]

/-- A `ubrk` that the instruction has issued stands behind every post. -/
theorem behindPosts_younger {t s : State} {x : Unresolved} (younger : x ∈ (t.behindPosts s).thr.unres.drop s.thr.unres.length) :
    x.older = s.thr.replay.length := by
  have issued : x ∈ (t.thr.unres.drop s.thr.unres.length).map fun u : Unresolved => { u with older := s.thr.replay.length } := by
    have behind : x ∈ (t.thr.unres.take s.thr.unres.length ++
      (t.thr.unres.drop s.thr.unres.length).map fun u : Unresolved => { u with older := s.thr.replay.length }).drop s.thr.unres.length := younger
    rw [List.drop_append, List.drop_eq_nil_of_le (List.length_take_le _ _), List.nil_append] at behind
    exact List.mem_of_mem_drop behind
  obtain ⟨u, -, rfl⟩ := List.mem_map.mp issued
  rfl

end Sys2Proof.Laws

/-!
PROOF. What a strand does at its boundary, in order (17 section 17.3, R295), and the events that act on a strand from outside (R254, R296, R305,
R330).
-/

namespace Sys2Proof.Laws

open Sys2Proof.Machine Sys2Proof.Safety

/-! ## An event taken (R292, R295) -/

/-- With no posted instruction that stops at an element, an event is taken at once. -/
theorem takeEvent_at_once {s : State} {event : Instr} (posted : s.postedMore = s)
    (whole : ∀ e, s.thr.replay.head? = some e → s.thr.replaying = true → s.stopElement e.instr = none) :
    s.takeEvent event = exec event s := by
  unfold State.takeEvent
  dsimp only
  rw [posted]
  split
  · rename_i e es replaying replay
    rw [whole e (by rw [replay]; rfl) replaying]
  · rfl

/-- The oldest posted instruction stops at an element first; where it traps there, its trap comes before the event. -/
theorem takeEvent_stops {s t : State} {event : Instr} {e : Replay} {n : Nat} (posted : s.postedMore = s)
    (oldest : s.thr.replay.head? = some e) (replaying : s.thr.replaying = true) (stops : s.stopElement e.instr = some n)
    (runs : s.reissue e.instr (some n) = .next t) : s.takeEvent event = if t.thr.ptrap.isSome then .next t else exec event t := by
  obtain ⟨es, replay⟩ := List.head?_eq_some_iff.mp oldest
  unfold State.takeEvent
  dsimp only
  rw [posted, replaying, replay]
  dsimp only
  rw [stops]
  dsimp only
  rw [runs]

/-! ## The order of R295 -/

/-- The word at PC is annulled, outside every group. -/
def AnnulledNext (s : State) : Prop := s.trip.a0 = true ∧ s.thr.rpt = none

/-- ERRUNC or WATCHDOG pends. -/
def EventPends (s : State) : Prop := s.thr.errunc ≠ none ∨ s.thr.wdPend = true

/-- A preemption is requested and can be served. -/
def PreemptPends (s : State) : Prop := s.thr.preempt = true ∧ s.parkedRoom = true

/-- Every posted instruction older than the oldest unresolved `ubrk` has retired. -/
def UbrkReady (t : Thread) : Prop := ∀ u, t.unres.head? = some u → u.older = 0

theorem annulledNext_iff (s : State) : (s.thr.arch.trip.a0 && s.thr.rpt.isNone) = true ↔ AnnulledNext s := by
  rw [Bool.and_eq_true, Option.isNone_iff_eq_none]
  rfl

theorem eventPends_iff (s : State) : (s.thr.errunc.isSome || s.thr.wdPend) = true ↔ EventPends s := by
  rw [Bool.or_eq_true, Option.isSome_iff_ne_none]
  rfl

theorem preemptPends_iff (s : State) : (s.thr.preempt && s.parkedRoom) = true ↔ PreemptPends s := Bool.and_eq_true_iff

theorem ubrkReady_iff (t : Thread) : t.ubrkReady = true ↔ UbrkReady t := by
  simp [Thread.ubrkReady, UbrkReady, Option.all_eq_true]

section
variable {s : State}

theorem strandStep_annulled (annulled : AnnulledNext s) : s.strandStep = exec .annulledStep s := if_pos ((annulledNext_iff s).mpr annulled)

variable (runs : ¬AnnulledNext s)
include runs

theorem strandStep_postedTrap (trap : s.thr.ptrap ≠ none) : s.strandStep = exec .postedTrapDelivery s := by
  unfold State.strandStep
  dsimp only
  rw [if_neg (runs ∘ (annulledNext_iff s).mp), if_pos (Option.isSome_iff_ne_none.mpr trap)]

variable (noTrap : s.thr.ptrap = none)
include noTrap

theorem strandStep_event (pends : EventPends s) : s.strandStep = s.takeEvent .asyncEventTake := by
  unfold State.strandStep
  dsimp only
  rw [if_neg (runs ∘ (annulledNext_iff s).mp), if_neg (by rw [noTrap]; decide), if_pos ((eventPends_iff s).mpr pends)]

variable (noEvent : ¬EventPends s)
include noEvent

theorem strandStep_preempt (preempted : PreemptPends s) : s.strandStep = s.takeEvent .preempt := by
  unfold State.strandStep
  dsimp only
  rw [if_neg (runs ∘ (annulledNext_iff s).mp), if_neg (by rw [noTrap]; decide), if_neg (noEvent ∘ (eventPends_iff s).mp),
    if_pos ((preemptPends_iff s).mpr preempted)]

variable (noPreempt : ¬PreemptPends s)
include noPreempt

/-- With no event at the boundary, an oldest `ubrk` that waits for no posted instruction resolves where it must or may; without
one the strand issues. -/
theorem strandStep_ready (ready : UbrkReady s.thr) : s.strandStep =
    if s.thr.mustResolve then exec .ubrkResolve s
    else if s.thr.unres = [] then s.issue
    else if Config.resolves s.free then exec .ubrkResolve s.tick
    else s.tick.issue := by
  unfold State.strandStep
  dsimp only
  rw [if_neg (runs ∘ (annulledNext_iff s).mp), if_neg (by rw [noTrap]; decide), if_neg (noEvent ∘ (eventPends_iff s).mp),
    if_neg (noPreempt ∘ (preemptPends_iff s).mp), if_neg (by rw [(ubrkReady_iff _).mpr ready]; decide)]

theorem strandStep_resolves (ready : UbrkReady s.thr) (must : s.thr.mustResolve = true) : s.strandStep = exec .ubrkResolve s := by
  rw [strandStep_ready runs noTrap noEvent noPreempt ready, if_pos must]

theorem strandStep_issue (resolved : s.thr.unres = []) : s.strandStep = s.issue := by
  rw [strandStep_ready runs noTrap noEvent noPreempt ((ubrkReady_iff _).mp (ubrkReady_resolved resolved)),
    if_neg (by rw [mustResolve_resolved resolved]; decide), if_pos resolved]

/-- A `ubrk` that must resolve lets the posted instructions before it go on. -/
theorem strandStep_reissues {e : Replay} {es : List Replay} (waits : ¬UbrkReady s.thr) (must : s.thr.mustResolve = true)
    (replaying : s.thr.replaying = true) (replay : s.thr.replay = e :: es) : s.strandStep = s.reissue e.instr none := by
  unfold State.strandStep
  dsimp only
  rw [if_neg (runs ∘ (annulledNext_iff s).mp), if_neg (by rw [noTrap]; decide), if_neg (noEvent ∘ (eventPends_iff s).mp),
    if_neg (noPreempt ∘ (preemptPends_iff s).mp), if_pos (by rw [eq_false_of_ne_true (waits ∘ (ubrkReady_iff _).mp)]; rfl),
    replaying, must, replay, Bool.and_self]

end

/-! ## Events from outside the strand (R254, R296, R305, R330) -/

theorem getThr_setThr (s : State) (k j : Nat) (t : Thread) : (s.setThr k t).getThr j = if j = k then t else s.getThr j := by
  unfold State.setThr State.getThr
  by_cases own : k = s.cur
  · subst own
    rw [if_pos rfl]
    dsimp only
    split <;> rfl
  · rw [if_neg own]
    dsimp only
    rw [get_put]
    by_cases same : j = k
    · subst same
      rw [if_neg own, if_pos rfl, if_pos rfl]
    · rw [if_neg same, if_neg same]

theorem setThr_memory (s : State) (k : Nat) (t : Thread) (a : Nat) : (s.setThr k t).byte a = s.byte a ∧ (s.setThr k t).tag a = s.tag a := by
  obtain ⟨thr, others, same⟩ := setThr_rest s k t
  rw [same]
  exact ⟨rfl, rfl⟩

/-- A strand of which preemption is requested. -/
def preemptAsked (t : Thread) : Thread := { t with preempt := true }

/-- Preemption requested of the strands in some slots. -/
def preemptAll (ks : List Nat) (s : State) : State := ks.foldl (fun s j => s.setThr j (preemptAsked (s.getThr j))) s

theorem preemptAll_memory (ks : List Nat) (s : State) (a : Nat) : (preemptAll ks s).byte a = s.byte a ∧ (preemptAll ks s).tag a = s.tag a := by
  induction ks generalizing s with
  | nil => exact ⟨rfl, rfl⟩
  | cons k ks ih =>
    obtain ⟨byte, tag⟩ := ih (s.setThr k (preemptAsked (s.getThr k)))
    obtain ⟨byte', tag'⟩ := setThr_memory s k (preemptAsked (s.getThr k)) a
    exact ⟨byte.trans byte', tag.trans tag'⟩

theorem getThr_preemptAll (ks : List Nat) (s : State) (j : Nat) :
    (preemptAll ks s).getThr j = if j ∈ ks then preemptAsked (s.getThr j) else s.getThr j := by
  induction ks generalizing s with
  | nil => rfl
  | cons k ks ih =>
    refine (ih (s.setThr k (preemptAsked (s.getThr k)))).trans ?_
    rw [getThr_setThr]
    by_cases head : j = k
    · subst head
      rw [if_pos rfl, if_pos List.mem_cons_self]
      split <;> rfl
    · simp only [List.mem_cons, head, false_or, if_false]

theorem watchdogExpire_pends {s : State} {key : Nat} (bound : (s.getThr key).bound = true) :
    exec (.watchdogExpire key) s = .next (s.setThr key { s.getThr key with wdPend := true }) := congrArg _ (if_pos bound)

theorem debugHalt_halts {s : State} {key : Nat} (bound : (s.getThr key).bound = true) :
    exec (.debugHalt key) s = .next (s.setThr key { s.getThr key with dbgHalt := true }) := congrArg _ (if_pos bound)

theorem csleepExpire_wakes {s : State} {key : Nat} {x : Word} (sleeps : (s.getThr key).sleep = some x)
    (reached : x.toNat ≤ (s.counter (s.clusterOf (coreOf key))).toNat) :
    exec (.csleepExpire key) s = .next (s.setThr key { s.getThr key with waiting := false, sleep := none }) := by
  show execCsleepExpire key s = _
  unfold execCsleepExpire
  dsimp only
  rw [sleeps]
  exact congrArg _ (if_pos reached)

theorem quantumExpire_waits {s : State} {key : Nat} (early : s.turnDue key = false) : exec (.quantumExpire key) s = .next s :=
  congrArg _ (if_neg (by rw [early]; decide))

theorem quantumExpire_preempts {s : State} {key : Nat} (due : s.turnDue key = true) :
    exec (.quantumExpire key) s = .next (preemptAll (s.familyOf key) s) := congrArg _ (if_pos due)

end Sys2Proof.Laws

/-!
PROOF. What the events at a strand's boundary do, taken together (17 sections 17.3 and 17.4).
-/

namespace Sys2Proof.Laws

open Sys2Proof.Machine Sys2Proof.Safety

/-- A strand contained with an unresolved `ubrk`: its registers, its replay and its storage as the oldest one's checkpoint and the posted
instructions before it have them. -/
theorem contained_unresolved {s : State} {u : Unresolved} {us : List Unresolved} (unres : s.thr.unres = u :: us) :
    let t := s.thr
    let c := s.contained
    c.thr.arch = (if u.older = 0 then u.arch else { u.arch with mask := t.arch.mask, ucr := t.arch.ucr }) ∧
    c.thr.replay = (if t.replaying = true then t.replay.take u.older else t.replay) ∧
    c.thr.unres = [] ∧ c.thr.held = [] ∧ c.thr.rpt = none ∧ c.thr.loop = t.loop.map (fun l => { l with next := u.strip }) ∧
    (u.older ≠ 0 → ∀ a, c.byte a = s.byte a ∧ c.tag a = s.tag a) ∧
    (u.older = 0 → Canonical s → Memory.wf u.cells = true → Sparse.wf 0#16 u.tags = true → ∀ a,
      c.byte a = if s.ownVector a = true then Sparse.get memDefault u.cells a else s.byte a) := by
  intro t c
  have thr := contained_thr unres
  refine ⟨congrArg Thread.arch thr, congrArg Thread.replay thr, congrArg Thread.unres thr, congrArg Thread.held thr, congrArg Thread.rpt thr,
    congrArg Thread.loop thr, contained_memory unres, fun older _ cells _ => contained_byte unres older cells⟩

/-- A strand that is preempted while it waits on an address. -/
theorem preempted_wait {s : State} {rd : SReg} {x : BitVec 3} (wait : Abandons s.thr.wa rd x) (noReplay : s.thr.replaying = false)
    (noGroup : s.thr.rpt = none) (resolved : s.thr.unres = []) :
    ∃ w, Leaves .preempt s w ∧ w.thr.stopping = true ∧ w.reg rd = (if rd = 0#5 then 0#64 else x.setWidth 64) ∧
      (∀ r, r ≠ rd → w.reg r = s.reg r) ∧ w.thr.wa = .none ∧
      (let f := Fallen s.trip
       w.trip = if f.a0 = true then (if f.a1 = true then Fallen (Fallen f) else Fallen f) else f) ∧
      w.monitors = s.monitors.filter fun m => m.key ≠ s.cur := by
  have value : ∀ r, (waitEnded s rd x).reg r = if r = rd ∧ rd ≠ 0#5 then x.setWidth 64 else s.reg r := fun r => reg_setReg _ rd r _
  obtain ⟨a, -, thr⟩ := waitEnded_thr s rd x
  refine ⟨_, preempt_abandons wait noReplay noGroup resolved, rfl, (value rd).trans ?_, fun r other => (value r).trans ?_, ?_,
    passed_eq (Fallen s.trip), ?_⟩
  · by_cases zero : rd = 0#5
    · rw [if_neg (fun h => h.2 zero), if_pos zero, zero]; rfl
    · rw [if_pos ⟨rfl, zero⟩, if_neg zero]
  · exact if_neg fun h => other h.1
  · show (waitEnded s rd x).thr.wa = .none
    rw [thr]
  · show (waitEnded s rd x).monitors = _
    unfold waitEnded
    rw [setReg_rest]

/-- What a posted instruction that stops at an element goes through, and what is left of it. -/
theorem reissue_stopsAt {s : State} {i : Instr} {n : Nat} (whole : s.thr.stopAt = none) (resolved : s.thr.unres = [])
    (stops : s.stopElement i = some n) :
    let u : State := { s with thr := { s.thr with stopAt := some n } }
    s.ucr.vstart.toNat < n ∧ (∀ ac va tid km, i = .mopk ac va tid km → n < s.ucr.vrows.toNat) ∧
    ((∀ ac va tid km, i ≠ .mopk ac va tid km) → isResumable i = true ∧ n < s.ucr.elems) ∧
    (∀ k e, e ∈ u.active k ↔ e ∈ s.active k ∧ e < n) ∧
    ∀ t, exec i u = .next t →
      (t.thr.ptrap = none → t.thr.waiting = false →
        let w : State := { t with thr := { t.thr with
          stopAt := none, goneStep := false, replaying := true
          replay := s.thr.replay.head?.toList.map (fun e => { e with stop := BitVec.ofNat 16 n, gone := t.thr.goneStep }) ++ s.thr.replay.tail
          arch := { t.thr.arch with ucr := { t.ucr with vstart := BitVec.ofNat 16 n } } } }
        s.reissue i (some n) = .next (w.performSince s.free)) ∧
      (t.thr.ptrap ≠ none ∨ t.thr.waiting = true → s.reissue i (some n) = .next { t with thr := { t.thr with stopAt := none } }) := by
  intro u
  obtain ⟨m, bound, start, below⟩ := stopElement_bounds stops
  refine ⟨start, ?_, fun other => ?_, mem_active_stopped whole n, fun t runs => ⟨fun noTrap noWait => ?_, fun held => ?_⟩⟩
  · rintro ac va tid km rfl
    cases (stopBound_mopk ..).symm.trans bound
    exact below
  · have upTo := (stopBound_other other).symm.trans bound
    split at upTo <;> cases upTo
    exact ⟨‹_›, below⟩
  · rw [reissue_stops resolved runs, stoppedAt_ran noTrap noWait]
  · rw [reissue_stops resolved runs, stoppedAt_held held]

/-- The control thread goes on past an instruction that it has posted. -/
theorem postNext_goesOn {s t : State} {stops : Bool} (posts : s.postNext stops = some t) :
    ∃ i u v, fetchInstr s.trip.pc s = .done i u ∧ payEnergy u = .done () v ∧ isPosted i = true ∧
      (isLeased i = true → stops = true) ∧ s.thr.replay.length < 64 ∧
      t.thr.replay = s.thr.replay ++ [s.captured i s.trip.pc] ∧ t.thr.replaying = true ∧ t.trip = Fallen s.trip ∧
      (∀ a, t.byte a = s.byte a ∧ t.tag a = s.tag a) ∧ t.ucr = s.ucr := by
  obtain ⟨i, u, v, fetched, paid, kind, lease, room, rfl⟩ := postNext_some posts
  obtain ⟨thr, mem, tags⟩ := paid_rest fetched paid
  refine ⟨i, u, v, fetched, paid, kind, lease, room, ?_, rfl, ?_, fun a => ⟨?_, ?_⟩, ?_⟩
  · show v.thr.replay ++ _ = _
    rw [thr]
  · show Fallen v.thr.arch.trip = _
    rw [thr]; rfl
  · exact congrArg (Sparse.get memDefault · a) mem
  · exact congrArg (Sparse.get 0#16 · (a / 64)) tags
  · show v.thr.arch.ucr = _
    rw [thr]; rfl

/-- An instruction that has run past the posted ones. -/
theorem passing_goesOn {s t : State} (passes : s.passing = some t) : ∃ i u v,
    fetchInstr s.trip.pc { s with thr := { s.thr with replay := [], replaying := false, waiting := false } } = .done i u ∧
      passesPosts i s.thr.replay = true ∧ u.runWord i = .next v ∧
      t = { v with thr := { v.thr with replay := s.thr.replay, replaying := true, unres := t.thr.unres } } ∧
      t.thr.ptrap = s.thr.ptrap ∧ t.thr.waiting = false ∧ t.thr.unres.take s.thr.unres.length = v.thr.unres.take s.thr.unres.length ∧
      ∀ x ∈ t.thr.unres.drop s.thr.unres.length, x.older = s.thr.replay.length := by
  obtain ⟨i, u, v, fetched, may, runs, ran, rfl⟩ := passing_some passes
  obtain ⟨noTrap, noWait⟩ := ranFrom_keeps ran
  exact ⟨i, u, v, fetched, may, runs, behindPosts_rest v s, noTrap, noWait, behindPosts_older v s, fun x => behindPosts_younger⟩

/-- The events that act on the strand of a slot. -/
theorem slotEvents_act (s : State) (key : Nat) :
    let t := s.getThr key
    (t.bound = true → Leaves (.watchdogExpire key) s (s.setThr key { t with wdPend := true })) ∧
    (∀ x, t.sleep = some x → x.toNat ≤ (s.counters.toList.getD (s.clusterOf (coreOf key)) 0#64).toNat →
      Leaves (.csleepExpire key) s (s.setThr key { t with waiting := false, sleep := none })) ∧
    (t.bound = true → Leaves (.debugHalt key) s (s.setThr key { t with dbgHalt := true })) ∧
    Leaves (.debugResume key) s (s.setThr key { t with dbgHalt := false }) ∧
    (s.turnDue key = false → Leaves (.quantumExpire key) s s) ∧
    (s.turnDue key = true → ∃ w, Leaves (.quantumExpire key) s w ∧ (∀ a, w.byte a = s.byte a ∧ w.tag a = s.tag a) ∧
      OtherSlots s w (s.familyOf key) ∧ ∀ k ∈ s.familyOf key, w.getThr k = { s.getThr k with preempt := true }) :=
  ⟨watchdogExpire_pends, fun _ => csleepExpire_wakes, debugHalt_halts, rfl, quantumExpire_waits, fun due =>
    ⟨_, quantumExpire_preempts due, preemptAll_memory _ s, fun k other => (getThr_preemptAll _ s k).trans (if_neg other),
      fun k member => (getThr_preemptAll _ s k).trans (if_pos member)⟩⟩

/-- Settles O51: what each event does where the strand stands, then late retirement and replay, then the order of R295, then the events of a
slot. -/
theorem boundaryEventsActOnTheStrand : Obligations.BoundaryEventsActOnTheStrand := by
  unfold Obligations.BoundaryEventsActOnTheStrand
  refine ⟨fun s => ?events, fun s i whole resolved => ⟨fun t => reissue_whole whole resolved, fun n => reissue_stopsAt whole resolved⟩,
    fun s n => ⟨List.length_map _, fun l => performSince_performs, fun i l => performSince_keeps⟩, fun s t stops => postNext_goesOn,
    fun s t => passing_goesOn, fun s event posted => ⟨takeEvent_at_once posted, fun e n t oldest replaying stops runs => ?taken⟩,
    fun s => ?order, slotEvents_act⟩
  case events =>
    refine ⟨annulledStep_steps s, fun p pends => ⟨postedTrap_delivered pends, contained_resolved⟩, fun u us => contained_unresolved,
      fun d va ⟨noWait, resolved⟩ => errunc_taken noWait resolved, fun ⟨noWait, resolved⟩ => watchdog_taken noWait resolved,
      fun ⟨noWait, resolved⟩ noGroup => ?_, fun g ⟨noWait, resolved⟩ group => ?_, fun u us noWait unres => ?_, fun rd x => preempted_wait⟩
    · rw [Leaves, preempt_still noWait resolved, stood_outside noGroup]
    · rw [Leaves, preempt_still noWait resolved, stood_group group]
    · have thr := contained_thr unres
      exact ⟨_, preempt_contained noWait unres, rfl, rfl, rfl, rfl, congrArg Thread.unres thr, congrArg Thread.held thr,
        congrArg Thread.rpt thr, congrArg Thread.loop thr⟩
  case taken =>
    rw [takeEvent_stops posted oldest replaying stops runs]
    exact ⟨fun noTrap => if_neg (by rw [noTrap]; decide), fun trap => if_pos (Option.isSome_iff_ne_none.mpr trap)⟩
  case order =>
    exact ⟨strandStep_annulled, strandStep_postedTrap, strandStep_event, strandStep_preempt, fun runs noTrap noEvent noPreempt =>
      ⟨strandStep_resolves runs noTrap noEvent noPreempt, strandStep_issue runs noTrap noEvent noPreempt,
        fun e es => strandStep_reissues runs noTrap noEvent noPreempt⟩⟩

end Sys2Proof.Laws
